-- ==== Sys2Proof/Word.lean ====
section
/-! DEFINITION. The word types of the block: bytes, the fixed-width unsigned integers and byte sequences
(00_scope.md R10, R11, R12). Every integer of the spec is unsigned unless marked signed. -/

namespace Sys2Proof

/-- `u8`, and the unit every buffer, the channel and the wire format are made of (R10, R11). -/
abbrev Byte := BitVec 8

/-- `u16` (R11). -/
abbrev U16 := BitVec 16

/-- `u32` (R11): LEN operands, MTIME, the CRC register. -/
abbrev U32 := BitVec 32

/-- `u64` (R11): command words, `CRC_COUNT`, `ENG_TOTAL_OUT`. -/
abbrev U64 := BitVec 64

/-- `bytes`, a finite list of `u8` (R12). -/
abbrev Bytes := List Byte

end Sys2Proof
end

