-- ==== Sys2Proof/Syntax.lean ====
section
/-! DEFINITION. The command set as syntax: one constructor for each row of spec/opcode_table.json
(30_encoding.md R142). Operands stand as the command word carries them. -/

namespace Sys2Proof

/-- A command (R142). LEN operands are u32; SEL operands are the byte `word[15:8]` (R140, R141). -/
inductive Instr where
  /-- WRITE, OPC 0x01: `len` payload bytes follow on the data port (41_write.md R200). -/
  | write (len : U32)
  /-- READ, OPC 0x02: the caller supplies a buffer of `len` bytes (42_read.md R220). -/
  | read (len : U32)
  /-- FLUSH, OPC 0x03 (43_control.md R240). -/
  | flush
  /-- CLOSE, OPC 0x04 (43_control.md R244). -/
  | close
  /-- SEEK, OPC 0x05: LEN is the offset, SEL the origin 0 begin, 1 current, 2 end (43_control.md R260). -/
  | seek (offset : U32) (origin : Byte)
  /-- GETPOS, OPC 0x06 (43_control.md R261). -/
  | getpos
  /-- SETPOS, OPC 0x07: LEN is the value (43_control.md R262). -/
  | setpos (value : U32)
  /-- SETLEN, OPC 0x08: LEN is the value (43_control.md R263). -/
  | setlen (value : U32)
  /-- GETLEN, OPC 0x09 (43_control.md R264). -/
  | getlen
  /-- RDSTAT, OPC 0x0A: SEL is the register selector of 10_state.md R33 (43_control.md R270). -/
  | rdstat (sel : Byte)
  deriving DecidableEq, Repr

/-- The names by which an error's info value tells which command it answers (60_exceptions.md R282). -/
inductive Mnemonic where
  | write | read | flush | close | seek | getpos | setpos | setlen | getlen | rdstat
  deriving DecidableEq, Repr

end Sys2Proof
end

