-- ==== Sys2Proof/WellFormed.lean ====
section
/-! DEFINITION. Which terms of `Instr` some command word spells: the two operands that R142 limits. -/

namespace Sys2Proof

/-- The greatest SEEK origin (30_encoding.md R141, R151: 0 = begin, 1 = current, 2 = end). -/
def maxOrigin : Nat := 2

/-- The first reserved RDSTAT selector (10_state.md R33, 30_encoding.md R152). -/
def firstReservedSelector : Nat := 0x16

/-- A SEEK has an origin 0..2 and an RDSTAT a selector 0x00..0x15; no other operand is limited (R142). -/
def Instr.wf : Instr → Bool
  | .write _ => true
  | .read _ => true
  | .flush => true
  | .close => true
  | .seek _ origin => decide (origin.toNat ≤ maxOrigin)
  | .getpos => true
  | .setpos _ => true
  | .setlen _ => true
  | .getlen => true
  | .rdstat sel => decide (sel.toNat < firstReservedSelector)

end Sys2Proof
end

