-- ==== Sys2Proof/Decode.lean ====
section
/-! DEFINITION. The command word (30_encoding.md Part B): its fields, the decoder, total on every 64-bit word and
rejecting by name, and the encoder. A rejected word is no stop of the machine: Machine/Ops.lean answers it with
UsageError(ILLEGAL_COMMAND, word) (R150 to R153). -/

namespace Sys2Proof

/-- Why a word spells no command. The response is the same for all of them (R150, R151, R152). -/
inductive DecodeError where
  /-- OPC 0x00 or 0x0B..0xFF (R150). -/
  | opcode
  /-- RSV is not 0 (R151). -/
  | reserved
  /-- SEL is not 0 where R142 requires 0 (R151). -/
  | selector
  /-- LEN is not 0 where R142 requires 0 (R151). -/
  | length
  /-- SEEK with SEL > 2 (R151). -/
  | origin
  /-- RDSTAT with a selector 0x16..0xFF (R152). -/
  | register
  deriving DecidableEq, Repr

/-- `OPC`, bits [7:0] (R140). -/
def opcOf (w : U64) : Byte := w.extractLsb' 0 8

/-- `SEL`, bits [15:8] (R140). -/
def selOf (w : U64) : Byte := w.extractLsb' 8 8

/-- `RSV`, bits [31:16] (R140). -/
def rsvOf (w : U64) : U16 := w.extractLsb' 16 16

/-- `LEN`, bits [63:32] (R140). -/
def lenOf (w : U64) : U32 := w.extractLsb' 32 32

/-- `i`, where R142 gives the opcode SEL = 0. -/
def needSelZero (w : U64) (i : Instr) : Except DecodeError Instr :=
  if selOf w = 0 then .ok i else .error .selector

/-- `i`, where R142 gives the opcode SEL = 0 and LEN = 0. -/
def needBothZero (w : U64) (i : Instr) : Except DecodeError Instr :=
  if lenOf w = 0 then needSelZero w i else .error .length

/-- The command a word whose RSV is 0 spells (R142). -/
def decodeOpcode (w : U64) : Except DecodeError Instr :=
  match (opcOf w).toNat with
  | 0x01 => needSelZero w (.write (lenOf w))
  | 0x02 => needSelZero w (.read (lenOf w))
  | 0x03 => needBothZero w .flush
  | 0x04 => needBothZero w .close
  | 0x05 => if (selOf w).toNat ≤ maxOrigin then .ok (.seek (lenOf w) (selOf w)) else .error .origin
  | 0x06 => needBothZero w .getpos
  | 0x07 => needSelZero w (.setpos (lenOf w))
  | 0x08 => needSelZero w (.setlen (lenOf w))
  | 0x09 => needBothZero w .getlen
  | 0x0A =>
    if lenOf w = 0 then
      if (selOf w).toNat < firstReservedSelector then .ok (.rdstat (selOf w)) else .error .register
    else .error .length
  | _ => .error .opcode

/-- The decoder (R140 to R142, R150 to R152). -/
def decode (w : U64) : Except DecodeError Instr :=
  if rsvOf w = 0 then decodeOpcode w else .error .reserved

/-- A word from its fields: LEN, RSV = 0, SEL, OPC from the top down, which is
`zext_64(LEN) << 32 | SEL << 8 | OPC` (R155). -/
def wordOf (len : U32) (sel opc : Byte) : U64 := len ++ (0 : U16) ++ sel ++ opc

/-- The word that spells a command (R142, R155). -/
def Instr.encode : Instr → U64
  | .write len => wordOf len 0 0x01
  | .read len => wordOf len 0 0x02
  | .flush => wordOf 0 0 0x03
  | .close => wordOf 0 0 0x04
  | .seek offset origin => wordOf offset origin 0x05
  | .getpos => wordOf 0 0 0x06
  | .setpos value => wordOf value 0 0x07
  | .setlen value => wordOf value 0 0x08
  | .getlen => wordOf 0 0 0x09
  | .rdstat sel => wordOf 0 sel 0x0A

/-- `dispose` expands to `close` (R156). -/
def Instr.dispose : Instr := .close

/-- `mode` expands to `rdstat STREAM_MODE`, SEL 0x00 (R156). -/
def Instr.mode : Instr := .rdstat 0x00

/-- `hdrbytes` expands to `rdstat HDR_BYTES`, SEL 0x0F (R156). -/
def Instr.hdrbytes : Instr := .rdstat 0x0F

/-- What the decoder reads from a command word given as a number, bit 0 the least significant bit. A command word is
one 64-bit value with no byte order of its own (R140), so the number is the word; bits above `nbits` are 0 and a
longer instruction does not exist. -/
def decodeTableWord (nbits w : Nat) : Option Instr :=
  if nbits ≤ 64 then
    match decode (BitVec.ofNat 64 (w % 2 ^ nbits)) with
    | .ok i => some i
    | .error _ => none
  else none

end Sys2Proof
end

