-- ==== Sys2Proof/Machine/Port.lean ====
section
/-! DEFINITION. The port transactions (10_state.md §4): what each collaborator may answer, the scripted answers still
to come, and one entry of the transaction record. Types only. -/

namespace Sys2Proof.Machine

/-- `FLAVOR` (10_state.md R32). -/
inductive Flavor where
  | zlib | deflate | gzip
  deriving DecidableEq, Repr, Inhabited

/-- `CMODE`, the direction of the engine (R32). -/
inductive CMode where
  | compress | decompress
  deriving DecidableEq, Repr, Inhabited

/-- The flush types the block issues (R64). -/
inductive FlushType where
  | none | finish
  deriving DecidableEq, Repr

/-- The engine status set (R63). `msg` is the engine's diagnostic message, held as bytes (log 11). -/
inductive EngStatus where
  | ok
  | streamEnd
  | bufError
  | fail (code : Int) (msg : Bytes)
  deriving DecidableEq, Repr, Inhabited

/-- An engine step's answer `(c, p, rc)` (R62). -/
structure StepAnswer where
  consumed : Nat
  produced : Bytes
  status   : EngStatus
  deriving DecidableEq, Repr

/-- What a primitive that may fail answers: its result, or its failure value `e` or `msg` (R56, R61). -/
inductive Answer (α : Type) where
  | ok (a : α)
  | fail (e : Bytes)
  deriving DecidableEq, Repr

/-- What `ChWrite(b)` answers; a failed one has appended the first `kept` bytes of `b` (20_memory.md R99). -/
inductive WriteAnswer where
  | ok
  | fail (e : Bytes) (kept : Nat)
  deriving DecidableEq, Repr

/-- What `ChLength()` reports (R55). -/
inductive ChLength where
  | known (n : Nat)
  | unknown
  deriving DecidableEq, Repr

/-- The primitives of 00_scope.md R15 that wait for a collaborator. -/
inductive PortName where
  | chRead | chWrite | chFlush | chClose | chLength | engInit | engStep | engEnd | poolLease | poolRelease | clock
  deriving DecidableEq, Repr

/-- A scripted reply: an answer, or a collaborator that never answers (20_memory.md R105; log 5). -/
inductive Reply (α : Type) where
  | answer (a : α)
  | silent
  deriving DecidableEq, Repr

/-- The scripted replies to come, one queue a primitive, next one first. A primitive whose queue is empty is answered
by a free value (log 1). The model's own field, not the spec's. -/
structure Ports where
  chRead      : List (Reply (Answer Bytes)) := []
  chWrite     : List (Reply WriteAnswer) := []
  chFlush     : List (Reply (Answer Unit)) := []
  chClose     : List (Reply (Answer Unit)) := []
  chLength    : List (Reply (Answer ChLength)) := []
  engInit     : List (Reply (Answer Unit)) := []
  engStep     : List (Reply StepAnswer) := []
  engEnd      : List (Reply Unit) := []
  poolLease   : List (Reply Bytes) := []
  poolRelease : List (Reply Unit) := []
  clock       : List (Reply Int) := []
  deriving DecidableEq, Repr

/-- One port transaction with its answer (70_reset_and_hazards.md R340, 00_scope.md R15). -/
inductive Txn where
  /-- `ChRead(n)` (R51). -/
  | chRead (n : Nat) (a : Answer Bytes)
  /-- `ChWrite(b)` (R52). -/
  | chWrite (b : Bytes) (a : WriteAnswer)
  /-- `ChFlush()` (R53). -/
  | chFlush (a : Answer Unit)
  /-- `ChClose()` (R54). -/
  | chClose (a : Answer Unit)
  /-- `ChLength()` (R55). -/
  | chLength (a : Answer ChLength)
  /-- `EngInit()`: `initializeDeflate(level, wantHeader)`, or `initializeInflate(wantHeader)`, which takes no level (R61). -/
  | engInit (dir : CMode) (level : Option Int) (wantHeader : Bool) (a : Answer Unit)
  /-- `EngStep(flush, in, cap)`, deflate or inflate by `dir` (R62). -/
  | engStep (flush : FlushType) (dir : CMode) (input : Bytes) (cap : Nat) (a : StepAnswer)
  /-- `EngEnd()`: `endDeflate()` or `endInflate()` by `dir` (R66). -/
  | engEnd (dir : CMode)
  /-- `PoolLease(n)`, answered by a buffer: its length is L, its bytes the initial contents (R75). -/
  | poolLease (n : Nat) (buffer : Bytes)
  /-- `PoolRelease()` (R76). -/
  | poolRelease
  /-- `Clock()` (R78). -/
  | clock (t : Int)
  deriving DecidableEq, Repr

end Sys2Proof.Machine
end

