-- ==== Sys2Proof/Config.lean ====
section
/-! DEFINITION. The platform parameters' values (00_scope.md R9) and the free values: what a collaborator answers
where the state scripts nothing. A free value has no body, so nothing can be proved of it: a claim about it holds
whatever it is. `k` is the number of the draw (`State.draws`), which makes each one fresh (log 1, log 2). -/

namespace Sys2Proof.Config

/-- `WORKBUF_SIZE_DEFAULT` (R9, decision D5). -/
def workbufSizeDefault : Nat := 16384

/-- `HDR_XFL` (R9, decision D7). -/
def hdrXfl : Byte := 0x00

/-- `HDR_OS` (R9, decision D8). -/
def hdrOs : Byte := 0xFF

/-- `FINISH_REQUIRES_STREAM_END` (R9, decision D24, left open with this default). -/
def finishRequiresStreamEnd : Bool := false

/-- The register step of a platform's own checksum CRC32FN, the `k`-th, on one byte (10_state.md R71, decision D40; log
12): no body, so a claim over every platform holds for every such checksum. -/
opaque ownCrcByte (k : Nat) (crc : U32) (b : Byte) : U32

/-- Whether the channel, or the engine's initialisation, fails (93_implementation_defined.md I3, I4). -/
opaque freeFails (k : Nat) : Bool

/-- A failure value or diagnostic message (10_state.md R56, R61). -/
opaque freeText (k : Nat) : Bytes

/-- A count: bytes consumed by an engine step, bytes a failed ChWrite appended, a channel's length (I2, I4, I5). -/
opaque freeNat (k : Nat) : Nat

/-- Bytes: read from the channel, produced by the engine, or found in a leased buffer (I2, I4, I6). -/
opaque freeBytes (k : Nat) : Bytes

/-- Whether the channel knows its length (10_state.md R55). -/
opaque freeKnown (k : Nat) : Bool

/-- The status of an engine step (I2). -/
opaque freeStatus (k : Nat) : Machine.EngStatus

/-- The clock, in seconds since the Unix epoch (I8). -/
opaque freeTime (k : Nat) : Int

end Sys2Proof.Config
end

