-- ==== Sys2Proof/Machine/State.lean ====
section
/-! DEFINITION. The state of one adapter instance as plain data: the registers of 10_state.md R32, the caller's
buffer, the ports, and the model's own fields; errors and responses (60_exceptions.md §1); construction, which is
reset (70_reset_and_hazards.md R320); and the reasons a step can stop. -/

namespace Sys2Proof.Machine

/-- `STREAM_MODE` (R32). -/
inductive StreamMode where
  | undefined | reader | writer
  deriving DecidableEq, Repr

/-- `HDR_STATE` (R32). -/
inductive HdrState where
  | none | parsed | emitted | empty
  deriving DecidableEq, Repr

/-- The lifecycle state `LIFE` (R45). -/
inductive Life where
  | undefined | reader | writer | closed
  deriving DecidableEq, Repr

/-- Where the channel ended inside an optional header field (60_exceptions.md R281). -/
inductive HdrField where
  | fextraLen | fextraData | fname | fcomment | fhcrc
  deriving DecidableEq, Repr

/-- The info value of UNSUPPORTED_DIRECTION (R282). -/
inductive CrossDirection where
  | writeDecompress | readCompress
  deriving DecidableEq, Repr

/-- The kinds of error (R280). -/
inductive ErrorKind where
  | format | usage | engine | channel
  deriving DecidableEq, Repr

/-- An error: its kind and sub-code are the constructor, its info value the argument (R281 to R284). -/
inductive Error where
  /-- FormatError(SHORT_HEADER, count): the channel ended after 1 to 9 header bytes. -/
  | shortHeader (count : Nat)
  /-- FormatError(BAD_MAGIC, the two bytes). -/
  | badMagic (b0 b1 : Byte)
  /-- FormatError(BAD_METHOD, the byte). -/
  | badMethod (b : Byte)
  /-- FormatError(EOF_IN_HEADER, where). -/
  | eofInHeader (place : HdrField)
  /-- UsageError(DISPOSED, the mnemonic). -/
  | disposed (m : Mnemonic)
  /-- UsageError(WRITE_AFTER_READ, none). -/
  | writeAfterRead
  /-- UsageError(READ_AFTER_WRITE, none). -/
  | readAfterWrite
  /-- UsageError(UNSUPPORTED_DIRECTION, which). -/
  | unsupportedDirection (d : CrossDirection)
  /-- UsageError(UNSUPPORTED_OP, the mnemonic). -/
  | unsupportedOp (m : Mnemonic)
  /-- UsageError(ILLEGAL_COMMAND, the word). -/
  | illegalCommand (word : U64)
  /-- EngineError(INIT_FAIL, msg). -/
  | initFail (msg : Bytes)
  /-- EngineError(ENGINE_FAIL, the status with its message). -/
  | engineFail (rc : EngStatus)
  /-- ChannelError(CH_FAIL, the channel's failure value). -/
  | chFail (e : Bytes)
  deriving DecidableEq, Repr

/-- A register value as RDSTAT answers it (10_state.md R33). -/
inductive RegValue where
  | num (v : Int)
  | bytes (b : Bytes)
  | absent
  deriving DecidableEq, Repr

/-- The value of an `Ok` response (30_encoding.md R143). -/
inductive Value where
  /-- `()`. -/
  | unit
  /-- READ: the count and the `CALLER` buffer after the command. -/
  | read (n : Nat) (dst : Bytes)
  /-- GETLEN. -/
  | length (l : ChLength)
  /-- RDSTAT. -/
  | reg (v : RegValue)
  deriving DecidableEq, Repr

/-- A response (R143, R280). `buffer` is the caller's buffer, which an `Err` of READ carries too (90_conflicts.md C14). -/
inductive Response where
  | ok (v : Value)
  | err (e : Error) (buffer : Option Bytes)
  deriving DecidableEq, Repr

/-- What HDR_PARSE holds of a header between its reads (40_envelope.md R160: flg, mtime, total, name, comment). -/
structure HdrFields where
  flg     : Byte
  mtime   : U32
  total   : Nat
  name    : Option Bytes
  comment : Option Bytes
  deriving DecidableEq, Repr

/-- Where a command stands that a step left unfinished: inside one of the loops that only a collaborator ends, with
that loop's local variables (R30: not architectural; log 4); or blocked for ever (log 5). `len` is READ's L. -/
inductive InFlight where
  /-- The loop of WRITE (41_write.md R205). -/
  | writeLoop
  /-- ReadZString(FNAME) of the READ that parses the header, `acc` read so far (40_envelope.md R161, R166). -/
  | nameLoop (len : Nat) (h : HdrFields) (acc : Bytes)
  /-- ReadZString(FCOMMENT) of the READ that parses the header (R167). -/
  | commentLoop (len : Nat) (h : HdrFields) (acc : Bytes)
  /-- The loop of READ (42_read.md R220): the remaining room and the bytes produced. -/
  | readLoop (len room : Nat) (w : Bytes)
  /-- The loop of the writer Finish inside CLOSE (43_control.md R246). -/
  | finishLoop
  /-- The stuck agent: the command waits for a collaborator that never answers this transaction (20_memory.md R105,
  60_exceptions.md R294, R300). -/
  | stuck (port : PortName)
  deriving DecidableEq, Repr

/-- A command as the caller issues it: the word, and with it the WRITE payload of the data port or READ's
destination buffer `dst0` (30_encoding.md R140, 20_memory.md R91, R92). -/
structure Command where
  word : U64
  data : Bytes
  deriving DecidableEq, Repr

/-- CRC32FN, a configuration field (10_state.md R71): its default, or a platform's own checksum, by its number
(log 12). -/
inductive Crc32Fn where
  | gzip
  | own (k : Nat)
  deriving DecidableEq, Repr

/-- The platform parameters (00_scope.md R9). -/
structure Platform where
  workbufSizeDefault      : Nat     := Config.workbufSizeDefault
  hdrXfl                  : Byte    := Config.hdrXfl
  hdrOs                   : Byte    := Config.hdrOs
  finishRequiresStreamEnd : Bool    := Config.finishRequiresStreamEnd
  crc32fn                 : Crc32Fn := .gzip
  deriving DecidableEq, Repr

/-- The state of one instance. -/
structure State where
  /-- The platform parameters, read-only (00_scope.md R9). -/
  plat : Platform
  /-- `FLAVOR`, read-only after construction, as are the next five (10_state.md R32). -/
  flavor : Flavor
  cmode : CMode
  level : Int
  leaveOpen : Bool
  workbufSize : Nat
  mtimeFixed : Option U32
  /-- `STREAM_MODE`. -/
  streamMode : StreamMode
  /-- `DISPOSED`. -/
  disposed : Bool
  /-- `ENG_LIVE`. -/
  engLive : Bool
  /-- `WB_LIVE`, `WB_LEN`, `WORK` (20_memory.md R93). -/
  wbLive : Bool
  wbLen : Nat
  work : Bytes
  /-- `IN_WIN`, `IN_NEXT`, `IN_AVAIL` (20_memory.md R94). -/
  inWin : Bytes
  inNext : Nat
  inAvail : Nat
  /-- `NO_MORE_INPUT`. -/
  noMoreInput : Bool
  /-- `ENG_TOTAL_OUT`. -/
  engTotalOut : U64
  /-- The header registers (10_state.md R34). -/
  hdrState : HdrState
  hdrBytes : Nat
  hdrMtime : U32
  hdrFlg : Byte
  hdrFname : Option Bytes
  hdrComment : Option Bytes
  /-- `CRC_LIVE`, read-only, and the accumulator (10_state.md R70 to R73). -/
  crcLive : Bool
  crcReg : U32
  crcCount : U64
  /-- The buffer space `CALLER` (20_memory.md R90 to R92): the data of the command in hand (log 10). -/
  caller : Bytes
  /-- The commands the caller has yet to issue, next one first (log 8). -/
  commands : List Command
  /-- The responses answered, oldest first (70_reset_and_hazards.md R340, log 9). -/
  responses : List Response
  /-- The port transactions issued with their answers, oldest first (R340, log 9). -/
  trace : List Txn
  /-- The model's own: where an unfinished command stands (log 4). -/
  inFlight : Option InFlight
  /-- The model's own: the scripted answers to come (log 1). -/
  ports : Ports
  /-- The model's own: how many free values have been taken (log 2). -/
  draws : Nat
  deriving DecidableEq, Repr

/-- The construction arguments of 70_reset_and_hazards.md R320, but the channel, which is outside the block. -/
structure ConstructArgs where
  flavor     : Flavor
  cmode      : CMode
  level      : Int
  leaveOpen  : Bool
  wbSize     : Option Nat
  mtimeFixed : Option U32
  deriving DecidableEq, Repr

/-- Every register at the value construction gives it (R320). -/
def State.fresh (p : Platform) (a : ConstructArgs) : State where
  plat := p
  flavor := a.flavor
  cmode := a.cmode
  level := a.level
  leaveOpen := a.leaveOpen
  workbufSize := a.wbSize.getD p.workbufSizeDefault
  mtimeFixed := a.mtimeFixed
  streamMode := .undefined
  disposed := false
  engLive := false
  wbLive := false
  wbLen := 0
  work := []
  inWin := []
  inNext := 0
  inAvail := 0
  noMoreInput := false
  engTotalOut := 0
  hdrState := .none
  hdrBytes := 0
  hdrMtime := 0
  hdrFlg := 0
  hdrFname := none
  hdrComment := none
  crcLive := decide (a.flavor = .gzip)
  crcReg := 0xFFFFFFFF
  crcCount := 0
  caller := []
  commands := []
  responses := []
  trace := []
  inFlight := none
  ports := {}
  draws := 0

/-- CONSTRUCT: no instance for a working-buffer size of 0; no other argument is checked (R320, R322). DESIGN CHOICE: a
platform whose WORKBUF_SIZE_DEFAULT is 0 is not refused, so an instance of it with no size given has WORKBUF_SIZE 0 (log
23). -/
def State.construct (p : Platform) (a : ConstructArgs) : Option State :=
  if a.wbSize = some 0 then none else some (State.fresh p a)

/-- The arguments of the one instance the host's interface starts from: those whose spec numbers are 0, and no
override (log 3). -/
def ConstructArgs.first : ConstructArgs where
  flavor := .zlib
  cmode := .compress
  level := 0
  leaveOpen := false
  wbSize := none
  mtimeFixed := none

/-- The machine right after reset, which is construction (R320). -/
def State.reset : State := State.fresh {} ConstructArgs.first

/-- Why the machine stops with a fault: it never does. The block has no trap, so no state of it is a fault state
(60_exceptions.md R294 "Fault: none"). -/
inductive Fault where
  deriving DecidableEq, Repr

/-- What has no meaning (60_exceptions.md R294 "Refused"). -/
inductive Refusal where
  /-- Raised by no arm: every instruction has its meaning. Safe. -/
  | notModelled (mnemonic : String)
  /-- Raised by WRITE when the data port did not deliver exactly LEN bytes (30_encoding.md R151). Safe. -/
  | payloadLength
  /-- Raised by READ when the caller's buffer is not LEN bytes long (70_reset_and_hazards.md R341; log 7). Safe. -/
  | bufferLength
  /-- Raised by every instruction given to `exec` while another is in flight (20_memory.md R107); `step` never does
  so. Safe. -/
  | commandInFlight
  /-- Raised by an engine step scripted with an answer outside the bounds of 10_state.md R62. Safe. -/
  | engineAnswer
  /-- Raised by a channel read scripted with more bytes than asked, or a failed channel write scripted to have
  appended more than it was given (10_state.md R51, 20_memory.md R99; log 6). Safe. -/
  | channelAnswer
  /-- Raised by a lease scripted shorter than the request (10_state.md R75; log 6). Safe. -/
  | leaseAnswer
  deriving DecidableEq, Repr

end Sys2Proof.Machine
end

