-- ==== Sys2Proof/Machine/Ops.lean ====
section
/-! DEFINITION. The shared operations: how a command ends (raise, respond: the block's exception entry), the port
transactions of 10_state.md §4, buffer-space reads and writes, the working buffer's and the engine's life, loops. -/

namespace Sys2Proof.Machine

/-- How a command leaves its pseudocode early. -/
inductive Exit where
  /-- `raise K(code, info)` (00_scope.md R16). -/
  | raise (e : Error)
  /-- The step ends with the command in flight: inside a loop, where the next step resumes (log 4), or stuck
  (log 5). -/
  | pause (f : InFlight)
  /-- A form with no meaning (60_exceptions.md R294). -/
  | refuse (r : Refusal)
  deriving DecidableEq, Repr

/-- A piece of pseudocode: it reads and writes the state and answers a value, or leaves early. Leaving keeps every
effect made before (60_exceptions.md R288, R290: precise, no rollback). -/
abbrev Act (α : Type) : Type := EStateM Exit State α

/-! ### Ending a command: raising and answering an error -/

/-- `raise`: ends the command with an error; nothing after it happens and nothing before it is undone (R288, R290). -/
def raise {α : Type} (e : Error) : Act α := fun s => .error (.raise e) s

/-- Ends the step with the command in flight at `f` (logs 4 and 5). -/
def pause {α : Type} (f : InFlight) : Act α := fun s => .error (.pause f) s

/-- The state, for reading registers: `x[NAME]` (00_scope.md R13). -/
def getState : Act State := fun s => .ok s s

/-- A write of registers: `x[NAME] <- v` (R13). -/
def update (f : State → State) : Act Unit := fun s => .ok () (f s)

/-- `if c: m`. -/
def onlyIf (c : Prop) [Decidable c] (m : Act Unit) : Act Unit := if c then m else pure ()

/-- `try m catch e`: the error raised, if one was (43_control.md R244). -/
def attempt (m : Act Unit) : Act (Option Error) := fun s =>
  match m s with
  | .ok _ s' => .ok none s'
  | .error (.raise e) s' => .ok (some e) s'
  | .error x s' => .error x s'

/-- A response goes out on the response port (30_encoding.md R143). -/
def State.respond (s : State) (r : Response) : State := { s with responses := s.responses ++ [r] }

/-- The step ends with the command in flight at `f` (logs 4 and 5). -/
def State.paused (s : State) (f : InFlight) : State := { s with inFlight := some f }

/-- How a command's pseudocode becomes the outcome of a step: a response, whether `Ok` or an error, is a next state
(60_exceptions.md R280, R288, R291: the block answers and waits for the next command). `buffer` is what an error's
response carries of the caller's buffer. -/
def settle (buffer : State → Option Bytes) : EStateM.Result Exit State Response → Host.Outcome State Fault Refusal
  | .ok r s => .next (s.respond r)
  | .error (.raise e) s => .next (s.respond (.err e (buffer s)))
  | .error (.pause f) s => .next (s.paused f)
  | .error (.refuse r) _ => .refused r

/-- No command but READ has a buffer to give back. -/
def noBuffer (_ : State) : Option Bytes := none

/-- READ gives the caller its buffer back on an error too (30_encoding.md R143, 90_conflicts.md C14). -/
def callerBuffer (s : State) : Option Bytes := some s.caller

/-- Runs a command, if no other is in flight (20_memory.md R107, 60_exceptions.md R294). -/
def runCommand (buffer : State → Option Bytes) (body : Act Response) (s : State) : Host.Outcome State Fault Refusal :=
  match s.inFlight with
  | some _ => .refused .commandInFlight
  | none => settle buffer (body s)

/-- The answer to a word that spells no command: no other register changes, no transaction occurs (30_encoding.md
R150 to R153). -/
def State.answerIllegal (s : State) (word : U64) : State := s.respond (.err (.illegalCommand word) none)

/-! ### Buffer spaces (00_scope.md R14, 20_memory.md R90) -/

/-- `MemRead(S, off, n)`. -/
def memRead (space : Bytes) (off n : Nat) : Bytes := (space.drop off).take n

/-- `MemWrite(S, off, |v|, v)`: the other offsets keep their bytes. -/
def memWrite (space : Bytes) (off : Nat) (v : Bytes) : Bytes := space.take off ++ v ++ space.drop (off + v.length)

/-- The engine's available input, `IN_WIN[IN_NEXT .. IN_NEXT+IN_AVAIL)` (10_state.md R62, 20_memory.md R94). -/
def State.window (s : State) : Bytes := memRead s.inWin s.inNext s.inAvail

/-- A whole new input window (20_memory.md R94). -/
def State.loadWindow (s : State) (b : Bytes) : State := { s with inWin := b, inNext := 0, inAvail := b.length }

/-- The window update after an engine step (10_state.md R62). -/
def State.afterStep (s : State) (a : StepAnswer) : State :=
  { s with
    inNext := s.inNext + a.consumed
    inAvail := s.inAvail - a.consumed
    engTotalOut := s.engTotalOut + BitVec.ofNat 64 a.produced.length }

/-- The bytes of `WORK`. -/
def State.setWork (s : State) (b : Bytes) : State := { s with work := b }

/-- The bytes of `CALLER`. -/
def State.setCaller (s : State) (b : Bytes) : State := { s with caller := b }

/-! ### Port transactions -/

/-- The state after a transaction: on the record, with what is left of the script and of the free values. -/
def State.exchanged (s : State) (ports : Ports) (draws : Nat) (t : Txn) : State :=
  { s with ports := ports, draws := draws, trace := s.trace ++ [t] }

/-- One transaction (20_memory.md R102, R105): the next scripted reply of its queue, which must fit the primitive's
bounds, or, with nothing scripted, a free value. It goes on the record with its answer. A collaborator that never answers
leaves the command stuck, with every effect made before. -/
def transact {α : Type} (port : PortName) (queue : Ports → List (Reply α)) (drop : Ports → Ports) (free : Nat → α)
    (fits : α → Bool) (bad : Refusal) (log : α → Txn) : Act α := fun s =>
  match queue s.ports with
  | [] => .ok (free s.draws) (s.exchanged s.ports (s.draws + 1) (log (free s.draws)))
  | .silent :: _ => .error (.pause (.stuck port)) s
  | .answer a :: _ =>
    if fits a then .ok a (s.exchanged (drop s.ports) s.draws (log a))
    else .error (.refuse bad) s

/-- An answer of a primitive with no bounds. -/
def anyAnswer {α : Type} (_ : α) : Bool := true

/-- `ChRead(n)` answers at most `n` bytes (10_state.md R51). -/
def readFits (n : Nat) : Answer Bytes → Bool
  | .ok b => decide (b.length ≤ n)
  | .fail _ => true

/-- A failed `ChWrite(b)` appended a prefix of `b` (20_memory.md R99). -/
def writeFits (b : Bytes) : WriteAnswer → Bool
  | .ok => true
  | .fail _ kept => decide (kept ≤ b.length)

/-- The bounds of an engine answer: `0 ≤ c ≤ |in|`, `0 ≤ |p| ≤ cap` (10_state.md R62). -/
def stepFits (input : Bytes) (cap : Nat) (a : StepAnswer) : Bool :=
  decide (a.consumed ≤ input.length) && decide (a.produced.length ≤ cap)

/-- A lease is at least as long as the request (10_state.md R75). -/
def leaseFits (n : Nat) (b : Bytes) : Bool := decide (n ≤ b.length)

/-- A free answer of a primitive that may fail. -/
def freeAnswer {α : Type} (a : α) (k : Nat) : Answer α :=
  if Config.freeFails k then .fail (Config.freeText k) else .ok a

/-- Any answer to `ChRead(n)` within its bound (93_implementation_defined.md I4). -/
def freeRead (n k : Nat) : Answer Bytes := freeAnswer ((Config.freeBytes k).take n) k

/-- Any answer to `ChWrite(b)` (I4, I5). -/
def freeWrite (b : Bytes) (k : Nat) : WriteAnswer :=
  if Config.freeFails k then .fail (Config.freeText k) (min (Config.freeNat k) b.length) else .ok

/-- Any answer to `ChLength()` (I4). -/
def freeLength (k : Nat) : Answer ChLength :=
  freeAnswer (if Config.freeKnown k then .known (Config.freeNat k) else .unknown) k

/-- Any answer to an engine step within its bounds (I2). -/
def freeStep (input : Bytes) (cap k : Nat) : StepAnswer where
  consumed := min (Config.freeNat k) input.length
  produced := (Config.freeBytes k).take cap
  status := Config.freeStatus k

/-- Any buffer at least `n` long: free bytes, extended where they fall short (I6). -/
def freeLease (n k : Nat) : Bytes :=
  Config.freeBytes k ++ List.replicate (n - (Config.freeBytes k).length) 0

/-- `ChRead(n)` with its answer (10_state.md R51). -/
def askRead (n : Nat) : Act (Answer Bytes) :=
  transact .chRead (·.chRead) (fun p => { p with chRead := p.chRead.tail }) (freeRead n) (readFits n) .channelAnswer
    (.chRead n)

/-- `ChWrite(b)` with its answer (R52). -/
def askWrite (b : Bytes) : Act WriteAnswer :=
  transact .chWrite (·.chWrite) (fun p => { p with chWrite := p.chWrite.tail }) (freeWrite b) (writeFits b)
    .channelAnswer (.chWrite b)

/-- `ChFlush()` with its answer (R53). -/
def askFlush : Act (Answer Unit) :=
  transact .chFlush (·.chFlush) (fun p => { p with chFlush := p.chFlush.tail }) (freeAnswer ()) anyAnswer
    .channelAnswer .chFlush

/-- `ChClose()` with its answer (R54). -/
def askClose : Act (Answer Unit) :=
  transact .chClose (·.chClose) (fun p => { p with chClose := p.chClose.tail }) (freeAnswer ()) anyAnswer
    .channelAnswer .chClose

/-- `ChLength()` with its answer (R55). -/
def askLength : Act (Answer ChLength) :=
  transact .chLength (·.chLength) (fun p => { p with chLength := p.chLength.tail }) freeLength anyAnswer
    .channelAnswer .chLength

/-- The level the engine's initialisation is given: only deflate takes one (R61, 70_reset_and_hazards.md R322). -/
def State.initLevel (s : State) : Option Int :=
  match s.cmode with
  | .compress => some s.level
  | .decompress => none

/-- `wantHeader = (FLAVOR = Zlib)` (R61). -/
def State.wantHeader (s : State) : Bool := decide (s.flavor = .zlib)

/-- `EngInit()` with its answer (R61). -/
def askInit (dir : CMode) (level : Option Int) (wantHeader : Bool) : Act (Answer Unit) :=
  transact .engInit (·.engInit) (fun p => { p with engInit := p.engInit.tail }) (freeAnswer ()) anyAnswer
    .engineAnswer (.engInit dir level wantHeader)

/-- `EngStep(flush, in, cap)` with its answer (R62). -/
def askStep (flush : FlushType) (dir : CMode) (input : Bytes) (cap : Nat) : Act StepAnswer :=
  transact .engStep (·.engStep) (fun p => { p with engStep := p.engStep.tail }) (freeStep input cap)
    (stepFits input cap) .engineAnswer (.engStep flush dir input cap)

/-- `EngEnd()`, which never fails (R66). -/
def engEnd (dir : CMode) : Act Unit :=
  transact .engEnd (·.engEnd) (fun p => { p with engEnd := p.engEnd.tail }) (fun _ => ()) anyAnswer
    .engineAnswer (fun _ => .engEnd dir)

/-- `PoolLease(n)`, which never fails (R75, R77). -/
def poolLease (n : Nat) : Act Bytes :=
  transact .poolLease (·.poolLease) (fun p => { p with poolLease := p.poolLease.tail }) (freeLease n) (leaseFits n)
    .leaseAnswer (.poolLease n)

/-- `PoolRelease()`, which never fails (R76). -/
def poolRelease : Act Unit :=
  transact .poolRelease (·.poolRelease) (fun p => { p with poolRelease := p.poolRelease.tail }) (fun _ => ()) anyAnswer
    .leaseAnswer (fun _ => .poolRelease)

/-- `Clock()` (R78). -/
def clock : Act Int :=
  transact .clock (·.clock) (fun p => { p with clock := p.clock.tail }) Config.freeTime anyAnswer
    .channelAnswer .clock

/-- A channel failure ends the command with ChannelError(CH_FAIL, e), unchanged (R56, 60_exceptions.md R284). -/
def orFail {α : Type} : Answer α → Act α
  | .ok a => pure a
  | .fail e => raise (.chFail e)

/-- `ChRead(n)`. -/
def chRead (n : Nat) : Act Bytes := do
  let a ← askRead n
  orFail a

/-- `ChWrite(b)`. -/
def chWrite (b : Bytes) : Act Unit := do
  let a ← askWrite b
  match a with
  | .ok => pure ()
  | .fail e _ => raise (.chFail e)

/-- `ChFlush()`. -/
def chFlush : Act Unit := do
  let a ← askFlush
  orFail a

/-- The error a channel answer stands for, if it is a failure (R284). -/
def Answer.error? {α : Type} : Answer α → Option Error
  | .ok _ => none
  | .fail e => some (.chFail e)

/-- `EngStep` on the input window with the window update (R62). -/
def engStep (flush : FlushType) (cap : Nat) : Act StepAnswer := do
  let s ← getState
  let a ← askStep flush s.cmode s.window cap
  update (·.afterStep a)
  pure a

/-- `ENG_LIVE`. -/
def State.setEngLive (s : State) (b : Bool) : State := { s with engLive := b }

/-- The leased buffer becomes `WORK`, whole (R204, decision D6). -/
def State.leased (s : State) (b : Bytes) : State := { s with work := b, wbLen := b.length, wbLive := true }

/-- The engine half of Materialise: `EngInit` on first need (41_write.md R204). -/
def startEngine : Act Unit := do
  let s ← getState
  let a ← askInit s.cmode s.initLevel s.wantHeader
  match a with
  | .ok _ => update (·.setEngLive true)
  | .fail msg => raise (.initFail msg)

/-- The buffer half of Materialise: the lease on first need (R204). -/
def leaseBuffer : Act Unit := do
  let s ← getState
  let b ← poolLease s.workbufSize
  update (·.leased b)

/-- `Materialise()` (41_write.md R204): the engine, then the working buffer. -/
def materialise : Act Unit := do
  let s ← getState
  onlyIf (s.engLive = false) startEngine
  let s ← getState
  onlyIf (s.wbLive = false) leaseBuffer

/-! ### Loops -/

/-- `loop { body } until`: `body` answers a new loop state to go round again, or a result. At most `more + 1` rounds
belong to one step; then the command is left in flight, to be resumed by the next step, so a loop that never ends is
an infinite run of next states (41_write.md R209, 60_exceptions.md R294 "Hang"; log 4). -/
def iterate {σ α : Type} (body : σ → Act (σ ⊕ α)) (at_ : σ → InFlight) : Nat → σ → Act α
  | 0, x => do
    match ← body x with
    | .inl y => pause (at_ y)
    | .inr a => pure a
  | more + 1, x => do
    match ← body x with
    | .inl y => iterate body at_ more y
    | .inr a => pure a

/-- How many rounds beyond the first belong to this step: one for each further scripted answer (log 4). -/
def roundsOf {α : Type} (queue : List (Reply α)) : Nat := queue.length - 1

end Sys2Proof.Machine
end

