-- ==== Sys2Proof/Machine/Operands.lean ====
section
/-! DEFINITION. Operand forms: little-endian fields (00_scope.md R12), LEN as a natural (30_encoding.md R141), and
RDSTAT's register operand (10_state.md R33). -/

namespace Sys2Proof.Machine

/-- `LEN`, zero-extended to a natural (30_encoding.md R141). -/
def operandLen (len : U32) : Nat := len.toNat

/-- `LE16` of two bytes (00_scope.md R12). -/
def le16 (b0 b1 : Byte) : U16 := b0.zeroExtend 16 ||| b1.zeroExtend 16 <<< 8

/-- `LE32` of four bytes (R12). -/
def le32 (b0 b1 b2 b3 : Byte) : U32 :=
  b0.zeroExtend 32 ||| b1.zeroExtend 32 <<< 8 ||| b2.zeroExtend 32 <<< 16 ||| b3.zeroExtend 32 <<< 24

/-- `toLE32(v)` (R12). -/
def toLE32 (v : U32) : Bytes := [v.extractLsb' 0 8, v.extractLsb' 8 8, v.extractLsb' 16 8, v.extractLsb' 24 8]

/-- The registers RDSTAT reads, in selector order 0x00..0x15 (10_state.md R33). -/
inductive StatReg where
  | streamMode | disposed | flavor | cmode | level | leaveOpen | workbufSize | mtimeFixed | engLive | wbLive | wbLen
  | inAvail | noMoreInput | engTotalOut | hdrState | hdrBytes | hdrMtime | hdrFlg | hdrFname | hdrComment
  | crcResult | crcCount
  deriving DecidableEq, Repr

/-- The register a selector names; 0x16..0xFF are reserved (R33). -/
def statReg (sel : Byte) : Option StatReg :=
  match sel.toNat with
  | 0x00 => some .streamMode
  | 0x01 => some .disposed
  | 0x02 => some .flavor
  | 0x03 => some .cmode
  | 0x04 => some .level
  | 0x05 => some .leaveOpen
  | 0x06 => some .workbufSize
  | 0x07 => some .mtimeFixed
  | 0x08 => some .engLive
  | 0x09 => some .wbLive
  | 0x0A => some .wbLen
  | 0x0B => some .inAvail
  | 0x0C => some .noMoreInput
  | 0x0D => some .engTotalOut
  | 0x0E => some .hdrState
  | 0x0F => some .hdrBytes
  | 0x10 => some .hdrMtime
  | 0x11 => some .hdrFlg
  | 0x12 => some .hdrFname
  | 0x13 => some .hdrComment
  | 0x14 => some .crcResult
  | 0x15 => some .crcCount
  | _ => none

/-- The number of a STREAM_MODE value (R32). -/
def StreamMode.number : StreamMode → Nat
  | .undefined => 0
  | .reader => 1
  | .writer => 2

/-- The number of a FLAVOR value (R32). -/
def Flavor.number : Flavor → Nat
  | .zlib => 0
  | .deflate => 1
  | .gzip => 2

/-- The number of a CMODE value (R32). -/
def CMode.number : CMode → Nat
  | .compress => 0
  | .decompress => 1

/-- The number of a HDR_STATE value (R32). -/
def HdrState.number : HdrState → Nat
  | .none => 0
  | .parsed => 1
  | .emitted => 2
  | .empty => 3

/-- A Bool register's value, 0 or 1. -/
def boolNumber (b : Bool) : Nat := if b then 1 else 0

/-- A register that holds a natural, as RDSTAT answers it. -/
def natValue (n : Nat) : RegValue := .num (Int.ofNat n)

/-- `HDR_FNAME` or `HDR_COMMENT`: bytes, or ABSENT; an empty string is not ABSENT (R33, 43_control.md R270). -/
def textValue : Option Bytes → RegValue
  | none => .absent
  | some b => .bytes b

/-- `STREAM_MODE`. -/
def State.setMode (s : State) (m : StreamMode) : State := { s with streamMode := m }

/-- The lifecycle state: Closed when DISPOSED, otherwise STREAM_MODE (10_state.md R45). -/
def State.life (s : State) : Life :=
  if s.disposed then .closed
  else
    match s.streamMode with
    | .undefined => .undefined
    | .reader => .reader
    | .writer => .writer

/-- The kind of an error (60_exceptions.md R281 to R284). -/
def Error.kind : Error → ErrorKind
  | .shortHeader _ | .badMagic _ _ | .badMethod _ | .eofInHeader _ => .format
  | .disposed _ | .writeAfterRead | .readAfterWrite | .unsupportedDirection _ | .unsupportedOp _
  | .illegalCommand _ => .usage
  | .initFail _ | .engineFail _ => .engine
  | .chFail _ => .channel

/-- The kind numbers (R281 to R284). -/
def ErrorKind.number : ErrorKind → Nat
  | .format => 1
  | .usage => 2
  | .engine => 3
  | .channel => 4

/-- The sub-code numbers (R281 to R284). -/
def Error.code : Error → Nat
  | .shortHeader _ => 1
  | .badMagic _ _ => 2
  | .badMethod _ => 3
  | .eofInHeader _ => 4
  | .disposed _ => 1
  | .writeAfterRead => 2
  | .readAfterWrite => 3
  | .unsupportedDirection _ => 4
  | .unsupportedOp _ => 5
  | .illegalCommand _ => 6
  | .initFail _ => 1
  | .engineFail _ => 2
  | .chFail _ => 1

end Sys2Proof.Machine
end

