-- ==== Sys2Proof/Machine/Flags.lean ====
section
/-! DEFINITION. The block has no flags register (41_write.md R200, 42_read.md R220: "No flag register exists to set").
This file holds the header's flag byte FLG (30_encoding.md R124) and the conditions the loops test. -/

namespace Sys2Proof.Machine

/-- FLG bit 0, FTEXT: ignored on parse (30_encoding.md R124). -/
def flgFtext (flg : Byte) : Bool := flg.getLsbD 0

/-- FLG bit 1, FHCRC (R124). -/
def flgFhcrc (flg : Byte) : Bool := flg.getLsbD 1

/-- FLG bit 2, FEXTRA (R124). -/
def flgFextra (flg : Byte) : Bool := flg.getLsbD 2

/-- FLG bit 3, FNAME (R124). -/
def flgFname (flg : Byte) : Bool := flg.getLsbD 3

/-- FLG bit 4, FCOMMENT (R124). -/
def flgFcomment (flg : Byte) : Bool := flg.getLsbD 4

/-- A step status that is a failure: every one but OK and STREAM_END (41_write.md R208). -/
def EngStatus.isFailure : EngStatus → Bool
  | .ok => false
  | .streamEnd => false
  | .bufError => true
  | .fail _ _ => true

/-- The unconsumed input at which the push loops may end: 8, the trailer, for Gzip decompression, else 0
(41_write.md R206, R207). -/
def State.doneAvail (s : State) : Nat := if s.flavor = .gzip ∧ s.cmode = .decompress then 8 else 0

/-- `WriteDone(room)` (R206, R207). -/
def State.writeDone (s : State) (room : Nat) : Bool := decide (s.inAvail = s.doneAvail) && decide (room ≠ 0)

/-- The end of the writer Finish's loop (43_control.md R246, decision D24). -/
def State.finishDone (s : State) (room : Nat) (rc : EngStatus) : Bool :=
  s.writeDone room && (!s.plat.finishRequiresStreamEnd || decide (rc = .streamEnd))

/-- READ pulls a chunk: the window is empty and the channel not known exhausted (42_read.md R225). -/
def State.needsChunk (s : State) : Bool := decide (s.inAvail = 0) && !s.noMoreInput

/-- READ's benign end (R227). -/
def State.benignEnd (s : State) (rc : EngStatus) : Bool := s.noMoreInput && decide (rc = .bufError)

/-- READ's loop goes round again (R229). -/
def State.readAgain (s : State) (room : Nat) (rc : EngStatus) : Bool :=
  decide (0 < room) && !s.noMoreInput && decide (rc = .ok)

/-- READ issues the final FINISH step (R228). -/
def State.needsFinalStep (s : State) (room : Nat) : Bool :=
  decide (0 < room) && s.noMoreInput && decide (s.cmode = .compress)

end Sys2Proof.Machine
end

