-- ==== Sys2Proof/Machine/Checksum.lean ====
section
/-! DEFINITION. The checksum accumulator (10_state.md R70 to R73): CRC32FN, the CRC-32 of R71 by default, and the
three operations on the accumulator. -/

namespace Sys2Proof.Machine

/-- The reflected polynomial (R71). -/
def crcPoly : U32 := 0xEDB88320

/-- One bit of the fold: `crc <- (crc >> 1) XOR (poly if crc[0] = 1 else 0)` (R71). -/
def crcBit (crc : U32) : U32 := (crc >>> 1) ^^^ (if crc.getLsbD 0 then crcPoly else 0)

/-- One byte of the CRC-32's fold (R71): eight bits, after the byte is XORed in. -/
def gzipCrcByte (crc : U32) (b : Byte) : U32 :=
  crcBit (crcBit (crcBit (crcBit (crcBit (crcBit (crcBit (crcBit (crc ^^^ b.zeroExtend 32))))))))

/-- One byte of the fold of the configured CRC32FN (R71, decision D40; log 12). -/
def crcByte (f : Crc32Fn) (crc : U32) (b : Byte) : U32 :=
  match f with
  | .gzip => gzipCrcByte crc b
  | .own k => Config.ownCrcByte k crc b

/-- The fold over a byte sequence, from a register value (R71, R72). -/
def crcFold (f : Crc32Fn) (crc : U32) (b : Bytes) : U32 := b.foldl (crcByte f) crc

/-- `CRC32FN` (R71). -/
def crc32 (f : Crc32Fn) (b : Bytes) : U32 := ~~~ (crcFold f 0xFFFFFFFF b)

/-- `CrcUpdate(b)` (R72). -/
def State.crcUpdate (s : State) (b : Bytes) : State :=
  { s with crcReg := crcFold s.plat.crc32fn s.crcReg b, crcCount := s.crcCount + BitVec.ofNat 64 b.length }

/-- `CrcResult()` (R73). -/
def State.crcResult (s : State) : U32 := s.crcReg ^^^ 0xFFFFFFFF

/-- The accumulator is fed only where it exists (R70, 90_conflicts.md C13). -/
def State.crcFeed (s : State) (b : Bytes) : State := if s.crcLive then s.crcUpdate b else s

end Sys2Proof.Machine
end

