-- ==== Sys2Proof/Machine/Envelope.lean ====
section
/-! DEFINITION. The GZIP envelope codec (40_envelope.md): ReadExact and ReadZString, the parts of HDR_PARSE,
HDR_EMIT and TRAILER_EMIT. TRAILER_CONSUME is the absence of a step (R180). -/

namespace Sys2Proof.Machine

/-- How `ReadExact` ended (R161). -/
inductive Fill where
  | ok | eof
  deriving DecidableEq, Repr

/-- The loop of `ReadExact(n)` from the bytes `b` got so far. Every round adds a byte or ends, so `n` rounds do. -/
def readFill (n : Nat) : Nat → Bytes → Act (Bytes × Fill)
  | 0, b => pure (b, .ok)
  | rounds + 1, b =>
    if b.length < n then do
      let r ← chRead (n - b.length)
      if r = [] then pure (b, .eof) else readFill n rounds (b ++ r)
    else pure (b, .ok)

/-- `ReadExact(n)` (R161). -/
def readExact (n : Nat) : Act (Bytes × Fill) := readFill n n []

/-- `ReadExact(n)` inside an optional field, where an end of the channel is FormatError(EOF_IN_HEADER, place)
(R165 to R168). -/
def readField (place : HdrField) (n : Nat) : Act Bytes := do
  let (b, st) ← readExact n
  if st = .eof then raise (.eofInHeader place) else pure b

/-- Byte `i` of a header field that has been read whole. -/
def byteAt (b : Bytes) (i : Nat) : Byte := b.getD i 0

/-- The FEXTRA field: the 2-byte length, then that many bytes, discarded; answers the bytes taken (R165). -/
def skipExtra : Act Nat := do
  let xl ← readField .fextraLen 2
  let xlen := (le16 (byteAt xl 0) (byteAt xl 1)).toNat
  let _ ← readField .fextraData xlen
  pure (2 + xlen)

/-- The checks of a fixed header of 10 bytes, magic before method (R163). -/
def checkFixed (h : Bytes) : Act Unit :=
  if byteAt h 0 ≠ 0x1F ∨ byteAt h 1 ≠ 0x8B then raise (.badMagic (byteAt h 0) (byteAt h 1))
  else if byteAt h 2 ≠ 0x08 then raise (.badMethod (byteAt h 2))
  else pure ()

/-- What the fixed header gives the parse (30_encoding.md R121, R125). -/
def fixedFields (h : Bytes) : HdrFields where
  flg := byteAt h 3
  mtime := le32 (byteAt h 4) (byteAt h 5) (byteAt h 6) (byteAt h 7)
  total := 10
  name := none
  comment := none

/-- The header registers after a parse that met an empty channel (10_state.md R34). -/
def State.hdrEmpty (s : State) : State := { s with hdrState := .empty, hdrBytes := 0 }

/-- HDR_PARSE from the bytes read for the fixed header up to the FNAME field (R160, R162 to R165). `none`: the channel
was empty, and HDR_STATE is EMPTY. The length is checked before the magic, the magic before the method. -/
def hdrFixed (h : Bytes) : Act (Option HdrFields) :=
  if h = [] then do
    update (·.hdrEmpty)
    pure none
  else if h.length < 10 then raise (.shortHeader h.length)
  else do
    checkFixed h
    let f := fixedFields h
    if flgFextra f.flg then do
      let n ← skipExtra
      pure (some { f with total := f.total + n })
    else pure (some f)

/-- HDR_PARSE up to the FNAME field. -/
def hdrOpen : Act (Option HdrFields) := do
  let (h, _) ← readExact 10
  hdrFixed h

/-- One round of `ReadZString(place)`: a byte joins the string, or the 0x00 ends it (R161). -/
def zstringRound (place : HdrField) (acc : Bytes) : Act (Bytes ⊕ Bytes) := do
  let b ← readField place 1
  if byteAt b 0 = 0 then pure (.inr acc) else pure (.inl (acc ++ b))

/-- `ReadZString(FNAME)` from `acc` on, inside the READ of length `len` (R166). -/
def readName (len : Nat) (h : HdrFields) (acc : Bytes) : Act HdrFields := do
  let s ← getState
  let name ← iterate (zstringRound .fname) (.nameLoop len h) (roundsOf s.ports.chRead) acc
  pure { h with name := some name, total := h.total + name.length + 1 }

/-- `ReadZString(FCOMMENT)` from `acc` on (R167). -/
def readComment (len : Nat) (h : HdrFields) (acc : Bytes) : Act HdrFields := do
  let s ← getState
  let comment ← iterate (zstringRound .fcomment) (.commentLoop len h) (roundsOf s.ports.chRead) acc
  pure { h with comment := some comment, total := h.total + comment.length + 1 }

/-- The header registers after a successful parse (10_state.md R34, 40_envelope.md R169). -/
def State.hdrParsed (s : State) (h : HdrFields) : State :=
  { s with
    hdrMtime := h.mtime
    hdrFlg := h.flg
    hdrFname := h.name
    hdrComment := h.comment
    hdrBytes := h.total
    hdrState := .parsed }

/-- HDR_PARSE from the FHCRC field on: 2 bytes discarded, never validated; then the registers (R168, R169). -/
def hdrClose (h : HdrFields) : Act Unit :=
  if flgFhcrc h.flg then do
    let _ ← readField .fhcrc 2
    update (·.hdrParsed { h with total := h.total + 2 })
  else update (·.hdrParsed h)

/-- The FCOMMENT field, where the flag byte says there is one (R167). -/
def commentField (len : Nat) (h : HdrFields) : Act HdrFields :=
  if flgFcomment h.flg then readComment len h [] else pure h

/-- The FNAME field, where the flag byte says there is one (R166). -/
def nameField (len : Nat) (h : HdrFields) : Act HdrFields :=
  if flgFname h.flg then readName len h [] else pure h

/-- HDR_PARSE from the FCOMMENT field on. -/
def hdrFromComment (len : Nat) (h : HdrFields) : Act Unit := do
  let h ← commentField len h
  hdrClose h

/-- HDR_PARSE from the FNAME field on. -/
def hdrFromName (len : Nat) (h : HdrFields) : Act Unit := do
  let h ← nameField len h
  hdrFromComment len h

/-- The ten emitted header bytes (30_encoding.md R121, 40_envelope.md R172). -/
def headerBytes (p : Platform) (t : U32) : Bytes :=
  [0x1F, 0x8B, 0x08, 0x00] ++ toLE32 t ++ [p.hdrXfl, p.hdrOs]

/-- The timestamp: MTIME_FIXED, or the clock read once and reduced modulo 2^32 (R171). -/
def timestamp : Act U32 := do
  let s ← getState
  match s.mtimeFixed with
  | some m => pure m
  | none => do
    let t ← clock
    pure (BitVec.ofInt 32 t)

/-- The header registers after an emit (10_state.md R34). -/
def State.hdrEmitted (s : State) (t : U32) : State :=
  { s with
    hdrMtime := t
    hdrFlg := 0x00
    hdrFname := none
    hdrComment := none
    hdrBytes := 10
    hdrState := .emitted }

/-- HDR_EMIT (R170): the registers are written after the ChWrite has succeeded. -/
def hdrEmit : Act Unit := do
  let t ← timestamp
  let s ← getState
  chWrite (headerBytes s.plat t)
  update (·.hdrEmitted t)

/-- The eight trailer bytes (30_encoding.md R128, 40_envelope.md R173, R174). -/
def State.trailerBytes (s : State) : Bytes := toLE32 s.crcResult ++ toLE32 (s.crcCount.truncate 32)

/-- TRAILER_EMIT (R173). -/
def trailerEmit : Act Unit := do
  let s ← getState
  chWrite s.trailerBytes

end Sys2Proof.Machine
end

