-- ==== Sys2Proof/Machine/Write.lean ====
section
/-! DEFINITION. WRITE, the push path (41_write.md R200 to R210). -/

namespace Sys2Proof.Machine

/-- One push step (R205 items 1 to 5, R208): the engine fills the working buffer from offset 0, a failure status is
raised before the bytes go out, and produced bytes are written to the channel. The writer Finish shares it
(43_control.md R246). -/
def pushStep (flush : FlushType) : Act StepAnswer := do
  let s ← getState
  let a ← engStep flush s.wbLen
  update fun s => s.setWork (memWrite s.work 0 a.produced)
  if a.status.isFailure then raise (.engineFail a.status)
  else do
    let s ← getState
    onlyIf (0 < a.produced.length) (chWrite (memRead s.work 0 a.produced.length))
    pure a

/-- One round of WRITE's loop; it ends at WriteDone (R205 to R207). -/
def writeRound (_ : Unit) : Act (Unit ⊕ Response) := do
  let a ← pushStep .none
  let s ← getState
  if s.writeDone (s.wbLen - a.produced.length) then pure (.inr (.ok .unit)) else pure (.inl ())

/-- WRITE's loop (R205, R209). -/
def writeLoop : Act Response := do
  let s ← getState
  iterate writeRound (fun _ => .writeLoop) (roundsOf s.ports.engStep) ()

/-- The first WRITE: Writer mode, then the header of a compressing Gzip instance (R201). -/
def enterWriter : Act Unit := do
  update (·.setMode .writer)
  let s ← getState
  onlyIf (s.flavor = .gzip ∧ s.cmode = .compress) hdrEmit

/-- WRITE from the zero-length test on (R202 to R205). -/
def writeData (len : Nat) : Act Response :=
  if len = 0 then pure (.ok .unit)
  else do
    update fun s => s.crcFeed s.caller
    materialise
    update fun s => s.loadWindow s.caller
    writeLoop

/-- WRITE's pseudocode (R200). -/
def writeBody (len : Nat) : Act Response := do
  let s ← getState
  if s.disposed then raise (.disposed .write)
  else if s.streamMode = .reader then raise .writeAfterRead
  else do
    onlyIf (s.streamMode = .undefined) enterWriter
    writeData len

/-- WRITE (R200), refused at the interface where the data port did not deliver LEN bytes (30_encoding.md R151). -/
def execWrite (len : U32) (s : State) : Host.Outcome State Fault Refusal :=
  if s.caller.length = operandLen len then runCommand noBuffer (writeBody (operandLen len)) s
  else .refused .payloadLength

end Sys2Proof.Machine
end

