-- ==== Sys2Proof/Machine/Control.lean ====
section
/-! DEFINITION. The control commands (43_control.md): FLUSH, CLOSE with Finish, positioning, length, status. -/

namespace Sys2Proof.Machine

/-! ### FLUSH -/

/-- The response to a command that only asks the channel (R240, R264): a failure is ChannelError (60_exceptions.md R284). -/
def channelResponse {α : Type} (value : α → Value) : Answer α → Response
  | .ok a => .ok (value a)
  | .fail e => .err (.chFail e) none

/-- FLUSH's pseudocode: the channel's flush and nothing else (R240). -/
def flushBody : Act Response := do
  let s ← getState
  if s.disposed then raise (.disposed .flush)
  else do
    let a ← askFlush
    pure (channelResponse (fun _ => .unit) a)

/-- FLUSH (R240). -/
def execFlush (s : State) : Host.Outcome State Fault Refusal := runCommand noBuffer flushBody s

/-! ### CLOSE and Finish -/

/-- One round of the writer Finish's loop (R246). -/
def finishRound (_ : Unit) : Act (Unit ⊕ Unit) := do
  let a ← pushStep .finish
  let s ← getState
  if s.finishDone (s.wbLen - a.produced.length) a.status then pure (.inr ()) else pure (.inl ())

/-- The writer Finish's loop (R246). -/
def finishLoop : Act Unit := do
  let s ← getState
  iterate finishRound (fun _ => .finishLoop) (roundsOf s.ports.engStep) ()

/-- The writer Finish (R246): the loop, the channel's flush, then for Gzip the trailer or the direction error. -/
def writerFinish : Act Unit := do
  finishLoop
  chFlush
  let s ← getState
  onlyIf (s.flavor = .gzip)
    (match s.cmode with
      | .compress => trailerEmit
      | .decompress => raise (.unsupportedDirection .writeDecompress))

/-- The reader Finish (R247): no transaction; both Gzip+Decompress exits do the same, so ENG_TOTAL_OUT is not tested. -/
def readerFinish : Act Unit := do
  let s ← getState
  onlyIf (s.flavor = .gzip)
    (match s.cmode with
      | .compress => raise (.unsupportedDirection .readCompress)
      | .decompress => pure ())

/-- Finish, the dispatcher (R245). -/
def finish : Act Unit := do
  let s ← getState
  match s.streamMode with
  | .writer => writerFinish
  | .reader => readerFinish
  | .undefined => pure ()

/-- `WORK` and `WB_LIVE` after the release; `WB_LEN` keeps its value (R244). -/
def State.released (s : State) : State := { s with wbLive := false, work := [] }

/-- `DISPOSED <- 1`. -/
def State.setDisposed (s : State) : State := { s with disposed := true }

/-- Teardown step 1: the engine is ended, if it is live (R249). -/
def endEngine : Act Unit := do
  let s ← getState
  engEnd s.cmode
  update (·.setEngLive false)

/-- Teardown step 2: the working buffer is released, if it is leased (R244, R249). -/
def releaseBuffer : Act Unit := do
  poolRelease
  update (·.released)

/-- Teardown step 3: the channel is closed unless LEAVE_OPEN; answers the failure, if it failed (R249). -/
def closeChannel : Act (Option Error) := do
  let s ← getState
  if s.leaveOpen then pure none
  else do
    let a ← askClose
    pure a.error?

/-- CLOSE's answer: the first error, if there was one (R252). -/
def closeResponse : Option Error → Response
  | none => .ok .unit
  | some e => .err e none

/-- Teardown after Finish, whether it raised `err` or not: every step runs, DISPOSED is set, and the first error is
answered (R244, R249, R252). -/
def teardown (err : Option Error) : Act Response := do
  let s ← getState
  onlyIf (s.engLive = true) endEngine
  let s ← getState
  onlyIf (s.wbLive = true) releaseBuffer
  let e ← closeChannel
  update (·.setDisposed)
  pure (closeResponse (err.or e))

/-- Finish, only if the engine was ever touched (R248). -/
def finishIfTouched : Act Unit := do
  let s ← getState
  onlyIf (s.engLive = true) finish

/-- CLOSE's pseudocode (R244); on a closed instance it answers and does nothing (R250). -/
def closeBody : Act Response := do
  let s ← getState
  if s.disposed then pure (.ok .unit)
  else do
    let err ← attempt finishIfTouched
    teardown err

/-- CLOSE (R244). -/
def execClose (s : State) : Host.Outcome State Fault Refusal := runCommand noBuffer closeBody s

/-! ### Positioning and length -/

/-- A command that never succeeds: DISPOSED on a closed instance, else UNSUPPORTED_OP (R260 to R263). -/
def unsupported (m : Mnemonic) : Act Response := do
  let s ← getState
  if s.disposed then raise (.disposed m) else raise (.unsupportedOp m)

/-- SEEK (R260): both operands are ignored. An origin no word spells is answered as its word would be (log 16). -/
def execSeek (offset : U32) (origin : Byte) (s : State) : Host.Outcome State Fault Refusal :=
  runCommand noBuffer
    (if (Instr.seek offset origin).wf then unsupported .seek
      else raise (.illegalCommand (Instr.seek offset origin).encode)) s

/-- GETPOS (R261). -/
def execGetpos (s : State) : Host.Outcome State Fault Refusal := runCommand noBuffer (unsupported .getpos) s

/-- SETPOS (R262): the value is ignored. -/
def execSetpos (_value : U32) (s : State) : Host.Outcome State Fault Refusal :=
  runCommand noBuffer (unsupported .setpos) s

/-- SETLEN (R263): the value is ignored. -/
def execSetlen (_value : U32) (s : State) : Host.Outcome State Fault Refusal :=
  runCommand noBuffer (unsupported .setlen) s

/-- GETLEN's pseudocode: the channel's own length, or unknown (R264). -/
def getlenBody : Act Response := do
  let s ← getState
  if s.disposed then raise (.disposed .getlen)
  else do
    let a ← askLength
    pure (channelResponse .length a)

/-- GETLEN (R264). -/
def execGetlen (s : State) : Host.Outcome State Fault Refusal := runCommand noBuffer getlenBody s

/-! ### Status read -/

/-- The value of a register (10_state.md R33). -/
def State.regValue (s : State) : StatReg → RegValue
  | .streamMode => natValue s.streamMode.number
  | .disposed => natValue (boolNumber s.disposed)
  | .flavor => natValue s.flavor.number
  | .cmode => natValue s.cmode.number
  | .level => .num s.level
  | .leaveOpen => natValue (boolNumber s.leaveOpen)
  | .workbufSize => natValue s.workbufSize
  | .mtimeFixed =>
    match s.mtimeFixed with
    | none => .absent
    | some m => natValue m.toNat
  | .engLive => natValue (boolNumber s.engLive)
  | .wbLive => natValue (boolNumber s.wbLive)
  | .wbLen => natValue s.wbLen
  | .inAvail => natValue s.inAvail
  | .noMoreInput => natValue (boolNumber s.noMoreInput)
  | .engTotalOut => natValue s.engTotalOut.toNat
  | .hdrState => natValue s.hdrState.number
  | .hdrBytes => natValue s.hdrBytes
  | .hdrMtime => natValue s.hdrMtime.toNat
  | .hdrFlg => natValue s.hdrFlg.toNat
  | .hdrFname => textValue s.hdrFname
  | .hdrComment => textValue s.hdrComment
  | .crcResult => if s.crcLive then natValue s.crcResult.toNat else .absent
  | .crcCount => if s.crcLive then natValue s.crcCount.toNat else .absent

/-- RDSTAT's pseudocode (R270): legal in every lifecycle state. A reserved selector is answered as its word would be
(30_encoding.md R152; log 16). -/
def rdstatBody (sel : Byte) : Act Response := do
  let s ← getState
  match statReg sel with
  | some r => pure (.ok (.reg (s.regValue r)))
  | none => raise (.illegalCommand (Instr.rdstat sel).encode)

/-- RDSTAT (R270). -/
def execRdstat (sel : Byte) (s : State) : Host.Outcome State Fault Refusal := runCommand noBuffer (rdstatBody sel) s

end Sys2Proof.Machine
end

