-- ==== Sys2Proof/Machine/Read.lean ====
section
/-! DEFINITION. READ, the pull path (42_read.md R220 to R233). The caller's buffer is the space CALLER; the bytes
produced go into it directly, so on every exit it holds what 20_memory.md R92 says. -/

namespace Sys2Proof.Machine

/-- `Ok((n, dst))` with the buffer as it stands (30_encoding.md R143). -/
def readAnswer (n : Nat) : Act Response := do
  let s ← getState
  pure (.ok (.read n s.caller))

/-- The registers after a chunk pull: `WORK`, the whole input window and, on no bytes, `NO_MORE_INPUT`, which is never
cleared (R225). -/
def State.pulled (s : State) (k : Bytes) : State :=
  { s.loadWindow k with work := memWrite s.work 0 k, noMoreInput := s.noMoreInput || k.isEmpty }

/-- The chunk pull (R225): the bytes go to WORK and become the whole input window; none ends the input for good. -/
def pullChunk : Act Unit := do
  let s ← getState
  let k ← chRead s.wbLen
  update (·.pulled k)

/-- One engine step into the caller's buffer at offset `|w|` (R226, R228). -/
def pullStep (flush : FlushType) (room : Nat) (w : Bytes) : Act StepAnswer := do
  let a ← engStep flush room
  update fun s => s.setCaller (memWrite s.caller w.length a.produced)
  pure a

/-- The compress-on-read final step, where it is due; answers the room and the bytes after it (R228). -/
def finalStep (room : Nat) (w : Bytes) : Act (Nat × Bytes) := do
  let s ← getState
  if s.needsFinalStep room then do
    let a ← pullStep .finish room w
    if a.status.isFailure then raise (.engineFail a.status)
    else pure (room - a.produced.length, w ++ a.produced)
  else pure (room, w)

/-- READ after its loop: the final step, the count, the checksum (R228, R230). -/
def readEnd (len room : Nat) (w : Bytes) : Act Response := do
  let (room, w) ← finalStep room w
  update (·.crcFeed w)
  readAnswer (len - room)

/-- One round of READ's loop, from the remaining room and the bytes produced (R225 to R229). -/
def readRound (len : Nat) (x : Nat × Bytes) : Act ((Nat × Bytes) ⊕ Response) := do
  let s ← getState
  onlyIf (s.needsChunk = true) pullChunk
  let a ← pullStep .none x.1 x.2
  let room := x.1 - a.produced.length
  let w := x.2 ++ a.produced
  let s ← getState
  if s.benignEnd a.status then do
    let r ← readAnswer 0
    pure (.inr r)
  else if a.status.isFailure then raise (.engineFail a.status)
  else if s.readAgain room a.status then pure (.inl (room, w))
  else do
    let r ← readEnd len room w
    pure (.inr r)

/-- READ's loop (R226, R229). -/
def readLoop (len room : Nat) (w : Bytes) : Act Response := do
  let s ← getState
  iterate (readRound len) (fun x => .readLoop len x.1 x.2) (roundsOf s.ports.engStep) (room, w)

/-- READ after its first-call work (R222 to R224). -/
def readData (len : Nat) : Act Response := do
  let s ← getState
  if s.hdrState = .empty then readAnswer 0
  else if len = 0 then readAnswer 0
  else do
    materialise
    readLoop len len []

/-- The header parse of the first READ of a decompressing Gzip instance, then READ proper (R221). An empty channel
answers 0. -/
def readParsing (len : Nat) : Act Response := do
  let h ← hdrOpen
  match h with
  | none => readAnswer 0
  | some h => do
    hdrFromName len h
    readData len

/-- The first READ: Reader mode, then the header where one is due (R221). -/
def enterReader (len : Nat) : Act Response := do
  update (·.setMode .reader)
  let s ← getState
  if s.flavor = .gzip ∧ s.cmode = .decompress then readParsing len else readData len

/-- READ's pseudocode (R220). -/
def readBody (len : Nat) : Act Response := do
  let s ← getState
  if s.disposed then raise (.disposed .read)
  else if s.streamMode = .writer then raise .readAfterWrite
  else if s.streamMode = .undefined then enterReader len
  else readData len

/-- READ (R220), refused where the caller's buffer is not LEN bytes long (70_reset_and_hazards.md R341; log 7). -/
def execRead (len : U32) (s : State) : Host.Outcome State Fault Refusal :=
  if s.caller.length = operandLen len then runCommand callerBuffer (readBody (operandLen len)) s
  else .refused .bufferLength

end Sys2Proof.Machine
end

