-- ==== Sys2Proof/Machine/Dispatch.lean ====
section
/-! DEFINITION. The dispatcher: one arm per command. -/

namespace Sys2Proof.Machine

def exec (i : Instr) (s : State) : Host.Outcome State Fault Refusal :=
  match i with
  | .write len => Sys2Proof.Machine.execWrite len s
  | .read len => Sys2Proof.Machine.execRead len s
  | .flush => Sys2Proof.Machine.execFlush s
  | .close => Sys2Proof.Machine.execClose s
  | .seek offset origin => Sys2Proof.Machine.execSeek offset origin s
  | .getpos => Sys2Proof.Machine.execGetpos s
  | .setpos value => Sys2Proof.Machine.execSetpos value s
  | .setlen value => Sys2Proof.Machine.execSetlen value s
  | .getlen => Sys2Proof.Machine.execGetlen s
  | .rdstat sel => Sys2Proof.Machine.execRdstat sel s

end Sys2Proof.Machine
end

