-- ==== Sys2Proof/Machine/Resume.lean ====
section
/-! DEFINITION. Going on with the command in flight (log 4), and taking the next command from the command port. -/

namespace Sys2Proof.Machine

/-- The rest of READ once the FNAME string has been read on. -/
def resumeName (len : Nat) (h : HdrFields) (acc : Bytes) : Act Response := do
  let h ← readName len h acc
  hdrFromComment len h
  readData len

/-- The rest of READ once the FCOMMENT string has been read on. -/
def resumeComment (len : Nat) (h : HdrFields) (acc : Bytes) : Act Response := do
  let h ← readComment len h acc
  hdrClose h
  readData len

/-- The rest of CLOSE from inside the writer Finish. -/
def resumeFinish : Act Response := do
  let err ← attempt writerFinish
  teardown err

/-- The step of a command in flight: the loop it stands in goes on. A stuck one waits for ever, and all state survives
the wait unchanged (20_memory.md R105, 60_exceptions.md R300). -/
def resume (f : InFlight) (s : State) : Host.Outcome State Fault Refusal :=
  match f with
  | .writeLoop => settle noBuffer (writeLoop s)
  | .nameLoop len h acc => settle callerBuffer (resumeName len h acc s)
  | .commentLoop len h acc => settle callerBuffer (resumeComment len h acc s)
  | .readLoop len room w => settle callerBuffer (readLoop len room w s)
  | .finishLoop => settle noBuffer (resumeFinish s)
  | .stuck p => .next (s.paused (.stuck p))

/-- The state as the command in flight goes on. -/
def State.resumed (s : State) : State := { s with inFlight := none }

/-- The state once the caller has issued its next command and `rest` is still to come. -/
def State.takeCommand (s : State) (rest : List Command) : State := { s with commands := rest }

/-- The command's data: WRITE's payload, or READ's buffer (20_memory.md R91, R92; log 10). DESIGN CHOICE: data that comes
with another command is accepted and lies in CALLER, where that command does not look (log 24). -/
def State.withData (s : State) (data : Bytes) : State := { s with caller := data }

/-- No command waits: between commands the block is idle and holds its state (60_exceptions.md R300). -/
def State.idle (s : State) : State := s

/-- The data the host places with a word for `withFetchWord`: LEN bytes for WRITE (OPC 1) and READ (OPC 2), which the
interface needs (30_encoding.md R151, 70_reset_and_hazards.md R341; log 8). -/
def fetchData (word : U64) : Bytes :=
  if opcOf word = 0x01 ∨ opcOf word = 0x02 then List.replicate (operandLen (lenOf word)) 0 else []

end Sys2Proof.Machine
end

