-- ==== Sys2Proof/Machine/Step.lean ====
section
/-! DEFINITION. One step: the command in flight goes on; otherwise the caller's next command is decoded and executed,
decoding first (30_encoding.md R153). -/

namespace Sys2Proof.Machine

/-- One step: the command in flight goes on, or the caller's next command begins, its data in CALLER (logs 8, 10 and 24);
a word that spells no command is answered, and its data dropped with it (R153, log 24). -/
def step (s : State) : Host.Outcome State Fault Refusal :=
  match s.inFlight with
  | some f => resume f s.resumed
  | none =>
    match s.commands with
    | [] => .next s.idle
    | c :: rest =>
      match decode c.word with
      | .error _ => .next ((s.takeCommand rest).answerIllegal c.word)
      | .ok i => exec i ((s.takeCommand rest).withData c.data)

/-- `s` with a command word as the caller's very next command and no command in flight (log 8). -/
def State.withFetchWord (s : State) (nbits w : Nat) : State :=
  let word : U64 := BitVec.ofNat 64 (w % 2 ^ nbits)
  { s with inFlight := none, commands := { word := word, data := fetchData word } :: s.commands }

end Sys2Proof.Machine
end

