-- ==== Sys2Proof/Machine/Assembler.lean ====
section
/-! DEFINITION. The command assembly syntax (30_encoding.md Part C, R155, R156): one command a line, read from its
characters, with its word and its payload. The lexical details R155 leaves open are log 20's. -/

namespace Sys2Proof.Machine

/-- A line of R155, or a pseudo-command of R156. -/
inductive AsmLine where
  | write (data : Bytes)
  | read (n : U32)
  | flush
  | close
  | seek (offset : U32) (origin : Byte)
  | getpos
  | setpos (value : U32)
  | setlen (value : U32)
  | getlen
  | rdstat (sel : Byte)
  | dispose
  | mode
  | hdrbytes
  deriving DecidableEq, Repr

/-- The command a line stands for; WRITE's LEN is the byte count (R155), and pseudo-commands are expanded (R156). DESIGN
CHOICE: LEN is the count modulo 2^32, so a line of 2^32 bytes or more, for which R155 has no rule, spells a WRITE of
another length than its payload's (log 20). -/
def AsmLine.instr : AsmLine → Instr
  | .write data => .write (BitVec.ofNat 32 data.length)
  | .read n => .read n
  | .flush => .flush
  | .close => .close
  | .seek offset origin => .seek offset origin
  | .getpos => .getpos
  | .setpos value => .setpos value
  | .setlen value => .setlen value
  | .getlen => .getlen
  | .rdstat sel => .rdstat sel
  | .dispose => Instr.dispose
  | .mode => Instr.mode
  | .hdrbytes => Instr.hdrbytes

/-- The word of a line (R155). -/
def AsmLine.word (l : AsmLine) : U64 := l.instr.encode

/-- The bytes that follow a line's word on the data port (R140, R155). -/
def AsmLine.payload : AsmLine → Bytes
  | .write data => data
  | .read _ | .flush | .close | .seek _ _ | .getpos | .setpos _ | .setlen _ | .getlen | .rdstat _ | .dispose | .mode
  | .hdrbytes => []

/-- The register names `rdstat` takes for selectors (R155, 10_state.md R33); the CRC result has no register name. -/
def registerNames : List (String × Byte) :=
  [("STREAM_MODE", 0x00), ("DISPOSED", 0x01), ("FLAVOR", 0x02), ("CMODE", 0x03), ("LEVEL", 0x04),
    ("LEAVE_OPEN", 0x05), ("WORKBUF_SIZE", 0x06), ("MTIME_FIXED", 0x07), ("ENG_LIVE", 0x08), ("WB_LIVE", 0x09),
    ("WB_LEN", 0x0A)] ++
  [("IN_AVAIL", 0x0B), ("NO_MORE_INPUT", 0x0C), ("ENG_TOTAL_OUT", 0x0D), ("HDR_STATE", 0x0E), ("HDR_BYTES", 0x0F),
    ("HDR_MTIME", 0x10), ("HDR_FLG", 0x11), ("HDR_FNAME", 0x12), ("HDR_COMMENT", 0x13), ("CRC_COUNT", 0x15)]

/-- A token of a line. -/
inductive AsmToken where
  /-- A run of characters that are neither blanks nor one of the marks. -/
  | word (cs : List Char)
  /-- A text in double quotes. -/
  | text (cs : List Char)
  | comma
  | openBrace
  | closeBrace
  deriving DecidableEq, Repr

/-- Where the lexer stands: between tokens, in a word, in a text; characters of the token so far, last one first. -/
inductive LexMode where
  | between
  | inWord (rev : List Char)
  | inText (rev : List Char)
  deriving DecidableEq, Repr

/-- The mark a character is, if it is one (the braces by their code points). -/
def markOf (c : Char) : Option AsmToken :=
  if c = ',' then some .comma
  else if c.toNat = 0x7B then some .openBrace
  else if c.toNat = 0x7D then some .closeBrace
  else none

/-- The tokens of a line, up to its end or its comment (R155); none for a text that does not end. DESIGN CHOICE: a
semicolon inside a quoted text is a character of the text and starts no comment, and so are the other marks there; a mark
or a quote ends a word without a blank (log 20). -/
def lex : LexMode → List Char → Option (List AsmToken)
  | .between, [] => some []
  | .inWord rev, [] => some [.word rev.reverse]
  | .inText _, [] => none
  | .inText rev, c :: cs =>
    if c = '"' then (lex .between cs).map (.text rev.reverse :: ·) else lex (.inText (c :: rev)) cs
  | .between, c :: cs =>
    if c = ';' then some []
    else if c = ' ' ∨ c = '\t' then lex .between cs
    else if c = '"' then lex (.inText []) cs
    else
      match markOf c with
      | some t => (lex .between cs).map (t :: ·)
      | none => lex (.inWord [c]) cs
  | .inWord rev, c :: cs =>
    if c = ';' then some [.word rev.reverse]
    else if c = ' ' ∨ c = '\t' then (lex .between cs).map (.word rev.reverse :: ·)
    else if c = '"' then (lex (.inText []) cs).map (.word rev.reverse :: ·)
    else
      match markOf c with
      | some t => (lex .between cs).map (fun ts => .word rev.reverse :: t :: ts)
      | none => lex (.inWord (c :: rev)) cs

/-- A digit's value. -/
def digitOf (c : Char) : Option Nat :=
  if 0x30 ≤ c.toNat ∧ c.toNat ≤ 0x39 then some (c.toNat - 0x30)
  else if 0x41 ≤ c.toNat ∧ c.toNat ≤ 0x46 then some (c.toNat - 0x37)
  else if 0x61 ≤ c.toNat ∧ c.toNat ≤ 0x66 then some (c.toNat - 0x57)
  else none

/-- A number in a base, from the value of the digits read so far. -/
def digitsFrom (base : Nat) : Nat → List Char → Option Nat
  | n, [] => some n
  | n, c :: cs =>
    match digitOf c with
    | some d => if d < base then digitsFrom base (n * base + d) cs else none
    | none => none

/-- A number of at least one digit. -/
def digits (base : Nat) : List Char → Option Nat
  | [] => none
  | c :: cs => digitsFrom base 0 (c :: cs)

/-- A number operand: decimal, or hexadecimal after `0x` (00_scope.md R11). -/
def number (cs : List Char) : Option Nat :=
  match cs with
  | '0' :: 'x' :: ds => digits 16 ds
  | ds => digits 10 ds

/-- A number operand that is a u32. -/
def numberU32 (cs : List Char) : Option U32 :=
  match number cs with
  | some n => if n < 2 ^ 32 then some (BitVec.ofNat 32 n) else none
  | none => none

/-- A byte of `write {...}`: one or two hexadecimal digits. -/
def hexByte (cs : List Char) : Option Byte :=
  match digits 16 cs with
  | some n => if n < 256 ∧ cs.length ≤ 2 then some (BitVec.ofNat 8 n) else none
  | none => none

/-- The bytes up to the closing brace, which ends the line. -/
def hexBytes : List AsmToken → Option Bytes
  | [.closeBrace] => some []
  | .word cs :: ts =>
    match hexByte cs with
    | some b => (hexBytes ts).map (b :: ·)
    | none => none
  | _ => none

/-- The bytes of a text, one ISO-8859-1 character each (R155). -/
def textBytes : List Char → Option Bytes
  | [] => some []
  | c :: cs => if c.toNat < 256 then (textBytes cs).map (BitVec.ofNat 8 c.toNat :: ·) else none

/-- The selector operand of `rdstat`: a register name or a number. -/
def selector (cs : List Char) : Option Byte :=
  match registerNames.find? (fun p => p.1.toList = cs) with
  | some p => some p.2
  | none =>
    match number cs with
    | some n => if n < 256 then some (BitVec.ofNat 8 n) else none
    | none => none

/-- The origin operand of `seek` (R155: begin 0, current 1, end 2). -/
def originOf (cs : List Char) : Option Byte :=
  if cs = "begin".toList then some 0
  else if cs = "current".toList then some 1
  else if cs = "end".toList then some 2
  else none

/-- A line with no operand. -/
def plainLine (m : List Char) : Option AsmLine :=
  if m = "flush".toList then some .flush
  else if m = "close".toList then some .close
  else if m = "getpos".toList then some .getpos
  else if m = "getlen".toList then some .getlen
  else if m = "dispose".toList then some .dispose
  else if m = "mode".toList then some .mode
  else if m = "hdrbytes".toList then some .hdrbytes
  else none

/-- A line with one operand. -/
def operandLine (m v : List Char) : Option AsmLine :=
  if m = "read".toList then (numberU32 v).map .read
  else if m = "setpos".toList then (numberU32 v).map .setpos
  else if m = "setlen".toList then (numberU32 v).map .setlen
  else if m = "rdstat".toList then (selector v).map .rdstat
  else none

/-- A `seek` line from its two operands. -/
def seekLine (m v o : List Char) : Option AsmLine :=
  if m = "seek".toList then
    match numberU32 v, originOf o with
    | some offset, some origin => some (.seek offset origin)
    | _, _ => none
  else none

/-- The line a list of tokens spells (R155, R156). -/
def parseLine (ts : List AsmToken) : Option AsmLine :=
  match ts with
  | [.word m] => plainLine m
  | [.word m, .word v] => operandLine m v
  | [.word m, .word v, .comma, .word o] => seekLine m v o
  | [.word m, .text t] => if m = "write".toList then (textBytes t).map .write else none
  | .word m :: .openBrace :: ts => if m = "write".toList then (hexBytes ts).map .write else none
  | _ => none

/-- What a line of text is. -/
inductive AsmResult where
  /-- Nothing but blanks and a comment. -/
  | blank
  | line (l : AsmLine)
  /-- Not in the syntax of R155 and R156. -/
  | malformed
  deriving DecidableEq, Repr

/-- Reads one line of assembly text (R155). -/
def assembleLine (cs : List Char) : AsmResult :=
  match lex .between cs with
  | some [] => .blank
  | some ts =>
    match parseLine ts with
    | some l => .line l
    | none => .malformed
  | none => .malformed

end Sys2Proof.Machine
end

