-- ==== Sys2Proof/Safety.lean ====
section
/-! DEFINITION. The terms claims use: what the transaction record and the responses say (70_reset_and_hazards.md
R340), the invariants of an instance, and the named engine properties that a claim may assume
(93_implementation_defined.md I7). -/

namespace Sys2Proof.Machine

/-! ### Reading the transaction record -/

/-- The bytes a transaction appended to the channel's sink; a failed ChWrite appended a prefix (10_state.md R52,
20_memory.md R99). -/
def Txn.sunk : Txn → Bytes
  | .chWrite b .ok => b
  | .chWrite b (.fail _ kept) => b.take kept
  | .chRead _ _ | .chFlush _ | .chClose _ | .chLength _ | .engInit _ _ _ _ | .engStep _ _ _ _ _ | .engEnd _
  | .poolLease _ _ | .poolRelease | .clock _ => []

/-- The bytes a transaction drew from the channel's source (R51). -/
def Txn.drawn : Txn → Bytes
  | .chRead _ (.ok b) => b
  | .chRead _ (.fail _) => []
  | .chWrite _ _ | .chFlush _ | .chClose _ | .chLength _ | .engInit _ _ _ _ | .engStep _ _ _ _ _ | .engEnd _
  | .poolLease _ _ | .poolRelease | .clock _ => []

/-- The bytes the engine produced in a transaction (R62). -/
def Txn.produced : Txn → Bytes
  | .engStep _ _ _ _ a => a.produced
  | .chRead _ _ | .chWrite _ _ | .chFlush _ | .chClose _ | .chLength _ | .engInit _ _ _ _ | .engEnd _
  | .poolLease _ _ | .poolRelease | .clock _ => []

/-- The bytes the engine consumed in a transaction (R62). -/
def Txn.consumed : Txn → Bytes
  | .engStep _ _ input _ a => input.take a.consumed
  | .chRead _ _ | .chWrite _ _ | .chFlush _ | .chClose _ | .chLength _ | .engInit _ _ _ _ | .engEnd _
  | .poolLease _ _ | .poolRelease | .clock _ => []

/-- The bytes a record appended to the sink, in issue order (20_memory.md R103). -/
def sunk (r : List Txn) : Bytes := r.flatMap Txn.sunk

/-- The bytes a record drew from the source. -/
def drawn (r : List Txn) : Bytes := r.flatMap Txn.drawn

/-- The bytes the engine produced over a record, in step order. -/
def produced (r : List Txn) : Bytes := r.flatMap Txn.produced

/-- The bytes the engine consumed over a record. -/
def consumed (r : List Txn) : Bytes := r.flatMap Txn.consumed

/-- A channel transaction (R50). -/
def Txn.isChannel : Txn → Bool
  | .chRead _ _ | .chWrite _ _ | .chFlush _ | .chClose _ | .chLength _ => true
  | .engInit _ _ _ _ | .engStep _ _ _ _ _ | .engEnd _ | .poolLease _ _ | .poolRelease | .clock _ => false

/-- An engine step. -/
def Txn.isStep : Txn → Bool
  | .engStep _ _ _ _ _ => true
  | .chRead _ _ | .chWrite _ _ | .chFlush _ | .chClose _ | .chLength _ | .engInit _ _ _ _ | .engEnd _
  | .poolLease _ _ | .poolRelease | .clock _ => false

/-- An initialisation of the engine that succeeded (R61). -/
def Txn.isInit : Txn → Bool
  | .engInit _ _ _ (.ok _) => true
  | .engInit _ _ _ (.fail _) => false
  | .chRead _ _ | .chWrite _ _ | .chFlush _ | .chClose _ | .chLength _ | .engStep _ _ _ _ _ | .engEnd _
  | .poolLease _ _ | .poolRelease | .clock _ => false

/-- An end of the engine (R66). -/
def Txn.isEnd : Txn → Bool
  | .engEnd _ => true
  | .chRead _ _ | .chWrite _ _ | .chFlush _ | .chClose _ | .chLength _ | .engInit _ _ _ _ | .engStep _ _ _ _ _
  | .poolLease _ _ | .poolRelease | .clock _ => false

/-- A lease of a buffer (R75). -/
def Txn.isLease : Txn → Bool
  | .poolLease _ _ => true
  | .chRead _ _ | .chWrite _ _ | .chFlush _ | .chClose _ | .chLength _ | .engInit _ _ _ _ | .engStep _ _ _ _ _
  | .engEnd _ | .poolRelease | .clock _ => false

/-- A release of the buffer (R76). -/
def Txn.isRelease : Txn → Bool
  | .poolRelease => true
  | .chRead _ _ | .chWrite _ _ | .chFlush _ | .chClose _ | .chLength _ | .engInit _ _ _ _ | .engStep _ _ _ _ _
  | .engEnd _ | .poolLease _ _ | .clock _ => false

/-- A reading of the clock (R78). -/
def Txn.isClock : Txn → Bool
  | .clock _ => true
  | .chRead _ _ | .chWrite _ _ | .chFlush _ | .chClose _ | .chLength _ | .engInit _ _ _ _ | .engStep _ _ _ _ _
  | .engEnd _ | .poolLease _ _ | .poolRelease => false

/-- A transaction that is no failed channel read, write or flush and no engine step with a failure status. -/
def Txn.clean : Txn → Bool
  | .chRead _ (.ok _) => true
  | .chRead _ (.fail _) => false
  | .chWrite _ .ok => true
  | .chWrite _ (.fail _ _) => false
  | .chFlush (.ok _) => true
  | .chFlush (.fail _) => false
  | .engStep _ _ _ _ a => !a.status.isFailure
  | .chClose _ | .chLength _ | .engInit _ _ _ _ | .engEnd _ | .poolLease _ _ | .poolRelease | .clock _ => true

/-- An engine step has output room, and its answer keeps the bounds of R62; a channel read asks for at least one byte
and gets at most what it asks (R51); a channel write carries at least one byte (R52). -/
def Txn.sound : Txn → Bool
  | .engStep _ _ input cap a => decide (1 ≤ cap) && stepFits input cap a
  | .chRead n a => decide (1 ≤ n) && readFits n a
  | .chWrite b a => decide (1 ≤ b.length) && writeFits b a
  | .poolLease n b => leaseFits n b
  | .chFlush _ | .chClose _ | .chLength _ | .engInit _ _ _ _ | .engEnd _ | .poolRelease | .clock _ => true

/-- A transaction with the engine's input reduced to its length. -/
def Txn.blind : Txn → Txn
  | .engStep flush dir input cap a => .engStep flush dir (List.replicate input.length 0) cap a
  | .chRead n a => .chRead n a
  | .chWrite b a => .chWrite b a
  | .chFlush a => .chFlush a
  | .chClose a => .chClose a
  | .chLength a => .chLength a
  | .engInit dir level want a => .engInit dir level want a
  | .engEnd dir => .engEnd dir
  | .poolLease n b => .poolLease n b
  | .poolRelease => .poolRelease
  | .clock t => .clock t

/-! ### Reading the responses -/

/-- The bytes READ returned in a response: the first n of its buffer (42_read.md R220). -/
def Response.returned : Response → Bytes
  | .ok (.read n dst) => dst.take n
  | .ok .unit | .ok (.length _) | .ok (.reg _) => []
  | .err _ _ => []

/-- The bytes READ returned over the responses, in order. -/
def returned (rs : List Response) : Bytes := rs.flatMap Response.returned

/-- The bytes an unfinished READ has produced so far, where it will go on. -/
def InFlight.bytes : InFlight → Bytes
  | .readLoop _ _ w => w
  | .writeLoop | .finishLoop | .stuck _ => []
  | .nameLoop _ _ _ | .commentLoop _ _ _ => []

/-- A READ's header parse in flight (log 4). -/
def InFlight.isParse : InFlight → Bool
  | .nameLoop _ _ _ | .commentLoop _ _ _ => true
  | .readLoop _ _ _ | .writeLoop | .finishLoop | .stuck _ => false

/-- A READ in flight (log 4). -/
def InFlight.isRead : InFlight → Bool
  | .nameLoop _ _ _ | .commentLoop _ _ _ | .readLoop _ _ _ => true
  | .writeLoop | .finishLoop | .stuck _ => false

/-- The bytes the command in flight, if it is a READ, has produced so far. -/
def State.pending (s : State) : Bytes :=
  match s.inFlight with
  | some f => f.bytes
  | none => []

/-! ### Stuck commands (20_memory.md R105) -/

/-- A command waits for ever for the answer of this transaction. -/
abbrev State.StuckOn (s : State) (p : PortName) : Prop := s.inFlight = some (.stuck p)

/-- A channel primitive (10_state.md R50). -/
def PortName.isChannel : PortName → Bool
  | .chRead | .chWrite | .chFlush | .chClose | .chLength => true
  | .engInit | .engStep | .engEnd | .poolLease | .poolRelease | .clock => false

/-- A CLOSE is stuck past the end of the engine (43_control.md R249). -/
abbrev State.HalfTorn (s : State) : Prop := s.StuckOn .poolRelease ∨ s.StuckOn .chClose

/-! ### Invariants of an instance -/

/-- `IN_NEXT + IN_AVAIL = |IN_WIN|` (20_memory.md R94). -/
abbrev State.WindowInv (s : State) : Prop := s.inNext + s.inAvail = s.inWin.length

/-- The accumulator exists exactly for Gzip (10_state.md R70). -/
abbrev State.ChecksumInv (s : State) : Prop := s.crcLive = decide (s.flavor = .gzip)

/-- The engine and the buffer are live together, but for a command stuck between the two; a leased WORK is WB_LEN ≥ 1
bytes long, a released one empty (10_state.md R48, 20_memory.md R93). -/
abbrev State.BufferInv (s : State) : Prop :=
  1 ≤ s.workbufSize ∧ (¬s.StuckOn .poolLease → ¬s.StuckOn .poolRelease → s.engLive = s.wbLive) ∧
  (s.wbLive = true → s.work.length = s.wbLen ∧ 1 ≤ s.wbLen) ∧ (s.wbLive = false → s.work = [])

/-- A live engine has a direction and is on an open instance; exhaustion is a Reader's (10_state.md R45, 43_control.md
R245, R248). -/
abbrev State.LifeInv (s : State) : Prop :=
  (s.engLive = true → s.streamMode ≠ .undefined ∧ s.disposed = false) ∧
  (s.noMoreInput = true → s.streamMode = .reader) ∧
  (s.inFlight ≠ none → s.disposed = false)

/-- The header registers in each header state (10_state.md R34, 40_envelope.md R160, R170). -/
abbrev State.HeaderInv (s : State) : Prop :=
  (s.hdrState = .none →
    s.hdrBytes = 0 ∧ s.hdrMtime = 0 ∧ s.hdrFlg = 0 ∧ s.hdrFname = none ∧ s.hdrComment = none) ∧
  (s.hdrState = .parsed →
    s.flavor = .gzip ∧ s.cmode = .decompress ∧ s.streamMode = .reader ∧ 10 ≤ s.hdrBytes ∧
    s.hdrFname.isSome = flgFname s.hdrFlg ∧ s.hdrComment.isSome = flgFcomment s.hdrFlg) ∧
  (s.hdrState = .emitted →
    s.flavor = .gzip ∧ s.cmode = .compress ∧ s.streamMode = .writer ∧ s.hdrBytes = 10 ∧ s.hdrFlg = 0 ∧
    s.hdrFname = none ∧ s.hdrComment = none) ∧
  (s.hdrState = .empty →
    s.flavor = .gzip ∧ s.cmode = .decompress ∧ s.streamMode = .reader ∧ s.hdrBytes = 0 ∧ s.engLive = false)

/-- What is live while a command is stuck on a transaction (41_write.md R204, 43_control.md R249). -/
def PortName.fits (s : State) : PortName → Bool
  | .engInit => !s.engLive
  | .poolLease => s.engLive && !s.wbLive
  | .engStep | .engEnd => s.engLive
  | .poolRelease => !s.engLive && s.wbLive
  | .chClose => !s.engLive
  | .chRead => decide (s.streamMode = .reader)
  | .chWrite => decide (s.streamMode = .writer)
  | .clock => decide (s.streamMode = .writer) && decide (s.mtimeFixed = none)
  | .chFlush | .chLength => true

/-- What holds of the state while a command stands at `f`. -/
def InFlight.fits (s : State) : InFlight → Bool
  | .writeLoop => decide (s.streamMode = .writer) && s.engLive
  | .finishLoop => decide (s.streamMode = .writer) && s.engLive
  | .readLoop len room w =>
    decide (s.streamMode = .reader) && s.engLive && !s.noMoreInput && decide (0 < room) &&
    decide (room + w.length = len) && decide (s.caller.length = len) && decide (s.caller.take w.length = w)
  | .nameLoop len h _ =>
    decide (s.streamMode = .reader) && decide (s.flavor = .gzip) && decide (s.cmode = .decompress) &&
    decide (s.hdrState = .none) && !s.engLive && flgFname h.flg && decide (h.name = none) &&
    decide (h.comment = none) && decide (10 ≤ h.total) && decide (s.caller.length = len)
  | .commentLoop len h _ =>
    decide (s.streamMode = .reader) && decide (s.flavor = .gzip) && decide (s.cmode = .decompress) &&
    decide (s.hdrState = .none) && !s.engLive && flgFcomment h.flg && decide (h.name.isSome = flgFname h.flg) &&
    decide (h.comment = none) && decide (10 ≤ h.total) && decide (s.caller.length = len)
  | .stuck p => p.fits s

/-- A command in flight stands where its command can stand (logs 4 and 5). -/
abbrev State.FlightInv (s : State) : Prop := s.inFlight.all (InFlight.fits s) = true

/-- The invariant of an instance: what holds between any two steps of a run from construction. -/
abbrev State.Inv (s : State) : Prop :=
  s.WindowInv ∧ s.ChecksumInv ∧ s.BufferInv ∧ s.LifeInv ∧ s.HeaderInv ∧ s.FlightInv

/-- Exactly-once release, read off the record (10_state.md R47, 43_control.md R251): the engine is initialised at most
once and ended at most once, the buffer leased at most once and released at most once, and what is live is what was
taken and not given back. -/
abbrev State.ReleaseInv (s : State) : Prop :=
  s.trace.countP Txn.isInit = s.trace.countP Txn.isEnd + boolNumber s.engLive ∧
  s.trace.countP Txn.isLease = s.trace.countP Txn.isRelease + boolNumber s.wbLive ∧
  (s.disposed = false → ¬s.HalfTorn → s.trace.countP Txn.isEnd = 0 ∧ s.trace.countP Txn.isRelease = 0) ∧
  s.trace.countP Txn.isInit ≤ 1 ∧ s.trace.countP Txn.isLease ≤ 1

/-- ENG_TOTAL_OUT counts the bytes of every engine step on record, modulo 2^64 (10_state.md R32, R62). -/
abbrev State.TotalInv (s : State) : Prop := s.engTotalOut = BitVec.ofNat 64 (produced s.trace).length

/-- Every transaction on record is one the ports allow (10_state.md R51, R52, R62). -/
abbrev State.SoundInv (s : State) : Prop := s.trace.all Txn.sound = true

/-- The clock is read at most once, and only by an instance with no fixed timestamp that has a direction (R78). -/
abbrev State.ClockInv (s : State) : Prop :=
  s.trace.countP Txn.isClock ≤ 1 ∧
  (s.streamMode = .undefined ∨ s.mtimeFixed ≠ none → s.trace.countP Txn.isClock = 0)

/-- What a compressing Gzip writer that met no failure has for its sink (20_memory.md R103): the header, every byte the
engine produced, and, once Finish is over, the trailer. -/
def State.owedToSink (s : State) : Bytes :=
  headerBytes s.plat s.hdrMtime ++ produced s.trace ++
    (if s.trace.any Txn.isEnd = true ∨ s.StuckOn .engEnd then s.trailerBytes else [])

/-- The sink of a compressing Gzip writer that met no failure (20_memory.md R103): all it has for the sink, or, stuck
before a ChWrite was answered, the beginning of that. Before the first WRITE the sink is empty. -/
abbrev State.SinkInv (s : State) : Prop :=
  s.flavor = .gzip → s.cmode = .compress → s.trace.all Txn.clean = true →
  (s.streamMode = .undefined → sunk s.trace = [] ∧ produced s.trace = []) ∧
  (s.streamMode = .writer → sunk s.trace <+: s.owedToSink ∧
    (¬s.StuckOn .chWrite → ¬s.StuckOn .clock → sunk s.trace = s.owedToSink))

/-- What a Reader's accumulator holds: every byte READ returned, and nothing else (10_state.md R73, 42_read.md R230). -/
abbrev State.ReaderChecksumInv (s : State) : Prop :=
  s.crcLive = true → s.streamMode ≠ .writer →
  s.crcReg = crcFold s.plat.crc32fn 0xFFFFFFFF (returned s.responses) ∧
  s.crcCount = BitVec.ofNat 64 (returned s.responses).length

/-- What a Reader that met no failure returned, with what an unfinished READ has produced, is what its engine produced,
or, with a READ stuck, the beginning of that (42_read.md R226, R230, R233). -/
abbrev State.ReturnInv (s : State) : Prop :=
  s.streamMode ≠ .writer → s.trace.all Txn.clean = true →
  returned s.responses ++ s.pending <+: produced s.trace ∧
  (¬s.StuckOn .chRead → ¬s.StuckOn .engStep → returned s.responses ++ s.pending = produced s.trace)

/-- While a header is being parsed, every byte drawn from the source is counted in it (40_envelope.md R161, R169). -/
def InFlight.counted (s : State) : InFlight → Bool
  | .nameLoop _ h acc => decide ((drawn s.trace).length = h.total + acc.length)
  | .commentLoop _ h acc => decide ((drawn s.trace).length = h.total + acc.length)
  | .writeLoop | .finishLoop | .stuck _ => true
  | .readLoop _ _ _ => true

/-- The bytes a header parse drew are counted: after it, and until the engine is live, HDR_BYTES is every byte drawn
from the source (40_envelope.md R161, R169); an instance with no direction has drawn none. -/
abbrev State.DrawnInv (s : State) : Prop :=
  (s.streamMode = .undefined → drawn s.trace = []) ∧ s.inFlight.all (InFlight.counted s) = true ∧
  (s.hdrState = .parsed → s.hdrBytes ≤ (drawn s.trace).length ∧
    (s.engLive = false → s.disposed = false → ¬s.HalfTorn → s.hdrBytes = (drawn s.trace).length)) ∧
  (s.hdrState = .empty → drawn s.trace = [])

/-! ### Which error answers which command -/

/-- The errors a command can answer with (60_exceptions.md R285). -/
def mayRaise (i : Instr) (e : Error) : Bool :=
  match i with
  | .write _ =>
    decide (e = .disposed .write) || decide (e = .writeAfterRead) || decide (e.kind = .channel) ||
    decide (e.kind = .engine)
  | .read _ =>
    decide (e = .disposed .read) || decide (e = .readAfterWrite) || decide (e.kind = .format) ||
    decide (e.kind = .channel) || decide (e.kind = .engine)
  | .flush => decide (e = .disposed .flush) || decide (e.kind = .channel)
  | .close =>
    decide (e.kind = .engine ∧ e.code = 2) || decide (e.kind = .channel) || decide (e.kind = .usage ∧ e.code = 4)
  | .seek _ _ => decide (e = .disposed .seek) || decide (e = .unsupportedOp .seek)
  | .getpos => decide (e = .disposed .getpos) || decide (e = .unsupportedOp .getpos)
  | .setpos _ => decide (e = .disposed .setpos) || decide (e = .unsupportedOp .setpos)
  | .setlen _ => decide (e = .disposed .setlen) || decide (e = .unsupportedOp .setlen)
  | .getlen => decide (e = .disposed .getlen) || decide (e.kind = .channel)
  | .rdstat _ => false

/-- The errors a command in flight can still answer with: those of its command past the checks it has passed. -/
def mayRaiseLater (f : InFlight) (e : Error) : Bool :=
  match f with
  | .writeLoop => decide (e.kind = .channel) || decide (e.kind = .engine ∧ e.code = 2)
  | .finishLoop =>
    decide (e.kind = .engine ∧ e.code = 2) || decide (e.kind = .channel) || decide (e.kind = .usage ∧ e.code = 4)
  | .readLoop _ _ _ => decide (e.kind = .channel) || decide (e.kind = .engine ∧ e.code = 2)
  | .nameLoop _ _ _ | .commentLoop _ _ _ =>
    decide (e.kind = .format) || decide (e.kind = .channel) || decide (e.kind = .engine)
  | .stuck _ => false

/-! ### The registers by selector -/

/-- A natural as RDSTAT answers it. -/
def regNum (n : Nat) : RegValue := .num (Int.ofNat n)

/-- Selectors 0x00 to 0x07. -/
def State.registerTableA (s : State) : List (Byte × RegValue) :=
  [(0x00, regNum (match s.streamMode with
        | .undefined => 0
        | .reader => 1
        | .writer => 2)),
  (0x01, regNum (if s.disposed then 1 else 0)),
  (0x02, regNum (match s.flavor with
        | .zlib => 0
        | .deflate => 1
        | .gzip => 2)),
  (0x03, regNum (match s.cmode with
        | .compress => 0
        | .decompress => 1)),
  (0x04, .num s.level),
  (0x05, regNum (if s.leaveOpen then 1 else 0)),
  (0x06, regNum s.workbufSize),
  (0x07, match s.mtimeFixed with
        | none => .absent
        | some m => regNum m.toNat)]

/-- Selectors 0x08 to 0x0E. -/
def State.registerTableB (s : State) : List (Byte × RegValue) :=
  [(0x08, regNum (if s.engLive then 1 else 0)),
  (0x09, regNum (if s.wbLive then 1 else 0)),
  (0x0A, regNum s.wbLen),
  (0x0B, regNum s.inAvail),
  (0x0C, regNum (if s.noMoreInput then 1 else 0)),
  (0x0D, regNum s.engTotalOut.toNat),
  (0x0E, regNum (match s.hdrState with
        | .none => 0
        | .parsed => 1
        | .emitted => 2
        | .empty => 3))]

/-- Selectors 0x0F to 0x15. -/
def State.registerTableC (s : State) : List (Byte × RegValue) :=
  [(0x0F, regNum s.hdrBytes),
  (0x10, regNum s.hdrMtime.toNat),
  (0x11, regNum s.hdrFlg.toNat),
  (0x12, match s.hdrFname with
        | none => .absent
        | some b => .bytes b),
  (0x13, match s.hdrComment with
        | none => .absent
        | some b => .bytes b),
  (0x14, if s.crcLive then regNum (s.crcReg ^^^ 0xFFFFFFFF).toNat else .absent),
  (0x15, if s.crcLive then regNum s.crcCount.toNat else .absent)]

/-- The value RDSTAT answers for each selector (10_state.md R33, 43_control.md R270). -/
def State.registerTable (s : State) : List (Byte × RegValue) :=
  s.registerTableA ++ s.registerTableB ++ s.registerTableC

/-! ### Runs -/

/-- `t` is reached from `s` by steps that answer a next state. -/
inductive Reaches (s : State) : State → Prop where
  | start : Reaches s s
  | next {t u : State} (before : Reaches s t) (last : step t = .next u) : Reaches s u

/-- A constructed instance with the commands its caller will issue and the answers its collaborators will give. -/
def State.loaded (p : Platform) (a : ConstructArgs) (commands : List Command) (ports : Ports) (draws : Nat) : State :=
  { State.fresh p a with commands := commands, ports := ports, draws := draws }

/-! ### A header on the wire -/

/-- The bytes of a GZIP header with every optional field given by its presence and contents (30_encoding.md R121,
R124, R126): `rest` are FLG bits 0 and 5 to 7. -/
structure WireHeader where
  rest    : Byte
  mtime   : U32
  xfl     : Byte
  os      : Byte
  extra   : Option Bytes
  name    : Option Bytes
  comment : Option Bytes
  hcrc    : Option (Byte × Byte)
  deriving DecidableEq, Repr

/-- A mask if a field is present (R124). -/
def maskIf (present : Bool) (mask : Byte) : Byte := if present then mask else 0

/-- FLG (R124). -/
def WireHeader.flg (h : WireHeader) : Byte :=
  (h.rest &&& 0xE1) ||| maskIf h.hcrc.isSome 0x02 ||| maskIf h.extra.isSome 0x04 ||| maskIf h.name.isSome 0x08 |||
    maskIf h.comment.isSome 0x10

/-- The optional fields in wire order (R126). -/
def WireHeader.optional (h : WireHeader) : Bytes :=
  (match h.extra with
    | none => []
    | some x => [BitVec.ofNat 8 (x.length % 256), BitVec.ofNat 8 (x.length / 256)] ++ x) ++
  (match h.name with
    | none => []
    | some n => n ++ [0]) ++
  (match h.comment with
    | none => []
    | some c => c ++ [0]) ++
  (match h.hcrc with
    | none => []
    | some (a, b) => [a, b])

/-- The whole header (R121, R126). -/
def WireHeader.wire (h : WireHeader) : Bytes :=
  [0x1F, 0x8B, 0x08, h.flg] ++ toLE32 h.mtime ++ [h.xfl, h.os] ++ h.optional

/-- XLEN fits its two bytes, and no string holds the 0x00 that ends it (R126). -/
def WireHeader.wf (h : WireHeader) : Bool :=
  (h.extra.all fun x => decide (x.length < 65536)) && (h.name.all fun n => n.all fun b => decide (b ≠ 0)) &&
    (h.comment.all fun c => c.all fun b => decide (b ≠ 0))

/-- How many bytes an optional field takes: its contents and `more` of framing (R127). -/
def fieldSize (more : Nat) : Option Bytes → Nat
  | none => 0
  | some b => b.length + more

/-- The optional field that a channel ending after `n` bytes of the header, `n ≥ 10`, ends inside (40_envelope.md R165
to R168). -/
def WireHeader.placeAt (h : WireHeader) (n : Nat) : HdrField :=
  let extra := 10 + fieldSize 2 h.extra
  let name := extra + fieldSize 1 h.name
  let comment := name + fieldSize 1 h.comment
  if n < extra then (if n < 12 then .fextraLen else .fextraData)
  else if n < name then .fname
  else if n < comment then .fcomment
  else .fhcrc

/-! ### Named engine properties (93_implementation_defined.md I7) -/

/-- The engine's answers on record, in order. -/
def engineAnswers (r : List Txn) : List StepAnswer :=
  r.filterMap fun t => match t with
    | .engStep _ _ _ _ a => some a
    | .chRead _ _ | .chWrite _ _ | .chFlush _ | .chClose _ | .chLength _ | .engInit _ _ _ _ | .engEnd _
    | .poolLease _ _ | .poolRelease | .clock _ => none

/-- The answer of an engine that has ended and stays ended. -/
def endedAnswer : StepAnswer := { consumed := 0, produced := [], status := .streamEnd }

/-- ENGINE_STICKY_END: after STREAM_END every answer is STREAM_END with c = 0 and p = [] (40_envelope.md R182). -/
def stickyEnd : List StepAnswer → Bool
  | [] => true
  | a :: as => (decide (a.status ≠ .streamEnd) || as.all (fun b => decide (b = endedAnswer))) && stickyEnd as

/-- A record whose engine reached its end of stream. -/
def reachedEnd (r : List Txn) : Bool := (engineAnswers r).any fun a => decide (a.status = .streamEnd)

/-- The flush types of a record's engine steps; FINISH occurs or it does not. -/
def usesFinish (r : List Txn) : Bool :=
  r.any fun t => match t with
    | .engStep f _ _ _ _ => decide (f = .finish)
    | .chRead _ _ | .chWrite _ _ | .chFlush _ | .chClose _ | .chLength _ | .engInit _ _ _ _ | .engEnd _
    | .poolLease _ _ | .poolRelease | .clock _ => false

/-- ENGINE_CHUNK_INVARIANT of the records an engine can give: for complete streams the produced bytes depend only on
the consumed bytes and the flush types, not on caps or chunking (42_read.md R233; log 21). -/
def ChunkInvariant (gives : List Txn → Prop) : Prop :=
  ∀ r q, gives r → gives q → reachedEnd r = true → reachedEnd q = true →
    consumed r = consumed q → usesFinish r = usesFinish q → produced r = produced q

end Sys2Proof.Machine
end

