-- ==== Sys2Proof/Certificates/Slice0/Obligations.lean ====
section
/-! DEFINITION. The statements for the provers, one for each numbered rule or group of rules they formalise. -/

open Sys2Proof Sys2Proof.Machine

/-! ### Encoding -/

/-- Decoding the word of any command gives the command back, at every operand value the encoding admits (R140, R142). -/
def Obligations.DecodeOfEncode : Prop :=
  ∀ i : Instr, i.wf = true → decode i.encode = .ok i

/-- A word that decodes spells exactly one well-formed command, whose encoding it is: every accepted bit is accounted
for (R140 to R142, R150 to R152). -/
def Obligations.EncodeOfDecode : Prop :=
  ∀ (w : U64) (i : Instr), decode w = .ok i → i.wf = true ∧ i.encode = w

/-- The command words of the test vectors decode as they are listed there. -/
def Obligations.ListedWordsDecode : Prop :=
  decode 0x0000000300000001 = .ok (.write 3) ∧ decode 0x0000000A00000002 = .ok (.read 10) ∧
  decode 0x0000000000000003 = .ok .flush ∧ decode 0x0000000000000004 = .ok .close ∧
  decode 0x0000000700000205 = .ok (.seek 7 2) ∧ decode 0x0000000000000006 = .ok .getpos ∧
  decode 0x0000000000000007 = .ok (.setpos 0) ∧ decode 0x0000000500000008 = .ok (.setlen 5) ∧
  decode 0x0000000000000009 = .ok .getlen ∧ decode 0x000000000000140A = .ok (.rdstat 0x14)

/-- A word that decodes to no command answers ILLEGAL_COMMAND with the word, before every other check and in every
lifecycle state, and changes nothing (R153); so answer the illegal opcodes (R150), the reserved, SEL and LEN fields and
SEEK origins (R151) and the reserved selectors (R152). A WRITE payload of another length than LEN is refused (R151). -/
def Obligations.IllegalCommands : Prop :=
  (∀ (s : State) (c : Command) (rest : List Command) (e : DecodeError), s.inFlight = none → s.commands = c :: rest →
    decode c.word = .error e →
    step s = .next { s with
      commands := rest, responses := s.responses ++ [.err (.illegalCommand c.word) none] }) ∧
  (∀ w : U64,
    (opcOf w = 0x00 ∨ 0x0B ≤ (opcOf w).toNat ∨ rsvOf w ≠ 0 ∨
      (selOf w ≠ 0 ∧ opcOf w ≠ 0x05 ∧ opcOf w ≠ 0x0A) ∨
      (lenOf w ≠ 0 ∧ opcOf w ∈ [0x03, 0x04, 0x06, 0x09, (0x0A : Byte)]) ∨
      (opcOf w = 0x05 ∧ 2 < (selOf w).toNat) ∨ (opcOf w = 0x0A ∧ 0x16 ≤ (selOf w).toNat)) ↔
    ∃ e, decode w = .error e) ∧
  (∀ (len : U32) (s : State), s.caller.length ≠ len.toNat → exec (.write len) s = .refused .payloadLength)

/-! ### The step -/

/-- With no command in flight and the caller's next word decoding to `i`, a step is `exec i`, the command's data in
CALLER (R140, R153; logs 8 and 10). -/
def Obligations.StepRunsDecoded : Prop :=
  ∀ (s : State) (c : Command) (rest : List Command) (i : Instr), s.inFlight = none → s.commands = c :: rest →
    decode c.word = .ok i → step s = exec i { s with commands := rest, caller := c.data }

/-- With no command in flight and none to come the block holds its state; a command in flight goes on, and `exec`
admits no other beside it (R107, R294, R300; logs 4 and 8). -/
def Obligations.StepOtherwise : Prop :=
  (∀ s : State, s.inFlight = none → s.commands = [] → step s = .next s) ∧
  (∀ (s : State) (f : InFlight), s.inFlight = some f → step s = resume f { s with inFlight := none }) ∧
  (∀ (i : Instr) (s : State) (f : InFlight), s.inFlight = some f →
    (∀ len, i = .write len ∨ i = .read len → s.caller.length = len.toNat) → exec i s = .refused .commandInFlight)

/-- With no scripted answer to come, so that every answer is a free one, and no command in flight, every command gives
a next state and is stuck nowhere, whatever the state and the operands; WRITE and READ need data of LEN bytes. -/
def Obligations.EveryCommandAnswers : Prop :=
  ∀ (i : Instr) (s : State), s.inFlight = none → s.ports = {} →
    (∀ len, i = .write len ∨ i = .read len → s.caller.length = len.toNat) →
    ∃ t, exec i s = .next t ∧ ∀ p, ¬t.StuckOn p

/-- A collaborator that never answers a transaction leaves its command in flight for ever, with every effect made before
kept and the transaction not on record; the block waits, its state unchanged (R105, R294, R300). One clause for each
primitive, in a command that issues it. -/
def Obligations.SilentCollaborator : Prop :=
  (∀ (s : State) (p : PortName), s.StuckOn p → step s = .next s) ∧
  (∀ s : State, s.inFlight = none → s.disposed = false →
    (∀ q, s.ports.chFlush = .silent :: q → exec .flush s = .next { s with inFlight := some (.stuck .chFlush) }) ∧
    (∀ q, s.ports.chLength = .silent :: q → exec .getlen s = .next { s with inFlight := some (.stuck .chLength) }) ∧
    (∀ q, s.engLive = false → s.wbLive = false → s.leaveOpen = false → s.ports.chClose = .silent :: q →
      exec .close s = .next { s with inFlight := some (.stuck .chClose) }) ∧
    (∀ q, s.engLive = true → s.streamMode = .reader → s.ports.engEnd = .silent :: q →
      exec .close s = .next { s with inFlight := some (.stuck .engEnd) }) ∧
    (∀ q r, s.engLive = true → s.wbLive = true → s.streamMode = .reader → s.ports.engEnd = .answer () :: q →
      s.ports.poolRelease = .silent :: r → exec .close s = .next { s with
        engLive := false, ports := { s.ports with engEnd := q }, trace := s.trace ++ [.engEnd s.cmode]
        inFlight := some (.stuck .poolRelease) })) ∧
  (∀ (s : State) (len : U32), s.inFlight = none → s.disposed = false → s.caller.length = len.toNat → len ≠ 0 →
    (∀ q, s.streamMode = .reader → s.hdrState ≠ .empty → s.engLive = true → s.wbLive = true → s.inAvail = 0 →
      s.noMoreInput = false → s.ports.chRead = .silent :: q →
      exec (.read len) s = .next { s with inFlight := some (.stuck .chRead) }) ∧
    (∀ q, s.streamMode = .undefined → s.flavor = .gzip → s.cmode = .compress → s.mtimeFixed = none →
      s.ports.clock = .silent :: q →
      exec (.write len) s = .next { s with streamMode := .writer, inFlight := some (.stuck .clock) }) ∧
    (∀ q, s.streamMode = .writer → s.crcLive = false → s.engLive = false → s.ports.engInit = .silent :: q →
      exec (.write len) s = .next { s with inFlight := some (.stuck .engInit) }) ∧
    (∀ q r, s.streamMode = .writer → s.crcLive = false → s.engLive = false → s.wbLive = false →
      s.ports.engInit = .answer (.ok ()) :: q → s.ports.poolLease = .silent :: r →
      exec (.write len) s = .next { s with
        engLive := true, ports := { s.ports with engInit := q }
        trace := s.trace ++ [
          .engInit s.cmode (if s.cmode = .compress then some s.level else none) (decide (s.flavor = .zlib)) (.ok ())]
        inFlight := some (.stuck .poolLease) }) ∧
    (∀ q, s.streamMode = .writer → s.crcLive = false → s.engLive = true → s.wbLive = true →
      s.ports.engStep = .silent :: q → exec (.write len) s = .next { s with
        inWin := s.caller, inNext := 0, inAvail := s.caller.length, inFlight := some (.stuck .engStep) }) ∧
    (∀ a q r, s.streamMode = .writer → s.crcLive = false → s.engLive = true → s.wbLive = true →
      s.ports.engStep = .answer a :: q → a.consumed ≤ s.caller.length → a.produced.length ≤ s.wbLen →
      a.status = .ok ∨ a.status = .streamEnd → a.produced ≠ [] → s.ports.chWrite = .silent :: r →
      exec (.write len) s = .next { s with
        inWin := s.caller, inNext := a.consumed, inAvail := s.caller.length - a.consumed
        engTotalOut := s.engTotalOut + BitVec.ofNat 64 a.produced.length
        work := a.produced ++ s.work.drop a.produced.length
        ports := { s.ports with engStep := q }
        trace := s.trace ++ [.engStep .none s.cmode s.caller s.wbLen a]
        inFlight := some (.stuck .chWrite) }))

/-! ### Construction -/

/-- Construction refuses a working-buffer size of 0 and nothing else (R322); what it leaves in every register, and that
it makes no transaction (R320, R321). -/
def Obligations.Construction : Prop :=
  (∀ (p : Platform) (a : ConstructArgs), State.construct p a = none ↔ a.wbSize = some 0) ∧
  (∀ (p : Platform) (a : ConstructArgs) (s : State), State.construct p a = some s →
    s.plat = p ∧ s.flavor = a.flavor ∧ s.cmode = a.cmode ∧ s.level = a.level ∧ s.leaveOpen = a.leaveOpen ∧
    s.workbufSize = a.wbSize.getD p.workbufSizeDefault ∧ s.mtimeFixed = a.mtimeFixed ∧
    s.streamMode = .undefined ∧ s.disposed = false ∧ s.engLive = false ∧ s.wbLive = false ∧ s.wbLen = 0 ∧
    s.work = [] ∧ s.inWin = [] ∧ s.inNext = 0 ∧ s.inAvail = 0 ∧ s.noMoreInput = false ∧ s.engTotalOut = 0 ∧
    s.hdrState = .none ∧ s.hdrBytes = 0 ∧ s.hdrMtime = 0 ∧ s.hdrFlg = 0 ∧ s.hdrFname = none ∧ s.hdrComment = none ∧
    s.crcLive = decide (a.flavor = .gzip) ∧ s.crcReg = 0xFFFFFFFF ∧ s.crcCount = 0 ∧ s.trace = [] ∧ s.responses = [])

/-- Every instance, whatever commands and answers are to come, begins in a state that meets the invariants; State.reset
is one of the instances constructed (the model's choice: log 3). -/
def Obligations.ConstructionMeetsInvariants : Prop :=
  State.construct {} ConstructArgs.first = some State.reset ∧ State.reset.Inv ∧
  ∀ (p : Platform) (a : ConstructArgs) (cs : List Command) (ports : Ports) (k : Nat),
    1 ≤ a.wbSize.getD p.workbufSizeDefault →
    (State.loaded p a cs ports k).Inv ∧ (State.loaded p a cs ports k).ReleaseInv ∧
    (State.loaded p a cs ports k).TotalInv ∧ (State.loaded p a cs ports k).SoundInv ∧
    (State.loaded p a cs ports k).ClockInv ∧ (State.loaded p a cs ports k).SinkInv ∧
    (State.loaded p a cs ports k).ReaderChecksumInv ∧ (State.loaded p a cs ports k).ReturnInv ∧
    (State.loaded p a cs ports k).DrawnInv

/-! ### Invariants that every step keeps -/

/-- The window, the checksum's existence, the engine and buffer live together, the header registers by header state,
and a command in flight standing where its command can (R34, R45, R48, R70, R93, R94). -/
def Obligations.StepKeepsInv : Prop :=
  ∀ s t : State, s.Inv → step s = .next t → t.Inv

/-- The engine is initialised and ended at most once and the buffer leased and released at most once; what is live is
what was taken and not given back (R47, R251). -/
def Obligations.StepKeepsRelease : Prop :=
  ∀ s t : State, s.Inv → s.ReleaseInv → step s = .next t → t.ReleaseInv

/-- ENG_TOTAL_OUT is the number of bytes of all engine steps modulo 2^64 (R32, R62); and the clock is read at most once,
never with a fixed timestamp and never before the mode is set (R78, R171). -/
def Obligations.StepKeepsTotals : Prop :=
  (∀ s t : State, s.TotalInv → step s = .next t → t.TotalInv) ∧
  (∀ s t : State, s.ClockInv → step s = .next t → t.ClockInv)

/-- Every transaction the block issues is well formed and answered within its bounds: no `ChWrite([])`, no `ChRead(0)`,
no engine step without room (R51, R52, R62, R75). -/
def Obligations.StepKeepsSound : Prop :=
  ∀ s t : State, s.Inv → s.SoundInv → step s = .next t → t.SoundInv

/-- The sink of a compressing Gzip writer that met no failure: header, engine bytes in step order, trailer (R103). -/
def Obligations.StepKeepsSink : Prop :=
  ∀ s t : State, s.Inv → s.ReleaseInv → s.SinkInv → step s = .next t → t.SinkInv

/-- A Reader's accumulator holds the checksum and the count of exactly the bytes its READs returned (R73, R230). -/
def Obligations.StepKeepsReaderChecksum : Prop :=
  ∀ s t : State, s.Inv → s.ReaderChecksumInv → step s = .next t → t.ReaderChecksumInv

/-- What a Reader that met no failure returned is what its engine produced, in order (R226, R230). -/
def Obligations.StepKeepsReturned : Prop :=
  ∀ s t : State, s.Inv → s.ReturnInv → step s = .next t → t.ReturnInv

/-- A header parse counts every byte it draws, and draws no payload byte (R161, R169). -/
def Obligations.StepKeepsDrawn : Prop :=
  ∀ s t : State, s.Inv → s.DrawnInv → step s = .next t → t.DrawnInv

/-- Partial-read fidelity, under the named engine property: two runs of readers whose engines consumed the same bytes
with the same flush types to their ends of stream, that met no failure and stand between commands, returned the same
bytes, whatever the READ sizes and chunks were (R233; log 21). -/
def Obligations.PartialReadFidelity : Prop :=
  ∀ (gives : List Txn → Prop), ChunkInvariant gives →
    ∀ (p q : Platform) (a b : ConstructArgs) (cs ds : List Command) (ports qorts : Ports) (j k : Nat) (s t : State),
      1 ≤ a.wbSize.getD p.workbufSizeDefault → 1 ≤ b.wbSize.getD q.workbufSizeDefault →
      Reaches (State.loaded p a cs ports j) s → Reaches (State.loaded q b ds qorts k) t →
      s.streamMode = .reader → t.streamMode = .reader → s.inFlight = none → t.inFlight = none →
      s.trace.all Txn.clean = true → t.trace.all Txn.clean = true → gives s.trace → gives t.trace →
      reachedEnd s.trace = true → reachedEnd t.trace = true → consumed s.trace = consumed t.trace →
      usesFinish s.trace = usesFinish t.trace → returned s.responses = returned t.responses

/-! ### What no step does -/

/-- The registers that are read-only after reset, and the platform parameters, never change (R8, R9, R32). -/
def Obligations.ReadOnlyRegisters : Prop :=
  ∀ s t : State, step s = .next t →
    t.plat = s.plat ∧ t.flavor = s.flavor ∧ t.cmode = s.cmode ∧ t.level = s.level ∧ t.leaveOpen = s.leaveOpen ∧
    t.workbufSize = s.workbufSize ∧ t.mtimeFixed = s.mtimeFixed ∧ t.crcLive = s.crcLive

/-- Once the mode is Reader or Writer no step writes it again, and a command in the other direction is a usage error
that changes nothing (R46). -/
def Obligations.ModeImmutable : Prop :=
  (∀ s t : State, s.streamMode ≠ .undefined → step s = .next t → t.streamMode = s.streamMode) ∧
  (∀ (len : U32) (s : State), s.inFlight = none → s.disposed = false → s.streamMode = .reader →
    s.caller.length = len.toNat →
    exec (.write len) s = .next { s with responses := s.responses ++ [.err .writeAfterRead none] }) ∧
  (∀ (len : U32) (s : State), s.inFlight = none → s.disposed = false → s.streamMode = .writer →
    s.caller.length = len.toNat →
    exec (.read len) s = .next { s with responses := s.responses ++ [.err .readAfterWrite (some s.caller)] })

/-- The lifecycle: a command leaves LIFE as it is, or is the first READ, the first WRITE or a CLOSE; a step that goes on
with a command in flight leaves it as it is, but for the end of a CLOSE; Closed is terminal, and entering it keeps
STREAM_MODE (R45). -/
def Obligations.LifecycleTransitions : Prop :=
  (∀ (i : Instr) (s t : State), exec i s = .next t →
    t.life = s.life ∨
    (∃ len, i = .read len ∧ s.life = .undefined ∧ t.life = .reader) ∨
    (∃ len, i = .write len ∧ s.life = .undefined ∧ t.life = .writer) ∨
    (i = .close ∧ t.life = .closed ∧ t.streamMode = s.streamMode)) ∧
  (∀ (f : InFlight) (s t : State), s.inFlight = some f → step s = .next t →
    t.life = s.life ∨ (f = .finishLoop ∧ t.life = .closed ∧ t.streamMode = s.streamMode)) ∧
  (∀ s t : State, s.life = .closed → step s = .next t → t.life = .closed ∧ t.streamMode = s.streamMode)

/-- Whatever a step does, the transactions and responses already on record stay, in order (R102, R288, R290). -/
def Obligations.RecordOnlyGrows : Prop :=
  ∀ s t : State, step s = .next t →
    (∃ ts, t.trace = s.trace ++ ts) ∧ (∃ rs, t.responses = s.responses ++ rs)

/-- A command answers exactly one response, in the step that ends it; while it is in flight it has answered none
(R143, R30). -/
def Obligations.OneResponse : Prop :=
  (∀ (i : Instr) (s t : State), exec i s = .next t →
    (t.inFlight = none ∧ ∃ r, t.responses = s.responses ++ [r]) ∨
    (t.inFlight ≠ none ∧ t.responses = s.responses)) ∧
  (∀ (f : InFlight) (s t : State), s.inFlight = none → resume f s = .next t →
    (t.inFlight = none ∧ ∃ r, t.responses = s.responses ++ [r]) ∨
    (t.inFlight ≠ none ∧ t.responses = s.responses))

/-- No command answers with an error outside its row of the raise-site table, in the step that begins it or in a later
one (R285). -/
def Obligations.ErrorsByCommand : Prop :=
  (∀ (i : Instr) (s t : State) (e : Error) (b : Option Bytes), i.wf = true → exec i s = .next t →
    t.responses = s.responses ++ [.err e b] → mayRaise i e = true) ∧
  (∀ (f : InFlight) (s t : State) (e : Error) (b : Option Bytes), s.inFlight = none → resume f s = .next t →
    t.responses = s.responses ++ [.err e b] → mayRaiseLater f e = true)

/-- NO_MORE_INPUT is never cleared (R225), and a Reader whose channel is exhausted answers a READ in the same step, with
no channel transaction and at most two engine steps (R231 item 3); only an engine or pool that never answers holds it
(R105). -/
def Obligations.ExhaustedReader : Prop :=
  (∀ s t : State, s.noMoreInput = true → step s = .next t → t.noMoreInput = true) ∧
  (∀ (len : U32) (s t : State), s.streamMode = .reader → s.noMoreInput = true → exec (.read len) s = .next t →
    (t.inFlight = none ∨ ∃ p, t.StuckOn p ∧ p.isChannel = false) ∧
    ∃ ts, t.trace = s.trace ++ ts ∧ ts.countP Txn.isChannel = 0 ∧ ts.countP Txn.isStep ≤ 2)

/-- After the first READ no READ parses a header again: it draws nothing for one, raises no FormatError and leaves the
header registers as they are (R221, R337). -/
def Obligations.NoSecondParse : Prop :=
  ∀ (len : U32) (s t : State), s.streamMode = .reader → exec (.read len) s = .next t →
    t.hdrState = s.hdrState ∧ t.hdrBytes = s.hdrBytes ∧ t.hdrMtime = s.hdrMtime ∧ t.hdrFlg = s.hdrFlg ∧
    t.hdrFname = s.hdrFname ∧ t.hdrComment = s.hdrComment ∧
    ∀ e b, t.responses = s.responses ++ [.err e b] → e.kind ≠ .format

/-! ### Frames -/

/-- FLUSH, GETLEN, SEEK, GETPOS, SETPOS, SETLEN and RDSTAT write no register: beside the response, only FLUSH and
GETLEN add a transaction (R240, R260 to R264, R270), and only they can stay in flight, where the channel never answers
(R105). -/
def Obligations.ControlFrame : Prop :=
  (∀ (i : Instr) (s t : State), i = .flush ∨ i = .getlen → exec i s = .next t →
    t = { s with
      responses := t.responses, trace := t.trace, ports := t.ports, draws := t.draws, inFlight := t.inFlight } ∧
    (t.inFlight = none ∨ ∃ p, t.StuckOn p ∧ p.isChannel = true)) ∧
  (∀ (i : Instr) (s t : State),
    (∃ o g, i = .seek o g) ∨ i = .getpos ∨ (∃ v, i = .setpos v) ∨ (∃ v, i = .setlen v) ∨ (∃ r, i = .rdstat r) →
    exec i s = .next t → t = { s with responses := t.responses })

/-- A WRITE leaves the caller's bytes, DISPOSED, NO_MORE_INPUT, the commands to come and, after the first WRITE, the
header registers as they are, whatever it answers; a WRITE in flight goes on to write only WORK, IN_NEXT, IN_AVAIL and
ENG_TOTAL_OUT (R91, R200, R201, R205). -/
def Obligations.WriteFrame : Prop :=
  (∀ (len : U32) (s t : State), exec (.write len) s = .next t →
    t.caller = s.caller ∧ t.disposed = s.disposed ∧ t.noMoreInput = s.noMoreInput ∧ t.commands = s.commands ∧
    (s.streamMode ≠ .undefined ∨ s.disposed = true →
      t.streamMode = s.streamMode ∧ t.hdrState = s.hdrState ∧ t.hdrBytes = s.hdrBytes ∧ t.hdrMtime = s.hdrMtime ∧
      t.hdrFlg = s.hdrFlg ∧ t.hdrFname = s.hdrFname ∧ t.hdrComment = s.hdrComment) ∧
    (s.engLive = true → s.wbLive = true → t.engLive = true ∧ t.wbLive = true ∧ t.wbLen = s.wbLen)) ∧
  (∀ s t : State, s.inFlight = some .writeLoop → step s = .next t →
    t = { s with
      work := t.work, inNext := t.inNext, inAvail := t.inAvail, engTotalOut := t.engTotalOut
      responses := t.responses, trace := t.trace, ports := t.ports, draws := t.draws, inFlight := t.inFlight })

/-- A WRITE with data feeds all of it to the accumulator, once, in the step that begins it, whatever the engine and the
channel then do; a Zlib or Deflate instance has none to feed. Only a first WRITE whose header could not be written feeds
nothing (R203). -/
def Obligations.WriteChecksum : Prop :=
  (∀ (len : U32) (s t : State), exec (.write len) s = .next t → s.disposed = false → s.streamMode ≠ .reader →
    (s.streamMode = .writer ∨ ¬(s.flavor = .gzip ∧ s.cmode = .compress) ∨ t.hdrState = .emitted ∧ s.hdrState ≠ .emitted) →
    (s.crcLive = true → t.crcReg = crcFold s.plat.crc32fn s.crcReg s.caller ∧
      t.crcCount = s.crcCount + BitVec.ofNat 64 s.caller.length) ∧
    (s.crcLive = false → t.crcReg = s.crcReg ∧ t.crcCount = s.crcCount)) ∧
  (∀ s t : State, s.inFlight = some .writeLoop → step s = .next t → t.crcReg = s.crcReg ∧ t.crcCount = s.crcCount)

/-- On every exit of the step that begins a READ the caller's buffer holds, from offset 0, the bytes the engine produced
in it, and behind them the caller's old bytes; so after a step of a READ in flight inside its header parse, which has
produced none yet; and a READ in flight in its loop goes on behind the bytes it has produced (R92). -/
def Obligations.ReadBuffer : Prop :=
  (∀ (len : U32) (s t : State), exec (.read len) s = .next t → ∃ ts, t.trace = s.trace ++ ts ∧
    (produced ts).length ≤ len.toNat ∧ t.caller = produced ts ++ s.caller.drop (produced ts).length) ∧
  (∀ (len : Nat) (h : HdrFields) (acc : Bytes) (s t : State), s.Inv →
    s.inFlight = some (.nameLoop len h acc) ∨ s.inFlight = some (.commentLoop len h acc) → step s = .next t →
    ∃ ts, t.trace = s.trace ++ ts ∧ (produced ts).length ≤ len ∧
      t.caller = produced ts ++ s.caller.drop (produced ts).length) ∧
  (∀ (len room : Nat) (w : Bytes) (s t : State), s.Inv → s.inFlight = some (.readLoop len room w) →
    step s = .next t → ∃ ts, t.trace = s.trace ++ ts ∧ (w ++ produced ts).length ≤ len ∧
    t.caller = w ++ produced ts ++ s.caller.drop (w ++ produced ts).length)

/-- A READ leaves DISPOSED, the mode once set, the commands to come and a live engine and buffer as they are, in the step
that begins it and in each later one; a READ in flight leaves the header registers as they are too, but for the end of its
header parse (R220). -/
def Obligations.ReadFrame : Prop :=
  (∀ (len : U32) (s t : State), exec (.read len) s = .next t →
    t.disposed = s.disposed ∧ t.commands = s.commands ∧
    (s.streamMode ≠ .undefined → t.streamMode = s.streamMode) ∧
    (s.engLive = true → s.wbLive = true → t.engLive = true ∧ t.wbLive = true ∧ t.wbLen = s.wbLen) ∧
    (s.crcLive = false → t.crcReg = s.crcReg ∧ t.crcCount = s.crcCount)) ∧
  (∀ (f : InFlight) (s t : State), s.inFlight = some f → f.isRead = true → step s = .next t →
    t.disposed = s.disposed ∧ t.commands = s.commands ∧ t.streamMode = s.streamMode ∧
    (s.engLive = true → s.wbLive = true → t.engLive = true ∧ t.wbLive = true ∧ t.wbLen = s.wbLen) ∧
    (s.crcLive = false → t.crcReg = s.crcReg ∧ t.crcCount = s.crcCount) ∧
    (t.hdrState = s.hdrState ∧ t.hdrBytes = s.hdrBytes ∧ t.hdrMtime = s.hdrMtime ∧ t.hdrFlg = s.hdrFlg ∧
      t.hdrFname = s.hdrFname ∧ t.hdrComment = s.hdrComment ∨ f.isParse = true ∧ t.hdrState = .parsed))

/-- A CLOSE writes only DISPOSED, ENG_LIVE, WB_LIVE, WORK, IN_NEXT, IN_AVAIL and ENG_TOTAL_OUT; WB_LEN, the mode, the
header registers, the checksum and the rest keep their values (R244). One that has answered, with or without an error,
has torn everything down: DISPOSED is set, the engine is ended and the buffer released (R244, R249, R252). Both hold of
the step that begins a CLOSE and of each step that goes on with it from inside the writer Finish. -/
def Obligations.CloseFrame : Prop :=
  (∀ s t : State, exec .close s = .next t ∨ s.inFlight = some .finishLoop ∧ step s = .next t →
    t = { s with
      disposed := t.disposed, engLive := t.engLive, wbLive := t.wbLive, work := t.work, inNext := t.inNext
      inAvail := t.inAvail, engTotalOut := t.engTotalOut
      responses := t.responses, trace := t.trace, ports := t.ports, draws := t.draws, inFlight := t.inFlight }) ∧
  (∀ s t : State, s.Inv → exec .close s = .next t ∨ s.inFlight = some .finishLoop ∧ step s = .next t →
    t.inFlight = none → t.disposed = true ∧ t.engLive = false ∧ t.wbLive = false ∧ t.work = [])

/-- A WRITE with data that answers Ok, in the step that begins it or in a later one, left exactly the unconsumed input its
done condition names: none, or for Gzip decompression the 8 trailer bytes; and its last engine step left room in the
working buffer (R206, R207). -/
def Obligations.WriteEndsWhenDone : Prop :=
  ∀ (len : U32) (s t : State),
    exec (.write len) s = .next t ∧ len ≠ 0 ∨ s.inFlight = some .writeLoop ∧ step s = .next t →
    t.responses = s.responses ++ [.ok .unit] →
    t.inAvail = (if s.flavor = .gzip ∧ s.cmode = .decompress then 8 else 0) ∧
    ∃ a as, engineAnswers t.trace = as ++ [a] ∧ a.produced.length < t.wbLen ∧ a.status.isFailure = false

/-- A Gzip decompress-on-write WRITE of 1 to 7 bytes never succeeds: it ends in an error or stays in flight, in its
loop always with fewer than 8 bytes left (R331). -/
def Obligations.ShortGzipDecompressWrite : Prop :=
  (∀ (len : U32) (s t : State), s.flavor = .gzip → s.cmode = .decompress → len ≠ 0 → len.toNat < 8 →
    exec (.write len) s = .next t →
    t.responses ≠ s.responses ++ [.ok .unit] ∧ (t.inFlight = some .writeLoop → t.inAvail < 8)) ∧
  (∀ s t : State, s.flavor = .gzip → s.cmode = .decompress → s.inFlight = some .writeLoop → s.inAvail < 8 →
    step s = .next t → t.responses ≠ s.responses ++ [.ok .unit] ∧ t.inAvail < 8)

/-- An engine that answers `n + 1` times OK, with nothing consumed and nothing produced, while input is unconsumed
keeps a WRITE in flight: the block detects no lack of progress (R209). -/
def Obligations.StalledWriteHangs : Prop :=
  ∀ (n : Nat) (s : State), s.inFlight = some .writeLoop → 0 < s.inAvail → ¬(s.flavor = .gzip ∧ s.cmode = .decompress) →
    s.ports.engStep = List.replicate (n + 1) (.answer ⟨0, [], .ok⟩) →
    step s = .next { s with
      ports := { s.ports with engStep := [] }
      trace := s.trace ++ List.replicate (n + 1) (.engStep .none s.cmode s.window s.wbLen ⟨0, [], .ok⟩) }

/-! ### The checksum -/

/-- Feeding is incremental, and feeding nothing changes nothing (R72). -/
def Obligations.ChecksumIncremental : Prop :=
  (∀ s : State, s.crcUpdate [] = s) ∧
  (∀ (s : State) (a b : Bytes), (s.crcUpdate a).crcUpdate b = s.crcUpdate (a ++ b)) ∧
  (∀ (p : Platform) (c : ConstructArgs) (b : Bytes), ((State.fresh p c).crcUpdate b).crcResult = crc32 p.crc32fn b)

/-! ### The closed instance -/

/-- On a closed instance WRITE, READ, FLUSH and GETLEN answer DISPOSED and change nothing; CLOSE answers Ok and changes
nothing (R210, R232, R250). -/
def Obligations.ClosedInstance : Prop :=
  ∀ s : State, s.inFlight = none → s.disposed = true →
    (∀ len : U32, s.caller.length = len.toNat →
      exec (.write len) s = .next { s with responses := s.responses ++ [.err (.disposed .write) none] } ∧
      exec (.read len) s = .next { s with responses := s.responses ++ [.err (.disposed .read) (some s.caller)] }) ∧
    exec .flush s = .next { s with responses := s.responses ++ [.err (.disposed .flush) none] } ∧
    exec .getlen s = .next { s with responses := s.responses ++ [.err (.disposed .getlen) none] } ∧
    exec .close s = .next { s with responses := s.responses ++ [.ok .unit] }

/-! ### Results of the control commands -/

/-- SEEK, GETPOS, SETPOS and SETLEN never succeed: whatever their operands, they answer DISPOSED on a closed instance and
UNSUPPORTED_OP on an open one, and change nothing; and the words that spell them (R260 to R263). -/
def Obligations.PositioningUnsupported : Prop :=
  (∀ w : U64, rsvOf w = 0 →
    (opcOf w = 0x05 → (selOf w).toNat ≤ 2 → decode w = .ok (.seek (lenOf w) (selOf w))) ∧
    (opcOf w = 0x06 → selOf w = 0 → lenOf w = 0 → decode w = .ok .getpos) ∧
    (opcOf w = 0x07 → selOf w = 0 → decode w = .ok (.setpos (lenOf w))) ∧
    (opcOf w = 0x08 → selOf w = 0 → decode w = .ok (.setlen (lenOf w)))) ∧
  ∀ (s : State), s.inFlight = none →
    (∀ (offset : U32) (origin : Byte), origin.toNat ≤ 2 → exec (.seek offset origin) s = .next { s with
      responses := s.responses ++ [.err (if s.disposed then .disposed .seek else .unsupportedOp .seek) none] }) ∧
    (exec .getpos s = .next { s with
      responses := s.responses ++ [.err (if s.disposed then .disposed .getpos else .unsupportedOp .getpos) none] }) ∧
    (∀ value : U32, exec (.setpos value) s = .next { s with
      responses := s.responses ++ [.err (if s.disposed then .disposed .setpos else .unsupportedOp .setpos) none] }) ∧
    (∀ value : U32, exec (.setlen value) s = .next { s with
      responses := s.responses ++ [.err (if s.disposed then .disposed .setlen else .unsupportedOp .setlen) none] })

/-- FLUSH asks the channel to flush, once, and answers Ok or the channel's failure (R240); GETLEN answers what the
channel reports of its own length, or its failure (R264). On a closed instance they answer DISPOSED, with no
transaction. Scripted answers and free ones; and the words that spell the two. -/
def Obligations.FlushAndGetlenResult : Prop :=
  (∀ w : U64, rsvOf w = 0 → selOf w = 0 → lenOf w = 0 →
    (opcOf w = 0x03 → decode w = .ok .flush) ∧ (opcOf w = 0x09 → decode w = .ok .getlen)) ∧
  ∀ s : State, s.inFlight = none →
    (s.disposed = true →
      exec .flush s = .next { s with responses := s.responses ++ [.err (.disposed .flush) none] } ∧
      exec .getlen s = .next { s with responses := s.responses ++ [.err (.disposed .getlen) none] }) ∧
    (s.disposed = false → ∀ a q, s.ports.chFlush = .answer a :: q → exec .flush s = .next { s with
      ports := { s.ports with chFlush := q }, trace := s.trace ++ [.chFlush a]
      responses := s.responses ++ [match a with
        | .ok _ => .ok .unit
        | .fail e => .err (.chFail e) none] }) ∧
    (s.disposed = false → s.ports.chFlush = [] → ∃ a, exec .flush s = .next { s with
      draws := s.draws + 1, trace := s.trace ++ [.chFlush a]
      responses := s.responses ++ [match a with
        | .ok _ => .ok .unit
        | .fail e => .err (.chFail e) none] }) ∧
    (s.disposed = false → ∀ a q, s.ports.chLength = .answer a :: q → exec .getlen s = .next { s with
      ports := { s.ports with chLength := q }, trace := s.trace ++ [.chLength a]
      responses := s.responses ++ [match a with
        | .ok l => .ok (.length l)
        | .fail e => .err (.chFail e) none] }) ∧
    (s.disposed = false → s.ports.chLength = [] → ∃ a, exec .getlen s = .next { s with
      draws := s.draws + 1, trace := s.trace ++ [.chLength a]
      responses := s.responses ++ [match a with
        | .ok l => .ok (.length l)
        | .fail e => .err (.chFail e) none] })

/-- RDSTAT answers each selector's register, in every lifecycle state, and changes nothing; the words that spell it; and a
reserved selector's, which answers ILLEGAL_COMMAND (R33, R270). -/
def Obligations.RdstatResult : Prop :=
  (∀ w : U64, opcOf w = 0x0A → rsvOf w = 0 → lenOf w = 0 → (selOf w).toNat ≤ 0x15 →
    decode w = .ok (.rdstat (selOf w))) ∧
  (∀ (s : State) (c : Command) (rest : List Command), s.inFlight = none → s.commands = c :: rest →
    opcOf c.word = 0x0A → 0x16 ≤ (selOf c.word).toNat → step s = .next { s with
      commands := rest, responses := s.responses ++ [.err (.illegalCommand c.word) none] }) ∧
  ∀ s : State, s.inFlight = none →
    ∀ p ∈ s.registerTable, exec (.rdstat p.1) s = .next { s with responses := s.responses ++ [.ok (.reg p.2)] }

/-! ### Results of WRITE -/

/-- The first WRITE of a compressing Gzip instance sets Writer mode and emits the ten header bytes in one ChWrite, with
MTIME_FIXED or the clock's reading modulo 2^32, even at length 0; if that ChWrite fails, whatever the length, the mode is
set and nothing else: no header register, no byte in the accumulator, no engine (R170 to R172, R201, R287). -/
def Obligations.FirstWriteEmitsHeader : Prop :=
  ∀ (s : State), s.inFlight = none → s.disposed = false → s.streamMode = .undefined → s.flavor = .gzip →
    s.cmode = .compress →
    (∀ m q, s.caller = [] → s.mtimeFixed = some m → s.ports.chWrite = .answer .ok :: q →
      exec (.write 0) s = .next { s with
        streamMode := .writer, hdrMtime := m, hdrFlg := 0, hdrFname := none, hdrComment := none, hdrBytes := 10
        hdrState := .emitted, ports := { s.ports with chWrite := q }
        trace := s.trace ++ [.chWrite
          ([0x1F, 0x8B, 0x08, 0x00] ++
            [m.extractLsb' 0 8, m.extractLsb' 8 8, m.extractLsb' 16 8, m.extractLsb' 24 8] ++
            [s.plat.hdrXfl, s.plat.hdrOs]) .ok]
        responses := s.responses ++ [.ok .unit] }) ∧
    (∀ t r q, s.caller = [] → s.mtimeFixed = none → s.ports.clock = .answer t :: r →
      s.ports.chWrite = .answer .ok :: q →
      exec (.write 0) s = .next { s with
        streamMode := .writer, hdrMtime := BitVec.ofInt 32 t, hdrFlg := 0, hdrFname := none, hdrComment := none
        hdrBytes := 10, hdrState := .emitted, ports := { s.ports with clock := r, chWrite := q }
        trace := s.trace ++ [.clock t, .chWrite
          ([0x1F, 0x8B, 0x08, 0x00] ++ toLE32 (BitVec.ofInt 32 t) ++ [s.plat.hdrXfl, s.plat.hdrOs]) .ok]
        responses := s.responses ++ [.ok .unit] }) ∧
    (∀ (len : U32) m e k q, s.caller.length = len.toNat → s.mtimeFixed = some m → k ≤ 10 →
      s.ports.chWrite = .answer (.fail e k) :: q →
      exec (.write len) s = .next { s with
        streamMode := .writer, ports := { s.ports with chWrite := q }
        trace := s.trace ++ [.chWrite
          ([0x1F, 0x8B, 0x08, 0x00] ++ toLE32 m ++ [s.plat.hdrXfl, s.plat.hdrOs]) (.fail e k)]
        responses := s.responses ++ [.err (.chFail e) none] })

/-- A WRITE with data on a Writer whose engine is live, one engine step long: the accumulator is fed, the data becomes
the whole window, the engine steps with flush NONE and the working buffer's length as room, and what it produced is in
WORK and on the channel (R200, R203 to R207). -/
def Obligations.WriteResult : Prop :=
  ∀ (len : U32) (s : State) (a : StepAnswer) (q : List (Reply StepAnswer)) (r : List (Reply WriteAnswer)),
    s.inFlight = none → s.disposed = false → s.streamMode = .writer → s.engLive = true → s.wbLive = true →
    len ≠ 0 → s.caller.length = len.toNat → s.ports.engStep = .answer a :: q →
    s.ports.chWrite = (if a.produced = [] then [] else [.answer .ok]) ++ r →
    a.consumed ≤ s.caller.length → a.produced.length < s.wbLen → a.status = .ok ∨ a.status = .streamEnd →
    s.caller.length - a.consumed = (if s.flavor = .gzip ∧ s.cmode = .decompress then 8 else 0) →
    exec (.write len) s = .next { s with
      crcReg := if s.crcLive then crcFold s.plat.crc32fn s.crcReg s.caller else s.crcReg
      crcCount := if s.crcLive then s.crcCount + BitVec.ofNat 64 s.caller.length else s.crcCount
      inWin := s.caller, inNext := a.consumed, inAvail := s.caller.length - a.consumed
      engTotalOut := s.engTotalOut + BitVec.ofNat 64 a.produced.length
      work := a.produced ++ s.work.drop a.produced.length
      ports := { s.ports with engStep := q, chWrite := r }
      trace := s.trace ++ [.engStep .none s.cmode s.caller s.wbLen a] ++
        (if a.produced = [] then [] else [.chWrite a.produced .ok])
      responses := s.responses ++ [.ok .unit] }

/-- The first WRITE with data of an instance with no header to emit: Writer mode, then EngInit with the level for
deflate and none for inflate and `wantHeader = (FLAVOR = Zlib)`, then PoolLease of WORKBUF_SIZE bytes, whose whole
length is the room; or INIT_FAIL with neither taken (R201, R204, R61, R322). That of a compressing Gzip instance: the
header first, with MTIME_FIXED or the clock's reading, then the accumulator, the engine, the buffer and the step (R170,
R171, R200, R203). Whatever the engine and the channel then answer: a WRITE with data on an instance whose engine is not
live, a first one or a later one on a Writer, materialises and goes on as a WRITE with both live (R204); and a first
WRITE of any length that emits its header goes on as a WRITE on a Writer. -/
def Obligations.FirstWriteMaterialises : Prop :=
  (∀ (len : U32) (s : State) (q : List (Reply (Answer Unit))), s.inFlight = none → s.disposed = false →
    s.streamMode = .undefined → ¬(s.flavor = .gzip ∧ s.cmode = .compress) → s.engLive = false → s.wbLive = false →
    len ≠ 0 → s.caller.length = len.toNat →
    (∀ b bs a as, s.ports.engInit = .answer (.ok ()) :: q → s.ports.poolLease = .answer b :: bs →
      s.ports.engStep = .answer a :: as → s.workbufSize ≤ b.length → 0 < b.length →
      a.consumed ≤ s.caller.length → s.caller.length - a.consumed = (if s.flavor = .gzip then 8 else 0) →
      a.produced = [] → a.status = .ok →
      exec (.write len) s = .next { s with
        streamMode := .writer, engLive := true, wbLive := true, wbLen := b.length, work := b, inWin := s.caller
        inNext := a.consumed, inAvail := s.caller.length - a.consumed
        crcReg := if s.crcLive then crcFold s.plat.crc32fn s.crcReg s.caller else s.crcReg
        crcCount := if s.crcLive then s.crcCount + BitVec.ofNat 64 s.caller.length else s.crcCount
        ports := { s.ports with engInit := q, poolLease := bs, engStep := as }
        trace := s.trace ++ [
          .engInit s.cmode (if s.cmode = .compress then some s.level else none) (decide (s.flavor = .zlib)) (.ok ()),
          .poolLease s.workbufSize b, .engStep .none s.cmode s.caller b.length a]
        responses := s.responses ++ [.ok .unit] }) ∧
    (∀ msg, s.ports.engInit = .answer (.fail msg) :: q →
      exec (.write len) s = .next { s with
        streamMode := .writer, ports := { s.ports with engInit := q }
        crcReg := if s.crcLive then crcFold s.plat.crc32fn s.crcReg s.caller else s.crcReg
        crcCount := if s.crcLive then s.crcCount + BitVec.ofNat 64 s.caller.length else s.crcCount
        trace := s.trace ++ [
          .engInit s.cmode (if s.cmode = .compress then some s.level else none) (decide (s.flavor = .zlib)) (.fail msg)]
        responses := s.responses ++ [.err (.initFail msg) none] })) ∧
  (∀ (len : U32) (s : State) (m : U32) (ticks : List Txn) (clk : List (Reply Int)) (w : List (Reply WriteAnswer))
    (q : List (Reply (Answer Unit))) (b : Bytes) (bs : List (Reply Bytes)) (a : StepAnswer)
    (as : List (Reply StepAnswer)),
    s.inFlight = none → s.disposed = false → s.streamMode = .undefined → s.flavor = .gzip → s.cmode = .compress →
    s.engLive = false → s.wbLive = false → len ≠ 0 → s.caller.length = len.toNat →
    (s.mtimeFixed = some m ∧ ticks = [] ∧ s.ports.clock = clk ∨
      ∃ t, s.mtimeFixed = none ∧ ticks = [.clock t] ∧ s.ports.clock = .answer t :: clk ∧ m = BitVec.ofInt 32 t) →
    s.ports.chWrite = .answer .ok :: w → s.ports.engInit = .answer (.ok ()) :: q →
    s.ports.poolLease = .answer b :: bs → s.ports.engStep = .answer a :: as → s.workbufSize ≤ b.length →
    0 < b.length → a.consumed = s.caller.length → a.produced = [] → a.status = .ok →
    exec (.write len) s = .next { s with
      streamMode := .writer, hdrMtime := m, hdrFlg := 0, hdrFname := none, hdrComment := none, hdrBytes := 10
      hdrState := .emitted, engLive := true, wbLive := true, wbLen := b.length, work := b
      inWin := s.caller, inNext := a.consumed, inAvail := 0
      crcReg := if s.crcLive then crcFold s.plat.crc32fn s.crcReg s.caller else s.crcReg
      crcCount := if s.crcLive then s.crcCount + BitVec.ofNat 64 s.caller.length else s.crcCount
      ports := { s.ports with clock := clk, chWrite := w, engInit := q, poolLease := bs, engStep := as }
      trace := s.trace ++ ticks ++ [
        .chWrite ([0x1F, 0x8B, 0x08, 0x00] ++ toLE32 m ++ [s.plat.hdrXfl, s.plat.hdrOs]) .ok,
        .engInit .compress (some s.level) false (.ok ()), .poolLease s.workbufSize b,
        .engStep .none .compress s.caller b.length a]
      responses := s.responses ++ [.ok .unit] }) ∧
  (∀ (len : U32) (s : State) (q : List (Reply (Answer Unit))), s.inFlight = none → s.disposed = false →
    s.streamMode = .writer ∨ s.streamMode = .undefined ∧ ¬(s.flavor = .gzip ∧ s.cmode = .compress) →
    s.engLive = false → s.wbLive = false → len ≠ 0 → s.caller.length = len.toNat →
    (∀ b bs, s.ports.engInit = .answer (.ok ()) :: q → s.ports.poolLease = .answer b :: bs →
      s.workbufSize ≤ b.length → exec (.write len) s = exec (.write len) { s with
        streamMode := .writer, engLive := true, wbLive := true, wbLen := b.length, work := b
        ports := { s.ports with engInit := q, poolLease := bs }
        trace := s.trace ++ [
          .engInit s.cmode (if s.cmode = .compress then some s.level else none) (decide (s.flavor = .zlib)) (.ok ()),
          .poolLease s.workbufSize b] }) ∧
    (∀ msg, s.ports.engInit = .answer (.fail msg) :: q → exec (.write len) s = .next { s with
      streamMode := .writer, ports := { s.ports with engInit := q }
      crcReg := if s.crcLive then crcFold s.plat.crc32fn s.crcReg s.caller else s.crcReg
      crcCount := if s.crcLive then s.crcCount + BitVec.ofNat 64 s.caller.length else s.crcCount
      trace := s.trace ++ [
        .engInit s.cmode (if s.cmode = .compress then some s.level else none) (decide (s.flavor = .zlib)) (.fail msg)]
      responses := s.responses ++ [.err (.initFail msg) none] })) ∧
  (∀ (len : U32) (s : State) (m : U32) (ticks : List Txn) (clk : List (Reply Int)) (w : List (Reply WriteAnswer)),
    s.inFlight = none → s.disposed = false → s.streamMode = .undefined → s.flavor = .gzip → s.cmode = .compress →
    s.caller.length = len.toNat →
    (s.mtimeFixed = some m ∧ ticks = [] ∧ s.ports.clock = clk ∨
      ∃ t, s.mtimeFixed = none ∧ ticks = [.clock t] ∧ s.ports.clock = .answer t :: clk ∧ m = BitVec.ofInt 32 t) →
    s.ports.chWrite = .answer .ok :: w → exec (.write len) s = exec (.write len) { s with
      streamMode := .writer, hdrMtime := m, hdrFlg := 0, hdrFname := none, hdrComment := none, hdrBytes := 10
      hdrState := .emitted, ports := { s.ports with clock := clk, chWrite := w }
      trace := s.trace ++ ticks ++ [
        .chWrite ([0x1F, 0x8B, 0x08, 0x00] ++ toLE32 m ++ [s.plat.hdrXfl, s.plat.hdrOs]) .ok] })

/-- A failure status ends a WRITE before that step's bytes go to the channel, and a failed payload ChWrite ends it with
CH_FAIL, after a prefix of the bytes; every effect made before is kept (R208, R284, R287 item 7, R290). So in
the round that begins a WRITE with data and in one of a WRITE in flight. -/
def Obligations.WriteEngineFailure : Prop :=
  (∀ (len : U32) (s : State) (a : StepAnswer) (q : List (Reply StepAnswer)),
    s.inFlight = none → s.disposed = false → s.streamMode = .writer → s.engLive = true → s.wbLive = true →
    len ≠ 0 → s.caller.length = len.toNat → s.ports.engStep = .answer a :: q →
    a.consumed ≤ s.caller.length → a.produced.length ≤ s.wbLen →
    (a.status ≠ .ok → a.status ≠ .streamEnd → exec (.write len) s = .next { s with
      crcReg := if s.crcLive then crcFold s.plat.crc32fn s.crcReg s.caller else s.crcReg
      crcCount := if s.crcLive then s.crcCount + BitVec.ofNat 64 s.caller.length else s.crcCount
      inWin := s.caller, inNext := a.consumed, inAvail := s.caller.length - a.consumed
      engTotalOut := s.engTotalOut + BitVec.ofNat 64 a.produced.length
      work := a.produced ++ s.work.drop a.produced.length
      ports := { s.ports with engStep := q }
      trace := s.trace ++ [.engStep .none s.cmode s.caller s.wbLen a]
      responses := s.responses ++ [.err (.engineFail a.status) none] }) ∧
    (∀ e k w, a.status = .ok ∨ a.status = .streamEnd → a.produced ≠ [] → k ≤ a.produced.length →
      s.ports.chWrite = .answer (.fail e k) :: w → exec (.write len) s = .next { s with
        crcReg := if s.crcLive then crcFold s.plat.crc32fn s.crcReg s.caller else s.crcReg
        crcCount := if s.crcLive then s.crcCount + BitVec.ofNat 64 s.caller.length else s.crcCount
        inWin := s.caller, inNext := a.consumed, inAvail := s.caller.length - a.consumed
        engTotalOut := s.engTotalOut + BitVec.ofNat 64 a.produced.length
        work := a.produced ++ s.work.drop a.produced.length
        ports := { s.ports with engStep := q, chWrite := w }
        trace := s.trace ++ [.engStep .none s.cmode s.caller s.wbLen a, .chWrite a.produced (.fail e k)]
        responses := s.responses ++ [.err (.chFail e) none] })) ∧
  (∀ (s : State) (a : StepAnswer) (q : List (Reply StepAnswer)), s.inFlight = some .writeLoop →
    s.ports.engStep = .answer a :: q → a.consumed ≤ s.window.length → a.produced.length ≤ s.wbLen →
    (a.status ≠ .ok → a.status ≠ .streamEnd → step s = .next { s with
      inNext := s.inNext + a.consumed, inAvail := s.inAvail - a.consumed
      engTotalOut := s.engTotalOut + BitVec.ofNat 64 a.produced.length
      work := a.produced ++ s.work.drop a.produced.length
      ports := { s.ports with engStep := q }, inFlight := none
      trace := s.trace ++ [.engStep .none s.cmode s.window s.wbLen a]
      responses := s.responses ++ [.err (.engineFail a.status) none] }) ∧
    (∀ e k w, a.status = .ok ∨ a.status = .streamEnd → a.produced ≠ [] → k ≤ a.produced.length →
      s.ports.chWrite = .answer (.fail e k) :: w → step s = .next { s with
        inNext := s.inNext + a.consumed, inAvail := s.inAvail - a.consumed
        engTotalOut := s.engTotalOut + BitVec.ofNat 64 a.produced.length
        work := a.produced ++ s.work.drop a.produced.length
        ports := { s.ports with engStep := q, chWrite := w }, inFlight := none
        trace := s.trace ++ [.engStep .none s.cmode s.window s.wbLen a, .chWrite a.produced (.fail e k)]
        responses := s.responses ++ [.err (.chFail e) none] }))

/-- A round of a push loop, WRITE's or the writer Finish's, ends the loop exactly at its done condition (R205, R206, R207,
R246; log 4). A WRITE with data on a Writer whose engine is live feeds its bytes, loads its window and is in its loop
(R203, R204). A round of WRITE's loop in flight, its engine step the one scripted, answers Ok with the done condition met
and else leaves the command in flight. A round that does not meet it, the window not at its end or the working buffer
filled, or, for Finish, STREAM_END still wanted, goes on behind it, in the same step while answers are scripted; a Finish
round is one of a CLOSE begun or in flight. -/
def Obligations.WriteRound : Prop :=
  (∀ (len : U32) (s : State), s.inFlight = none → s.disposed = false → s.streamMode = .writer → s.engLive = true →
    s.wbLive = true → len ≠ 0 → s.caller.length = len.toNat → exec (.write len) s = step { s with
      crcReg := if s.crcLive then crcFold s.plat.crc32fn s.crcReg s.caller else s.crcReg
      crcCount := if s.crcLive then s.crcCount + BitVec.ofNat 64 s.caller.length else s.crcCount
      inWin := s.caller, inNext := 0, inAvail := s.caller.length, inFlight := some .writeLoop }) ∧
  (∀ (s : State) (a : StepAnswer) (r : List (Reply WriteAnswer)), s.inFlight = some .writeLoop →
    s.ports.engStep = [.answer a] → s.ports.chWrite = (if a.produced = [] then [] else [.answer .ok]) ++ r →
    a.consumed ≤ s.window.length → a.produced.length ≤ s.wbLen → a.status = .ok ∨ a.status = .streamEnd →
    ∃ t, step s = .next t ∧ t.trace = s.trace ++ [.engStep .none s.cmode s.window s.wbLen a] ++
        (if a.produced = [] then [] else [.chWrite a.produced .ok]) ∧
      t.inAvail = s.inAvail - a.consumed ∧
      (if t.inAvail = (if s.flavor = .gzip ∧ s.cmode = .decompress then 8 else 0) ∧ a.produced.length < s.wbLen
        then t.inFlight = none ∧ t.responses = s.responses ++ [.ok .unit]
        else t.inFlight = some .writeLoop ∧ t.responses = s.responses)) ∧
  (∀ (s t : State) (o : Host.Outcome State Fault Refusal) (f : InFlight) (flush : FlushType) (a : StepAnswer)
    (q : List (Reply StepAnswer)) (r : List (Reply WriteAnswer)),
    (f = .writeLoop ∧ flush = .none ∧ s.inFlight = some .writeLoop ∧ o = step s ∨
      f = .finishLoop ∧ flush = .finish ∧
        (s.inFlight = some .finishLoop ∧ o = step s ∨
          s.inFlight = none ∧ s.disposed = false ∧ s.streamMode = .writer ∧ s.engLive = true ∧ o = exec .close s)) →
    s.ports.engStep = .answer a :: q → s.ports.chWrite = (if a.produced = [] then [] else [.answer .ok]) ++ r →
    a.consumed ≤ s.window.length → a.produced.length ≤ s.wbLen → a.status = .ok ∨ a.status = .streamEnd →
    (s.inAvail - a.consumed ≠ (if s.flavor = .gzip ∧ s.cmode = .decompress then 8 else 0) ∨
      a.produced.length = s.wbLen ∨
      f = .finishLoop ∧ s.plat.finishRequiresStreamEnd = true ∧ a.status = .ok) →
    t = { s with
      inNext := s.inNext + a.consumed, inAvail := s.inAvail - a.consumed
      engTotalOut := s.engTotalOut + BitVec.ofNat 64 a.produced.length
      work := a.produced ++ s.work.drop a.produced.length
      ports := { s.ports with engStep := q, chWrite := r }, inFlight := some f
      trace := s.trace ++ [.engStep flush s.cmode s.window s.wbLen a] ++
        (if a.produced = [] then [] else [.chWrite a.produced .ok]) } →
    o = if q = [] then .next t else step t)

/-! ### Results of READ -/

/-- WRITE and READ of length 0 on an open instance of their direction, and a READ of an empty Gzip stream, answer with
no transaction and write no register, but that the first one sets the mode (R202, R222, R223, R201, R221). The first
WRITE of a compressing Gzip instance is FirstWriteEmitsHeader's, the first READ of a decompressing one HeaderParse's. -/
def Obligations.ZeroLengthTransfers : Prop :=
  ∀ s : State, s.inFlight = none → s.disposed = false →
    (s.caller = [] → s.streamMode = .writer →
      exec (.write 0) s = .next { s with responses := s.responses ++ [.ok .unit] }) ∧
    (s.caller = [] → s.streamMode = .undefined → ¬(s.flavor = .gzip ∧ s.cmode = .compress) →
      exec (.write 0) s = .next { s with
        streamMode := .writer, responses := s.responses ++ [.ok .unit] }) ∧
    (∀ len : U32, s.caller.length = len.toNat → s.streamMode = .reader → s.hdrState = .empty ∨ len = 0 →
      exec (.read len) s = .next { s with responses := s.responses ++ [.ok (.read 0 s.caller)] }) ∧
    (s.caller = [] → s.streamMode = .undefined → ¬(s.flavor = .gzip ∧ s.cmode = .decompress) →
      exec (.read 0) s = .next { s with
        streamMode := .reader, responses := s.responses ++ [.ok (.read 0 [])] })

/-- A READ with no chunk to pull, its input staged or exhausted, one engine step long: the engine's bytes go into the
caller's buffer from offset 0, are counted and fed to the accumulator; a full buffer, STREAM_END or the exhausted input
ends it (R226, R229, R230). And a round of READ's loop, the first of a READ or one of a READ in flight, with or without
a chunk pull, its engine step the one scripted and no final step due: the benign end, a failure status, another round or
the end, by the status, the room left and the input left (R225 to R230; log 4). -/
def Obligations.ReadResult : Prop :=
  (∀ (len : U32) (s : State) (a : StepAnswer) (q : List (Reply StepAnswer)),
    s.inFlight = none → s.disposed = false → s.streamMode = .reader → s.hdrState ≠ .empty → s.engLive = true →
    s.wbLive = true → len ≠ 0 → s.caller.length = len.toNat → 0 < s.inAvail ∨ s.noMoreInput = true →
    s.ports.engStep = .answer a :: q → a.consumed ≤ s.window.length → a.produced.length ≤ len.toNat →
    (a.status = .ok ∧ (a.produced.length = len.toNat ∨ s.noMoreInput = true)) ∨ a.status = .streamEnd →
    (s.noMoreInput = true → s.cmode = .compress → a.produced.length = len.toNat) →
    exec (.read len) s = .next { s with
      inNext := s.inNext + a.consumed, inAvail := s.inAvail - a.consumed
      engTotalOut := s.engTotalOut + BitVec.ofNat 64 a.produced.length
      crcReg := if s.crcLive then crcFold s.plat.crc32fn s.crcReg a.produced else s.crcReg
      crcCount := if s.crcLive then s.crcCount + BitVec.ofNat 64 a.produced.length else s.crcCount
      caller := a.produced ++ s.caller.drop a.produced.length
      ports := { s.ports with engStep := q }
      trace := s.trace ++ [.engStep .none s.cmode s.window len.toNat a]
      responses := s.responses ++
        [.ok (.read a.produced.length (a.produced ++ s.caller.drop a.produced.length))] }) ∧
  (∀ (len : U32) (room : Nat) (w : Bytes) (s : State) (o : Host.Outcome State Fault Refusal) (input : Bytes)
    (exhausted : Bool) (reads : List Txn) (a : StepAnswer),
    (s.inFlight = some (.readLoop len.toNat room w) ∧ o = step s ∨
      s.inFlight = none ∧ s.disposed = false ∧ s.streamMode = .reader ∧ s.hdrState ≠ .empty ∧ s.engLive = true ∧
        s.wbLive = true ∧ len ≠ 0 ∧ s.caller.length = len.toNat ∧ room = len.toNat ∧ w = [] ∧
        o = exec (.read len) s) →
    ((0 < s.inAvail ∨ s.noMoreInput = true) ∧ input = s.window ∧ exhausted = s.noMoreInput ∧ reads = [] ∨
      s.inAvail = 0 ∧ s.noMoreInput = false ∧ (∃ ks, s.ports.chRead = .answer (.ok input) :: ks) ∧
        input.length ≤ s.wbLen ∧ exhausted = decide (input = []) ∧ reads = [.chRead s.wbLen (.ok input)]) →
    s.ports.engStep = [.answer a] → a.consumed ≤ input.length → a.produced.length ≤ room →
    (a.status = .ok ∨ a.status = .streamEnd → exhausted = true → s.cmode = .compress → a.produced.length = room) →
    ∃ t, o = .next t ∧ t.trace = s.trace ++ reads ++ [.engStep .none s.cmode input room a] ∧
      t.window = input.drop a.consumed ∧ t.noMoreInput = exhausted ∧
      t.caller = s.caller.take w.length ++ a.produced ++ s.caller.drop (w.length + a.produced.length) ∧
      (if exhausted = true ∧ a.status = .bufError then
        t.inFlight = none ∧ t.responses = s.responses ++ [.ok (.read 0 t.caller)] ∧
          t.crcReg = s.crcReg ∧ t.crcCount = s.crcCount
      else if a.status ≠ .ok ∧ a.status ≠ .streamEnd then
        t.inFlight = none ∧ t.responses = s.responses ++ [.err (.engineFail a.status) (some t.caller)] ∧
          t.crcReg = s.crcReg ∧ t.crcCount = s.crcCount
      else if a.produced.length < room ∧ exhausted = false ∧ a.status = .ok then
        t.inFlight = some (.readLoop len.toNat (room - a.produced.length) (w ++ a.produced)) ∧
          t.responses = s.responses ∧ t.crcReg = s.crcReg ∧ t.crcCount = s.crcCount
      else
        t.inFlight = none ∧
          t.responses = s.responses ++ [.ok (.read (len.toNat - (room - a.produced.length)) t.caller)] ∧
          t.crcReg = (if s.crcLive then crcFold s.plat.crc32fn s.crcReg (w ++ a.produced) else s.crcReg) ∧
          t.crcCount =
            (if s.crcLive then s.crcCount + BitVec.ofNat 64 (w ++ a.produced).length else s.crcCount)))

/-- With the window empty a READ first pulls one chunk of at most WB_LEN bytes, which goes to WORK and becomes the whole
window; no bytes set NO_MORE_INPUT, after which the step still runs and the loop ends, here where no final step is due
(R225, R226, R229). A chunk pull that fails ends the READ with CH_FAIL and the buffer, nothing else changed (R284, R290).
All this comes after Materialise (R224, R204): a READ whose engine is not live initialises it and leases the buffer
first, a first READ with no header to parse after setting the mode, and goes on as a READ with both live; a failed
EngInit is INIT_FAIL with the buffer, and nothing is leased (R283). -/
def Obligations.ReadPullsAChunk : Prop :=
  (∀ (len : U32) (s : State) (k : Bytes) (ks : List (Reply (Answer Bytes))) (a : StepAnswer)
    (q : List (Reply StepAnswer)),
    s.inFlight = none → s.disposed = false → s.streamMode = .reader → s.hdrState ≠ .empty → s.engLive = true →
    s.wbLive = true → len ≠ 0 → s.caller.length = len.toNat → s.inAvail = 0 → s.noMoreInput = false →
    s.ports.chRead = .answer (.ok k) :: ks → k.length ≤ s.wbLen →
    s.ports.engStep = .answer a :: q → a.consumed ≤ k.length → a.produced.length ≤ len.toNat →
    (a.status = .ok ∧ (k = [] ∨ a.produced.length = len.toNat)) ∨ a.status = .streamEnd →
    (k = [] → s.cmode = .compress → a.produced.length = len.toNat) →
    exec (.read len) s = .next { s with
      work := k ++ s.work.drop k.length, inWin := k, inNext := a.consumed, inAvail := k.length - a.consumed
      noMoreInput := decide (k = [])
      engTotalOut := s.engTotalOut + BitVec.ofNat 64 a.produced.length
      crcReg := if s.crcLive then crcFold s.plat.crc32fn s.crcReg a.produced else s.crcReg
      crcCount := if s.crcLive then s.crcCount + BitVec.ofNat 64 a.produced.length else s.crcCount
      caller := a.produced ++ s.caller.drop a.produced.length
      ports := { s.ports with chRead := ks, engStep := q }
      trace := s.trace ++ [.chRead s.wbLen (.ok k), .engStep .none s.cmode k len.toNat a]
      responses := s.responses ++
        [.ok (.read a.produced.length (a.produced ++ s.caller.drop a.produced.length))] }) ∧
  (∀ (len : U32) (s : State) (e : Bytes) (ks : List (Reply (Answer Bytes))),
    s.inFlight = none → s.disposed = false → s.streamMode = .reader → s.hdrState ≠ .empty → s.engLive = true →
    s.wbLive = true → len ≠ 0 → s.caller.length = len.toNat → s.inAvail = 0 → s.noMoreInput = false →
    s.ports.chRead = .answer (.fail e) :: ks → exec (.read len) s = .next { s with
      ports := { s.ports with chRead := ks }, trace := s.trace ++ [.chRead s.wbLen (.fail e)]
      responses := s.responses ++ [.err (.chFail e) (some s.caller)] }) ∧
  (∀ (len : U32) (s : State) (q : List (Reply (Answer Unit))),
    s.inFlight = none → s.disposed = false →
    s.streamMode = .reader ∨ s.streamMode = .undefined ∧ ¬(s.flavor = .gzip ∧ s.cmode = .decompress) →
    s.hdrState ≠ .empty → s.engLive = false → s.wbLive = false → len ≠ 0 → s.caller.length = len.toNat →
    (∀ b bs, s.ports.engInit = .answer (.ok ()) :: q → s.ports.poolLease = .answer b :: bs →
      s.workbufSize ≤ b.length → exec (.read len) s = exec (.read len) { s with
        streamMode := .reader, engLive := true, wbLive := true, wbLen := b.length, work := b
        ports := { s.ports with engInit := q, poolLease := bs }
        trace := s.trace ++ [
          .engInit s.cmode (if s.cmode = .compress then some s.level else none) (decide (s.flavor = .zlib)) (.ok ()),
          .poolLease s.workbufSize b] }) ∧
    (∀ msg, s.ports.engInit = .answer (.fail msg) :: q → exec (.read len) s = .next { s with
      streamMode := .reader, ports := { s.ports with engInit := q }
      trace := s.trace ++ [
        .engInit s.cmode (if s.cmode = .compress then some s.level else none) (decide (s.flavor = .zlib)) (.fail msg)]
      responses := s.responses ++ [.err (.initFail msg) (some s.caller)] }))

/-- The benign end and its boundary: a failure status is ENGINE_FAIL, with the buffer, but BUF_ERROR with the input
exhausted, which answers 0 and no error; uncounted and not fed to the accumulator, the bytes of the step in the buffer.
The input is exhausted before the READ, or by the chunk pull of this very round (R227, R220, R283, R332). -/
def Obligations.ReadBenignEnd : Prop :=
  ∀ (len : U32) (s : State) (a : StepAnswer) (q : List (Reply StepAnswer)),
    s.inFlight = none → s.disposed = false → s.streamMode = .reader → s.hdrState ≠ .empty → s.engLive = true →
    s.wbLive = true → len ≠ 0 → s.caller.length = len.toNat →
    s.ports.engStep = .answer a :: q → a.produced.length ≤ len.toNat → a.status ≠ .ok → a.status ≠ .streamEnd →
    (s.noMoreInput = true ∨ 0 < s.inAvail → a.consumed ≤ s.window.length → exec (.read len) s = .next { s with
      inNext := s.inNext + a.consumed, inAvail := s.inAvail - a.consumed
      engTotalOut := s.engTotalOut + BitVec.ofNat 64 a.produced.length
      caller := a.produced ++ s.caller.drop a.produced.length
      ports := { s.ports with engStep := q }
      trace := s.trace ++ [.engStep .none s.cmode s.window len.toNat a]
      responses := s.responses ++
        [if s.noMoreInput = true ∧ a.status = .bufError
          then .ok (.read 0 (a.produced ++ s.caller.drop a.produced.length))
          else .err (.engineFail a.status) (some (a.produced ++ s.caller.drop a.produced.length))] }) ∧
    (∀ k ks, s.noMoreInput = false → s.inAvail = 0 → s.ports.chRead = .answer (.ok k) :: ks → k.length ≤ s.wbLen →
      a.consumed ≤ k.length → exec (.read len) s = .next { s with
        work := k ++ s.work.drop k.length, inWin := k, inNext := a.consumed, inAvail := k.length - a.consumed
        noMoreInput := decide (k = [])
        engTotalOut := s.engTotalOut + BitVec.ofNat 64 a.produced.length
        caller := a.produced ++ s.caller.drop a.produced.length
        ports := { s.ports with chRead := ks, engStep := q }
        trace := s.trace ++ [.chRead s.wbLen (.ok k), .engStep .none s.cmode k len.toNat a]
        responses := s.responses ++
          [if k = [] ∧ a.status = .bufError then .ok (.read 0 (a.produced ++ s.caller.drop a.produced.length))
            else .err (.engineFail a.status) (some (a.produced ++ s.caller.drop a.produced.length))] })

/-- Compress-on-read with the input exhausted and room left: exactly one more step, with flush FINISH, whose bytes are
appended and counted, or whose failure status is ENGINE_FAIL (R228). The input is exhausted before the READ, by its first
chunk pull, or by its second, after a round that took the whole first chunk; and the same of a READ in flight in its
loop, exhausted before or by this round's chunk pull (R225, R229). -/
def Obligations.ReadFinalStep : Prop :=
  (∀ (len : U32) (s : State) (a b : StepAnswer) (q : List (Reply StepAnswer)),
    s.inFlight = none → s.disposed = false → s.streamMode = .reader → s.hdrState ≠ .empty → s.engLive = true →
    s.wbLive = true → s.caller.length = len.toNat → s.noMoreInput = true → s.cmode = .compress →
    s.inAvail = 0 → s.ports.engStep = .answer a :: .answer b :: q → a.consumed = 0 →
    b.consumed = 0 → a.produced.length < len.toNat → a.produced.length + b.produced.length ≤ len.toNat →
    a.status = .ok ∨ a.status = .streamEnd →
    exec (.read len) s = .next { s with
      engTotalOut := s.engTotalOut + BitVec.ofNat 64 a.produced.length + BitVec.ofNat 64 b.produced.length
      crcReg := if s.crcLive ∧ (b.status = .ok ∨ b.status = .streamEnd)
        then crcFold s.plat.crc32fn s.crcReg (a.produced ++ b.produced) else s.crcReg
      crcCount := if s.crcLive ∧ (b.status = .ok ∨ b.status = .streamEnd)
        then s.crcCount + BitVec.ofNat 64 (a.produced ++ b.produced).length else s.crcCount
      caller := a.produced ++ b.produced ++ s.caller.drop (a.produced.length + b.produced.length)
      ports := { s.ports with engStep := q }
      trace := s.trace ++ [.engStep .none .compress [] len.toNat a,
        .engStep .finish .compress [] (len.toNat - a.produced.length) b]
      responses := s.responses ++
        [if b.status = .ok ∨ b.status = .streamEnd
          then .ok (.read (a.produced.length + b.produced.length)
            (a.produced ++ b.produced ++ s.caller.drop (a.produced.length + b.produced.length)))
          else .err (.engineFail b.status)
            (some (a.produced ++ b.produced ++ s.caller.drop (a.produced.length + b.produced.length)))] }) ∧
  (∀ (len : U32) (s : State) (ks : List (Reply (Answer Bytes))) (a b : StepAnswer) (q : List (Reply StepAnswer)),
    s.inFlight = none → s.disposed = false → s.streamMode = .reader → s.hdrState ≠ .empty → s.engLive = true →
    s.wbLive = true → s.caller.length = len.toNat → s.noMoreInput = false → s.cmode = .compress →
    s.inAvail = 0 → s.ports.chRead = .answer (.ok []) :: ks → s.ports.engStep = .answer a :: .answer b :: q →
    a.consumed = 0 → b.consumed = 0 → a.produced.length < len.toNat →
    a.produced.length + b.produced.length ≤ len.toNat → a.status = .ok ∨ a.status = .streamEnd →
    exec (.read len) s = .next { s with
      inWin := [], inNext := 0, noMoreInput := true
      engTotalOut := s.engTotalOut + BitVec.ofNat 64 a.produced.length + BitVec.ofNat 64 b.produced.length
      crcReg := if s.crcLive ∧ (b.status = .ok ∨ b.status = .streamEnd)
        then crcFold s.plat.crc32fn s.crcReg (a.produced ++ b.produced) else s.crcReg
      crcCount := if s.crcLive ∧ (b.status = .ok ∨ b.status = .streamEnd)
        then s.crcCount + BitVec.ofNat 64 (a.produced ++ b.produced).length else s.crcCount
      caller := a.produced ++ b.produced ++ s.caller.drop (a.produced.length + b.produced.length)
      ports := { s.ports with chRead := ks, engStep := q }
      trace := s.trace ++ [.chRead s.wbLen (.ok []), .engStep .none .compress [] len.toNat a,
        .engStep .finish .compress [] (len.toNat - a.produced.length) b]
      responses := s.responses ++
        [if b.status = .ok ∨ b.status = .streamEnd
          then .ok (.read (a.produced.length + b.produced.length)
            (a.produced ++ b.produced ++ s.caller.drop (a.produced.length + b.produced.length)))
          else .err (.engineFail b.status)
            (some (a.produced ++ b.produced ++ s.caller.drop (a.produced.length + b.produced.length)))] }) ∧
  (∀ (len : U32) (s : State) (k : Bytes) (ks : List (Reply (Answer Bytes))) (a b c : StepAnswer)
    (q : List (Reply StepAnswer)) (p : Bytes),
    s.inFlight = none → s.disposed = false → s.streamMode = .reader → s.hdrState ≠ .empty → s.engLive = true →
    s.wbLive = true → s.caller.length = len.toNat → s.noMoreInput = false → s.cmode = .compress →
    s.inAvail = 0 → s.ports.chRead = .answer (.ok k) :: .answer (.ok []) :: ks → k ≠ [] → k.length ≤ s.wbLen →
    s.ports.engStep = .answer a :: .answer b :: .answer c :: q → a.consumed = k.length → b.consumed = 0 →
    c.consumed = 0 → a.status = .ok → b.status = .ok ∨ b.status = .streamEnd →
    a.produced.length + b.produced.length < len.toNat → p = a.produced ++ b.produced ++ c.produced →
    p.length ≤ len.toNat →
    exec (.read len) s = .next { s with
      work := k ++ s.work.drop k.length, inWin := [], inNext := 0, noMoreInput := true
      engTotalOut := s.engTotalOut + BitVec.ofNat 64 p.length
      crcReg := if s.crcLive ∧ (c.status = .ok ∨ c.status = .streamEnd)
        then crcFold s.plat.crc32fn s.crcReg p else s.crcReg
      crcCount := if s.crcLive ∧ (c.status = .ok ∨ c.status = .streamEnd)
        then s.crcCount + BitVec.ofNat 64 p.length else s.crcCount
      caller := p ++ s.caller.drop p.length
      ports := { s.ports with chRead := ks, engStep := q }
      trace := s.trace ++ [.chRead s.wbLen (.ok k), .engStep .none .compress k len.toNat a,
        .chRead s.wbLen (.ok []), .engStep .none .compress [] (len.toNat - a.produced.length) b,
        .engStep .finish .compress [] (len.toNat - a.produced.length - b.produced.length) c]
      responses := s.responses ++
        [if c.status = .ok ∨ c.status = .streamEnd then .ok (.read p.length (p ++ s.caller.drop p.length))
          else .err (.engineFail c.status) (some (p ++ s.caller.drop p.length))] }) ∧
  (∀ (len room : Nat) (w : Bytes) (s : State) (reads : List Txn) (a b : StepAnswer) (q : List (Reply StepAnswer)),
    s.inFlight = some (.readLoop len room w) → s.cmode = .compress → s.inAvail = 0 →
    (s.noMoreInput = true ∧ reads = [] ∨
      s.noMoreInput = false ∧ (∃ ks, s.ports.chRead = .answer (.ok []) :: ks) ∧
        reads = [.chRead s.wbLen (.ok [])]) →
    s.ports.engStep = .answer a :: .answer b :: q → a.consumed = 0 → b.consumed = 0 →
    a.produced.length < room → a.produced.length + b.produced.length ≤ room →
    a.status = .ok ∨ a.status = .streamEnd →
    ∃ t, step s = .next t ∧ t.inFlight = none ∧ t.noMoreInput = true ∧ t.inAvail = 0 ∧ t.ports.engStep = q ∧
      t.caller = s.caller.take w.length ++ (a.produced ++ b.produced) ++
        s.caller.drop (w.length + a.produced.length + b.produced.length) ∧
      t.trace = s.trace ++ reads ++ [.engStep .none .compress [] room a,
        .engStep .finish .compress [] (room - a.produced.length) b] ∧
      t.crcReg = (if s.crcLive ∧ (b.status = .ok ∨ b.status = .streamEnd)
        then crcFold s.plat.crc32fn s.crcReg (w ++ a.produced ++ b.produced) else s.crcReg) ∧
      t.crcCount = (if s.crcLive ∧ (b.status = .ok ∨ b.status = .streamEnd)
        then s.crcCount + BitVec.ofNat 64 (w ++ a.produced ++ b.produced).length else s.crcCount) ∧
      t.responses = s.responses ++
        [if b.status = .ok ∨ b.status = .streamEnd
          then .ok (.read (len - (room - a.produced.length - b.produced.length)) t.caller)
          else .err (.engineFail b.status) (some t.caller)])

/-! ### The header parse -/

/-- A header with any optional fields, drawn one byte a ChRead by the first READ of a Gzip decompression instance: the
header registers hold its fields, HDR_BYTES its length by R127, and the parse drew exactly the header (R126, R127, R160,
R161, R164 to R169). With a length of 0 that is the whole READ, and the engine is as it was; with any length the READ goes
on as a READ after the parse (R221, R224). -/
def Obligations.HeaderParse : Prop :=
  ∀ (s : State) (h : WireHeader) (q : List (Reply (Answer Bytes))), s.inFlight = none → s.disposed = false →
    s.streamMode = .undefined → s.flavor = .gzip → s.cmode = .decompress → h.wf = true →
    s.ports.chRead = h.wire.map (fun b => .answer (.ok [b])) ++ q →
    (s.caller = [] →
      ∃ t, exec (.read 0) s = .next t ∧ t.inFlight = none ∧ t.responses = s.responses ++ [.ok (.read 0 [])] ∧
        t.streamMode = .reader ∧ t.engLive = s.engLive ∧ t.hdrState = .parsed ∧ t.hdrMtime = h.mtime ∧
        t.hdrFlg = h.flg ∧ t.hdrFname = h.name ∧ t.hdrComment = h.comment ∧
        t.hdrBytes = 10 + (match h.extra with
            | none => 0
            | some x => 2 + x.length) + (match h.name with
            | none => 0
            | some n => n.length + 1) + (match h.comment with
            | none => 0
            | some c => c.length + 1) + (if h.hcrc.isSome then 2 else 0) ∧
        t.ports.chRead = q ∧ drawn t.trace = drawn s.trace ++ h.wire) ∧
    (∀ len : U32, s.caller.length = len.toNat →
      ∃ reads, drawn reads = h.wire ∧ (∀ x ∈ reads, ∃ n b, x = .chRead n (.ok b)) ∧
        exec (.read len) s = exec (.read len) { s with
          streamMode := .reader, hdrState := .parsed, hdrMtime := h.mtime, hdrFlg := h.flg, hdrFname := h.name
          hdrComment := h.comment, hdrBytes := h.wire.length, ports := { s.ports with chRead := q }
          trace := s.trace ++ reads })

/-- An emitted header parsed back gives the timestamp it was emitted with and no optional field, however the channel cuts
it into chunks (R185, R161). -/
def Obligations.HeaderRoundTrip : Prop :=
  ∀ (s : State) (p : Platform) (m : U32) (chunks : List Bytes) (q : List (Reply (Answer Bytes))),
    s.inFlight = none → s.disposed = false → s.streamMode = .undefined → s.flavor = .gzip → s.cmode = .decompress →
    s.caller = [] → (∀ k ∈ chunks, k ≠ []) → chunks.flatten = headerBytes p m →
    s.ports.chRead = chunks.map (fun k => .answer (.ok k)) ++ q →
    ∃ t, exec (.read 0) s = .next t ∧ t.hdrState = .parsed ∧ t.hdrMtime = m ∧ t.hdrFlg = 0x00 ∧
      t.hdrFname = none ∧ t.hdrComment = none ∧ t.hdrBytes = 10 ∧ t.ports.chRead = q

/-- A channel that ends inside a header, after at least one byte of it, is a FormatError: SHORT_HEADER with the count
inside the fixed header, then EOF_IN_HEADER with the field it ends in. It leaves every header register and the engine as
they were, in Reader mode (R163, R165 to R168, R160, R281). -/
def Obligations.TruncatedHeader : Prop :=
  ∀ (s : State) (h : WireHeader) (n : Nat) (q : List (Reply (Answer Bytes))), s.inFlight = none →
    s.disposed = false → s.streamMode = .undefined → s.flavor = .gzip → s.cmode = .decompress → s.caller = [] →
    h.wf = true → 0 < n → n < h.wire.length →
    s.ports.chRead = (h.wire.take n).map (fun b => .answer (.ok [b])) ++ .answer (.ok []) :: q →
    ∃ t, exec (.read 0) s = .next t ∧
      t.responses = s.responses ++ [.err (if n < 10 then .shortHeader n else .eofInHeader (h.placeAt n)) (some [])] ∧
      t.streamMode = .reader ∧ t.hdrState = s.hdrState ∧ t.hdrBytes = s.hdrBytes ∧
      t.hdrMtime = s.hdrMtime ∧ t.hdrFlg = s.hdrFlg ∧ t.hdrFname = s.hdrFname ∧ t.hdrComment = s.hdrComment ∧
      t.engLive = s.engLive ∧ t.inFlight = none

/-- The fixed header's checks, on the 10 bytes of one ChRead: magic before method; and the empty channel, which is no
error (R162, R163). -/
def Obligations.FixedHeaderChecks : Prop :=
  ∀ (s : State) (b : Bytes) (q : List (Reply (Answer Bytes))), s.inFlight = none → s.disposed = false →
    s.streamMode = .undefined → s.flavor = .gzip → s.cmode = .decompress → s.caller = [] →
    s.ports.chRead = .answer (.ok b) :: q →
    (∀ x y z r, b = x :: y :: z :: r → b.length = 10 → x ≠ 0x1F ∨ y ≠ 0x8B ∨ z ≠ 0x08 →
      exec (.read 0) s = .next { s with
        streamMode := .reader, ports := { s.ports with chRead := q }, trace := s.trace ++ [.chRead 10 (.ok b)]
        responses := s.responses ++
          [.err (if x ≠ 0x1F ∨ y ≠ 0x8B then .badMagic x y else .badMethod z) (some [])] }) ∧
    (b = [] → exec (.read 0) s = .next { s with
      streamMode := .reader, hdrState := .empty, hdrBytes := 0, ports := { s.ports with chRead := q }
      trace := s.trace ++ [.chRead 10 (.ok [])], responses := s.responses ++ [.ok (.read 0 [])] })

/-! ### Results of CLOSE -/

/-- CLOSE of an instance whose engine was never touched: no Finish, one ChClose unless LEAVE_OPEN, DISPOSED; a ChClose
failure is its error (R244, R248, R249, R252). -/
def Obligations.CloseUntouched : Prop :=
  ∀ s : State, s.inFlight = none → s.disposed = false → s.engLive = false → s.wbLive = false →
    (s.leaveOpen = true → exec .close s = .next { s with
      disposed := true, responses := s.responses ++ [.ok .unit] }) ∧
    (∀ c q, s.leaveOpen = false → s.ports.chClose = .answer c :: q → exec .close s = .next { s with
      disposed := true, ports := { s.ports with chClose := q }, trace := s.trace ++ [.chClose c]
      responses := s.responses ++ [match c with
        | .ok _ => .ok .unit
        | .fail e => .err (.chFail e) none] })

/-- CLOSE of a Reader whose engine is live: Finish makes no transaction; engine, buffer and, unless LEAVE_OPEN, channel
are given back in this order; a Gzip compress-on-read instance answers UNSUPPORTED_DIRECTION, any other Ok or ChClose's
failure (R245, R247, R249). -/
def Obligations.CloseReader : Prop :=
  ∀ (s : State) (c : Answer Unit) (q₁ q₂ : List (Reply Unit)) (q₃ : List (Reply (Answer Unit))),
    s.inFlight = none → s.disposed = false → s.streamMode = .reader → s.engLive = true → s.wbLive = true →
    s.ports.engEnd = .answer () :: q₁ → s.ports.poolRelease = .answer () :: q₂ →
    s.ports.chClose = (if s.leaveOpen then [] else [.answer c]) ++ q₃ →
    exec .close s = .next { s with
      disposed := true, engLive := false, wbLive := false, work := []
      ports := { s.ports with engEnd := q₁, poolRelease := q₂, chClose := q₃ }
      trace := s.trace ++ [.engEnd s.cmode, .poolRelease] ++ (if s.leaveOpen then [] else [.chClose c])
      responses := s.responses ++
        [if s.flavor = .gzip ∧ s.cmode = .compress then .err (.unsupportedDirection .readCompress) none
          else if s.leaveOpen then .ok .unit
          else match c with
            | .ok _ => .ok .unit
            | .fail e => .err (.chFail e) none] }

/-- CLOSE of a Writer, its Finish one engine step long, or in flight inside Finish and one engine step from its end: the step with flush FINISH, its bytes to the channel, ChFlush,
for compressing Gzip the trailer of CRC and ISIZE, then the teardown; a Gzip decompress-on-write instance answers
UNSUPPORTED_DIRECTION after the flush (R173, R245, R246, R249). -/
def Obligations.CloseWriter : Prop :=
  ∀ (s : State) (o : Host.Outcome State Fault Refusal) (a : StepAnswer) (c : Answer Unit) (q : List (Reply StepAnswer)) (w : List (Reply WriteAnswer))
    (f : List (Reply (Answer Unit))) (q₁ q₂ : List (Reply Unit)) (q₃ : List (Reply (Answer Unit))),
    s.inFlight = none ∧ o = exec .close s ∨ s.inFlight = some .finishLoop ∧ o = step s → s.disposed = false → s.streamMode = .writer → s.engLive = true → s.wbLive = true →
    s.ports.engStep = .answer a :: q → a.consumed ≤ s.window.length → a.produced.length < s.wbLen →
    a.status = .streamEnd ∨ a.status = .ok ∧ s.plat.finishRequiresStreamEnd = false →
    s.inAvail - a.consumed = (if s.flavor = .gzip ∧ s.cmode = .decompress then 8 else 0) →
    s.ports.chWrite = (if a.produced = [] then [] else [.answer .ok]) ++
      (if s.flavor = .gzip ∧ s.cmode = .compress then [.answer .ok] else []) ++ w →
    s.ports.chFlush = .answer (.ok ()) :: f → s.ports.engEnd = .answer () :: q₁ →
    s.ports.poolRelease = .answer () :: q₂ → s.ports.chClose = (if s.leaveOpen then [] else [.answer c]) ++ q₃ →
    o = .next { s with
      inFlight := none, disposed := true, engLive := false, wbLive := false, work := []
      inNext := s.inNext + a.consumed, inAvail := s.inAvail - a.consumed
      engTotalOut := s.engTotalOut + BitVec.ofNat 64 a.produced.length
      ports := { s.ports with
        engStep := q, chWrite := w, chFlush := f, engEnd := q₁, poolRelease := q₂, chClose := q₃ }
      trace := s.trace ++ [.engStep .finish s.cmode s.window s.wbLen a] ++
        (if a.produced = [] then [] else [.chWrite a.produced .ok]) ++ [.chFlush (.ok ())] ++
        (if s.flavor = .gzip ∧ s.cmode = .compress
          then [.chWrite (toLE32 (s.crcReg ^^^ 0xFFFFFFFF) ++ toLE32 (s.crcCount.truncate 32)) .ok] else []) ++
        [.engEnd s.cmode, .poolRelease] ++ (if s.leaveOpen then [] else [.chClose c])
      responses := s.responses ++
        [if s.flavor = .gzip ∧ s.cmode = .decompress then .err (.unsupportedDirection .writeDecompress) none
          else if s.leaveOpen then .ok .unit
          else match c with
            | .ok _ => .ok .unit
            | .fail e => .err (.chFail e) none] }

/-- A Finish that fails does not stop the teardown, and its error is the one answered, whatever ChClose then does: every
step of the teardown runs and DISPOSED is set (R244, R249, R252, R292). Finish may fail at its engine step, at the
ChWrite of the step's bytes, at ChFlush, or at the trailer's ChWrite; nothing is rolled back (R246, R284, R290). So in the
step that begins the CLOSE and in one that goes on with it. -/
def Obligations.CloseErrorPrecedence : Prop :=
  ∀ (s : State) (o : Host.Outcome State Fault Refusal) (a : StepAnswer) (c : Answer Unit) (q : List (Reply StepAnswer)) (q₁ q₂ : List (Reply Unit))
    (q₃ : List (Reply (Answer Unit))),
    s.inFlight = none ∧ o = exec .close s ∨ s.inFlight = some .finishLoop ∧ o = step s → s.disposed = false → s.streamMode = .writer → s.engLive = true → s.wbLive = true →
    s.ports.engStep = .answer a :: q → a.consumed ≤ s.window.length → a.produced.length ≤ s.wbLen →
    s.ports.engEnd = .answer () :: q₁ → s.ports.poolRelease = .answer () :: q₂ →
    s.ports.chClose = (if s.leaveOpen then [] else [.answer c]) ++ q₃ →
    (a.status ≠ .ok → a.status ≠ .streamEnd → o = .next { s with
      inFlight := none, disposed := true, engLive := false, wbLive := false, work := []
      inNext := s.inNext + a.consumed, inAvail := s.inAvail - a.consumed
      engTotalOut := s.engTotalOut + BitVec.ofNat 64 a.produced.length
      ports := { s.ports with engStep := q, engEnd := q₁, poolRelease := q₂, chClose := q₃ }
      trace := s.trace ++ [.engStep .finish s.cmode s.window s.wbLen a, .engEnd s.cmode, .poolRelease] ++
        (if s.leaveOpen then [] else [.chClose c])
      responses := s.responses ++ [.err (.engineFail a.status) none] }) ∧
    (∀ e k w, a.status = .ok ∨ a.status = .streamEnd → a.produced ≠ [] → k ≤ a.produced.length →
      s.ports.chWrite = .answer (.fail e k) :: w → o = .next { s with
        inFlight := none, disposed := true, engLive := false, wbLive := false, work := []
        inNext := s.inNext + a.consumed, inAvail := s.inAvail - a.consumed
        engTotalOut := s.engTotalOut + BitVec.ofNat 64 a.produced.length
        ports := { s.ports with engStep := q, chWrite := w, engEnd := q₁, poolRelease := q₂, chClose := q₃ }
        trace := s.trace ++ [.engStep .finish s.cmode s.window s.wbLen a, .chWrite a.produced (.fail e k),
          .engEnd s.cmode, .poolRelease] ++ (if s.leaveOpen then [] else [.chClose c])
        responses := s.responses ++ [.err (.chFail e) none] }) ∧
    (∀ e w f, a.produced.length < s.wbLen → a.status = .streamEnd ∨ a.status = .ok ∧ s.plat.finishRequiresStreamEnd = false →
      s.inAvail - a.consumed = (if s.flavor = .gzip ∧ s.cmode = .decompress then 8 else 0) →
      s.ports.chWrite = (if a.produced = [] then [] else [.answer .ok]) ++ w →
      s.ports.chFlush = .answer (.fail e) :: f → o = .next { s with
        inFlight := none, disposed := true, engLive := false, wbLive := false, work := []
        inNext := s.inNext + a.consumed, inAvail := s.inAvail - a.consumed
        engTotalOut := s.engTotalOut + BitVec.ofNat 64 a.produced.length
        ports := { s.ports with
          engStep := q, chWrite := w, chFlush := f, engEnd := q₁, poolRelease := q₂, chClose := q₃ }
        trace := s.trace ++ [.engStep .finish s.cmode s.window s.wbLen a] ++
          (if a.produced = [] then [] else [.chWrite a.produced .ok]) ++
          [.chFlush (.fail e), .engEnd s.cmode, .poolRelease] ++ (if s.leaveOpen then [] else [.chClose c])
        responses := s.responses ++ [.err (.chFail e) none] }) ∧
    (∀ e k w f, s.flavor = .gzip → s.cmode = .compress → a.produced.length < s.wbLen →
      a.status = .streamEnd ∨ a.status = .ok ∧ s.plat.finishRequiresStreamEnd = false → s.inAvail - a.consumed = 0 →
      s.ports.chWrite = (if a.produced = [] then [] else [.answer .ok]) ++ .answer (.fail e k) :: w → k ≤ 8 →
      s.ports.chFlush = .answer (.ok ()) :: f → o = .next { s with
        inFlight := none, disposed := true, engLive := false, wbLive := false, work := []
        inNext := s.inNext + a.consumed, inAvail := s.inAvail - a.consumed
        engTotalOut := s.engTotalOut + BitVec.ofNat 64 a.produced.length
        ports := { s.ports with
          engStep := q, chWrite := w, chFlush := f, engEnd := q₁, poolRelease := q₂, chClose := q₃ }
        trace := s.trace ++ [.engStep .finish s.cmode s.window s.wbLen a] ++
          (if a.produced = [] then [] else [.chWrite a.produced .ok]) ++
          [.chFlush (.ok ()), .chWrite (toLE32 (s.crcReg ^^^ 0xFFFFFFFF) ++ toLE32 (s.crcCount.truncate 32)) (.fail e k),
            .engEnd s.cmode, .poolRelease] ++ (if s.leaveOpen then [] else [.chClose c])
        responses := s.responses ++ [.err (.chFail e) none] })

/-! ### What the block does not look at -/

/-- The bytes in the engine's window steer nothing: with other bytes in their place, a corrupted trailer's say, and the
same answers from the collaborators, every step does the same, its responses and registers the same, but for the window
itself and the engine's input on record (R180, R182, R293). -/
def Obligations.NoRuleReadsTheWindow : Prop :=
  ∀ (s t : State) (v : Bytes), v.length = s.inWin.length → step s = .next t →
    ∃ (v' : Bytes) (r : List Txn), step { s with inWin := v } = .next { t with inWin := v', trace := s.trace ++ r } ∧
      v'.length = t.inWin.length ∧ (s.trace ++ r).map Txn.blind = t.trace.map Txn.blind
end

