-- ==== Sys2Proof/Laws/Act.lean ====
section
/-! SUPPORT. Reasoning about pseudocode: the weakest precondition of an `Act`, one rule for each combinator and one
for a port transaction, and how a command's pseudocode becomes the outcome of a step. -/

namespace Sys2Proof.Machine

/-- `Q` holds of every normal end of `m` from `s`, and `X` of every early one. -/
def Act.wp {α : Type} (m : Act α) (Q : α → State → Prop) (X : Exit → State → Prop) (s : State) : Prop :=
  match m s with
  | .ok a s' => Q a s'
  | .error x s' => X x s'

variable {α β σ : Type} {Q Q' : α → State → Prop} {X X' : Exit → State → Prop} {s : State}

theorem Act.wp_mono {m : Act α} (h : Act.wp m Q X s) (hQ : ∀ a s', Q a s' → Q' a s') (hX : ∀ x s', X x s' → X' x s') :
    Act.wp m Q' X' s := by
  unfold Act.wp at *
  split
  · rename_i heq; rw [heq] at h; exact hQ _ _ h
  · rename_i heq; rw [heq] at h; exact hX _ _ h

/-! ### How actions run -/

@[simp] theorem bind_run (m : Act α) (f : α → Act β) (s : State) :
    (m >>= f) s = match m s with
      | .ok a s' => f a s'
      | .error x s' => .error x s' := by
  simp only [bind, EStateM.bind]
  cases m s <;> rfl

@[simp] theorem map_run (g : α → β) (m : Act α) (s : State) :
    (g <$> m) s = match m s with
      | .ok a s' => .ok (g a) s'
      | .error x s' => .error x s' := by
  simp only [Functor.map, EStateM.map]
  cases m s <;> rfl

@[simp] theorem pure_run (a : α) (s : State) : (pure a : Act α) s = .ok a s := rfl

@[simp] theorem raise_run (e : Error) (s : State) : (raise e : Act α) s = .error (.raise e) s := rfl

@[simp] theorem pause_run (f : InFlight) (s : State) : (pause f : Act α) s = .error (.pause f) s := rfl

@[simp] theorem getState_run (s : State) : getState s = .ok s s := rfl

@[simp] theorem update_run (f : State → State) (s : State) : update f s = .ok () (f s) := rfl

/-! ### Weakest preconditions -/

@[simp] theorem Act.wp_pure (a : α) : Act.wp (pure a) Q X s ↔ Q a s := Iff.rfl

@[simp] theorem Act.wp_raise (e : Error) : Act.wp (raise e) Q X s ↔ X (.raise e) s := Iff.rfl

@[simp] theorem Act.wp_pause (f : InFlight) : Act.wp (pause f) Q X s ↔ X (.pause f) s := Iff.rfl

@[simp] theorem Act.wp_getState {Q : State → State → Prop} : Act.wp getState Q X s ↔ Q s s := Iff.rfl

@[simp] theorem Act.wp_update {Q : Unit → State → Prop} (f : State → State) :
    Act.wp (update f) Q X s ↔ Q () (f s) := Iff.rfl

@[simp] theorem Act.wp_bind {Q : β → State → Prop} (m : Act α) (f : α → Act β) :
    Act.wp (m >>= f) Q X s ↔ Act.wp m (fun a s' => Act.wp (f a) Q X s') X s := by
  unfold Act.wp
  rw [bind_run]
  cases m s <;> rfl

@[simp] theorem Act.wp_ite (c : Prop) [Decidable c] (m n : Act α) :
    Act.wp (if c then m else n) Q X s ↔ (c → Act.wp m Q X s) ∧ (¬c → Act.wp n Q X s) := by
  split <;> simp_all

@[simp] theorem Act.wp_onlyIf {Q : Unit → State → Prop} (c : Prop) [Decidable c] (m : Act Unit) :
    Act.wp (onlyIf c m) Q X s ↔ (c → Act.wp m Q X s) ∧ (¬c → Q () s) := by
  unfold onlyIf
  split <;> simp_all

theorem Act.wp_attempt {Q : Option Error → State → Prop} (m : Act Unit)
    (h : Act.wp m (fun _ s' => Q none s')
      (fun x s' => match x with
        | .raise e => Q (some e) s'
        | .pause f => X (.pause f) s'
        | .refuse r => X (.refuse r) s') s) :
    Act.wp (attempt m) Q X s := by
  unfold Act.wp attempt at *
  cases hm : m s with
  | ok a s' => simp_all
  | error x s' => rw [hm] at h; cases x <;> simp_all

/-- A loop with an invariant `J`: each round keeps it or ends in `Q`, and where it holds the step may also end with the
command in flight. -/
theorem Act.wp_iterate {body : σ → Act (σ ⊕ α)} {at_ : σ → InFlight} (J : σ → State → Prop)
    (round : ∀ x s, J x s → Act.wp (body x) (fun r s' => match r with
      | .inl y => J y s'
      | .inr a => Q a s') X s)
    (rest : ∀ y s, J y s → X (.pause (at_ y)) s) (more : Nat) (x : σ) (h : J x s) :
    Act.wp (iterate body at_ more x) Q X s := by
  induction more generalizing x s with
  | zero =>
    rw [iterate, Act.wp_bind]
    refine Act.wp_mono (round x s h) ?_ (fun _ _ h => h)
    intro r s' hr
    cases r with
    | inl y => exact rest y s' hr
    | inr a => exact hr
  | succ n ih =>
    rw [iterate, Act.wp_bind]
    refine Act.wp_mono (round x s h) ?_ (fun _ _ h => h)
    intro r s' hr
    cases r with
    | inl y => exact ih y hr
    | inr a => exact hr

/-! ### Port transactions -/

/-- All a transaction can do: answer within the primitive's bounds and go on the record, or leave the command stuck or
stop, with no effect. -/
theorem Act.wp_transact {port : PortName} {queue : Ports → List (Reply α)} {drop : Ports → Ports} {free : Nat → α}
    {fits : α → Bool} {bad : Refusal} {log : α → Txn} (hfree : ∀ k, fits (free k) = true)
    (answered : ∀ a ports draws, fits a = true → Q a (s.exchanged ports draws (log a)))
    (silent : X (.pause (.stuck port)) s) (unfit : X (.refuse bad) s) :
    Act.wp (transact port queue drop free fits bad log) Q X s := by
  unfold Act.wp transact
  split
  · rename_i heq
    split at heq
    · cases heq; exact answered _ _ _ (hfree _)
    · cases heq
    · split at heq
      · cases heq; exact answered _ _ _ ‹_›
      · cases heq
  · rename_i heq
    split at heq
    · cases heq
    · cases heq; exact silent
    · split at heq
      · cases heq
      · cases heq; exact unfit

theorem freeRead_fits (n k : Nat) : readFits n (freeRead n k) = true := by
  unfold freeRead freeAnswer
  split <;> simp [readFits, List.length_take]

theorem freeWrite_fits (b : Bytes) (k : Nat) : writeFits b (freeWrite b k) = true := by
  unfold freeWrite
  split <;> simp [writeFits]

theorem freeStep_fits (input : Bytes) (cap k : Nat) : stepFits input cap (freeStep input cap k) = true := by
  simp [stepFits, freeStep]

theorem freeLease_fits (n k : Nat) : leaseFits n (freeLease n k) = true := by
  simp [leaseFits, freeLease]; omega

/-- The only ways a transaction can stop a command: stuck on it for ever, or an answer out of bounds. -/
abbrev Act.Halts (X : Exit → State → Prop) (p : PortName) (s : State) : Prop :=
  X (.pause (.stuck p)) s ∧ ∀ r, X (.refuse r) s

theorem askRead_wp {Q : Answer Bytes → State → Prop} (n : Nat) (halt : Act.Halts X .chRead s)
    (h : ∀ a ports draws, readFits n a = true → Q a (s.exchanged ports draws (.chRead n a))) :
    Act.wp (askRead n) Q X s :=
  Act.wp_transact (freeRead_fits n) h halt.1 (halt.2 _)

theorem askWrite_wp {Q : WriteAnswer → State → Prop} (b : Bytes) (halt : Act.Halts X .chWrite s)
    (h : ∀ a ports draws, writeFits b a = true → Q a (s.exchanged ports draws (.chWrite b a))) :
    Act.wp (askWrite b) Q X s :=
  Act.wp_transact (freeWrite_fits b) h halt.1 (halt.2 _)

theorem askFlush_wp {Q : Answer Unit → State → Prop} (halt : Act.Halts X .chFlush s)
    (h : ∀ a ports draws, Q a (s.exchanged ports draws (.chFlush a))) : Act.wp askFlush Q X s :=
  Act.wp_transact (fun _ => rfl) (fun a p d _ => h a p d) halt.1 (halt.2 _)

theorem askClose_wp {Q : Answer Unit → State → Prop} (halt : Act.Halts X .chClose s)
    (h : ∀ a ports draws, Q a (s.exchanged ports draws (.chClose a))) : Act.wp askClose Q X s :=
  Act.wp_transact (fun _ => rfl) (fun a p d _ => h a p d) halt.1 (halt.2 _)

theorem askLength_wp {Q : Answer ChLength → State → Prop} (halt : Act.Halts X .chLength s)
    (h : ∀ a ports draws, Q a (s.exchanged ports draws (.chLength a))) : Act.wp askLength Q X s :=
  Act.wp_transact (fun _ => rfl) (fun a p d _ => h a p d) halt.1 (halt.2 _)

theorem askInit_wp {Q : Answer Unit → State → Prop} (dir : CMode) (level : Option Int) (want : Bool)
    (halt : Act.Halts X .engInit s) (h : ∀ a ports draws, Q a (s.exchanged ports draws (.engInit dir level want a))) :
    Act.wp (askInit dir level want) Q X s :=
  Act.wp_transact (fun _ => rfl) (fun a p d _ => h a p d) halt.1 (halt.2 _)

theorem askStep_wp {Q : StepAnswer → State → Prop} (flush : FlushType) (dir : CMode) (input : Bytes) (cap : Nat)
    (halt : Act.Halts X .engStep s)
    (h : ∀ a ports draws, stepFits input cap a = true → Q a (s.exchanged ports draws (.engStep flush dir input cap a))) :
    Act.wp (askStep flush dir input cap) Q X s :=
  Act.wp_transact (freeStep_fits input cap) h halt.1 (halt.2 _)

theorem engEnd_wp {Q : Unit → State → Prop} (dir : CMode) (halt : Act.Halts X .engEnd s)
    (h : ∀ ports draws, Q () (s.exchanged ports draws (.engEnd dir))) : Act.wp (engEnd dir) Q X s :=
  Act.wp_transact (fun _ => rfl) (fun _ p d _ => h p d) halt.1 (halt.2 _)

theorem poolLease_wp {Q : Bytes → State → Prop} (n : Nat) (halt : Act.Halts X .poolLease s)
    (h : ∀ b ports draws, leaseFits n b = true → Q b (s.exchanged ports draws (.poolLease n b))) :
    Act.wp (poolLease n) Q X s :=
  Act.wp_transact (freeLease_fits n) h halt.1 (halt.2 _)

theorem poolRelease_wp {Q : Unit → State → Prop} (halt : Act.Halts X .poolRelease s)
    (h : ∀ ports draws, Q () (s.exchanged ports draws .poolRelease)) : Act.wp poolRelease Q X s :=
  Act.wp_transact (fun _ => rfl) (fun _ p d _ => h p d) halt.1 (halt.2 _)

theorem clock_wp {Q : Int → State → Prop} (halt : Act.Halts X .clock s)
    (h : ∀ t ports draws, Q t (s.exchanged ports draws (.clock t))) : Act.wp clock Q X s :=
  Act.wp_transact (fun _ => rfl) (fun a p d _ => h a p d) halt.1 (halt.2 _)

/-! ### From pseudocode to the outcome of a step -/

/-- What an early end leaves for the step: an error's response, or the command in flight; a refusal leaves nothing. -/
def Exit.Leaves (buffer : State → Option Bytes) (P : State → Prop) : Exit → State → Prop
  | .raise e, s => P (s.respond (.err e (buffer s)))
  | .pause f, s => P (s.paused f)
  | .refuse _, _ => True

@[simp] theorem Exit.leaves_raise (buffer : State → Option Bytes) (P : State → Prop) (e : Error) (s : State) :
    Exit.Leaves buffer P (.raise e) s ↔ P (s.respond (.err e (buffer s))) := Iff.rfl

@[simp] theorem Exit.leaves_pause (buffer : State → Option Bytes) (P : State → Prop) (f : InFlight) (s : State) :
    Exit.Leaves buffer P (.pause f) s ↔ P (s.paused f) := Iff.rfl

theorem Exit.leaves_halts {buffer : State → Option Bytes} {P : State → Prop} {p : PortName} {s : State}
    (h : P (s.paused (.stuck p))) : Act.Halts (Exit.Leaves buffer P) p s := ⟨h, fun _ => trivial⟩

/-- If a command's pseudocode ends well, every next state it gives is good. -/
theorem settle_next {buffer : State → Option Bytes} {body : Act Response} {P : State → Prop} {t : State}
    (h : Act.wp body (fun r s' => P (s'.respond r)) (Exit.Leaves buffer P) s)
    (ht : settle buffer (body s) = .next t) : P t := by
  unfold Act.wp at h
  cases hb : body s with
  | ok r s' => rw [hb] at h ht; cases ht; exact h
  | error x s' =>
    rw [hb] at h ht
    cases x with
    | raise e => cases ht; exact h
    | pause f => cases ht; exact h
    | refuse r => cases ht

/-- `runCommand` gives a next state only with no other command in flight. -/
theorem runCommand_next {buffer : State → Option Bytes} {body : Act Response} {P : State → Prop} {t : State}
    (h : s.inFlight = none → Act.wp body (fun r s' => P (s'.respond r)) (Exit.Leaves buffer P) s)
    (ht : runCommand buffer body s = .next t) : P t := by
  unfold runCommand at ht
  split at ht
  · cases ht
  · exact settle_next (h ‹_›) ht

end Sys2Proof.Machine
end

