-- ==== Sys2Proof/Laws/Memory.lean ====
section
/-! SUPPORT. The buffer spaces: a read after a write, and what a write leaves alone (00_scope.md R14). -/

namespace Sys2Proof.Machine

@[simp] theorem memWrite_nil (space : Bytes) (off : Nat) : memWrite space off [] = space := by
  simp [memWrite]

@[simp] theorem memRead_memWrite_zero (space v : Bytes) : memRead (memWrite space 0 v) 0 v.length = v := by
  simp [memRead, memWrite]

/-- A write inside a space keeps its length. -/
theorem memWrite_length (space : Bytes) (off : Nat) (v : Bytes) (h : off + v.length ≤ space.length) :
    (memWrite space off v).length = space.length := by
  simp [memWrite]; omega

/-- The offsets before a write keep their bytes. -/
theorem memWrite_take (space : Bytes) (off : Nat) (v : Bytes) (h : off ≤ space.length) :
    (memWrite space off v).take off = space.take off := by
  rw [memWrite, List.append_assoc, List.take_append_of_le_length (by simp; omega)]
  simp

/-- After a write at the end of what has been written, the space begins with all of it. -/
theorem memWrite_take_append (space w v : Bytes) (hw : space.take w.length = w) :
    (memWrite space w.length v).take (w ++ v).length = w ++ v := by
  rw [memWrite, hw, List.take_append_of_le_length (by simp)]
  simp

/-- The offsets past a write keep their bytes. -/
theorem memWrite_drop (space : Bytes) (off : Nat) (v : Bytes) (h : off ≤ space.length) :
    (memWrite space off v).drop (off + v.length) = space.drop (off + v.length) := by
  unfold memWrite
  rw [List.drop_append]
  simp [min_eq_left h]

/-- Two writes, the second where the first ends, are one write. -/
theorem memWrite_memWrite (space w v : Bytes) :
    memWrite (memWrite space 0 w) w.length v = memWrite space 0 (w ++ v) := by
  simp [memWrite, List.drop_append]

/-- The window is never longer than IN_AVAIL. -/
theorem window_length_le (s : State) : s.window.length ≤ s.inAvail := by
  simp [State.window, memRead]

/-- With `IN_NEXT + IN_AVAIL = |IN_WIN|`, the window is IN_AVAIL bytes long (20_memory.md R94). -/
theorem window_length (s : State) (h : s.inNext + s.inAvail = s.inWin.length) : s.window.length = s.inAvail := by
  simp [State.window, memRead]; omega

end Sys2Proof.Machine
end

