-- ==== Sys2Proof/Laws/State.lean ====
section
/-! SUPPORT. One lemma a field for every update of State, so that no proof unfolds a record update. -/

namespace Sys2Proof.Machine

variable (s : State)

/-! ### `State.respond` -/

@[simp] theorem State.respond_plat (r : Response) : (s.respond r).plat = s.plat := rfl
@[simp] theorem State.respond_flavor (r : Response) : (s.respond r).flavor = s.flavor := rfl
@[simp] theorem State.respond_cmode (r : Response) : (s.respond r).cmode = s.cmode := rfl
@[simp] theorem State.respond_level (r : Response) : (s.respond r).level = s.level := rfl
@[simp] theorem State.respond_leaveOpen (r : Response) : (s.respond r).leaveOpen = s.leaveOpen := rfl
@[simp] theorem State.respond_workbufSize (r : Response) : (s.respond r).workbufSize = s.workbufSize := rfl
@[simp] theorem State.respond_mtimeFixed (r : Response) : (s.respond r).mtimeFixed = s.mtimeFixed := rfl
@[simp] theorem State.respond_streamMode (r : Response) : (s.respond r).streamMode = s.streamMode := rfl
@[simp] theorem State.respond_disposed (r : Response) : (s.respond r).disposed = s.disposed := rfl
@[simp] theorem State.respond_engLive (r : Response) : (s.respond r).engLive = s.engLive := rfl
@[simp] theorem State.respond_wbLive (r : Response) : (s.respond r).wbLive = s.wbLive := rfl
@[simp] theorem State.respond_wbLen (r : Response) : (s.respond r).wbLen = s.wbLen := rfl
@[simp] theorem State.respond_work (r : Response) : (s.respond r).work = s.work := rfl
@[simp] theorem State.respond_inWin (r : Response) : (s.respond r).inWin = s.inWin := rfl
@[simp] theorem State.respond_inNext (r : Response) : (s.respond r).inNext = s.inNext := rfl
@[simp] theorem State.respond_inAvail (r : Response) : (s.respond r).inAvail = s.inAvail := rfl
@[simp] theorem State.respond_noMoreInput (r : Response) : (s.respond r).noMoreInput = s.noMoreInput := rfl
@[simp] theorem State.respond_engTotalOut (r : Response) : (s.respond r).engTotalOut = s.engTotalOut := rfl
@[simp] theorem State.respond_hdrState (r : Response) : (s.respond r).hdrState = s.hdrState := rfl
@[simp] theorem State.respond_hdrBytes (r : Response) : (s.respond r).hdrBytes = s.hdrBytes := rfl
@[simp] theorem State.respond_hdrMtime (r : Response) : (s.respond r).hdrMtime = s.hdrMtime := rfl
@[simp] theorem State.respond_hdrFlg (r : Response) : (s.respond r).hdrFlg = s.hdrFlg := rfl
@[simp] theorem State.respond_hdrFname (r : Response) : (s.respond r).hdrFname = s.hdrFname := rfl
@[simp] theorem State.respond_hdrComment (r : Response) : (s.respond r).hdrComment = s.hdrComment := rfl
@[simp] theorem State.respond_crcLive (r : Response) : (s.respond r).crcLive = s.crcLive := rfl
@[simp] theorem State.respond_crcReg (r : Response) : (s.respond r).crcReg = s.crcReg := rfl
@[simp] theorem State.respond_crcCount (r : Response) : (s.respond r).crcCount = s.crcCount := rfl
@[simp] theorem State.respond_caller (r : Response) : (s.respond r).caller = s.caller := rfl
@[simp] theorem State.respond_commands (r : Response) : (s.respond r).commands = s.commands := rfl
@[simp] theorem State.respond_responses (r : Response) : (s.respond r).responses = s.responses ++ [r] := rfl
@[simp] theorem State.respond_trace (r : Response) : (s.respond r).trace = s.trace := rfl
@[simp] theorem State.respond_inFlight (r : Response) : (s.respond r).inFlight = s.inFlight := rfl
@[simp] theorem State.respond_ports (r : Response) : (s.respond r).ports = s.ports := rfl
@[simp] theorem State.respond_draws (r : Response) : (s.respond r).draws = s.draws := rfl

/-! ### `State.paused` -/

@[simp] theorem State.paused_plat (f : InFlight) : (s.paused f).plat = s.plat := rfl
@[simp] theorem State.paused_flavor (f : InFlight) : (s.paused f).flavor = s.flavor := rfl
@[simp] theorem State.paused_cmode (f : InFlight) : (s.paused f).cmode = s.cmode := rfl
@[simp] theorem State.paused_level (f : InFlight) : (s.paused f).level = s.level := rfl
@[simp] theorem State.paused_leaveOpen (f : InFlight) : (s.paused f).leaveOpen = s.leaveOpen := rfl
@[simp] theorem State.paused_workbufSize (f : InFlight) : (s.paused f).workbufSize = s.workbufSize := rfl
@[simp] theorem State.paused_mtimeFixed (f : InFlight) : (s.paused f).mtimeFixed = s.mtimeFixed := rfl
@[simp] theorem State.paused_streamMode (f : InFlight) : (s.paused f).streamMode = s.streamMode := rfl
@[simp] theorem State.paused_disposed (f : InFlight) : (s.paused f).disposed = s.disposed := rfl
@[simp] theorem State.paused_engLive (f : InFlight) : (s.paused f).engLive = s.engLive := rfl
@[simp] theorem State.paused_wbLive (f : InFlight) : (s.paused f).wbLive = s.wbLive := rfl
@[simp] theorem State.paused_wbLen (f : InFlight) : (s.paused f).wbLen = s.wbLen := rfl
@[simp] theorem State.paused_work (f : InFlight) : (s.paused f).work = s.work := rfl
@[simp] theorem State.paused_inWin (f : InFlight) : (s.paused f).inWin = s.inWin := rfl
@[simp] theorem State.paused_inNext (f : InFlight) : (s.paused f).inNext = s.inNext := rfl
@[simp] theorem State.paused_inAvail (f : InFlight) : (s.paused f).inAvail = s.inAvail := rfl
@[simp] theorem State.paused_noMoreInput (f : InFlight) : (s.paused f).noMoreInput = s.noMoreInput := rfl
@[simp] theorem State.paused_engTotalOut (f : InFlight) : (s.paused f).engTotalOut = s.engTotalOut := rfl
@[simp] theorem State.paused_hdrState (f : InFlight) : (s.paused f).hdrState = s.hdrState := rfl
@[simp] theorem State.paused_hdrBytes (f : InFlight) : (s.paused f).hdrBytes = s.hdrBytes := rfl
@[simp] theorem State.paused_hdrMtime (f : InFlight) : (s.paused f).hdrMtime = s.hdrMtime := rfl
@[simp] theorem State.paused_hdrFlg (f : InFlight) : (s.paused f).hdrFlg = s.hdrFlg := rfl
@[simp] theorem State.paused_hdrFname (f : InFlight) : (s.paused f).hdrFname = s.hdrFname := rfl
@[simp] theorem State.paused_hdrComment (f : InFlight) : (s.paused f).hdrComment = s.hdrComment := rfl
@[simp] theorem State.paused_crcLive (f : InFlight) : (s.paused f).crcLive = s.crcLive := rfl
@[simp] theorem State.paused_crcReg (f : InFlight) : (s.paused f).crcReg = s.crcReg := rfl
@[simp] theorem State.paused_crcCount (f : InFlight) : (s.paused f).crcCount = s.crcCount := rfl
@[simp] theorem State.paused_caller (f : InFlight) : (s.paused f).caller = s.caller := rfl
@[simp] theorem State.paused_commands (f : InFlight) : (s.paused f).commands = s.commands := rfl
@[simp] theorem State.paused_responses (f : InFlight) : (s.paused f).responses = s.responses := rfl
@[simp] theorem State.paused_trace (f : InFlight) : (s.paused f).trace = s.trace := rfl
@[simp] theorem State.paused_inFlight (f : InFlight) : (s.paused f).inFlight = some f := rfl
@[simp] theorem State.paused_ports (f : InFlight) : (s.paused f).ports = s.ports := rfl
@[simp] theorem State.paused_draws (f : InFlight) : (s.paused f).draws = s.draws := rfl

/-! ### `State.loadWindow` -/

@[simp] theorem State.loadWindow_plat (b : Bytes) : (s.loadWindow b).plat = s.plat := rfl
@[simp] theorem State.loadWindow_flavor (b : Bytes) : (s.loadWindow b).flavor = s.flavor := rfl
@[simp] theorem State.loadWindow_cmode (b : Bytes) : (s.loadWindow b).cmode = s.cmode := rfl
@[simp] theorem State.loadWindow_level (b : Bytes) : (s.loadWindow b).level = s.level := rfl
@[simp] theorem State.loadWindow_leaveOpen (b : Bytes) : (s.loadWindow b).leaveOpen = s.leaveOpen := rfl
@[simp] theorem State.loadWindow_workbufSize (b : Bytes) : (s.loadWindow b).workbufSize = s.workbufSize := rfl
@[simp] theorem State.loadWindow_mtimeFixed (b : Bytes) : (s.loadWindow b).mtimeFixed = s.mtimeFixed := rfl
@[simp] theorem State.loadWindow_streamMode (b : Bytes) : (s.loadWindow b).streamMode = s.streamMode := rfl
@[simp] theorem State.loadWindow_disposed (b : Bytes) : (s.loadWindow b).disposed = s.disposed := rfl
@[simp] theorem State.loadWindow_engLive (b : Bytes) : (s.loadWindow b).engLive = s.engLive := rfl
@[simp] theorem State.loadWindow_wbLive (b : Bytes) : (s.loadWindow b).wbLive = s.wbLive := rfl
@[simp] theorem State.loadWindow_wbLen (b : Bytes) : (s.loadWindow b).wbLen = s.wbLen := rfl
@[simp] theorem State.loadWindow_work (b : Bytes) : (s.loadWindow b).work = s.work := rfl
@[simp] theorem State.loadWindow_inWin (b : Bytes) : (s.loadWindow b).inWin = b := rfl
@[simp] theorem State.loadWindow_inNext (b : Bytes) : (s.loadWindow b).inNext = 0 := rfl
@[simp] theorem State.loadWindow_inAvail (b : Bytes) : (s.loadWindow b).inAvail = b.length := rfl
@[simp] theorem State.loadWindow_noMoreInput (b : Bytes) : (s.loadWindow b).noMoreInput = s.noMoreInput := rfl
@[simp] theorem State.loadWindow_engTotalOut (b : Bytes) : (s.loadWindow b).engTotalOut = s.engTotalOut := rfl
@[simp] theorem State.loadWindow_hdrState (b : Bytes) : (s.loadWindow b).hdrState = s.hdrState := rfl
@[simp] theorem State.loadWindow_hdrBytes (b : Bytes) : (s.loadWindow b).hdrBytes = s.hdrBytes := rfl
@[simp] theorem State.loadWindow_hdrMtime (b : Bytes) : (s.loadWindow b).hdrMtime = s.hdrMtime := rfl
@[simp] theorem State.loadWindow_hdrFlg (b : Bytes) : (s.loadWindow b).hdrFlg = s.hdrFlg := rfl
@[simp] theorem State.loadWindow_hdrFname (b : Bytes) : (s.loadWindow b).hdrFname = s.hdrFname := rfl
@[simp] theorem State.loadWindow_hdrComment (b : Bytes) : (s.loadWindow b).hdrComment = s.hdrComment := rfl
@[simp] theorem State.loadWindow_crcLive (b : Bytes) : (s.loadWindow b).crcLive = s.crcLive := rfl
@[simp] theorem State.loadWindow_crcReg (b : Bytes) : (s.loadWindow b).crcReg = s.crcReg := rfl
@[simp] theorem State.loadWindow_crcCount (b : Bytes) : (s.loadWindow b).crcCount = s.crcCount := rfl
@[simp] theorem State.loadWindow_caller (b : Bytes) : (s.loadWindow b).caller = s.caller := rfl
@[simp] theorem State.loadWindow_commands (b : Bytes) : (s.loadWindow b).commands = s.commands := rfl
@[simp] theorem State.loadWindow_responses (b : Bytes) : (s.loadWindow b).responses = s.responses := rfl
@[simp] theorem State.loadWindow_trace (b : Bytes) : (s.loadWindow b).trace = s.trace := rfl
@[simp] theorem State.loadWindow_inFlight (b : Bytes) : (s.loadWindow b).inFlight = s.inFlight := rfl
@[simp] theorem State.loadWindow_ports (b : Bytes) : (s.loadWindow b).ports = s.ports := rfl
@[simp] theorem State.loadWindow_draws (b : Bytes) : (s.loadWindow b).draws = s.draws := rfl

/-! ### `State.afterStep` -/

@[simp] theorem State.afterStep_plat (a : StepAnswer) : (s.afterStep a).plat = s.plat := rfl
@[simp] theorem State.afterStep_flavor (a : StepAnswer) : (s.afterStep a).flavor = s.flavor := rfl
@[simp] theorem State.afterStep_cmode (a : StepAnswer) : (s.afterStep a).cmode = s.cmode := rfl
@[simp] theorem State.afterStep_level (a : StepAnswer) : (s.afterStep a).level = s.level := rfl
@[simp] theorem State.afterStep_leaveOpen (a : StepAnswer) : (s.afterStep a).leaveOpen = s.leaveOpen := rfl
@[simp] theorem State.afterStep_workbufSize (a : StepAnswer) : (s.afterStep a).workbufSize = s.workbufSize := rfl
@[simp] theorem State.afterStep_mtimeFixed (a : StepAnswer) : (s.afterStep a).mtimeFixed = s.mtimeFixed := rfl
@[simp] theorem State.afterStep_streamMode (a : StepAnswer) : (s.afterStep a).streamMode = s.streamMode := rfl
@[simp] theorem State.afterStep_disposed (a : StepAnswer) : (s.afterStep a).disposed = s.disposed := rfl
@[simp] theorem State.afterStep_engLive (a : StepAnswer) : (s.afterStep a).engLive = s.engLive := rfl
@[simp] theorem State.afterStep_wbLive (a : StepAnswer) : (s.afterStep a).wbLive = s.wbLive := rfl
@[simp] theorem State.afterStep_wbLen (a : StepAnswer) : (s.afterStep a).wbLen = s.wbLen := rfl
@[simp] theorem State.afterStep_work (a : StepAnswer) : (s.afterStep a).work = s.work := rfl
@[simp] theorem State.afterStep_inWin (a : StepAnswer) : (s.afterStep a).inWin = s.inWin := rfl
@[simp] theorem State.afterStep_inNext (a : StepAnswer) : (s.afterStep a).inNext = s.inNext + a.consumed := rfl
@[simp] theorem State.afterStep_inAvail (a : StepAnswer) : (s.afterStep a).inAvail = s.inAvail - a.consumed := rfl
@[simp] theorem State.afterStep_noMoreInput (a : StepAnswer) : (s.afterStep a).noMoreInput = s.noMoreInput := rfl
@[simp] theorem State.afterStep_engTotalOut (a : StepAnswer) : (s.afterStep a).engTotalOut = s.engTotalOut + BitVec.ofNat 64 a.produced.length := rfl
@[simp] theorem State.afterStep_hdrState (a : StepAnswer) : (s.afterStep a).hdrState = s.hdrState := rfl
@[simp] theorem State.afterStep_hdrBytes (a : StepAnswer) : (s.afterStep a).hdrBytes = s.hdrBytes := rfl
@[simp] theorem State.afterStep_hdrMtime (a : StepAnswer) : (s.afterStep a).hdrMtime = s.hdrMtime := rfl
@[simp] theorem State.afterStep_hdrFlg (a : StepAnswer) : (s.afterStep a).hdrFlg = s.hdrFlg := rfl
@[simp] theorem State.afterStep_hdrFname (a : StepAnswer) : (s.afterStep a).hdrFname = s.hdrFname := rfl
@[simp] theorem State.afterStep_hdrComment (a : StepAnswer) : (s.afterStep a).hdrComment = s.hdrComment := rfl
@[simp] theorem State.afterStep_crcLive (a : StepAnswer) : (s.afterStep a).crcLive = s.crcLive := rfl
@[simp] theorem State.afterStep_crcReg (a : StepAnswer) : (s.afterStep a).crcReg = s.crcReg := rfl
@[simp] theorem State.afterStep_crcCount (a : StepAnswer) : (s.afterStep a).crcCount = s.crcCount := rfl
@[simp] theorem State.afterStep_caller (a : StepAnswer) : (s.afterStep a).caller = s.caller := rfl
@[simp] theorem State.afterStep_commands (a : StepAnswer) : (s.afterStep a).commands = s.commands := rfl
@[simp] theorem State.afterStep_responses (a : StepAnswer) : (s.afterStep a).responses = s.responses := rfl
@[simp] theorem State.afterStep_trace (a : StepAnswer) : (s.afterStep a).trace = s.trace := rfl
@[simp] theorem State.afterStep_inFlight (a : StepAnswer) : (s.afterStep a).inFlight = s.inFlight := rfl
@[simp] theorem State.afterStep_ports (a : StepAnswer) : (s.afterStep a).ports = s.ports := rfl
@[simp] theorem State.afterStep_draws (a : StepAnswer) : (s.afterStep a).draws = s.draws := rfl

/-! ### `State.setWork` -/

@[simp] theorem State.setWork_plat (b : Bytes) : (s.setWork b).plat = s.plat := rfl
@[simp] theorem State.setWork_flavor (b : Bytes) : (s.setWork b).flavor = s.flavor := rfl
@[simp] theorem State.setWork_cmode (b : Bytes) : (s.setWork b).cmode = s.cmode := rfl
@[simp] theorem State.setWork_level (b : Bytes) : (s.setWork b).level = s.level := rfl
@[simp] theorem State.setWork_leaveOpen (b : Bytes) : (s.setWork b).leaveOpen = s.leaveOpen := rfl
@[simp] theorem State.setWork_workbufSize (b : Bytes) : (s.setWork b).workbufSize = s.workbufSize := rfl
@[simp] theorem State.setWork_mtimeFixed (b : Bytes) : (s.setWork b).mtimeFixed = s.mtimeFixed := rfl
@[simp] theorem State.setWork_streamMode (b : Bytes) : (s.setWork b).streamMode = s.streamMode := rfl
@[simp] theorem State.setWork_disposed (b : Bytes) : (s.setWork b).disposed = s.disposed := rfl
@[simp] theorem State.setWork_engLive (b : Bytes) : (s.setWork b).engLive = s.engLive := rfl
@[simp] theorem State.setWork_wbLive (b : Bytes) : (s.setWork b).wbLive = s.wbLive := rfl
@[simp] theorem State.setWork_wbLen (b : Bytes) : (s.setWork b).wbLen = s.wbLen := rfl
@[simp] theorem State.setWork_work (b : Bytes) : (s.setWork b).work = b := rfl
@[simp] theorem State.setWork_inWin (b : Bytes) : (s.setWork b).inWin = s.inWin := rfl
@[simp] theorem State.setWork_inNext (b : Bytes) : (s.setWork b).inNext = s.inNext := rfl
@[simp] theorem State.setWork_inAvail (b : Bytes) : (s.setWork b).inAvail = s.inAvail := rfl
@[simp] theorem State.setWork_noMoreInput (b : Bytes) : (s.setWork b).noMoreInput = s.noMoreInput := rfl
@[simp] theorem State.setWork_engTotalOut (b : Bytes) : (s.setWork b).engTotalOut = s.engTotalOut := rfl
@[simp] theorem State.setWork_hdrState (b : Bytes) : (s.setWork b).hdrState = s.hdrState := rfl
@[simp] theorem State.setWork_hdrBytes (b : Bytes) : (s.setWork b).hdrBytes = s.hdrBytes := rfl
@[simp] theorem State.setWork_hdrMtime (b : Bytes) : (s.setWork b).hdrMtime = s.hdrMtime := rfl
@[simp] theorem State.setWork_hdrFlg (b : Bytes) : (s.setWork b).hdrFlg = s.hdrFlg := rfl
@[simp] theorem State.setWork_hdrFname (b : Bytes) : (s.setWork b).hdrFname = s.hdrFname := rfl
@[simp] theorem State.setWork_hdrComment (b : Bytes) : (s.setWork b).hdrComment = s.hdrComment := rfl
@[simp] theorem State.setWork_crcLive (b : Bytes) : (s.setWork b).crcLive = s.crcLive := rfl
@[simp] theorem State.setWork_crcReg (b : Bytes) : (s.setWork b).crcReg = s.crcReg := rfl
@[simp] theorem State.setWork_crcCount (b : Bytes) : (s.setWork b).crcCount = s.crcCount := rfl
@[simp] theorem State.setWork_caller (b : Bytes) : (s.setWork b).caller = s.caller := rfl
@[simp] theorem State.setWork_commands (b : Bytes) : (s.setWork b).commands = s.commands := rfl
@[simp] theorem State.setWork_responses (b : Bytes) : (s.setWork b).responses = s.responses := rfl
@[simp] theorem State.setWork_trace (b : Bytes) : (s.setWork b).trace = s.trace := rfl
@[simp] theorem State.setWork_inFlight (b : Bytes) : (s.setWork b).inFlight = s.inFlight := rfl
@[simp] theorem State.setWork_ports (b : Bytes) : (s.setWork b).ports = s.ports := rfl
@[simp] theorem State.setWork_draws (b : Bytes) : (s.setWork b).draws = s.draws := rfl

/-! ### `State.setCaller` -/

@[simp] theorem State.setCaller_plat (b : Bytes) : (s.setCaller b).plat = s.plat := rfl
@[simp] theorem State.setCaller_flavor (b : Bytes) : (s.setCaller b).flavor = s.flavor := rfl
@[simp] theorem State.setCaller_cmode (b : Bytes) : (s.setCaller b).cmode = s.cmode := rfl
@[simp] theorem State.setCaller_level (b : Bytes) : (s.setCaller b).level = s.level := rfl
@[simp] theorem State.setCaller_leaveOpen (b : Bytes) : (s.setCaller b).leaveOpen = s.leaveOpen := rfl
@[simp] theorem State.setCaller_workbufSize (b : Bytes) : (s.setCaller b).workbufSize = s.workbufSize := rfl
@[simp] theorem State.setCaller_mtimeFixed (b : Bytes) : (s.setCaller b).mtimeFixed = s.mtimeFixed := rfl
@[simp] theorem State.setCaller_streamMode (b : Bytes) : (s.setCaller b).streamMode = s.streamMode := rfl
@[simp] theorem State.setCaller_disposed (b : Bytes) : (s.setCaller b).disposed = s.disposed := rfl
@[simp] theorem State.setCaller_engLive (b : Bytes) : (s.setCaller b).engLive = s.engLive := rfl
@[simp] theorem State.setCaller_wbLive (b : Bytes) : (s.setCaller b).wbLive = s.wbLive := rfl
@[simp] theorem State.setCaller_wbLen (b : Bytes) : (s.setCaller b).wbLen = s.wbLen := rfl
@[simp] theorem State.setCaller_work (b : Bytes) : (s.setCaller b).work = s.work := rfl
@[simp] theorem State.setCaller_inWin (b : Bytes) : (s.setCaller b).inWin = s.inWin := rfl
@[simp] theorem State.setCaller_inNext (b : Bytes) : (s.setCaller b).inNext = s.inNext := rfl
@[simp] theorem State.setCaller_inAvail (b : Bytes) : (s.setCaller b).inAvail = s.inAvail := rfl
@[simp] theorem State.setCaller_noMoreInput (b : Bytes) : (s.setCaller b).noMoreInput = s.noMoreInput := rfl
@[simp] theorem State.setCaller_engTotalOut (b : Bytes) : (s.setCaller b).engTotalOut = s.engTotalOut := rfl
@[simp] theorem State.setCaller_hdrState (b : Bytes) : (s.setCaller b).hdrState = s.hdrState := rfl
@[simp] theorem State.setCaller_hdrBytes (b : Bytes) : (s.setCaller b).hdrBytes = s.hdrBytes := rfl
@[simp] theorem State.setCaller_hdrMtime (b : Bytes) : (s.setCaller b).hdrMtime = s.hdrMtime := rfl
@[simp] theorem State.setCaller_hdrFlg (b : Bytes) : (s.setCaller b).hdrFlg = s.hdrFlg := rfl
@[simp] theorem State.setCaller_hdrFname (b : Bytes) : (s.setCaller b).hdrFname = s.hdrFname := rfl
@[simp] theorem State.setCaller_hdrComment (b : Bytes) : (s.setCaller b).hdrComment = s.hdrComment := rfl
@[simp] theorem State.setCaller_crcLive (b : Bytes) : (s.setCaller b).crcLive = s.crcLive := rfl
@[simp] theorem State.setCaller_crcReg (b : Bytes) : (s.setCaller b).crcReg = s.crcReg := rfl
@[simp] theorem State.setCaller_crcCount (b : Bytes) : (s.setCaller b).crcCount = s.crcCount := rfl
@[simp] theorem State.setCaller_caller (b : Bytes) : (s.setCaller b).caller = b := rfl
@[simp] theorem State.setCaller_commands (b : Bytes) : (s.setCaller b).commands = s.commands := rfl
@[simp] theorem State.setCaller_responses (b : Bytes) : (s.setCaller b).responses = s.responses := rfl
@[simp] theorem State.setCaller_trace (b : Bytes) : (s.setCaller b).trace = s.trace := rfl
@[simp] theorem State.setCaller_inFlight (b : Bytes) : (s.setCaller b).inFlight = s.inFlight := rfl
@[simp] theorem State.setCaller_ports (b : Bytes) : (s.setCaller b).ports = s.ports := rfl
@[simp] theorem State.setCaller_draws (b : Bytes) : (s.setCaller b).draws = s.draws := rfl

/-! ### `State.exchanged` -/

@[simp] theorem State.exchanged_plat (p : Ports) (d : Nat) (x : Txn) : (s.exchanged p d x).plat = s.plat := rfl
@[simp] theorem State.exchanged_flavor (p : Ports) (d : Nat) (x : Txn) : (s.exchanged p d x).flavor = s.flavor := rfl
@[simp] theorem State.exchanged_cmode (p : Ports) (d : Nat) (x : Txn) : (s.exchanged p d x).cmode = s.cmode := rfl
@[simp] theorem State.exchanged_level (p : Ports) (d : Nat) (x : Txn) : (s.exchanged p d x).level = s.level := rfl
@[simp] theorem State.exchanged_leaveOpen (p : Ports) (d : Nat) (x : Txn) : (s.exchanged p d x).leaveOpen = s.leaveOpen := rfl
@[simp] theorem State.exchanged_workbufSize (p : Ports) (d : Nat) (x : Txn) : (s.exchanged p d x).workbufSize = s.workbufSize := rfl
@[simp] theorem State.exchanged_mtimeFixed (p : Ports) (d : Nat) (x : Txn) : (s.exchanged p d x).mtimeFixed = s.mtimeFixed := rfl
@[simp] theorem State.exchanged_streamMode (p : Ports) (d : Nat) (x : Txn) : (s.exchanged p d x).streamMode = s.streamMode := rfl
@[simp] theorem State.exchanged_disposed (p : Ports) (d : Nat) (x : Txn) : (s.exchanged p d x).disposed = s.disposed := rfl
@[simp] theorem State.exchanged_engLive (p : Ports) (d : Nat) (x : Txn) : (s.exchanged p d x).engLive = s.engLive := rfl
@[simp] theorem State.exchanged_wbLive (p : Ports) (d : Nat) (x : Txn) : (s.exchanged p d x).wbLive = s.wbLive := rfl
@[simp] theorem State.exchanged_wbLen (p : Ports) (d : Nat) (x : Txn) : (s.exchanged p d x).wbLen = s.wbLen := rfl
@[simp] theorem State.exchanged_work (p : Ports) (d : Nat) (x : Txn) : (s.exchanged p d x).work = s.work := rfl
@[simp] theorem State.exchanged_inWin (p : Ports) (d : Nat) (x : Txn) : (s.exchanged p d x).inWin = s.inWin := rfl
@[simp] theorem State.exchanged_inNext (p : Ports) (d : Nat) (x : Txn) : (s.exchanged p d x).inNext = s.inNext := rfl
@[simp] theorem State.exchanged_inAvail (p : Ports) (d : Nat) (x : Txn) : (s.exchanged p d x).inAvail = s.inAvail := rfl
@[simp] theorem State.exchanged_noMoreInput (p : Ports) (d : Nat) (x : Txn) : (s.exchanged p d x).noMoreInput = s.noMoreInput := rfl
@[simp] theorem State.exchanged_engTotalOut (p : Ports) (d : Nat) (x : Txn) : (s.exchanged p d x).engTotalOut = s.engTotalOut := rfl
@[simp] theorem State.exchanged_hdrState (p : Ports) (d : Nat) (x : Txn) : (s.exchanged p d x).hdrState = s.hdrState := rfl
@[simp] theorem State.exchanged_hdrBytes (p : Ports) (d : Nat) (x : Txn) : (s.exchanged p d x).hdrBytes = s.hdrBytes := rfl
@[simp] theorem State.exchanged_hdrMtime (p : Ports) (d : Nat) (x : Txn) : (s.exchanged p d x).hdrMtime = s.hdrMtime := rfl
@[simp] theorem State.exchanged_hdrFlg (p : Ports) (d : Nat) (x : Txn) : (s.exchanged p d x).hdrFlg = s.hdrFlg := rfl
@[simp] theorem State.exchanged_hdrFname (p : Ports) (d : Nat) (x : Txn) : (s.exchanged p d x).hdrFname = s.hdrFname := rfl
@[simp] theorem State.exchanged_hdrComment (p : Ports) (d : Nat) (x : Txn) : (s.exchanged p d x).hdrComment = s.hdrComment := rfl
@[simp] theorem State.exchanged_crcLive (p : Ports) (d : Nat) (x : Txn) : (s.exchanged p d x).crcLive = s.crcLive := rfl
@[simp] theorem State.exchanged_crcReg (p : Ports) (d : Nat) (x : Txn) : (s.exchanged p d x).crcReg = s.crcReg := rfl
@[simp] theorem State.exchanged_crcCount (p : Ports) (d : Nat) (x : Txn) : (s.exchanged p d x).crcCount = s.crcCount := rfl
@[simp] theorem State.exchanged_caller (p : Ports) (d : Nat) (x : Txn) : (s.exchanged p d x).caller = s.caller := rfl
@[simp] theorem State.exchanged_commands (p : Ports) (d : Nat) (x : Txn) : (s.exchanged p d x).commands = s.commands := rfl
@[simp] theorem State.exchanged_responses (p : Ports) (d : Nat) (x : Txn) : (s.exchanged p d x).responses = s.responses := rfl
@[simp] theorem State.exchanged_trace (p : Ports) (d : Nat) (x : Txn) : (s.exchanged p d x).trace = s.trace ++ [x] := rfl
@[simp] theorem State.exchanged_inFlight (p : Ports) (d : Nat) (x : Txn) : (s.exchanged p d x).inFlight = s.inFlight := rfl
@[simp] theorem State.exchanged_ports (p : Ports) (d : Nat) (x : Txn) : (s.exchanged p d x).ports = p := rfl
@[simp] theorem State.exchanged_draws (p : Ports) (d : Nat) (x : Txn) : (s.exchanged p d x).draws = d := rfl

/-! ### `State.setEngLive` -/

@[simp] theorem State.setEngLive_plat (b : Bool) : (s.setEngLive b).plat = s.plat := rfl
@[simp] theorem State.setEngLive_flavor (b : Bool) : (s.setEngLive b).flavor = s.flavor := rfl
@[simp] theorem State.setEngLive_cmode (b : Bool) : (s.setEngLive b).cmode = s.cmode := rfl
@[simp] theorem State.setEngLive_level (b : Bool) : (s.setEngLive b).level = s.level := rfl
@[simp] theorem State.setEngLive_leaveOpen (b : Bool) : (s.setEngLive b).leaveOpen = s.leaveOpen := rfl
@[simp] theorem State.setEngLive_workbufSize (b : Bool) : (s.setEngLive b).workbufSize = s.workbufSize := rfl
@[simp] theorem State.setEngLive_mtimeFixed (b : Bool) : (s.setEngLive b).mtimeFixed = s.mtimeFixed := rfl
@[simp] theorem State.setEngLive_streamMode (b : Bool) : (s.setEngLive b).streamMode = s.streamMode := rfl
@[simp] theorem State.setEngLive_disposed (b : Bool) : (s.setEngLive b).disposed = s.disposed := rfl
@[simp] theorem State.setEngLive_engLive (b : Bool) : (s.setEngLive b).engLive = b := rfl
@[simp] theorem State.setEngLive_wbLive (b : Bool) : (s.setEngLive b).wbLive = s.wbLive := rfl
@[simp] theorem State.setEngLive_wbLen (b : Bool) : (s.setEngLive b).wbLen = s.wbLen := rfl
@[simp] theorem State.setEngLive_work (b : Bool) : (s.setEngLive b).work = s.work := rfl
@[simp] theorem State.setEngLive_inWin (b : Bool) : (s.setEngLive b).inWin = s.inWin := rfl
@[simp] theorem State.setEngLive_inNext (b : Bool) : (s.setEngLive b).inNext = s.inNext := rfl
@[simp] theorem State.setEngLive_inAvail (b : Bool) : (s.setEngLive b).inAvail = s.inAvail := rfl
@[simp] theorem State.setEngLive_noMoreInput (b : Bool) : (s.setEngLive b).noMoreInput = s.noMoreInput := rfl
@[simp] theorem State.setEngLive_engTotalOut (b : Bool) : (s.setEngLive b).engTotalOut = s.engTotalOut := rfl
@[simp] theorem State.setEngLive_hdrState (b : Bool) : (s.setEngLive b).hdrState = s.hdrState := rfl
@[simp] theorem State.setEngLive_hdrBytes (b : Bool) : (s.setEngLive b).hdrBytes = s.hdrBytes := rfl
@[simp] theorem State.setEngLive_hdrMtime (b : Bool) : (s.setEngLive b).hdrMtime = s.hdrMtime := rfl
@[simp] theorem State.setEngLive_hdrFlg (b : Bool) : (s.setEngLive b).hdrFlg = s.hdrFlg := rfl
@[simp] theorem State.setEngLive_hdrFname (b : Bool) : (s.setEngLive b).hdrFname = s.hdrFname := rfl
@[simp] theorem State.setEngLive_hdrComment (b : Bool) : (s.setEngLive b).hdrComment = s.hdrComment := rfl
@[simp] theorem State.setEngLive_crcLive (b : Bool) : (s.setEngLive b).crcLive = s.crcLive := rfl
@[simp] theorem State.setEngLive_crcReg (b : Bool) : (s.setEngLive b).crcReg = s.crcReg := rfl
@[simp] theorem State.setEngLive_crcCount (b : Bool) : (s.setEngLive b).crcCount = s.crcCount := rfl
@[simp] theorem State.setEngLive_caller (b : Bool) : (s.setEngLive b).caller = s.caller := rfl
@[simp] theorem State.setEngLive_commands (b : Bool) : (s.setEngLive b).commands = s.commands := rfl
@[simp] theorem State.setEngLive_responses (b : Bool) : (s.setEngLive b).responses = s.responses := rfl
@[simp] theorem State.setEngLive_trace (b : Bool) : (s.setEngLive b).trace = s.trace := rfl
@[simp] theorem State.setEngLive_inFlight (b : Bool) : (s.setEngLive b).inFlight = s.inFlight := rfl
@[simp] theorem State.setEngLive_ports (b : Bool) : (s.setEngLive b).ports = s.ports := rfl
@[simp] theorem State.setEngLive_draws (b : Bool) : (s.setEngLive b).draws = s.draws := rfl

/-! ### `State.leased` -/

@[simp] theorem State.leased_plat (b : Bytes) : (s.leased b).plat = s.plat := rfl
@[simp] theorem State.leased_flavor (b : Bytes) : (s.leased b).flavor = s.flavor := rfl
@[simp] theorem State.leased_cmode (b : Bytes) : (s.leased b).cmode = s.cmode := rfl
@[simp] theorem State.leased_level (b : Bytes) : (s.leased b).level = s.level := rfl
@[simp] theorem State.leased_leaveOpen (b : Bytes) : (s.leased b).leaveOpen = s.leaveOpen := rfl
@[simp] theorem State.leased_workbufSize (b : Bytes) : (s.leased b).workbufSize = s.workbufSize := rfl
@[simp] theorem State.leased_mtimeFixed (b : Bytes) : (s.leased b).mtimeFixed = s.mtimeFixed := rfl
@[simp] theorem State.leased_streamMode (b : Bytes) : (s.leased b).streamMode = s.streamMode := rfl
@[simp] theorem State.leased_disposed (b : Bytes) : (s.leased b).disposed = s.disposed := rfl
@[simp] theorem State.leased_engLive (b : Bytes) : (s.leased b).engLive = s.engLive := rfl
@[simp] theorem State.leased_wbLive (b : Bytes) : (s.leased b).wbLive = true := rfl
@[simp] theorem State.leased_wbLen (b : Bytes) : (s.leased b).wbLen = b.length := rfl
@[simp] theorem State.leased_work (b : Bytes) : (s.leased b).work = b := rfl
@[simp] theorem State.leased_inWin (b : Bytes) : (s.leased b).inWin = s.inWin := rfl
@[simp] theorem State.leased_inNext (b : Bytes) : (s.leased b).inNext = s.inNext := rfl
@[simp] theorem State.leased_inAvail (b : Bytes) : (s.leased b).inAvail = s.inAvail := rfl
@[simp] theorem State.leased_noMoreInput (b : Bytes) : (s.leased b).noMoreInput = s.noMoreInput := rfl
@[simp] theorem State.leased_engTotalOut (b : Bytes) : (s.leased b).engTotalOut = s.engTotalOut := rfl
@[simp] theorem State.leased_hdrState (b : Bytes) : (s.leased b).hdrState = s.hdrState := rfl
@[simp] theorem State.leased_hdrBytes (b : Bytes) : (s.leased b).hdrBytes = s.hdrBytes := rfl
@[simp] theorem State.leased_hdrMtime (b : Bytes) : (s.leased b).hdrMtime = s.hdrMtime := rfl
@[simp] theorem State.leased_hdrFlg (b : Bytes) : (s.leased b).hdrFlg = s.hdrFlg := rfl
@[simp] theorem State.leased_hdrFname (b : Bytes) : (s.leased b).hdrFname = s.hdrFname := rfl
@[simp] theorem State.leased_hdrComment (b : Bytes) : (s.leased b).hdrComment = s.hdrComment := rfl
@[simp] theorem State.leased_crcLive (b : Bytes) : (s.leased b).crcLive = s.crcLive := rfl
@[simp] theorem State.leased_crcReg (b : Bytes) : (s.leased b).crcReg = s.crcReg := rfl
@[simp] theorem State.leased_crcCount (b : Bytes) : (s.leased b).crcCount = s.crcCount := rfl
@[simp] theorem State.leased_caller (b : Bytes) : (s.leased b).caller = s.caller := rfl
@[simp] theorem State.leased_commands (b : Bytes) : (s.leased b).commands = s.commands := rfl
@[simp] theorem State.leased_responses (b : Bytes) : (s.leased b).responses = s.responses := rfl
@[simp] theorem State.leased_trace (b : Bytes) : (s.leased b).trace = s.trace := rfl
@[simp] theorem State.leased_inFlight (b : Bytes) : (s.leased b).inFlight = s.inFlight := rfl
@[simp] theorem State.leased_ports (b : Bytes) : (s.leased b).ports = s.ports := rfl
@[simp] theorem State.leased_draws (b : Bytes) : (s.leased b).draws = s.draws := rfl

/-! ### `State.setMode` -/

@[simp] theorem State.setMode_plat (m : StreamMode) : (s.setMode m).plat = s.plat := rfl
@[simp] theorem State.setMode_flavor (m : StreamMode) : (s.setMode m).flavor = s.flavor := rfl
@[simp] theorem State.setMode_cmode (m : StreamMode) : (s.setMode m).cmode = s.cmode := rfl
@[simp] theorem State.setMode_level (m : StreamMode) : (s.setMode m).level = s.level := rfl
@[simp] theorem State.setMode_leaveOpen (m : StreamMode) : (s.setMode m).leaveOpen = s.leaveOpen := rfl
@[simp] theorem State.setMode_workbufSize (m : StreamMode) : (s.setMode m).workbufSize = s.workbufSize := rfl
@[simp] theorem State.setMode_mtimeFixed (m : StreamMode) : (s.setMode m).mtimeFixed = s.mtimeFixed := rfl
@[simp] theorem State.setMode_streamMode (m : StreamMode) : (s.setMode m).streamMode = m := rfl
@[simp] theorem State.setMode_disposed (m : StreamMode) : (s.setMode m).disposed = s.disposed := rfl
@[simp] theorem State.setMode_engLive (m : StreamMode) : (s.setMode m).engLive = s.engLive := rfl
@[simp] theorem State.setMode_wbLive (m : StreamMode) : (s.setMode m).wbLive = s.wbLive := rfl
@[simp] theorem State.setMode_wbLen (m : StreamMode) : (s.setMode m).wbLen = s.wbLen := rfl
@[simp] theorem State.setMode_work (m : StreamMode) : (s.setMode m).work = s.work := rfl
@[simp] theorem State.setMode_inWin (m : StreamMode) : (s.setMode m).inWin = s.inWin := rfl
@[simp] theorem State.setMode_inNext (m : StreamMode) : (s.setMode m).inNext = s.inNext := rfl
@[simp] theorem State.setMode_inAvail (m : StreamMode) : (s.setMode m).inAvail = s.inAvail := rfl
@[simp] theorem State.setMode_noMoreInput (m : StreamMode) : (s.setMode m).noMoreInput = s.noMoreInput := rfl
@[simp] theorem State.setMode_engTotalOut (m : StreamMode) : (s.setMode m).engTotalOut = s.engTotalOut := rfl
@[simp] theorem State.setMode_hdrState (m : StreamMode) : (s.setMode m).hdrState = s.hdrState := rfl
@[simp] theorem State.setMode_hdrBytes (m : StreamMode) : (s.setMode m).hdrBytes = s.hdrBytes := rfl
@[simp] theorem State.setMode_hdrMtime (m : StreamMode) : (s.setMode m).hdrMtime = s.hdrMtime := rfl
@[simp] theorem State.setMode_hdrFlg (m : StreamMode) : (s.setMode m).hdrFlg = s.hdrFlg := rfl
@[simp] theorem State.setMode_hdrFname (m : StreamMode) : (s.setMode m).hdrFname = s.hdrFname := rfl
@[simp] theorem State.setMode_hdrComment (m : StreamMode) : (s.setMode m).hdrComment = s.hdrComment := rfl
@[simp] theorem State.setMode_crcLive (m : StreamMode) : (s.setMode m).crcLive = s.crcLive := rfl
@[simp] theorem State.setMode_crcReg (m : StreamMode) : (s.setMode m).crcReg = s.crcReg := rfl
@[simp] theorem State.setMode_crcCount (m : StreamMode) : (s.setMode m).crcCount = s.crcCount := rfl
@[simp] theorem State.setMode_caller (m : StreamMode) : (s.setMode m).caller = s.caller := rfl
@[simp] theorem State.setMode_commands (m : StreamMode) : (s.setMode m).commands = s.commands := rfl
@[simp] theorem State.setMode_responses (m : StreamMode) : (s.setMode m).responses = s.responses := rfl
@[simp] theorem State.setMode_trace (m : StreamMode) : (s.setMode m).trace = s.trace := rfl
@[simp] theorem State.setMode_inFlight (m : StreamMode) : (s.setMode m).inFlight = s.inFlight := rfl
@[simp] theorem State.setMode_ports (m : StreamMode) : (s.setMode m).ports = s.ports := rfl
@[simp] theorem State.setMode_draws (m : StreamMode) : (s.setMode m).draws = s.draws := rfl

/-! ### `State.hdrEmpty` -/

@[simp] theorem State.hdrEmpty_plat : (s.hdrEmpty).plat = s.plat := rfl
@[simp] theorem State.hdrEmpty_flavor : (s.hdrEmpty).flavor = s.flavor := rfl
@[simp] theorem State.hdrEmpty_cmode : (s.hdrEmpty).cmode = s.cmode := rfl
@[simp] theorem State.hdrEmpty_level : (s.hdrEmpty).level = s.level := rfl
@[simp] theorem State.hdrEmpty_leaveOpen : (s.hdrEmpty).leaveOpen = s.leaveOpen := rfl
@[simp] theorem State.hdrEmpty_workbufSize : (s.hdrEmpty).workbufSize = s.workbufSize := rfl
@[simp] theorem State.hdrEmpty_mtimeFixed : (s.hdrEmpty).mtimeFixed = s.mtimeFixed := rfl
@[simp] theorem State.hdrEmpty_streamMode : (s.hdrEmpty).streamMode = s.streamMode := rfl
@[simp] theorem State.hdrEmpty_disposed : (s.hdrEmpty).disposed = s.disposed := rfl
@[simp] theorem State.hdrEmpty_engLive : (s.hdrEmpty).engLive = s.engLive := rfl
@[simp] theorem State.hdrEmpty_wbLive : (s.hdrEmpty).wbLive = s.wbLive := rfl
@[simp] theorem State.hdrEmpty_wbLen : (s.hdrEmpty).wbLen = s.wbLen := rfl
@[simp] theorem State.hdrEmpty_work : (s.hdrEmpty).work = s.work := rfl
@[simp] theorem State.hdrEmpty_inWin : (s.hdrEmpty).inWin = s.inWin := rfl
@[simp] theorem State.hdrEmpty_inNext : (s.hdrEmpty).inNext = s.inNext := rfl
@[simp] theorem State.hdrEmpty_inAvail : (s.hdrEmpty).inAvail = s.inAvail := rfl
@[simp] theorem State.hdrEmpty_noMoreInput : (s.hdrEmpty).noMoreInput = s.noMoreInput := rfl
@[simp] theorem State.hdrEmpty_engTotalOut : (s.hdrEmpty).engTotalOut = s.engTotalOut := rfl
@[simp] theorem State.hdrEmpty_hdrState : (s.hdrEmpty).hdrState = .empty := rfl
@[simp] theorem State.hdrEmpty_hdrBytes : (s.hdrEmpty).hdrBytes = 0 := rfl
@[simp] theorem State.hdrEmpty_hdrMtime : (s.hdrEmpty).hdrMtime = s.hdrMtime := rfl
@[simp] theorem State.hdrEmpty_hdrFlg : (s.hdrEmpty).hdrFlg = s.hdrFlg := rfl
@[simp] theorem State.hdrEmpty_hdrFname : (s.hdrEmpty).hdrFname = s.hdrFname := rfl
@[simp] theorem State.hdrEmpty_hdrComment : (s.hdrEmpty).hdrComment = s.hdrComment := rfl
@[simp] theorem State.hdrEmpty_crcLive : (s.hdrEmpty).crcLive = s.crcLive := rfl
@[simp] theorem State.hdrEmpty_crcReg : (s.hdrEmpty).crcReg = s.crcReg := rfl
@[simp] theorem State.hdrEmpty_crcCount : (s.hdrEmpty).crcCount = s.crcCount := rfl
@[simp] theorem State.hdrEmpty_caller : (s.hdrEmpty).caller = s.caller := rfl
@[simp] theorem State.hdrEmpty_commands : (s.hdrEmpty).commands = s.commands := rfl
@[simp] theorem State.hdrEmpty_responses : (s.hdrEmpty).responses = s.responses := rfl
@[simp] theorem State.hdrEmpty_trace : (s.hdrEmpty).trace = s.trace := rfl
@[simp] theorem State.hdrEmpty_inFlight : (s.hdrEmpty).inFlight = s.inFlight := rfl
@[simp] theorem State.hdrEmpty_ports : (s.hdrEmpty).ports = s.ports := rfl
@[simp] theorem State.hdrEmpty_draws : (s.hdrEmpty).draws = s.draws := rfl

/-! ### `State.hdrParsed` -/

@[simp] theorem State.hdrParsed_plat (h : HdrFields) : (s.hdrParsed h).plat = s.plat := rfl
@[simp] theorem State.hdrParsed_flavor (h : HdrFields) : (s.hdrParsed h).flavor = s.flavor := rfl
@[simp] theorem State.hdrParsed_cmode (h : HdrFields) : (s.hdrParsed h).cmode = s.cmode := rfl
@[simp] theorem State.hdrParsed_level (h : HdrFields) : (s.hdrParsed h).level = s.level := rfl
@[simp] theorem State.hdrParsed_leaveOpen (h : HdrFields) : (s.hdrParsed h).leaveOpen = s.leaveOpen := rfl
@[simp] theorem State.hdrParsed_workbufSize (h : HdrFields) : (s.hdrParsed h).workbufSize = s.workbufSize := rfl
@[simp] theorem State.hdrParsed_mtimeFixed (h : HdrFields) : (s.hdrParsed h).mtimeFixed = s.mtimeFixed := rfl
@[simp] theorem State.hdrParsed_streamMode (h : HdrFields) : (s.hdrParsed h).streamMode = s.streamMode := rfl
@[simp] theorem State.hdrParsed_disposed (h : HdrFields) : (s.hdrParsed h).disposed = s.disposed := rfl
@[simp] theorem State.hdrParsed_engLive (h : HdrFields) : (s.hdrParsed h).engLive = s.engLive := rfl
@[simp] theorem State.hdrParsed_wbLive (h : HdrFields) : (s.hdrParsed h).wbLive = s.wbLive := rfl
@[simp] theorem State.hdrParsed_wbLen (h : HdrFields) : (s.hdrParsed h).wbLen = s.wbLen := rfl
@[simp] theorem State.hdrParsed_work (h : HdrFields) : (s.hdrParsed h).work = s.work := rfl
@[simp] theorem State.hdrParsed_inWin (h : HdrFields) : (s.hdrParsed h).inWin = s.inWin := rfl
@[simp] theorem State.hdrParsed_inNext (h : HdrFields) : (s.hdrParsed h).inNext = s.inNext := rfl
@[simp] theorem State.hdrParsed_inAvail (h : HdrFields) : (s.hdrParsed h).inAvail = s.inAvail := rfl
@[simp] theorem State.hdrParsed_noMoreInput (h : HdrFields) : (s.hdrParsed h).noMoreInput = s.noMoreInput := rfl
@[simp] theorem State.hdrParsed_engTotalOut (h : HdrFields) : (s.hdrParsed h).engTotalOut = s.engTotalOut := rfl
@[simp] theorem State.hdrParsed_hdrState (h : HdrFields) : (s.hdrParsed h).hdrState = .parsed := rfl
@[simp] theorem State.hdrParsed_hdrBytes (h : HdrFields) : (s.hdrParsed h).hdrBytes = h.total := rfl
@[simp] theorem State.hdrParsed_hdrMtime (h : HdrFields) : (s.hdrParsed h).hdrMtime = h.mtime := rfl
@[simp] theorem State.hdrParsed_hdrFlg (h : HdrFields) : (s.hdrParsed h).hdrFlg = h.flg := rfl
@[simp] theorem State.hdrParsed_hdrFname (h : HdrFields) : (s.hdrParsed h).hdrFname = h.name := rfl
@[simp] theorem State.hdrParsed_hdrComment (h : HdrFields) : (s.hdrParsed h).hdrComment = h.comment := rfl
@[simp] theorem State.hdrParsed_crcLive (h : HdrFields) : (s.hdrParsed h).crcLive = s.crcLive := rfl
@[simp] theorem State.hdrParsed_crcReg (h : HdrFields) : (s.hdrParsed h).crcReg = s.crcReg := rfl
@[simp] theorem State.hdrParsed_crcCount (h : HdrFields) : (s.hdrParsed h).crcCount = s.crcCount := rfl
@[simp] theorem State.hdrParsed_caller (h : HdrFields) : (s.hdrParsed h).caller = s.caller := rfl
@[simp] theorem State.hdrParsed_commands (h : HdrFields) : (s.hdrParsed h).commands = s.commands := rfl
@[simp] theorem State.hdrParsed_responses (h : HdrFields) : (s.hdrParsed h).responses = s.responses := rfl
@[simp] theorem State.hdrParsed_trace (h : HdrFields) : (s.hdrParsed h).trace = s.trace := rfl
@[simp] theorem State.hdrParsed_inFlight (h : HdrFields) : (s.hdrParsed h).inFlight = s.inFlight := rfl
@[simp] theorem State.hdrParsed_ports (h : HdrFields) : (s.hdrParsed h).ports = s.ports := rfl
@[simp] theorem State.hdrParsed_draws (h : HdrFields) : (s.hdrParsed h).draws = s.draws := rfl

/-! ### `State.hdrEmitted` -/

@[simp] theorem State.hdrEmitted_plat (t : U32) : (s.hdrEmitted t).plat = s.plat := rfl
@[simp] theorem State.hdrEmitted_flavor (t : U32) : (s.hdrEmitted t).flavor = s.flavor := rfl
@[simp] theorem State.hdrEmitted_cmode (t : U32) : (s.hdrEmitted t).cmode = s.cmode := rfl
@[simp] theorem State.hdrEmitted_level (t : U32) : (s.hdrEmitted t).level = s.level := rfl
@[simp] theorem State.hdrEmitted_leaveOpen (t : U32) : (s.hdrEmitted t).leaveOpen = s.leaveOpen := rfl
@[simp] theorem State.hdrEmitted_workbufSize (t : U32) : (s.hdrEmitted t).workbufSize = s.workbufSize := rfl
@[simp] theorem State.hdrEmitted_mtimeFixed (t : U32) : (s.hdrEmitted t).mtimeFixed = s.mtimeFixed := rfl
@[simp] theorem State.hdrEmitted_streamMode (t : U32) : (s.hdrEmitted t).streamMode = s.streamMode := rfl
@[simp] theorem State.hdrEmitted_disposed (t : U32) : (s.hdrEmitted t).disposed = s.disposed := rfl
@[simp] theorem State.hdrEmitted_engLive (t : U32) : (s.hdrEmitted t).engLive = s.engLive := rfl
@[simp] theorem State.hdrEmitted_wbLive (t : U32) : (s.hdrEmitted t).wbLive = s.wbLive := rfl
@[simp] theorem State.hdrEmitted_wbLen (t : U32) : (s.hdrEmitted t).wbLen = s.wbLen := rfl
@[simp] theorem State.hdrEmitted_work (t : U32) : (s.hdrEmitted t).work = s.work := rfl
@[simp] theorem State.hdrEmitted_inWin (t : U32) : (s.hdrEmitted t).inWin = s.inWin := rfl
@[simp] theorem State.hdrEmitted_inNext (t : U32) : (s.hdrEmitted t).inNext = s.inNext := rfl
@[simp] theorem State.hdrEmitted_inAvail (t : U32) : (s.hdrEmitted t).inAvail = s.inAvail := rfl
@[simp] theorem State.hdrEmitted_noMoreInput (t : U32) : (s.hdrEmitted t).noMoreInput = s.noMoreInput := rfl
@[simp] theorem State.hdrEmitted_engTotalOut (t : U32) : (s.hdrEmitted t).engTotalOut = s.engTotalOut := rfl
@[simp] theorem State.hdrEmitted_hdrState (t : U32) : (s.hdrEmitted t).hdrState = .emitted := rfl
@[simp] theorem State.hdrEmitted_hdrBytes (t : U32) : (s.hdrEmitted t).hdrBytes = 10 := rfl
@[simp] theorem State.hdrEmitted_hdrMtime (t : U32) : (s.hdrEmitted t).hdrMtime = t := rfl
@[simp] theorem State.hdrEmitted_hdrFlg (t : U32) : (s.hdrEmitted t).hdrFlg = 0 := rfl
@[simp] theorem State.hdrEmitted_hdrFname (t : U32) : (s.hdrEmitted t).hdrFname = none := rfl
@[simp] theorem State.hdrEmitted_hdrComment (t : U32) : (s.hdrEmitted t).hdrComment = none := rfl
@[simp] theorem State.hdrEmitted_crcLive (t : U32) : (s.hdrEmitted t).crcLive = s.crcLive := rfl
@[simp] theorem State.hdrEmitted_crcReg (t : U32) : (s.hdrEmitted t).crcReg = s.crcReg := rfl
@[simp] theorem State.hdrEmitted_crcCount (t : U32) : (s.hdrEmitted t).crcCount = s.crcCount := rfl
@[simp] theorem State.hdrEmitted_caller (t : U32) : (s.hdrEmitted t).caller = s.caller := rfl
@[simp] theorem State.hdrEmitted_commands (t : U32) : (s.hdrEmitted t).commands = s.commands := rfl
@[simp] theorem State.hdrEmitted_responses (t : U32) : (s.hdrEmitted t).responses = s.responses := rfl
@[simp] theorem State.hdrEmitted_trace (t : U32) : (s.hdrEmitted t).trace = s.trace := rfl
@[simp] theorem State.hdrEmitted_inFlight (t : U32) : (s.hdrEmitted t).inFlight = s.inFlight := rfl
@[simp] theorem State.hdrEmitted_ports (t : U32) : (s.hdrEmitted t).ports = s.ports := rfl
@[simp] theorem State.hdrEmitted_draws (t : U32) : (s.hdrEmitted t).draws = s.draws := rfl

/-! ### `State.crcUpdate` -/

@[simp] theorem State.crcUpdate_plat (b : Bytes) : (s.crcUpdate b).plat = s.plat := rfl
@[simp] theorem State.crcUpdate_flavor (b : Bytes) : (s.crcUpdate b).flavor = s.flavor := rfl
@[simp] theorem State.crcUpdate_cmode (b : Bytes) : (s.crcUpdate b).cmode = s.cmode := rfl
@[simp] theorem State.crcUpdate_level (b : Bytes) : (s.crcUpdate b).level = s.level := rfl
@[simp] theorem State.crcUpdate_leaveOpen (b : Bytes) : (s.crcUpdate b).leaveOpen = s.leaveOpen := rfl
@[simp] theorem State.crcUpdate_workbufSize (b : Bytes) : (s.crcUpdate b).workbufSize = s.workbufSize := rfl
@[simp] theorem State.crcUpdate_mtimeFixed (b : Bytes) : (s.crcUpdate b).mtimeFixed = s.mtimeFixed := rfl
@[simp] theorem State.crcUpdate_streamMode (b : Bytes) : (s.crcUpdate b).streamMode = s.streamMode := rfl
@[simp] theorem State.crcUpdate_disposed (b : Bytes) : (s.crcUpdate b).disposed = s.disposed := rfl
@[simp] theorem State.crcUpdate_engLive (b : Bytes) : (s.crcUpdate b).engLive = s.engLive := rfl
@[simp] theorem State.crcUpdate_wbLive (b : Bytes) : (s.crcUpdate b).wbLive = s.wbLive := rfl
@[simp] theorem State.crcUpdate_wbLen (b : Bytes) : (s.crcUpdate b).wbLen = s.wbLen := rfl
@[simp] theorem State.crcUpdate_work (b : Bytes) : (s.crcUpdate b).work = s.work := rfl
@[simp] theorem State.crcUpdate_inWin (b : Bytes) : (s.crcUpdate b).inWin = s.inWin := rfl
@[simp] theorem State.crcUpdate_inNext (b : Bytes) : (s.crcUpdate b).inNext = s.inNext := rfl
@[simp] theorem State.crcUpdate_inAvail (b : Bytes) : (s.crcUpdate b).inAvail = s.inAvail := rfl
@[simp] theorem State.crcUpdate_noMoreInput (b : Bytes) : (s.crcUpdate b).noMoreInput = s.noMoreInput := rfl
@[simp] theorem State.crcUpdate_engTotalOut (b : Bytes) : (s.crcUpdate b).engTotalOut = s.engTotalOut := rfl
@[simp] theorem State.crcUpdate_hdrState (b : Bytes) : (s.crcUpdate b).hdrState = s.hdrState := rfl
@[simp] theorem State.crcUpdate_hdrBytes (b : Bytes) : (s.crcUpdate b).hdrBytes = s.hdrBytes := rfl
@[simp] theorem State.crcUpdate_hdrMtime (b : Bytes) : (s.crcUpdate b).hdrMtime = s.hdrMtime := rfl
@[simp] theorem State.crcUpdate_hdrFlg (b : Bytes) : (s.crcUpdate b).hdrFlg = s.hdrFlg := rfl
@[simp] theorem State.crcUpdate_hdrFname (b : Bytes) : (s.crcUpdate b).hdrFname = s.hdrFname := rfl
@[simp] theorem State.crcUpdate_hdrComment (b : Bytes) : (s.crcUpdate b).hdrComment = s.hdrComment := rfl
@[simp] theorem State.crcUpdate_crcLive (b : Bytes) : (s.crcUpdate b).crcLive = s.crcLive := rfl
@[simp] theorem State.crcUpdate_crcReg (b : Bytes) : (s.crcUpdate b).crcReg = crcFold s.plat.crc32fn s.crcReg b := rfl
@[simp] theorem State.crcUpdate_crcCount (b : Bytes) : (s.crcUpdate b).crcCount = s.crcCount + BitVec.ofNat 64 b.length := rfl
@[simp] theorem State.crcUpdate_caller (b : Bytes) : (s.crcUpdate b).caller = s.caller := rfl
@[simp] theorem State.crcUpdate_commands (b : Bytes) : (s.crcUpdate b).commands = s.commands := rfl
@[simp] theorem State.crcUpdate_responses (b : Bytes) : (s.crcUpdate b).responses = s.responses := rfl
@[simp] theorem State.crcUpdate_trace (b : Bytes) : (s.crcUpdate b).trace = s.trace := rfl
@[simp] theorem State.crcUpdate_inFlight (b : Bytes) : (s.crcUpdate b).inFlight = s.inFlight := rfl
@[simp] theorem State.crcUpdate_ports (b : Bytes) : (s.crcUpdate b).ports = s.ports := rfl
@[simp] theorem State.crcUpdate_draws (b : Bytes) : (s.crcUpdate b).draws = s.draws := rfl

/-! ### `State.pulled` -/

@[simp] theorem State.pulled_plat (k : Bytes) : (s.pulled k).plat = s.plat := rfl
@[simp] theorem State.pulled_flavor (k : Bytes) : (s.pulled k).flavor = s.flavor := rfl
@[simp] theorem State.pulled_cmode (k : Bytes) : (s.pulled k).cmode = s.cmode := rfl
@[simp] theorem State.pulled_level (k : Bytes) : (s.pulled k).level = s.level := rfl
@[simp] theorem State.pulled_leaveOpen (k : Bytes) : (s.pulled k).leaveOpen = s.leaveOpen := rfl
@[simp] theorem State.pulled_workbufSize (k : Bytes) : (s.pulled k).workbufSize = s.workbufSize := rfl
@[simp] theorem State.pulled_mtimeFixed (k : Bytes) : (s.pulled k).mtimeFixed = s.mtimeFixed := rfl
@[simp] theorem State.pulled_streamMode (k : Bytes) : (s.pulled k).streamMode = s.streamMode := rfl
@[simp] theorem State.pulled_disposed (k : Bytes) : (s.pulled k).disposed = s.disposed := rfl
@[simp] theorem State.pulled_engLive (k : Bytes) : (s.pulled k).engLive = s.engLive := rfl
@[simp] theorem State.pulled_wbLive (k : Bytes) : (s.pulled k).wbLive = s.wbLive := rfl
@[simp] theorem State.pulled_wbLen (k : Bytes) : (s.pulled k).wbLen = s.wbLen := rfl
@[simp] theorem State.pulled_work (k : Bytes) : (s.pulled k).work = memWrite s.work 0 k := rfl
@[simp] theorem State.pulled_inWin (k : Bytes) : (s.pulled k).inWin = k := rfl
@[simp] theorem State.pulled_inNext (k : Bytes) : (s.pulled k).inNext = 0 := rfl
@[simp] theorem State.pulled_inAvail (k : Bytes) : (s.pulled k).inAvail = k.length := rfl
@[simp] theorem State.pulled_noMoreInput (k : Bytes) : (s.pulled k).noMoreInput = (s.noMoreInput || k.isEmpty) := rfl
@[simp] theorem State.pulled_engTotalOut (k : Bytes) : (s.pulled k).engTotalOut = s.engTotalOut := rfl
@[simp] theorem State.pulled_hdrState (k : Bytes) : (s.pulled k).hdrState = s.hdrState := rfl
@[simp] theorem State.pulled_hdrBytes (k : Bytes) : (s.pulled k).hdrBytes = s.hdrBytes := rfl
@[simp] theorem State.pulled_hdrMtime (k : Bytes) : (s.pulled k).hdrMtime = s.hdrMtime := rfl
@[simp] theorem State.pulled_hdrFlg (k : Bytes) : (s.pulled k).hdrFlg = s.hdrFlg := rfl
@[simp] theorem State.pulled_hdrFname (k : Bytes) : (s.pulled k).hdrFname = s.hdrFname := rfl
@[simp] theorem State.pulled_hdrComment (k : Bytes) : (s.pulled k).hdrComment = s.hdrComment := rfl
@[simp] theorem State.pulled_crcLive (k : Bytes) : (s.pulled k).crcLive = s.crcLive := rfl
@[simp] theorem State.pulled_crcReg (k : Bytes) : (s.pulled k).crcReg = s.crcReg := rfl
@[simp] theorem State.pulled_crcCount (k : Bytes) : (s.pulled k).crcCount = s.crcCount := rfl
@[simp] theorem State.pulled_caller (k : Bytes) : (s.pulled k).caller = s.caller := rfl
@[simp] theorem State.pulled_commands (k : Bytes) : (s.pulled k).commands = s.commands := rfl
@[simp] theorem State.pulled_responses (k : Bytes) : (s.pulled k).responses = s.responses := rfl
@[simp] theorem State.pulled_trace (k : Bytes) : (s.pulled k).trace = s.trace := rfl
@[simp] theorem State.pulled_inFlight (k : Bytes) : (s.pulled k).inFlight = s.inFlight := rfl
@[simp] theorem State.pulled_ports (k : Bytes) : (s.pulled k).ports = s.ports := rfl
@[simp] theorem State.pulled_draws (k : Bytes) : (s.pulled k).draws = s.draws := rfl

/-! ### `State.released` -/

@[simp] theorem State.released_plat : (s.released).plat = s.plat := rfl
@[simp] theorem State.released_flavor : (s.released).flavor = s.flavor := rfl
@[simp] theorem State.released_cmode : (s.released).cmode = s.cmode := rfl
@[simp] theorem State.released_level : (s.released).level = s.level := rfl
@[simp] theorem State.released_leaveOpen : (s.released).leaveOpen = s.leaveOpen := rfl
@[simp] theorem State.released_workbufSize : (s.released).workbufSize = s.workbufSize := rfl
@[simp] theorem State.released_mtimeFixed : (s.released).mtimeFixed = s.mtimeFixed := rfl
@[simp] theorem State.released_streamMode : (s.released).streamMode = s.streamMode := rfl
@[simp] theorem State.released_disposed : (s.released).disposed = s.disposed := rfl
@[simp] theorem State.released_engLive : (s.released).engLive = s.engLive := rfl
@[simp] theorem State.released_wbLive : (s.released).wbLive = false := rfl
@[simp] theorem State.released_wbLen : (s.released).wbLen = s.wbLen := rfl
@[simp] theorem State.released_work : (s.released).work = [] := rfl
@[simp] theorem State.released_inWin : (s.released).inWin = s.inWin := rfl
@[simp] theorem State.released_inNext : (s.released).inNext = s.inNext := rfl
@[simp] theorem State.released_inAvail : (s.released).inAvail = s.inAvail := rfl
@[simp] theorem State.released_noMoreInput : (s.released).noMoreInput = s.noMoreInput := rfl
@[simp] theorem State.released_engTotalOut : (s.released).engTotalOut = s.engTotalOut := rfl
@[simp] theorem State.released_hdrState : (s.released).hdrState = s.hdrState := rfl
@[simp] theorem State.released_hdrBytes : (s.released).hdrBytes = s.hdrBytes := rfl
@[simp] theorem State.released_hdrMtime : (s.released).hdrMtime = s.hdrMtime := rfl
@[simp] theorem State.released_hdrFlg : (s.released).hdrFlg = s.hdrFlg := rfl
@[simp] theorem State.released_hdrFname : (s.released).hdrFname = s.hdrFname := rfl
@[simp] theorem State.released_hdrComment : (s.released).hdrComment = s.hdrComment := rfl
@[simp] theorem State.released_crcLive : (s.released).crcLive = s.crcLive := rfl
@[simp] theorem State.released_crcReg : (s.released).crcReg = s.crcReg := rfl
@[simp] theorem State.released_crcCount : (s.released).crcCount = s.crcCount := rfl
@[simp] theorem State.released_caller : (s.released).caller = s.caller := rfl
@[simp] theorem State.released_commands : (s.released).commands = s.commands := rfl
@[simp] theorem State.released_responses : (s.released).responses = s.responses := rfl
@[simp] theorem State.released_trace : (s.released).trace = s.trace := rfl
@[simp] theorem State.released_inFlight : (s.released).inFlight = s.inFlight := rfl
@[simp] theorem State.released_ports : (s.released).ports = s.ports := rfl
@[simp] theorem State.released_draws : (s.released).draws = s.draws := rfl

/-! ### `State.setDisposed` -/

@[simp] theorem State.setDisposed_plat : (s.setDisposed).plat = s.plat := rfl
@[simp] theorem State.setDisposed_flavor : (s.setDisposed).flavor = s.flavor := rfl
@[simp] theorem State.setDisposed_cmode : (s.setDisposed).cmode = s.cmode := rfl
@[simp] theorem State.setDisposed_level : (s.setDisposed).level = s.level := rfl
@[simp] theorem State.setDisposed_leaveOpen : (s.setDisposed).leaveOpen = s.leaveOpen := rfl
@[simp] theorem State.setDisposed_workbufSize : (s.setDisposed).workbufSize = s.workbufSize := rfl
@[simp] theorem State.setDisposed_mtimeFixed : (s.setDisposed).mtimeFixed = s.mtimeFixed := rfl
@[simp] theorem State.setDisposed_streamMode : (s.setDisposed).streamMode = s.streamMode := rfl
@[simp] theorem State.setDisposed_disposed : (s.setDisposed).disposed = true := rfl
@[simp] theorem State.setDisposed_engLive : (s.setDisposed).engLive = s.engLive := rfl
@[simp] theorem State.setDisposed_wbLive : (s.setDisposed).wbLive = s.wbLive := rfl
@[simp] theorem State.setDisposed_wbLen : (s.setDisposed).wbLen = s.wbLen := rfl
@[simp] theorem State.setDisposed_work : (s.setDisposed).work = s.work := rfl
@[simp] theorem State.setDisposed_inWin : (s.setDisposed).inWin = s.inWin := rfl
@[simp] theorem State.setDisposed_inNext : (s.setDisposed).inNext = s.inNext := rfl
@[simp] theorem State.setDisposed_inAvail : (s.setDisposed).inAvail = s.inAvail := rfl
@[simp] theorem State.setDisposed_noMoreInput : (s.setDisposed).noMoreInput = s.noMoreInput := rfl
@[simp] theorem State.setDisposed_engTotalOut : (s.setDisposed).engTotalOut = s.engTotalOut := rfl
@[simp] theorem State.setDisposed_hdrState : (s.setDisposed).hdrState = s.hdrState := rfl
@[simp] theorem State.setDisposed_hdrBytes : (s.setDisposed).hdrBytes = s.hdrBytes := rfl
@[simp] theorem State.setDisposed_hdrMtime : (s.setDisposed).hdrMtime = s.hdrMtime := rfl
@[simp] theorem State.setDisposed_hdrFlg : (s.setDisposed).hdrFlg = s.hdrFlg := rfl
@[simp] theorem State.setDisposed_hdrFname : (s.setDisposed).hdrFname = s.hdrFname := rfl
@[simp] theorem State.setDisposed_hdrComment : (s.setDisposed).hdrComment = s.hdrComment := rfl
@[simp] theorem State.setDisposed_crcLive : (s.setDisposed).crcLive = s.crcLive := rfl
@[simp] theorem State.setDisposed_crcReg : (s.setDisposed).crcReg = s.crcReg := rfl
@[simp] theorem State.setDisposed_crcCount : (s.setDisposed).crcCount = s.crcCount := rfl
@[simp] theorem State.setDisposed_caller : (s.setDisposed).caller = s.caller := rfl
@[simp] theorem State.setDisposed_commands : (s.setDisposed).commands = s.commands := rfl
@[simp] theorem State.setDisposed_responses : (s.setDisposed).responses = s.responses := rfl
@[simp] theorem State.setDisposed_trace : (s.setDisposed).trace = s.trace := rfl
@[simp] theorem State.setDisposed_inFlight : (s.setDisposed).inFlight = s.inFlight := rfl
@[simp] theorem State.setDisposed_ports : (s.setDisposed).ports = s.ports := rfl
@[simp] theorem State.setDisposed_draws : (s.setDisposed).draws = s.draws := rfl

/-! ### `State.takeCommand` -/

@[simp] theorem State.takeCommand_plat (rest : List Command) : (s.takeCommand rest).plat = s.plat := rfl
@[simp] theorem State.takeCommand_flavor (rest : List Command) : (s.takeCommand rest).flavor = s.flavor := rfl
@[simp] theorem State.takeCommand_cmode (rest : List Command) : (s.takeCommand rest).cmode = s.cmode := rfl
@[simp] theorem State.takeCommand_level (rest : List Command) : (s.takeCommand rest).level = s.level := rfl
@[simp] theorem State.takeCommand_leaveOpen (rest : List Command) : (s.takeCommand rest).leaveOpen = s.leaveOpen := rfl
@[simp] theorem State.takeCommand_workbufSize (rest : List Command) : (s.takeCommand rest).workbufSize = s.workbufSize := rfl
@[simp] theorem State.takeCommand_mtimeFixed (rest : List Command) : (s.takeCommand rest).mtimeFixed = s.mtimeFixed := rfl
@[simp] theorem State.takeCommand_streamMode (rest : List Command) : (s.takeCommand rest).streamMode = s.streamMode := rfl
@[simp] theorem State.takeCommand_disposed (rest : List Command) : (s.takeCommand rest).disposed = s.disposed := rfl
@[simp] theorem State.takeCommand_engLive (rest : List Command) : (s.takeCommand rest).engLive = s.engLive := rfl
@[simp] theorem State.takeCommand_wbLive (rest : List Command) : (s.takeCommand rest).wbLive = s.wbLive := rfl
@[simp] theorem State.takeCommand_wbLen (rest : List Command) : (s.takeCommand rest).wbLen = s.wbLen := rfl
@[simp] theorem State.takeCommand_work (rest : List Command) : (s.takeCommand rest).work = s.work := rfl
@[simp] theorem State.takeCommand_inWin (rest : List Command) : (s.takeCommand rest).inWin = s.inWin := rfl
@[simp] theorem State.takeCommand_inNext (rest : List Command) : (s.takeCommand rest).inNext = s.inNext := rfl
@[simp] theorem State.takeCommand_inAvail (rest : List Command) : (s.takeCommand rest).inAvail = s.inAvail := rfl
@[simp] theorem State.takeCommand_noMoreInput (rest : List Command) : (s.takeCommand rest).noMoreInput = s.noMoreInput := rfl
@[simp] theorem State.takeCommand_engTotalOut (rest : List Command) : (s.takeCommand rest).engTotalOut = s.engTotalOut := rfl
@[simp] theorem State.takeCommand_hdrState (rest : List Command) : (s.takeCommand rest).hdrState = s.hdrState := rfl
@[simp] theorem State.takeCommand_hdrBytes (rest : List Command) : (s.takeCommand rest).hdrBytes = s.hdrBytes := rfl
@[simp] theorem State.takeCommand_hdrMtime (rest : List Command) : (s.takeCommand rest).hdrMtime = s.hdrMtime := rfl
@[simp] theorem State.takeCommand_hdrFlg (rest : List Command) : (s.takeCommand rest).hdrFlg = s.hdrFlg := rfl
@[simp] theorem State.takeCommand_hdrFname (rest : List Command) : (s.takeCommand rest).hdrFname = s.hdrFname := rfl
@[simp] theorem State.takeCommand_hdrComment (rest : List Command) : (s.takeCommand rest).hdrComment = s.hdrComment := rfl
@[simp] theorem State.takeCommand_crcLive (rest : List Command) : (s.takeCommand rest).crcLive = s.crcLive := rfl
@[simp] theorem State.takeCommand_crcReg (rest : List Command) : (s.takeCommand rest).crcReg = s.crcReg := rfl
@[simp] theorem State.takeCommand_crcCount (rest : List Command) : (s.takeCommand rest).crcCount = s.crcCount := rfl
@[simp] theorem State.takeCommand_caller (rest : List Command) : (s.takeCommand rest).caller = s.caller := rfl
@[simp] theorem State.takeCommand_commands (rest : List Command) : (s.takeCommand rest).commands = rest := rfl
@[simp] theorem State.takeCommand_responses (rest : List Command) : (s.takeCommand rest).responses = s.responses := rfl
@[simp] theorem State.takeCommand_trace (rest : List Command) : (s.takeCommand rest).trace = s.trace := rfl
@[simp] theorem State.takeCommand_inFlight (rest : List Command) : (s.takeCommand rest).inFlight = s.inFlight := rfl
@[simp] theorem State.takeCommand_ports (rest : List Command) : (s.takeCommand rest).ports = s.ports := rfl
@[simp] theorem State.takeCommand_draws (rest : List Command) : (s.takeCommand rest).draws = s.draws := rfl

/-! ### `State.withData` -/

@[simp] theorem State.withData_plat (b : Bytes) : (s.withData b).plat = s.plat := rfl
@[simp] theorem State.withData_flavor (b : Bytes) : (s.withData b).flavor = s.flavor := rfl
@[simp] theorem State.withData_cmode (b : Bytes) : (s.withData b).cmode = s.cmode := rfl
@[simp] theorem State.withData_level (b : Bytes) : (s.withData b).level = s.level := rfl
@[simp] theorem State.withData_leaveOpen (b : Bytes) : (s.withData b).leaveOpen = s.leaveOpen := rfl
@[simp] theorem State.withData_workbufSize (b : Bytes) : (s.withData b).workbufSize = s.workbufSize := rfl
@[simp] theorem State.withData_mtimeFixed (b : Bytes) : (s.withData b).mtimeFixed = s.mtimeFixed := rfl
@[simp] theorem State.withData_streamMode (b : Bytes) : (s.withData b).streamMode = s.streamMode := rfl
@[simp] theorem State.withData_disposed (b : Bytes) : (s.withData b).disposed = s.disposed := rfl
@[simp] theorem State.withData_engLive (b : Bytes) : (s.withData b).engLive = s.engLive := rfl
@[simp] theorem State.withData_wbLive (b : Bytes) : (s.withData b).wbLive = s.wbLive := rfl
@[simp] theorem State.withData_wbLen (b : Bytes) : (s.withData b).wbLen = s.wbLen := rfl
@[simp] theorem State.withData_work (b : Bytes) : (s.withData b).work = s.work := rfl
@[simp] theorem State.withData_inWin (b : Bytes) : (s.withData b).inWin = s.inWin := rfl
@[simp] theorem State.withData_inNext (b : Bytes) : (s.withData b).inNext = s.inNext := rfl
@[simp] theorem State.withData_inAvail (b : Bytes) : (s.withData b).inAvail = s.inAvail := rfl
@[simp] theorem State.withData_noMoreInput (b : Bytes) : (s.withData b).noMoreInput = s.noMoreInput := rfl
@[simp] theorem State.withData_engTotalOut (b : Bytes) : (s.withData b).engTotalOut = s.engTotalOut := rfl
@[simp] theorem State.withData_hdrState (b : Bytes) : (s.withData b).hdrState = s.hdrState := rfl
@[simp] theorem State.withData_hdrBytes (b : Bytes) : (s.withData b).hdrBytes = s.hdrBytes := rfl
@[simp] theorem State.withData_hdrMtime (b : Bytes) : (s.withData b).hdrMtime = s.hdrMtime := rfl
@[simp] theorem State.withData_hdrFlg (b : Bytes) : (s.withData b).hdrFlg = s.hdrFlg := rfl
@[simp] theorem State.withData_hdrFname (b : Bytes) : (s.withData b).hdrFname = s.hdrFname := rfl
@[simp] theorem State.withData_hdrComment (b : Bytes) : (s.withData b).hdrComment = s.hdrComment := rfl
@[simp] theorem State.withData_crcLive (b : Bytes) : (s.withData b).crcLive = s.crcLive := rfl
@[simp] theorem State.withData_crcReg (b : Bytes) : (s.withData b).crcReg = s.crcReg := rfl
@[simp] theorem State.withData_crcCount (b : Bytes) : (s.withData b).crcCount = s.crcCount := rfl
@[simp] theorem State.withData_caller (b : Bytes) : (s.withData b).caller = b := rfl
@[simp] theorem State.withData_commands (b : Bytes) : (s.withData b).commands = s.commands := rfl
@[simp] theorem State.withData_responses (b : Bytes) : (s.withData b).responses = s.responses := rfl
@[simp] theorem State.withData_trace (b : Bytes) : (s.withData b).trace = s.trace := rfl
@[simp] theorem State.withData_inFlight (b : Bytes) : (s.withData b).inFlight = s.inFlight := rfl
@[simp] theorem State.withData_ports (b : Bytes) : (s.withData b).ports = s.ports := rfl
@[simp] theorem State.withData_draws (b : Bytes) : (s.withData b).draws = s.draws := rfl

/-! ### `State.resumed` -/

@[simp] theorem State.resumed_plat : (s.resumed).plat = s.plat := rfl
@[simp] theorem State.resumed_flavor : (s.resumed).flavor = s.flavor := rfl
@[simp] theorem State.resumed_cmode : (s.resumed).cmode = s.cmode := rfl
@[simp] theorem State.resumed_level : (s.resumed).level = s.level := rfl
@[simp] theorem State.resumed_leaveOpen : (s.resumed).leaveOpen = s.leaveOpen := rfl
@[simp] theorem State.resumed_workbufSize : (s.resumed).workbufSize = s.workbufSize := rfl
@[simp] theorem State.resumed_mtimeFixed : (s.resumed).mtimeFixed = s.mtimeFixed := rfl
@[simp] theorem State.resumed_streamMode : (s.resumed).streamMode = s.streamMode := rfl
@[simp] theorem State.resumed_disposed : (s.resumed).disposed = s.disposed := rfl
@[simp] theorem State.resumed_engLive : (s.resumed).engLive = s.engLive := rfl
@[simp] theorem State.resumed_wbLive : (s.resumed).wbLive = s.wbLive := rfl
@[simp] theorem State.resumed_wbLen : (s.resumed).wbLen = s.wbLen := rfl
@[simp] theorem State.resumed_work : (s.resumed).work = s.work := rfl
@[simp] theorem State.resumed_inWin : (s.resumed).inWin = s.inWin := rfl
@[simp] theorem State.resumed_inNext : (s.resumed).inNext = s.inNext := rfl
@[simp] theorem State.resumed_inAvail : (s.resumed).inAvail = s.inAvail := rfl
@[simp] theorem State.resumed_noMoreInput : (s.resumed).noMoreInput = s.noMoreInput := rfl
@[simp] theorem State.resumed_engTotalOut : (s.resumed).engTotalOut = s.engTotalOut := rfl
@[simp] theorem State.resumed_hdrState : (s.resumed).hdrState = s.hdrState := rfl
@[simp] theorem State.resumed_hdrBytes : (s.resumed).hdrBytes = s.hdrBytes := rfl
@[simp] theorem State.resumed_hdrMtime : (s.resumed).hdrMtime = s.hdrMtime := rfl
@[simp] theorem State.resumed_hdrFlg : (s.resumed).hdrFlg = s.hdrFlg := rfl
@[simp] theorem State.resumed_hdrFname : (s.resumed).hdrFname = s.hdrFname := rfl
@[simp] theorem State.resumed_hdrComment : (s.resumed).hdrComment = s.hdrComment := rfl
@[simp] theorem State.resumed_crcLive : (s.resumed).crcLive = s.crcLive := rfl
@[simp] theorem State.resumed_crcReg : (s.resumed).crcReg = s.crcReg := rfl
@[simp] theorem State.resumed_crcCount : (s.resumed).crcCount = s.crcCount := rfl
@[simp] theorem State.resumed_caller : (s.resumed).caller = s.caller := rfl
@[simp] theorem State.resumed_commands : (s.resumed).commands = s.commands := rfl
@[simp] theorem State.resumed_responses : (s.resumed).responses = s.responses := rfl
@[simp] theorem State.resumed_trace : (s.resumed).trace = s.trace := rfl
@[simp] theorem State.resumed_inFlight : (s.resumed).inFlight = none := rfl
@[simp] theorem State.resumed_ports : (s.resumed).ports = s.ports := rfl
@[simp] theorem State.resumed_draws : (s.resumed).draws = s.draws := rfl

/-! ### `State.crcFeed`, which feeds an accumulator that exists -/

@[simp] theorem State.crcFeed_crcReg (b : Bytes) :
    (s.crcFeed b).crcReg = if s.crcLive then crcFold s.plat.crc32fn s.crcReg b else s.crcReg := by
  unfold State.crcFeed; split <;> rfl

@[simp] theorem State.crcFeed_crcCount (b : Bytes) :
    (s.crcFeed b).crcCount = if s.crcLive then s.crcCount + BitVec.ofNat 64 b.length else s.crcCount := by
  unfold State.crcFeed; split <;> rfl

@[simp] theorem State.crcFeed_plat (b : Bytes) : (s.crcFeed b).plat = s.plat := by
  unfold State.crcFeed; split <;> rfl
@[simp] theorem State.crcFeed_flavor (b : Bytes) : (s.crcFeed b).flavor = s.flavor := by
  unfold State.crcFeed; split <;> rfl
@[simp] theorem State.crcFeed_cmode (b : Bytes) : (s.crcFeed b).cmode = s.cmode := by
  unfold State.crcFeed; split <;> rfl
@[simp] theorem State.crcFeed_level (b : Bytes) : (s.crcFeed b).level = s.level := by
  unfold State.crcFeed; split <;> rfl
@[simp] theorem State.crcFeed_leaveOpen (b : Bytes) : (s.crcFeed b).leaveOpen = s.leaveOpen := by
  unfold State.crcFeed; split <;> rfl
@[simp] theorem State.crcFeed_workbufSize (b : Bytes) : (s.crcFeed b).workbufSize = s.workbufSize := by
  unfold State.crcFeed; split <;> rfl
@[simp] theorem State.crcFeed_mtimeFixed (b : Bytes) : (s.crcFeed b).mtimeFixed = s.mtimeFixed := by
  unfold State.crcFeed; split <;> rfl
@[simp] theorem State.crcFeed_streamMode (b : Bytes) : (s.crcFeed b).streamMode = s.streamMode := by
  unfold State.crcFeed; split <;> rfl
@[simp] theorem State.crcFeed_disposed (b : Bytes) : (s.crcFeed b).disposed = s.disposed := by
  unfold State.crcFeed; split <;> rfl
@[simp] theorem State.crcFeed_engLive (b : Bytes) : (s.crcFeed b).engLive = s.engLive := by
  unfold State.crcFeed; split <;> rfl
@[simp] theorem State.crcFeed_wbLive (b : Bytes) : (s.crcFeed b).wbLive = s.wbLive := by
  unfold State.crcFeed; split <;> rfl
@[simp] theorem State.crcFeed_wbLen (b : Bytes) : (s.crcFeed b).wbLen = s.wbLen := by
  unfold State.crcFeed; split <;> rfl
@[simp] theorem State.crcFeed_work (b : Bytes) : (s.crcFeed b).work = s.work := by
  unfold State.crcFeed; split <;> rfl
@[simp] theorem State.crcFeed_inWin (b : Bytes) : (s.crcFeed b).inWin = s.inWin := by
  unfold State.crcFeed; split <;> rfl
@[simp] theorem State.crcFeed_inNext (b : Bytes) : (s.crcFeed b).inNext = s.inNext := by
  unfold State.crcFeed; split <;> rfl
@[simp] theorem State.crcFeed_inAvail (b : Bytes) : (s.crcFeed b).inAvail = s.inAvail := by
  unfold State.crcFeed; split <;> rfl
@[simp] theorem State.crcFeed_noMoreInput (b : Bytes) : (s.crcFeed b).noMoreInput = s.noMoreInput := by
  unfold State.crcFeed; split <;> rfl
@[simp] theorem State.crcFeed_engTotalOut (b : Bytes) : (s.crcFeed b).engTotalOut = s.engTotalOut := by
  unfold State.crcFeed; split <;> rfl
@[simp] theorem State.crcFeed_hdrState (b : Bytes) : (s.crcFeed b).hdrState = s.hdrState := by
  unfold State.crcFeed; split <;> rfl
@[simp] theorem State.crcFeed_hdrBytes (b : Bytes) : (s.crcFeed b).hdrBytes = s.hdrBytes := by
  unfold State.crcFeed; split <;> rfl
@[simp] theorem State.crcFeed_hdrMtime (b : Bytes) : (s.crcFeed b).hdrMtime = s.hdrMtime := by
  unfold State.crcFeed; split <;> rfl
@[simp] theorem State.crcFeed_hdrFlg (b : Bytes) : (s.crcFeed b).hdrFlg = s.hdrFlg := by
  unfold State.crcFeed; split <;> rfl
@[simp] theorem State.crcFeed_hdrFname (b : Bytes) : (s.crcFeed b).hdrFname = s.hdrFname := by
  unfold State.crcFeed; split <;> rfl
@[simp] theorem State.crcFeed_hdrComment (b : Bytes) : (s.crcFeed b).hdrComment = s.hdrComment := by
  unfold State.crcFeed; split <;> rfl
@[simp] theorem State.crcFeed_crcLive (b : Bytes) : (s.crcFeed b).crcLive = s.crcLive := by
  unfold State.crcFeed; split <;> rfl
@[simp] theorem State.crcFeed_caller (b : Bytes) : (s.crcFeed b).caller = s.caller := by
  unfold State.crcFeed; split <;> rfl
@[simp] theorem State.crcFeed_commands (b : Bytes) : (s.crcFeed b).commands = s.commands := by
  unfold State.crcFeed; split <;> rfl
@[simp] theorem State.crcFeed_responses (b : Bytes) : (s.crcFeed b).responses = s.responses := by
  unfold State.crcFeed; split <;> rfl
@[simp] theorem State.crcFeed_trace (b : Bytes) : (s.crcFeed b).trace = s.trace := by
  unfold State.crcFeed; split <;> rfl
@[simp] theorem State.crcFeed_inFlight (b : Bytes) : (s.crcFeed b).inFlight = s.inFlight := by
  unfold State.crcFeed; split <;> rfl
@[simp] theorem State.crcFeed_ports (b : Bytes) : (s.crcFeed b).ports = s.ports := by
  unfold State.crcFeed; split <;> rfl
@[simp] theorem State.crcFeed_draws (b : Bytes) : (s.crcFeed b).draws = s.draws := by
  unfold State.crcFeed; split <;> rfl

end Sys2Proof.Machine
end

