-- ==== Sys2Proof/Laws/Ops.lean ====
section
/-! SUPPORT. For each shared operation over the ports, one rule that says once everything it can do: its normal ends,
its errors, and what stops it (`halt`: a collaborator that never answers, an answer out of bounds), each with the state
it leaves. -/

namespace Sys2Proof.Machine

variable {α : Type} {X : Exit → State → Prop} {s : State}

theorem chRead_wp {Q : Bytes → State → Prop} (n : Nat) (halt : Act.Halts X .chRead s)
    (got : ∀ b p d, b.length ≤ n → Q b (s.exchanged p d (.chRead n (.ok b))))
    (failed : ∀ e p d, X (.raise (.chFail e)) (s.exchanged p d (.chRead n (.fail e)))) :
    Act.wp (chRead n) Q X s := by
  unfold chRead
  rw [Act.wp_bind]
  refine askRead_wp n halt fun a p d fits => ?_
  cases a with
  | ok b => exact got b p d (by simpa [readFits] using fits)
  | fail e => exact failed e p d

theorem chWrite_wp {Q : Unit → State → Prop} (b : Bytes) (halt : Act.Halts X .chWrite s)
    (wrote : ∀ p d, Q () (s.exchanged p d (.chWrite b .ok)))
    (failed : ∀ e kept p d, kept ≤ b.length → X (.raise (.chFail e)) (s.exchanged p d (.chWrite b (.fail e kept)))) :
    Act.wp (chWrite b) Q X s := by
  unfold chWrite
  rw [Act.wp_bind]
  refine askWrite_wp b halt fun a p d fits => ?_
  cases a with
  | ok => exact wrote p d
  | fail e kept => exact failed e kept p d (by simpa [writeFits] using fits)

theorem chFlush_wp {Q : Unit → State → Prop} (halt : Act.Halts X .chFlush s)
    (flushed : ∀ p d, Q () (s.exchanged p d (.chFlush (.ok ()))))
    (failed : ∀ e p d, X (.raise (.chFail e)) (s.exchanged p d (.chFlush (.fail e)))) :
    Act.wp chFlush Q X s := by
  unfold chFlush
  rw [Act.wp_bind]
  refine askFlush_wp halt fun a p d => ?_
  cases a with
  | ok b => exact flushed p d
  | fail e => exact failed e p d

/-- An engine step: one transaction on the available input, then the window update (10_state.md R62). -/
theorem engStep_wp {Q : StepAnswer → State → Prop} (flush : FlushType) (cap : Nat) (halt : Act.Halts X .engStep s)
    (stepped : ∀ a p d, stepFits s.window cap a = true →
      Q a ((s.exchanged p d (.engStep flush s.cmode s.window cap a)).afterStep a)) :
    Act.wp (engStep flush cap) Q X s := by
  unfold engStep
  rw [Act.wp_bind, Act.wp_getState, Act.wp_bind]
  exact askStep_wp flush s.cmode s.window cap halt fun a p d fits => stepped a p d fits

/-- EngInit: the engine is live, or INIT_FAIL (41_write.md R204, decision D21). -/
theorem startEngine_wp {Q : Unit → State → Prop} (halt : Act.Halts X .engInit s)
    (started : ∀ u p d, Q () ((s.exchanged p d (.engInit s.cmode s.initLevel s.wantHeader (.ok u))).setEngLive true))
    (failed : ∀ msg p d, X (.raise (.initFail msg))
      (s.exchanged p d (.engInit s.cmode s.initLevel s.wantHeader (.fail msg)))) :
    Act.wp startEngine Q X s := by
  unfold startEngine
  rw [Act.wp_bind, Act.wp_getState, Act.wp_bind]
  refine askInit_wp _ _ _ halt fun a p d => ?_
  cases a with
  | ok u => exact started u p d
  | fail msg => exact failed msg p d

/-- PoolLease: WORK is the whole lease (R204). -/
theorem leaseBuffer_wp {Q : Unit → State → Prop} (halt : Act.Halts X .poolLease s)
    (leased : ∀ b p d, s.workbufSize ≤ b.length → Q () ((s.exchanged p d (.poolLease s.workbufSize b)).leased b)) :
    Act.wp leaseBuffer Q X s := by
  unfold leaseBuffer
  rw [Act.wp_bind, Act.wp_getState, Act.wp_bind]
  exact poolLease_wp _ halt fun b p d fits => leased b p d (by simpa [leaseFits] using fits)

/-- Materialise, an engine and a buffer both live or both not (10_state.md R48): nothing to do, or both are taken, or
INIT_FAIL with neither; or the command is stuck before the one or between the two. -/
theorem materialise_wp {Q : Unit → State → Prop} (haltInit : s.engLive = false → Act.Halts X .engInit s)
    (haltLease : ∀ u p d, s.engLive = false → Act.Halts X .poolLease
      ((s.exchanged p d (.engInit s.cmode s.initLevel s.wantHeader (.ok u))).setEngLive true))
    (together : s.engLive = s.wbLive)
    (live : s.engLive = true → Q () s)
    (taken : ∀ u b p d p' d', s.engLive = false → s.workbufSize ≤ b.length →
      Q () ((((s.exchanged p d (.engInit s.cmode s.initLevel s.wantHeader (.ok u))).setEngLive true).exchanged p' d'
        (.poolLease s.workbufSize b)).leased b))
    (failed : ∀ msg p d, s.engLive = false → X (.raise (.initFail msg))
      (s.exchanged p d (.engInit s.cmode s.initLevel s.wantHeader (.fail msg)))) :
    Act.wp materialise Q X s := by
  unfold materialise
  rw [Act.wp_bind, Act.wp_getState, Act.wp_bind, Act.wp_onlyIf]
  refine ⟨fun off => ?_, fun on => ?_⟩
  · refine startEngine_wp (haltInit off) (fun u p d => ?_) (fun msg p d => failed msg p d off)
    rw [Act.wp_bind, Act.wp_getState, Act.wp_onlyIf]
    refine ⟨fun _ => ?_, fun h => absurd (by simpa [← together] using off) h⟩
    exact leaseBuffer_wp (haltLease u p d off) fun b p' d' long => taken u b p d p' d' off long
  · rw [Act.wp_bind, Act.wp_getState, Act.wp_onlyIf]
    have lit : s.engLive = true := by simpa using on
    refine ⟨fun h => absurd h (by simp [← together, lit]), fun _ => live lit⟩

/-- One push step (41_write.md R205, R208): a failure status, a quiet step, or bytes written to the channel or not; or the command
is stuck on the one transaction or the other. -/
theorem pushStep_wp {Q : StepAnswer → State → Prop} (flush : FlushType) (haltStep : Act.Halts X .engStep s)
    (haltWrite : ∀ a p d, stepFits s.window s.wbLen a = true → a.status.isFailure = false → a.produced ≠ [] →
      Act.Halts X .chWrite (((s.exchanged p d (.engStep flush s.cmode s.window s.wbLen a)).afterStep a).setWork
        (memWrite s.work 0 a.produced)))
    (failed : ∀ a p d, stepFits s.window s.wbLen a = true → a.status.isFailure = true →
      X (.raise (.engineFail a.status))
        (((s.exchanged p d (.engStep flush s.cmode s.window s.wbLen a)).afterStep a).setWork
          (memWrite s.work 0 a.produced)))
    (quiet : ∀ a p d, stepFits s.window s.wbLen a = true → a.status.isFailure = false → a.produced = [] →
      Q a (((s.exchanged p d (.engStep flush s.cmode s.window s.wbLen a)).afterStep a).setWork s.work))
    (wrote : ∀ a p d p' d', stepFits s.window s.wbLen a = true → a.status.isFailure = false → a.produced ≠ [] →
      Q a ((((s.exchanged p d (.engStep flush s.cmode s.window s.wbLen a)).afterStep a).setWork
        (memWrite s.work 0 a.produced)).exchanged p' d' (.chWrite a.produced .ok)))
    (unwritten : ∀ a p d p' d' e kept, stepFits s.window s.wbLen a = true → a.status.isFailure = false →
      a.produced ≠ [] → kept ≤ a.produced.length →
      X (.raise (.chFail e)) ((((s.exchanged p d (.engStep flush s.cmode s.window s.wbLen a)).afterStep a).setWork
        (memWrite s.work 0 a.produced)).exchanged p' d' (.chWrite a.produced (.fail e kept)))) :
    Act.wp (pushStep flush) Q X s := by
  unfold pushStep
  rw [Act.wp_bind, Act.wp_getState, Act.wp_bind]
  refine engStep_wp flush _ haltStep fun a p d fits => ?_
  rw [Act.wp_bind, Act.wp_update, Act.wp_ite]
  refine ⟨fun bad => failed a p d fits bad, fun good => ?_⟩
  have good : a.status.isFailure = false := by simpa using good
  rw [Act.wp_bind, Act.wp_getState, Act.wp_bind, Act.wp_onlyIf]
  refine ⟨fun some => ?_, fun none => ?_⟩
  · have some : a.produced ≠ [] := List.ne_nil_of_length_pos some
    simp only [State.setWork_work, State.afterStep_work, State.exchanged_work, memRead_memWrite_zero]
    exact chWrite_wp _ (haltWrite a p d fits good some) (fun p' d' => wrote a p d p' d' fits good some)
      (fun e kept p' d' short => unwritten a p d p' d' e kept fits good some short)
  · have none : a.produced = [] := by simpa using none
    have := quiet a p d fits good none
    simpa [none] using this

/-- The chunk pull (42_read.md R225). -/
theorem pullChunk_wp {Q : Unit → State → Prop} (halt : Act.Halts X .chRead s)
    (got : ∀ k p d, k.length ≤ s.wbLen → Q () ((s.exchanged p d (.chRead s.wbLen (.ok k))).pulled k))
    (failed : ∀ e p d, X (.raise (.chFail e)) (s.exchanged p d (.chRead s.wbLen (.fail e)))) :
    Act.wp pullChunk Q X s := by
  unfold pullChunk
  rw [Act.wp_bind, Act.wp_getState, Act.wp_bind]
  exact chRead_wp _ halt (fun k p d short => got k p d short) (fun e p d => failed e p d)

/-- A pull step (R226, R228): the engine's bytes land in the caller's buffer at offset `|w|`. -/
theorem pullStep_wp {Q : StepAnswer → State → Prop} (flush : FlushType) (room : Nat) (w : Bytes)
    (halt : Act.Halts X .engStep s)
    (pulled : ∀ a p d, stepFits s.window room a = true →
      Q a (((s.exchanged p d (.engStep flush s.cmode s.window room a)).afterStep a).setCaller
        (memWrite s.caller w.length a.produced))) :
    Act.wp (pullStep flush room w) Q X s := by
  unfold pullStep
  rw [Act.wp_bind]
  exact engStep_wp flush room halt fun a p d fits => pulled a p d fits

/-- The bounds of an engine answer, as inequalities (10_state.md R62). -/
theorem stepFits_iff (input : Bytes) (cap : Nat) (a : StepAnswer) :
    stepFits input cap a = true ↔ a.consumed ≤ input.length ∧ a.produced.length ≤ cap := by
  simp [stepFits]

/-- A status that is no failure is OK or STREAM_END (41_write.md R208). -/
theorem isFailure_false_iff (rc : EngStatus) : rc.isFailure = false ↔ rc = .ok ∨ rc = .streamEnd := by
  cases rc <;> simp [EngStatus.isFailure]

end Sys2Proof.Machine
end

