-- ==== Sys2Proof/Laws/Control.lean ====
section
/-! SUPPORT. CLOSE's teardown, once (43_control.md R249, R252): what every path of it does to the state and to the
record, and that it always answers. -/

namespace Sys2Proof.Machine

variable {X : Exit → State → Prop} {s : State}

/-- Teardown step 1. -/
theorem endEngine_wp {Q : Unit → State → Prop} (halt : Act.Halts X .engEnd s)
    (ended : ∀ p d, Q () ((s.exchanged p d (.engEnd s.cmode)).setEngLive false)) : Act.wp endEngine Q X s := by
  unfold endEngine
  rw [Act.wp_bind, Act.wp_getState, Act.wp_bind]
  exact engEnd_wp _ halt fun p d => ended p d

/-- Teardown step 2. -/
theorem releaseBuffer_wp {Q : Unit → State → Prop} (halt : Act.Halts X .poolRelease s)
    (freed : ∀ p d, Q () ((s.exchanged p d .poolRelease).released)) : Act.wp releaseBuffer Q X s := by
  unfold releaseBuffer
  rw [Act.wp_bind]
  exact poolRelease_wp halt fun p d => freed p d

/-- Teardown step 3. -/
theorem closeChannel_wp {Q : Option Error → State → Prop} (halt : s.leaveOpen = false → Act.Halts X .chClose s)
    (left : s.leaveOpen = true → Q none s)
    (closed : ∀ a p d, s.leaveOpen = false → Q a.error? (s.exchanged p d (.chClose a))) :
    Act.wp closeChannel Q X s := by
  unfold closeChannel
  rw [Act.wp_bind, Act.wp_getState, Act.wp_ite]
  refine ⟨left, fun shut => ?_⟩
  rw [Act.wp_bind]
  exact askClose_wp (halt (by simpa using shut)) fun a p d => closed a p d (by simpa using shut)

/-- The state once a live engine and its buffer have been given back. -/
def State.tornDown (s : State) (p p' : Ports) (d d' : Nat) : State :=
  (((s.exchanged p d (.engEnd s.cmode)).setEngLive false).exchanged p' d' .poolRelease).released

section
variable (s : State) (p p' : Ports) (d d' : Nat)

@[simp] theorem State.tornDown_plat : (s.tornDown p p' d d').plat = s.plat := rfl
@[simp] theorem State.tornDown_flavor : (s.tornDown p p' d d').flavor = s.flavor := rfl
@[simp] theorem State.tornDown_cmode : (s.tornDown p p' d d').cmode = s.cmode := rfl
@[simp] theorem State.tornDown_level : (s.tornDown p p' d d').level = s.level := rfl
@[simp] theorem State.tornDown_leaveOpen : (s.tornDown p p' d d').leaveOpen = s.leaveOpen := rfl
@[simp] theorem State.tornDown_workbufSize : (s.tornDown p p' d d').workbufSize = s.workbufSize := rfl
@[simp] theorem State.tornDown_mtimeFixed : (s.tornDown p p' d d').mtimeFixed = s.mtimeFixed := rfl
@[simp] theorem State.tornDown_streamMode : (s.tornDown p p' d d').streamMode = s.streamMode := rfl
@[simp] theorem State.tornDown_disposed : (s.tornDown p p' d d').disposed = s.disposed := rfl
@[simp] theorem State.tornDown_engLive : (s.tornDown p p' d d').engLive = false := rfl
@[simp] theorem State.tornDown_wbLive : (s.tornDown p p' d d').wbLive = false := rfl
@[simp] theorem State.tornDown_wbLen : (s.tornDown p p' d d').wbLen = s.wbLen := rfl
@[simp] theorem State.tornDown_work : (s.tornDown p p' d d').work = [] := rfl
@[simp] theorem State.tornDown_inWin : (s.tornDown p p' d d').inWin = s.inWin := rfl
@[simp] theorem State.tornDown_inNext : (s.tornDown p p' d d').inNext = s.inNext := rfl
@[simp] theorem State.tornDown_inAvail : (s.tornDown p p' d d').inAvail = s.inAvail := rfl
@[simp] theorem State.tornDown_noMoreInput : (s.tornDown p p' d d').noMoreInput = s.noMoreInput := rfl
@[simp] theorem State.tornDown_engTotalOut : (s.tornDown p p' d d').engTotalOut = s.engTotalOut := rfl
@[simp] theorem State.tornDown_hdrState : (s.tornDown p p' d d').hdrState = s.hdrState := rfl
@[simp] theorem State.tornDown_hdrBytes : (s.tornDown p p' d d').hdrBytes = s.hdrBytes := rfl
@[simp] theorem State.tornDown_hdrMtime : (s.tornDown p p' d d').hdrMtime = s.hdrMtime := rfl
@[simp] theorem State.tornDown_hdrFlg : (s.tornDown p p' d d').hdrFlg = s.hdrFlg := rfl
@[simp] theorem State.tornDown_hdrFname : (s.tornDown p p' d d').hdrFname = s.hdrFname := rfl
@[simp] theorem State.tornDown_hdrComment : (s.tornDown p p' d d').hdrComment = s.hdrComment := rfl
@[simp] theorem State.tornDown_crcLive : (s.tornDown p p' d d').crcLive = s.crcLive := rfl
@[simp] theorem State.tornDown_crcReg : (s.tornDown p p' d d').crcReg = s.crcReg := rfl
@[simp] theorem State.tornDown_crcCount : (s.tornDown p p' d d').crcCount = s.crcCount := rfl
@[simp] theorem State.tornDown_caller : (s.tornDown p p' d d').caller = s.caller := rfl
@[simp] theorem State.tornDown_commands : (s.tornDown p p' d d').commands = s.commands := rfl
@[simp] theorem State.tornDown_responses : (s.tornDown p p' d d').responses = s.responses := rfl
@[simp] theorem State.tornDown_trace : (s.tornDown p p' d d').trace = s.trace ++ [.engEnd s.cmode, .poolRelease] := by
  simp [State.tornDown]
@[simp] theorem State.tornDown_inFlight : (s.tornDown p p' d d').inFlight = s.inFlight := rfl
@[simp] theorem State.tornDown_ports : (s.tornDown p p' d d').ports = p' := rfl
@[simp] theorem State.tornDown_draws : (s.tornDown p p' d d').draws = d' := rfl

end

/-- Teardown from a state `s'` with nothing live: the channel is closed unless LEAVE_OPEN, and the first error is
answered; or the command is stuck on ChClose. -/
def Act.Torn (Q : Response → State → Prop) (X : Exit → State → Prop) (err : Option Error) (s' : State) : Prop :=
  (s'.leaveOpen = false → Act.Halts X .chClose s') ∧
  (s'.leaveOpen = true → Q (closeResponse err) s'.setDisposed) ∧
  (∀ a p d, s'.leaveOpen = false →
    Q (closeResponse (err.or a.error?)) (s'.exchanged p d (.chClose a)).setDisposed)

/-- Teardown, an engine and a buffer both live or both not (10_state.md R48); the command may be stuck on each step. -/
theorem teardown_wp {Q : Response → State → Prop} (err : Option Error)
    (haltEnd : s.engLive = true → Act.Halts X .engEnd s)
    (haltRelease : s.engLive = true → ∀ p d,
      Act.Halts X .poolRelease ((s.exchanged p d (.engEnd s.cmode)).setEngLive false))
    (together : s.engLive = s.wbLive) (live : s.engLive = true → ∀ p p' d d', Act.Torn Q X err (s.tornDown p p' d d'))
    (idle : s.engLive = false → Act.Torn Q X err s) : Act.wp (teardown err) Q X s := by
  have rest : ∀ s' : State, Act.Torn Q X err s' → Act.wp (closeChannel >>= fun e => do
      update (·.setDisposed)
      pure (closeResponse (err.or e))) Q X s' := by
    intro s' h
    rw [Act.wp_bind]
    refine closeChannel_wp h.1 (fun left => ?_) fun a p d shut => ?_
    · rw [Act.wp_bind, Act.wp_update, Act.wp_pure]
      simpa using h.2.1 left
    · rw [Act.wp_bind, Act.wp_update, Act.wp_pure]
      exact h.2.2 a p d shut
  unfold teardown
  rw [Act.wp_bind, Act.wp_getState, Act.wp_bind, Act.wp_onlyIf]
  refine ⟨fun lit => ?_, fun unlit => ?_⟩
  · refine endEngine_wp (haltEnd lit) fun p d => ?_
    rw [Act.wp_bind, Act.wp_getState, Act.wp_bind, Act.wp_onlyIf]
    refine ⟨fun _ => ?_, fun h => absurd (together.symm.trans lit) h⟩
    exact releaseBuffer_wp (haltRelease lit p d) fun p' d' => rest _ (live lit p p' d d')
  · have unlit : s.engLive = false := by simpa using unlit
    rw [Act.wp_bind, Act.wp_getState, Act.wp_bind, Act.wp_onlyIf]
    refine ⟨fun h => absurd h (by simp [← together, unlit]), fun _ => rest _ (idle unlit)⟩

end Sys2Proof.Machine
end

