-- ==== Sys2Proof/Laws/Decode.lean ====
section
/-! SUPPORT. The fields of a command word built from fields, and back (30_encoding.md R140). -/

namespace Sys2Proof

/-- The bits of a word built from its fields. -/
theorem wordOf_getLsbD (len : U32) (sel opc : Byte) (i : Nat) :
    (wordOf len sel opc).getLsbD i =
      if i < 8 then opc.getLsbD i else if i < 16 then sel.getLsbD (i - 8) else if i < 32 then false
        else len.getLsbD (i - 32) := by
  change BitVec.getLsbD (w := 32 + 16 + 8 + 8) (len ++ (0 : BitVec 16) ++ sel ++ opc) i = _
  rw [BitVec.getLsbD_append, BitVec.getLsbD_append, BitVec.getLsbD_append]
  split_ifs <;> first | rfl | omega | simp [Nat.sub_sub]

@[simp] theorem opcOf_wordOf (len : U32) (sel opc : Byte) : opcOf (wordOf len sel opc) = opc := by
  refine BitVec.eq_of_getLsbD_eq fun i hi => ?_
  simp [opcOf, wordOf_getLsbD, hi]

@[simp] theorem selOf_wordOf (len : U32) (sel opc : Byte) : selOf (wordOf len sel opc) = sel := by
  refine BitVec.eq_of_getLsbD_eq fun i hi => ?_
  rw [selOf, BitVec.getLsbD_extractLsb', wordOf_getLsbD, if_neg (by omega), if_pos (by omega)]
  simp [hi]

@[simp] theorem rsvOf_wordOf (len : U32) (sel opc : Byte) : rsvOf (wordOf len sel opc) = 0 := by
  refine BitVec.eq_of_getLsbD_eq fun i hi => ?_
  rw [rsvOf, BitVec.getLsbD_extractLsb', wordOf_getLsbD, if_neg (by omega), if_neg (by omega), if_pos (by omega)]
  simp

@[simp] theorem lenOf_wordOf (len : U32) (sel opc : Byte) : lenOf (wordOf len sel opc) = len := by
  refine BitVec.eq_of_getLsbD_eq fun i hi => ?_
  rw [lenOf, BitVec.getLsbD_extractLsb', wordOf_getLsbD, if_neg (by omega), if_neg (by omega), if_neg (by omega)]
  simp [hi]

/-- A word whose reserved field is 0 is built from its fields. -/
theorem wordOf_fields (w : U64) (h : rsvOf w = 0) : wordOf (lenOf w) (selOf w) (opcOf w) = w := by
  refine BitVec.eq_of_getLsbD_eq fun i hi => ?_
  rw [wordOf_getLsbD]
  have clear : (rsvOf w).getLsbD (i - 16) = false := by rw [h]; simp
  rw [rsvOf, BitVec.getLsbD_extractLsb'] at clear
  rw [opcOf, selOf, lenOf, BitVec.getLsbD_extractLsb', BitVec.getLsbD_extractLsb', BitVec.getLsbD_extractLsb']
  split_ifs with a b c
  · simp [a]
  · rw [decide_eq_true (by omega), Bool.true_and]; congr 1; omega
  · rw [decide_eq_true (by omega), Bool.true_and] at clear
    rw [← clear]; congr 1; omega
  · rw [decide_eq_true (by omega), Bool.true_and]; congr 1; omega

end Sys2Proof
end

