-- ==== Sys2Proof/Laws/Trace.lean ====
section
/-! SUPPORT. The transaction record: how each reading of it grows, and runs of channel reads. -/

namespace Sys2Proof.Machine

@[simp] theorem sunk_append (r q : List Txn) : sunk (r ++ q) = sunk r ++ sunk q := by simp [sunk]
@[simp] theorem drawn_append (r q : List Txn) : drawn (r ++ q) = drawn r ++ drawn q := by simp [drawn]
@[simp] theorem produced_append (r q : List Txn) : produced (r ++ q) = produced r ++ produced q := by simp [produced]
@[simp] theorem consumed_append (r q : List Txn) : consumed (r ++ q) = consumed r ++ consumed q := by simp [consumed]
@[simp] theorem sunk_nil : sunk [] = [] := rfl
@[simp] theorem drawn_nil : drawn [] = [] := rfl
@[simp] theorem produced_nil : produced [] = [] := rfl
@[simp] theorem consumed_nil : consumed [] = [] := rfl
@[simp] theorem sunk_cons (t : Txn) (r : List Txn) : sunk (t :: r) = t.sunk ++ sunk r := rfl
@[simp] theorem drawn_cons (t : Txn) (r : List Txn) : drawn (t :: r) = t.drawn ++ drawn r := rfl
@[simp] theorem produced_cons (t : Txn) (r : List Txn) : produced (t :: r) = t.produced ++ produced r := rfl
@[simp] theorem consumed_cons (t : Txn) (r : List Txn) : consumed (t :: r) = t.consumed ++ consumed r := rfl
@[simp] theorem returned_append (r q : List Response) : returned (r ++ q) = returned r ++ returned q := by
  simp [returned]
@[simp] theorem returned_nil : returned [] = [] := rfl
@[simp] theorem returned_cons (x : Response) (r : List Response) : returned (x :: r) = x.returned ++ returned r := rfl

/-- A run of channel reads that drew the bytes `b` between them. -/
structure ReadRun (ts : List Txn) (b : Bytes) : Prop where
  reads : ∀ t ∈ ts, ∃ n a, t = .chRead n a ∧ 1 ≤ n ∧ readFits n a = true
  bytes : drawn ts = b

theorem ReadRun.nil : ReadRun [] [] := ⟨by simp, rfl⟩

theorem ReadRun.append {ts us : List Txn} {b c : Bytes} (h : ReadRun ts b) (k : ReadRun us c) :
    ReadRun (ts ++ us) (b ++ c) :=
  ⟨fun t ht => (List.mem_append.1 ht).elim (h.reads t) (k.reads t), by rw [drawn_append, h.bytes, k.bytes]⟩

theorem ReadRun.got {n : Nat} {b : Bytes} (pos : 1 ≤ n) (short : b.length ≤ n) :
    ReadRun [.chRead n (.ok b)] b :=
  ⟨by simpa [readFits] using ⟨pos, short⟩, by simp [Txn.drawn]⟩

theorem ReadRun.failed {n : Nat} {e : Bytes} (pos : 1 ≤ n) : ReadRun [.chRead n (.fail e)] [] :=
  ⟨by simpa [readFits] using pos, by simp [Txn.drawn]⟩

theorem ReadRun.sunk {ts : List Txn} {b : Bytes} (h : ReadRun ts b) : sunk ts = [] := by
  simp only [Machine.sunk, List.flatMap_eq_nil_iff]
  intro t ht
  obtain ⟨n, a, rfl, -⟩ := h.reads t ht
  rfl

theorem ReadRun.produced {ts : List Txn} {b : Bytes} (h : ReadRun ts b) : produced ts = [] := by
  simp only [Machine.produced, List.flatMap_eq_nil_iff]
  intro t ht
  obtain ⟨n, a, rfl, -⟩ := h.reads t ht
  rfl

theorem ReadRun.sound {ts : List Txn} {b : Bytes} (h : ReadRun ts b) : ts.all Txn.sound = true := by
  simp only [List.all_eq_true]
  intro t ht
  obtain ⟨n, a, rfl, pos, fits⟩ := h.reads t ht
  simp [Txn.sound, pos, fits]

theorem ReadRun.anyEnd {ts : List Txn} {b : Bytes} (h : ReadRun ts b) : ts.any Txn.isEnd = false := by
  simp only [List.any_eq_false]
  intro t ht
  obtain ⟨n, a, rfl, -⟩ := h.reads t ht
  simp [Txn.isEnd]

/-- A run of channel reads holds none of the transactions counted elsewhere. -/
theorem ReadRun.countP {ts : List Txn} {b : Bytes} (h : ReadRun ts b) (f : Txn → Bool)
    (hf : ∀ n a, f (.chRead n a) = false) : ts.countP f = 0 := by
  rw [List.countP_eq_zero]
  intro t ht
  obtain ⟨n, a, rfl, -⟩ := h.reads t ht
  simp [hf]

/-- The state after a run of transactions. -/
def State.exchangedAll (s : State) (p : Ports) (d : Nat) (ts : List Txn) : State :=
  { s with ports := p, draws := d, trace := s.trace ++ ts }

theorem State.exchangedAll_nil (s : State) : s.exchangedAll s.ports s.draws [] = s := by
  simp [State.exchangedAll]

theorem State.exchangedAll_exchanged (s : State) (p p' : Ports) (d d' : Nat) (ts : List Txn) (t : Txn) :
    (s.exchangedAll p d ts).exchanged p' d' t = s.exchangedAll p' d' (ts ++ [t]) := by
  simp [State.exchangedAll, State.exchanged]

theorem State.exchangedAll_exchangedAll (s : State) (p p' : Ports) (d d' : Nat) (ts us : List Txn) :
    (s.exchangedAll p d ts).exchangedAll p' d' us = s.exchangedAll p' d' (ts ++ us) := by
  simp [State.exchangedAll]

/-- What can stop a command anywhere in a run of channel reads from `s`. -/
def Act.HaltsReading (X : Exit → State → Prop) (s : State) : Prop :=
  ∀ b p d ts, ReadRun ts b → Act.Halts X .chRead (s.exchangedAll p d ts)

/-- At the start of the run. -/
theorem Act.HaltsReading.here {X : Exit → State → Prop} {s : State} (h : Act.HaltsReading X s) :
    Act.Halts X .chRead s := by
  simpa [State.exchangedAll_nil] using h [] s.ports s.draws [] .nil

/-- And further on in it. -/
theorem Act.HaltsReading.after {X : Exit → State → Prop} {s : State} {b : Bytes} {ts : List Txn}
    (h : Act.HaltsReading X s) (p : Ports) (d : Nat) (run : ReadRun ts b) :
    Act.HaltsReading X (s.exchangedAll p d ts) := fun c p' d' us run' => by
  rw [State.exchangedAll_exchangedAll]
  exact h (b ++ c) p' d' _ (run.append run')

variable (s : State) (p : Ports) (d : Nat) (ts : List Txn)

@[simp] theorem State.exchangedAll_plat : (s.exchangedAll p d ts).plat = s.plat := rfl
@[simp] theorem State.exchangedAll_flavor : (s.exchangedAll p d ts).flavor = s.flavor := rfl
@[simp] theorem State.exchangedAll_cmode : (s.exchangedAll p d ts).cmode = s.cmode := rfl
@[simp] theorem State.exchangedAll_level : (s.exchangedAll p d ts).level = s.level := rfl
@[simp] theorem State.exchangedAll_leaveOpen : (s.exchangedAll p d ts).leaveOpen = s.leaveOpen := rfl
@[simp] theorem State.exchangedAll_workbufSize : (s.exchangedAll p d ts).workbufSize = s.workbufSize := rfl
@[simp] theorem State.exchangedAll_mtimeFixed : (s.exchangedAll p d ts).mtimeFixed = s.mtimeFixed := rfl
@[simp] theorem State.exchangedAll_streamMode : (s.exchangedAll p d ts).streamMode = s.streamMode := rfl
@[simp] theorem State.exchangedAll_disposed : (s.exchangedAll p d ts).disposed = s.disposed := rfl
@[simp] theorem State.exchangedAll_engLive : (s.exchangedAll p d ts).engLive = s.engLive := rfl
@[simp] theorem State.exchangedAll_wbLive : (s.exchangedAll p d ts).wbLive = s.wbLive := rfl
@[simp] theorem State.exchangedAll_wbLen : (s.exchangedAll p d ts).wbLen = s.wbLen := rfl
@[simp] theorem State.exchangedAll_work : (s.exchangedAll p d ts).work = s.work := rfl
@[simp] theorem State.exchangedAll_inWin : (s.exchangedAll p d ts).inWin = s.inWin := rfl
@[simp] theorem State.exchangedAll_inNext : (s.exchangedAll p d ts).inNext = s.inNext := rfl
@[simp] theorem State.exchangedAll_inAvail : (s.exchangedAll p d ts).inAvail = s.inAvail := rfl
@[simp] theorem State.exchangedAll_noMoreInput : (s.exchangedAll p d ts).noMoreInput = s.noMoreInput := rfl
@[simp] theorem State.exchangedAll_engTotalOut : (s.exchangedAll p d ts).engTotalOut = s.engTotalOut := rfl
@[simp] theorem State.exchangedAll_hdrState : (s.exchangedAll p d ts).hdrState = s.hdrState := rfl
@[simp] theorem State.exchangedAll_hdrBytes : (s.exchangedAll p d ts).hdrBytes = s.hdrBytes := rfl
@[simp] theorem State.exchangedAll_hdrMtime : (s.exchangedAll p d ts).hdrMtime = s.hdrMtime := rfl
@[simp] theorem State.exchangedAll_hdrFlg : (s.exchangedAll p d ts).hdrFlg = s.hdrFlg := rfl
@[simp] theorem State.exchangedAll_hdrFname : (s.exchangedAll p d ts).hdrFname = s.hdrFname := rfl
@[simp] theorem State.exchangedAll_hdrComment : (s.exchangedAll p d ts).hdrComment = s.hdrComment := rfl
@[simp] theorem State.exchangedAll_crcLive : (s.exchangedAll p d ts).crcLive = s.crcLive := rfl
@[simp] theorem State.exchangedAll_crcReg : (s.exchangedAll p d ts).crcReg = s.crcReg := rfl
@[simp] theorem State.exchangedAll_crcCount : (s.exchangedAll p d ts).crcCount = s.crcCount := rfl
@[simp] theorem State.exchangedAll_caller : (s.exchangedAll p d ts).caller = s.caller := rfl
@[simp] theorem State.exchangedAll_commands : (s.exchangedAll p d ts).commands = s.commands := rfl
@[simp] theorem State.exchangedAll_responses : (s.exchangedAll p d ts).responses = s.responses := rfl
@[simp] theorem State.exchangedAll_trace : (s.exchangedAll p d ts).trace = s.trace ++ ts := rfl
@[simp] theorem State.exchangedAll_inFlight : (s.exchangedAll p d ts).inFlight = s.inFlight := rfl
@[simp] theorem State.exchangedAll_ports : (s.exchangedAll p d ts).ports = p := rfl
@[simp] theorem State.exchangedAll_draws : (s.exchangedAll p d ts).draws = d := rfl

end Sys2Proof.Machine
end

