-- ==== Sys2Proof/Laws/Envelope.lean ====
section
/-! SUPPORT. For each part of the envelope codec, one rule that says everything it can do: a run of channel reads that
drew so many bytes, and the registers written (40_envelope.md). -/

namespace Sys2Proof.Machine

variable {X : Exit → State → Prop} {s : State}

/-- `readFill` from the bytes `b`: it fills up, or the channel ends first, or a read fails (R161). -/
theorem readFill_wp {Q : Bytes × Fill → State → Prop} (n : Nat) (rounds : Nat) :
    ∀ (b : Bytes) (s : State), b.length ≤ n → n ≤ b.length + rounds →
    Act.HaltsReading X s →
    (∀ c p d ts, ReadRun ts c → (b ++ c).length = n → Q (b ++ c, .ok) (s.exchangedAll p d ts)) →
    (∀ c p d ts, ReadRun ts c → (b ++ c).length < n → Q (b ++ c, .eof) (s.exchangedAll p d ts)) →
    (∀ e c p d ts, ReadRun ts c → (b ++ c).length < n → X (.raise (.chFail e)) (s.exchangedAll p d ts)) →
    Act.wp (readFill n rounds b) Q X s := by
  induction rounds with
  | zero =>
    intro b s le ge _ full _ _
    have := full [] s.ports s.draws [] .nil (by simp; omega)
    simpa [State.exchangedAll_nil, readFill] using this
  | succ k ih =>
    intro b s le ge halt full short failed
    rw [readFill, Act.wp_ite]
    refine ⟨fun lt => ?_, fun nlt => ?_⟩
    · rw [Act.wp_bind]
      refine chRead_wp _ halt.here (fun r p d len => ?_) (fun e p d => ?_)
      · rw [Act.wp_ite]
        have run : ReadRun [.chRead (n - b.length) (.ok r)] r := .got (by omega) len
        refine ⟨fun none => ?_, fun some => ?_⟩
        · have := short r p d _ run (by simpa [none] using lt)
          simpa [none, State.exchangedAll, State.exchanged] using this
        · have pos := List.length_pos_of_ne_nil some
          refine ih (b ++ r) (s.exchangedAll p d _) (by simp; omega) (by simp; omega) (halt.after p d run) ?_ ?_ ?_
          · intro c p' d' ts hts hlen
            have := full (r ++ c) p' d' _ (run.append hts) (by simpa [Nat.add_assoc] using hlen)
            simpa [State.exchangedAll, State.exchanged] using this
          · intro c p' d' ts hts hlen
            have := short (r ++ c) p' d' _ (run.append hts) (by simpa [Nat.add_assoc] using hlen)
            simpa [State.exchangedAll, State.exchanged] using this
          · intro e c p' d' ts hts hlen
            have := failed e (r ++ c) p' d' _ (run.append hts) (by simpa [Nat.add_assoc] using hlen)
            simpa [State.exchangedAll, State.exchanged] using this
      · have := failed e [] p d _ (.failed (n := n - b.length) (e := e) (by omega)) (by simpa using lt)
        simpa [State.exchangedAll, State.exchanged] using this
    · have := full [] s.ports s.draws [] .nil (by simp; omega)
      simpa [State.exchangedAll_nil] using this

/-- `ReadExact(n)`: `n` bytes, or an end of the channel before them, or a failure (R161). -/
theorem readExact_wp {Q : Bytes × Fill → State → Prop} (n : Nat) (halt : Act.HaltsReading X s)
    (full : ∀ b p d ts, ReadRun ts b → b.length = n → Q (b, .ok) (s.exchangedAll p d ts))
    (short : ∀ b p d ts, ReadRun ts b → b.length < n → Q (b, .eof) (s.exchangedAll p d ts))
    (failed : ∀ e b p d ts, ReadRun ts b → b.length < n → X (.raise (.chFail e)) (s.exchangedAll p d ts)) :
    Act.wp (readExact n) Q X s :=
  readFill_wp n n [] s (by simp) (by simp) halt (by simpa using full) (by simpa using short) (by simpa using failed)

/-- A field of `n` bytes: read whole, or EOF_IN_HEADER, or a channel failure (R165 to R168). -/
theorem readField_wp {Q : Bytes → State → Prop} (place : HdrField) (n : Nat) (halt : Act.HaltsReading X s)
    (full : ∀ b p d ts, ReadRun ts b → b.length = n → Q b (s.exchangedAll p d ts))
    (failed : ∀ e b p d ts, ReadRun ts b → (e = .eofInHeader place ∨ e.kind = .channel) →
      X (.raise e) (s.exchangedAll p d ts)) :
    Act.wp (readField place n) Q X s := by
  unfold readField
  rw [Act.wp_bind]
  refine readExact_wp n halt ?_ ?_ ?_
  · intro b p d ts run len
    simpa using full b p d ts run len
  · intro b p d ts run _
    simpa using failed _ b p d ts run (.inl rfl)
  · intro e b p d ts run _
    exact failed _ b p d ts run (.inr rfl)

/-- FEXTRA: all the bytes it answers for were drawn (R165). -/
theorem skipExtra_wp {Q : Nat → State → Prop}
    (halt : Act.HaltsReading X s)
    (done : ∀ b p d ts, ReadRun ts b → Q b.length (s.exchangedAll p d ts))
    (failed : ∀ e b p d ts, ReadRun ts b → (e.kind = .format ∨ e.kind = .channel) →
      X (.raise e) (s.exchangedAll p d ts)) :
    Act.wp skipExtra Q X s := by
  unfold skipExtra
  rw [Act.wp_bind]
  refine readField_wp _ _ halt (fun b p d ts run len => ?_) fun e b p d ts run h => ?_
  · rw [Act.wp_bind]
    refine readField_wp _ _ (halt.after p d run) (fun c p' d' us run' len' => ?_) fun e c p' d' us run' h => ?_
    · have := done _ p' d' _ (run.append run')
      simpa [State.exchangedAll_exchangedAll, len, len'] using this
    · rw [State.exchangedAll_exchangedAll]
      exact failed e _ p' d' _ (run.append run') (h.imp (fun h => by rw [h]; rfl) id)
  · exact failed e b p d ts run (h.imp (fun h => by rw [h]; rfl) id)

/-- HDR_PARSE up to the FNAME field: an empty channel (R162), or the fixed header and FEXTRA with every byte drawn
counted in `total`, or an error that changes no register (R160, R163, R165). -/
theorem hdrOpen_wp {Q : Option HdrFields → State → Prop}
    (halt : Act.HaltsReading X s)
    (empty : ∀ p d ts, ReadRun ts [] → Q none ((s.exchangedAll p d ts).hdrEmpty))
    (opened : ∀ h b p d ts, ReadRun ts b → b.length = h.total → 10 ≤ h.total → h.name = none → h.comment = none →
      Q (some h) (s.exchangedAll p d ts))
    (failed : ∀ e b p d ts, ReadRun ts b → (e.kind = .format ∨ e.kind = .channel) →
      X (.raise e) (s.exchangedAll p d ts)) :
    Act.wp hdrOpen Q X s := by
  unfold hdrOpen
  rw [Act.wp_bind]
  have rest : ∀ b p d ts, ReadRun ts b → b.length ≤ 10 → Act.wp (hdrFixed b) Q X (s.exchangedAll p d ts) := by
    intro b p d ts run len
    rw [hdrFixed, Act.wp_ite]
    refine ⟨fun none => ?_, fun some => ?_⟩
    · subst none
      exact empty p d ts run
    rw [Act.wp_ite]
    refine ⟨fun _ => failed _ b p d ts run (.inl rfl), fun ge => ?_⟩
    have ten : b.length = 10 := by omega
    rw [Act.wp_bind]
    unfold checkFixed
    rw [Act.wp_ite]
    refine ⟨fun _ => failed _ b p d ts run (.inl rfl), fun _ => ?_⟩
    rw [Act.wp_ite]
    refine ⟨fun _ => failed _ b p d ts run (.inl rfl), fun _ => ?_⟩
    rw [Act.wp_pure, Act.wp_ite]
    refine ⟨fun _ => ?_, fun _ => ?_⟩
    · rw [Act.wp_bind]
      refine skipExtra_wp (halt.after p d run) (fun c p' d' us run' => ?_) fun e c p' d' us run' h => ?_
      · rw [Act.wp_pure, State.exchangedAll_exchangedAll]
        exact opened _ _ p' d' _ (run.append run') (by simp [ten, fixedFields]) (by simp [fixedFields]) rfl rfl
      · rw [State.exchangedAll_exchangedAll]
        exact failed e _ p' d' _ (run.append run') h
    · exact opened _ _ p d _ run (by simp [ten, fixedFields]) (by simp [fixedFields]) rfl rfl
  refine readExact_wp 10 halt (fun b p d ts run len => rest b p d ts run (by omega))
    (fun b p d ts run len => rest b p d ts run (by omega)) fun e b p d ts run _ => failed _ b p d ts run (.inr rfl)

/-- A string read on from `acc`: whole, its terminator drawn too; or the step ends inside it; or an error (R161). -/
theorem zstring_wp {Q : Bytes → State → Prop} (place : HdrField) (at_ : Bytes → InFlight) (more : Nat) (acc : Bytes)
    (halt : Act.HaltsReading X s)
    (whole : ∀ str b p d ts, ReadRun ts b → str.length + 1 = acc.length + b.length → Q str (s.exchangedAll p d ts))
    (inside : ∀ str b p d ts, ReadRun ts b → str.length = acc.length + b.length →
      X (.pause (at_ str)) (s.exchangedAll p d ts))
    (failed : ∀ e b p d ts, ReadRun ts b → (e = .eofInHeader place ∨ e.kind = .channel) →
      X (.raise e) (s.exchangedAll p d ts)) :
    Act.wp (iterate (zstringRound place) at_ more acc) Q X s := by
  refine Act.wp_iterate (fun str s' => ∃ b p d ts, ReadRun ts b ∧ str.length = acc.length + b.length ∧
    s' = s.exchangedAll p d ts) ?_ ?_ more acc ⟨[], s.ports, s.draws, [], .nil, by simp, s.exchangedAll_nil.symm⟩
  · rintro str _ ⟨b, p, d, ts, run, len, rfl⟩
    unfold zstringRound
    rw [Act.wp_bind]
    refine readField_wp place 1 (halt.after p d run) (fun c p' d' us run' one => ?_) fun e c p' d' us run' h => ?_
    · rw [Act.wp_ite, State.exchangedAll_exchangedAll]
      refine ⟨fun _ => ?_, fun _ => ?_⟩
      · exact whole str _ p' d' _ (run.append run') (by simp; omega)
      · exact ⟨_, p', d', _, run.append run', by simp; omega, rfl⟩
    · rw [State.exchangedAll_exchangedAll]
      exact failed e _ p' d' _ (run.append run') h
  · rintro str _ ⟨b, p, d, ts, run, len, rfl⟩
    exact inside str b p d ts run len

/-- `ReadZString(FNAME)` on from `acc` (R166). -/
theorem readName_wp {Q : HdrFields → State → Prop} (len : Nat) (h : HdrFields) (acc : Bytes)
    (halt : Act.HaltsReading X s)
    (whole : ∀ str b p d ts, ReadRun ts b → str.length + 1 = acc.length + b.length →
      Q { h with name := some str, total := h.total + str.length + 1 } (s.exchangedAll p d ts))
    (inside : ∀ str b p d ts, ReadRun ts b → str.length = acc.length + b.length →
      X (.pause (.nameLoop len h str)) (s.exchangedAll p d ts))
    (failed : ∀ e b p d ts, ReadRun ts b → (e.kind = .format ∨ e.kind = .channel) →
      X (.raise e) (s.exchangedAll p d ts)) :
    Act.wp (readName len h acc) Q X s := by
  unfold readName
  rw [Act.wp_bind, Act.wp_getState, Act.wp_bind]
  exact zstring_wp _ _ _ _ halt whole inside fun e b p d ts run h =>
    failed e b p d ts run (h.imp (fun h => by rw [h]; rfl) id)

/-- `ReadZString(FCOMMENT)` on from `acc` (R167). -/
theorem readComment_wp {Q : HdrFields → State → Prop} (len : Nat) (h : HdrFields) (acc : Bytes)
    (halt : Act.HaltsReading X s)
    (whole : ∀ str b p d ts, ReadRun ts b → str.length + 1 = acc.length + b.length →
      Q { h with comment := some str, total := h.total + str.length + 1 } (s.exchangedAll p d ts))
    (inside : ∀ str b p d ts, ReadRun ts b → str.length = acc.length + b.length →
      X (.pause (.commentLoop len h str)) (s.exchangedAll p d ts))
    (failed : ∀ e b p d ts, ReadRun ts b → (e.kind = .format ∨ e.kind = .channel) →
      X (.raise e) (s.exchangedAll p d ts)) :
    Act.wp (readComment len h acc) Q X s := by
  unfold readComment
  rw [Act.wp_bind, Act.wp_getState, Act.wp_bind]
  exact zstring_wp _ _ _ _ halt whole inside fun e b p d ts run h =>
    failed e b p d ts run (h.imp (fun h => by rw [h]; rfl) id)

/-- FHCRC and the registers (R168, R169): the two bytes, where they stand, are counted. -/
theorem hdrClose_wp {Q : Unit → State → Prop} (h : HdrFields)
    (halt : Act.HaltsReading X s)
    (parsed : ∀ b p d ts, ReadRun ts b →
      Q () ((s.exchangedAll p d ts).hdrParsed { h with total := h.total + b.length }))
    (failed : ∀ e b p d ts, ReadRun ts b → (e.kind = .format ∨ e.kind = .channel) →
      X (.raise e) (s.exchangedAll p d ts)) :
    Act.wp (hdrClose h) Q X s := by
  unfold hdrClose
  rw [Act.wp_ite]
  refine ⟨fun _ => ?_, fun _ => ?_⟩
  · rw [Act.wp_bind]
    refine readField_wp _ 2 halt (fun b p d ts run two => ?_) fun e b p d ts run h =>
      failed e b p d ts run (h.imp (fun h => by rw [h]; rfl) id)
    have := parsed b p d ts run
    rwa [two] at this
  · have := parsed [] s.ports s.draws [] .nil
    simpa [State.exchangedAll_nil] using this

/-- HDR_EMIT with a fixed timestamp, or with the clock's (R170, R171). -/
theorem hdrEmit_wp {Q : Unit → State → Prop} (haltWrite : ∀ m, s.mtimeFixed = some m → Act.Halts X .chWrite s)
    (haltClock : s.mtimeFixed = none → Act.Halts X .clock s)
    (haltTimed : ∀ t p d, s.mtimeFixed = none → Act.Halts X .chWrite (s.exchanged p d (.clock t)))
    (fixed : ∀ m p d, s.mtimeFixed = some m →
      Q () ((s.exchanged p d (.chWrite (headerBytes s.plat m) .ok)).hdrEmitted m))
    (fixedFailed : ∀ m e kept p d, s.mtimeFixed = some m → kept ≤ (headerBytes s.plat m).length →
      X (.raise (.chFail e)) (s.exchanged p d (.chWrite (headerBytes s.plat m) (.fail e kept))))
    (timed : ∀ t p d p' d', s.mtimeFixed = none →
      Q () (((s.exchanged p d (.clock t)).exchanged p' d' (.chWrite (headerBytes s.plat (BitVec.ofInt 32 t)) .ok)).hdrEmitted
        (BitVec.ofInt 32 t)))
    (timedFailed : ∀ t e kept p d p' d', s.mtimeFixed = none →
      kept ≤ (headerBytes s.plat (BitVec.ofInt 32 t)).length →
      X (.raise (.chFail e)) ((s.exchanged p d (.clock t)).exchanged p' d'
        (.chWrite (headerBytes s.plat (BitVec.ofInt 32 t)) (.fail e kept)))) :
    Act.wp hdrEmit Q X s := by
  unfold hdrEmit timestamp
  rw [Act.wp_bind, Act.wp_bind, Act.wp_getState]
  cases hm : s.mtimeFixed with
  | some m =>
    simp only
    rw [Act.wp_pure, Act.wp_bind, Act.wp_getState, Act.wp_bind]
    exact chWrite_wp _ (haltWrite m hm) (fun p d => fixed m p d hm) fun e kept p d short => fixedFailed m e kept p d hm short
  | none =>
    simp only
    rw [Act.wp_bind]
    refine clock_wp (haltClock hm) fun t p d => ?_
    rw [Act.wp_pure, Act.wp_bind, Act.wp_getState, Act.wp_bind]
    exact chWrite_wp _ (haltTimed t p d hm) (fun p' d' => timed t p d p' d' hm) fun e kept p' d' short =>
      timedFailed t e kept p d p' d' hm short

@[simp] theorem headerBytes_length (p : Platform) (t : U32) : (headerBytes p t).length = 10 := by
  simp [headerBytes, toLE32]

@[simp] theorem trailerBytes_length (s : State) : s.trailerBytes.length = 8 := by
  simp [State.trailerBytes, toLE32]

end Sys2Proof.Machine
end

