-- ==== Sys2Proof/Laws/Phases.lean ====
section
/-! SUPPORT. The induction of a whole step, for a property that changes its form inside a command: what must be shown
of each elementary effect (`Phases`), and that then every step keeps the property (`Phases.step`). -/

namespace Sys2Proof.Machine

/-- The forms a property `I` of whole steps takes inside a command, and what each effect must show.
`M`: between effects of no particular kind. `W`: in a WRITE past its first-call work. `P`: in a push loop.
`T`: Finish is over. `C`: nothing is live any more. `H len n`: a READ of length `len` has taken `n` header bytes.
`R len`: in a READ past its first-call work. `L len room w`: in READ's loop, `w` produced, `room` left. -/
structure Phases (I M W P T C : State → Prop) (H : Nat → Nat → State → Prop) (R : Nat → State → Prop)
    (L : Nat → Nat → Bytes → State → Prop) : Prop where
  start : ∀ s, I s → s.inFlight = none → M s
  rest : ∀ s, M s → I s
  take : ∀ s rest, M s → M (s.takeCommand rest)
  data : ∀ s b, M s → M (s.withData b)
  answer : ∀ s r, M s → r.returned = [] → I (s.respond r)
  flush : ∀ s p d a, M s → s.disposed = false → M (s.exchanged p d (.chFlush a))
  length : ∀ s p d a, M s → s.disposed = false → M (s.exchanged p d (.chLength a))
  stuckFlush : ∀ s, M s → s.disposed = false → I (s.paused (.stuck .chFlush))
  stuckLength : ∀ s, M s → s.disposed = false → I (s.paused (.stuck .chLength))
  -- WRITE
  enterWriter : ∀ s, M s → s.disposed = false → s.streamMode = .undefined → ¬(s.flavor = .gzip ∧ s.cmode = .compress) →
    W (s.setMode .writer)
  emitted : ∀ s m p d, M s → s.disposed = false → s.streamMode = .undefined → s.flavor = .gzip → s.cmode = .compress →
    s.mtimeFixed = some m →
    W (((s.setMode .writer).exchanged p d (.chWrite (headerBytes s.plat m) .ok)).hdrEmitted m)
  emitFailed : ∀ s m p d e k, M s → s.disposed = false → s.streamMode = .undefined → s.flavor = .gzip →
    s.cmode = .compress → s.mtimeFixed = some m → k ≤ (headerBytes s.plat m).length →
    M ((s.setMode .writer).exchanged p d (.chWrite (headerBytes s.plat m) (.fail e k)))
  timed : ∀ s t p d p' d', M s → s.disposed = false → s.streamMode = .undefined → s.flavor = .gzip →
    s.cmode = .compress → s.mtimeFixed = none →
    W ((((s.setMode .writer).exchanged p d (.clock t)).exchanged p' d'
      (.chWrite (headerBytes s.plat (BitVec.ofInt 32 t)) .ok)).hdrEmitted (BitVec.ofInt 32 t))
  timedFailed : ∀ s t p d p' d' e k, M s → s.disposed = false → s.streamMode = .undefined → s.flavor = .gzip →
    s.cmode = .compress → s.mtimeFixed = none → k ≤ (headerBytes s.plat (BitVec.ofInt 32 t)).length →
    M (((s.setMode .writer).exchanged p d (.clock t)).exchanged p' d'
      (.chWrite (headerBytes s.plat (BitVec.ofInt 32 t)) (.fail e k)))
  stuckEmit : ∀ s m, M s → s.disposed = false → s.streamMode = .undefined → s.flavor = .gzip → s.cmode = .compress →
    s.mtimeFixed = some m → I ((s.setMode .writer).paused (.stuck .chWrite))
  stuckClock : ∀ s, M s → s.disposed = false → s.streamMode = .undefined → s.flavor = .gzip → s.cmode = .compress →
    s.mtimeFixed = none → I ((s.setMode .writer).paused (.stuck .clock))
  stuckTimed : ∀ s t p d, M s → s.disposed = false → s.streamMode = .undefined → s.flavor = .gzip →
    s.cmode = .compress → s.mtimeFixed = none →
    I (((s.setMode .writer).exchanged p d (.clock t)).paused (.stuck .chWrite))
  stayWriter : ∀ s, M s → s.disposed = false → s.streamMode = .writer → W s
  written : ∀ s, W s → M s
  feed : ∀ s, W s → W (s.crcFeed s.caller)
  togetherW : ∀ s, W s → s.engLive = s.wbLive
  initFailedW : ∀ s p d msg, W s → s.engLive = false →
    M (s.exchanged p d (.engInit s.cmode s.initLevel s.wantHeader (.fail msg)))
  startedW : ∀ s p d p' d' u b, W s → s.engLive = false → s.workbufSize ≤ b.length →
    P (((((s.exchanged p d (.engInit s.cmode s.initLevel s.wantHeader (.ok u))).setEngLive true).exchanged p' d'
      (.poolLease s.workbufSize b)).leased b).loadWindow s.caller)
  stuckInitW : ∀ s, W s → s.engLive = false → I (s.paused (.stuck .engInit))
  stuckLeaseW : ∀ s p d u, W s → s.engLive = false →
    I (((s.exchanged p d (.engInit s.cmode s.initLevel s.wantHeader (.ok u))).setEngLive true).paused
      (.stuck .poolLease))
  loaded : ∀ s, W s → s.engLive = true → P (s.loadWindow s.caller)
  pushFailed : ∀ s flush p d a, P s → stepFits s.window s.wbLen a = true → a.status.isFailure = true →
    M (((s.exchanged p d (.engStep flush s.cmode s.window s.wbLen a)).afterStep a).setWork
      (memWrite s.work 0 a.produced)) ∧
    T (((s.exchanged p d (.engStep flush s.cmode s.window s.wbLen a)).afterStep a).setWork
      (memWrite s.work 0 a.produced))
  quiet : ∀ s flush p d a, P s → stepFits s.window s.wbLen a = true → a.status.isFailure = false → a.produced = [] →
    P (((s.exchanged p d (.engStep flush s.cmode s.window s.wbLen a)).afterStep a).setWork s.work)
  pushed : ∀ s flush p d p' d' a, P s → stepFits s.window s.wbLen a = true → a.status.isFailure = false →
    a.produced ≠ [] →
    P ((((s.exchanged p d (.engStep flush s.cmode s.window s.wbLen a)).afterStep a).setWork
      (memWrite s.work 0 a.produced)).exchanged p' d' (.chWrite a.produced .ok))
  unwritten : ∀ s flush p d p' d' a e k, P s → stepFits s.window s.wbLen a = true → a.status.isFailure = false →
    a.produced ≠ [] → k ≤ a.produced.length →
    M ((((s.exchanged p d (.engStep flush s.cmode s.window s.wbLen a)).afterStep a).setWork
      (memWrite s.work 0 a.produced)).exchanged p' d' (.chWrite a.produced (.fail e k))) ∧
    T ((((s.exchanged p d (.engStep flush s.cmode s.window s.wbLen a)).afterStep a).setWork
      (memWrite s.work 0 a.produced)).exchanged p' d' (.chWrite a.produced (.fail e k)))
  pushDone : ∀ s, P s → M s
  stuckPush : ∀ s, P s → I (s.paused (.stuck .engStep))
  stuckWrite : ∀ s flush p d a, P s → stepFits s.window s.wbLen a = true → a.status.isFailure = false →
    a.produced ≠ [] →
    I ((((s.exchanged p d (.engStep flush s.cmode s.window s.wbLen a)).afterStep a).setWork
      (memWrite s.work 0 a.produced)).paused (.stuck .chWrite))
  pauseWrite : ∀ s, P s → I (s.paused .writeLoop)
  resumeWrite : ∀ s, I s → s.inFlight = some .writeLoop → P s.resumed
  -- CLOSE
  finishing : ∀ s, M s → s.disposed = false → s.engLive = true → s.streamMode = .writer → P s
  flushed : ∀ s p d u, P s → ¬(s.flavor = .gzip ∧ s.cmode = .compress) → T (s.exchanged p d (.chFlush (.ok u)))
  flushFailed : ∀ s p d e, P s → T (s.exchanged p d (.chFlush (.fail e)))
  trailed : ∀ s p d p' d' u, P s → s.flavor = .gzip → s.cmode = .compress →
    T ((s.exchanged p d (.chFlush (.ok u))).exchanged p' d' (.chWrite s.trailerBytes .ok))
  trailFailed : ∀ s p d p' d' u e k, P s → s.flavor = .gzip → s.cmode = .compress → k ≤ s.trailerBytes.length →
    T ((s.exchanged p d (.chFlush (.ok u))).exchanged p' d' (.chWrite s.trailerBytes (.fail e k)))
  stuckFinish : ∀ s, P s → I (s.paused (.stuck .chFlush))
  stuckTrailer : ∀ s p d u, P s → s.flavor = .gzip → s.cmode = .compress →
    I ((s.exchanged p d (.chFlush (.ok u))).paused (.stuck .chWrite))
  pauseFinish : ∀ s, P s → I (s.paused .finishLoop)
  resumeFinish : ∀ s, I s → s.inFlight = some .finishLoop → P s.resumed
  unfinished : ∀ s, M s → s.disposed = false → (s.engLive = true → s.streamMode ≠ .writer) → T s
  togetherT : ∀ s, T s → s.engLive = s.wbLive
  stuckEnd : ∀ s, T s → s.engLive = true → I (s.paused (.stuck .engEnd))
  stuckRelease : ∀ s p d, T s → s.engLive = true →
    I (((s.exchanged p d (.engEnd s.cmode)).setEngLive false).paused (.stuck .poolRelease))
  stuckClose : ∀ s, C s → s.leaveOpen = false → I (s.paused (.stuck .chClose))
  torn : ∀ s p p' d d', T s → s.engLive = true → C (s.tornDown p p' d d')
  bare : ∀ s, T s → s.engLive = false → C s
  left : ∀ s, C s → s.leaveOpen = true → M s.setDisposed
  closed : ∀ s p d a, C s → s.leaveOpen = false → M (s.exchanged p d (.chClose a)).setDisposed
  -- READ
  enterReader : ∀ s, M s → s.disposed = false → s.streamMode = .undefined →
    ¬(s.flavor = .gzip ∧ s.cmode = .decompress) → R s.caller.length (s.setMode .reader)
  enterParser : ∀ s, M s → s.disposed = false → s.streamMode = .undefined → s.flavor = .gzip →
    s.cmode = .decompress → H s.caller.length 0 (s.setMode .reader)
  stayReader : ∀ s, M s → s.disposed = false → s.streamMode = .reader → R s.caller.length s
  drew : ∀ len n s ts b p d, H len n s → ReadRun ts b → H len (n + b.length) (s.exchangedAll p d ts)
  unparsed : ∀ len n s, H len n s → M s
  stuckParse : ∀ len n s, H len n s → I (s.paused (.stuck .chRead))
  empty : ∀ len s, H len 0 s → M s.hdrEmpty
  parsed : ∀ len s (h : HdrFields), H len h.total s → 10 ≤ h.total → h.name.isSome = flgFname h.flg →
    h.comment.isSome = flgFcomment h.flg → R len (s.hdrParsed h)
  pauseName : ∀ len s (h : HdrFields) acc, H len (h.total + acc.length) s → 10 ≤ h.total → h.name = none →
    h.comment = none → flgFname h.flg = true → I (s.paused (.nameLoop len h acc))
  resumeName : ∀ len s (h : HdrFields) acc, I s → s.inFlight = some (.nameLoop len h acc) →
    H len (h.total + acc.length) s.resumed ∧ 10 ≤ h.total ∧ h.name = none ∧ h.comment = none ∧ flgFname h.flg = true
  pauseComment : ∀ len s (h : HdrFields) acc, H len (h.total + acc.length) s → 10 ≤ h.total →
    h.name.isSome = flgFname h.flg → h.comment = none → flgFcomment h.flg = true →
    I (s.paused (.commentLoop len h acc))
  resumeComment : ∀ len s (h : HdrFields) acc, I s → s.inFlight = some (.commentLoop len h acc) →
    H len (h.total + acc.length) s.resumed ∧ 10 ≤ h.total ∧ h.name.isSome = flgFname h.flg ∧ h.comment = none ∧
      flgFcomment h.flg = true
  reading : ∀ len s, R len s → M s
  togetherR : ∀ len s, R len s → s.engLive = s.wbLive
  initFailedR : ∀ len s p d msg, R len s → s.hdrState ≠ .empty → s.engLive = false →
    M (s.exchanged p d (.engInit s.cmode s.initLevel s.wantHeader (.fail msg)))
  startedR : ∀ len s p d p' d' u b, R len s → s.hdrState ≠ .empty → s.engLive = false → s.workbufSize ≤ b.length →
    L len len [] ((((s.exchanged p d (.engInit s.cmode s.initLevel s.wantHeader (.ok u))).setEngLive true).exchanged p' d'
      (.poolLease s.workbufSize b)).leased b)
  stuckInitR : ∀ len s, R len s → s.hdrState ≠ .empty → s.engLive = false → I (s.paused (.stuck .engInit))
  stuckLeaseR : ∀ len s p d u, R len s → s.hdrState ≠ .empty → s.engLive = false →
    I (((s.exchanged p d (.engInit s.cmode s.initLevel s.wantHeader (.ok u))).setEngLive true).paused
      (.stuck .poolLease))
  looping : ∀ len s, R len s → s.hdrState ≠ .empty → s.engLive = true → L len len [] s
  pulled : ∀ len room w s p d k, L len room w s → s.inAvail = 0 → s.noMoreInput = false → k.length ≤ s.wbLen →
    L len room w ((s.exchanged p d (.chRead s.wbLen (.ok k))).pulled k)
  pullFailed : ∀ len room w s p d e, L len room w s → s.inAvail = 0 → s.noMoreInput = false →
    M (s.exchanged p d (.chRead s.wbLen (.fail e)))
  stuckChunk : ∀ len room w s, L len room w s → s.inAvail = 0 → s.noMoreInput = false → I (s.paused (.stuck .chRead))
  stuckPull : ∀ len room w s, L len room w s → 0 < room → I (s.paused (.stuck .engStep))
  stepFailed : ∀ len room w s flush p d a, L len room w s → 0 < room → stepFits s.window room a = true →
    a.status.isFailure = true →
    M (((s.exchanged p d (.engStep flush s.cmode s.window room a)).afterStep a).setCaller
      (memWrite s.caller w.length a.produced))
  stepped : ∀ len room w s flush p d a, L len room w s → 0 < room → stepFits s.window room a = true →
    a.status.isFailure = false →
    L len (room - a.produced.length) (w ++ a.produced)
      (((s.exchanged p d (.engStep flush s.cmode s.window room a)).afterStep a).setCaller
        (memWrite s.caller w.length a.produced))
  pauseRead : ∀ len room w s, L len room w s → 0 < room → s.noMoreInput = false → I (s.paused (.readLoop len room w))
  resumeRead : ∀ len room w s, I s → s.inFlight = some (.readLoop len room w) → L len room w s.resumed ∧ 0 < room
  counted : ∀ len room w s, L len room w s →
    I ((s.crcFeed w).respond (.ok (.read (len - room) (s.crcFeed w).caller)))

namespace Phases

variable {I M W P T C : State → Prop} {H : Nat → Nat → State → Prop} {R : Nat → State → Prop}
  {L : Nat → Nat → Bytes → State → Prop} (E : Phases I M W P T C H R L) {s : State}
include E

/-! ### WRITE -/

theorem pushStep (flush : FlushType) {X : Exit → State → Prop} (halt : ∀ p s, I (s.paused (.stuck p)) → Act.Halts X p s)
    (failed : ∀ e s, M s ∧ T s → X (.raise e) s) (h : P s) :
    Act.wp (Machine.pushStep flush) (fun _ s' => P s') X s :=
  pushStep_wp flush (halt _ _ (E.stuckPush s h))
    (fun a p d fits good some => halt _ _ (E.stuckWrite s flush p d a h fits good some))
    (fun a p d fits bad => failed _ _ (E.pushFailed s flush p d a h fits bad))
    (fun a p d fits good none => E.quiet s flush p d a h fits good none)
    (fun a p d p' d' fits good some => E.pushed s flush p d p' d' a h fits good some)
    fun a p d p' d' e k fits good some short => failed _ _ (E.unwritten s flush p d p' d' a e k h fits good some short)

theorem writeLoop (h : P s) :
    Act.wp Machine.writeLoop (fun r s' => I (s'.respond r)) (Exit.Leaves noBuffer I) s := by
  unfold Machine.writeLoop
  rw [Act.wp_bind, Act.wp_getState]
  refine Act.wp_iterate (fun _ s => P s) ?_ (fun _ s h => E.pauseWrite s h) _ _ h
  intro _ s h
  unfold writeRound
  rw [Act.wp_bind]
  refine Act.wp_mono (E.pushStep .none (fun _ _ => Exit.leaves_halts) (fun e s h => E.answer s _ h.1 rfl) h) ?_
    (fun _ _ h => h)
  intro a s h
  simp only [Act.wp_bind, Act.wp_getState, Act.wp_ite, Act.wp_pure]
  exact ⟨fun _ => E.answer s _ (E.pushDone s h) rfl, fun _ => h⟩

theorem writeData (len : Nat) (h : W s) :
    Act.wp (Machine.writeData len) (fun r s' => I (s'.respond r)) (Exit.Leaves noBuffer I) s := by
  unfold Machine.writeData
  rw [Act.wp_ite]
  refine ⟨fun _ => E.answer s _ (E.written s h) rfl, fun _ => ?_⟩
  simp only [Act.wp_bind, Act.wp_update]
  have h := E.feed s h
  generalize s.crcFeed s.caller = s at h ⊢
  refine materialise_wp (fun off => Exit.leaves_halts (E.stuckInitW _ h off))
    (fun u p d off => Exit.leaves_halts (E.stuckLeaseW _ p d u h off)) (E.togetherW _ h) (fun live => ?_) (fun u b p d p' d' off long => ?_)
    fun msg p d off => E.answer _ _ (E.initFailedW _ p d msg h off) rfl
  · exact E.writeLoop (E.loaded _ h live)
  · exact E.writeLoop (E.startedW _ p d p' d' u b h off long)

theorem writeBody (len : Nat) (h : M s) :
    Act.wp (Machine.writeBody len) (fun r s' => I (s'.respond r)) (Exit.Leaves noBuffer I) s := by
  unfold Machine.writeBody
  rw [Act.wp_bind, Act.wp_getState, Act.wp_ite]
  refine ⟨fun _ => E.answer s _ h rfl, fun opened => ?_⟩
  have opened : s.disposed = false := by simpa using opened
  rw [Act.wp_ite]
  refine ⟨fun _ => E.answer s _ h rfl, fun unread => ?_⟩
  rw [Act.wp_bind, Act.wp_onlyIf]
  refine ⟨fun first => ?_, fun later => ?_⟩
  · unfold Machine.enterWriter
    rw [Act.wp_bind, Act.wp_update, Act.wp_bind, Act.wp_getState, Act.wp_onlyIf]
    refine ⟨fun ⟨gz, cm⟩ => hdrEmit_wp ?_ ?_ ?_ ?_ ?_ ?_ ?_, fun no => ?_⟩
    · exact fun m fixed => Exit.leaves_halts (E.stuckEmit s m h opened first gz cm fixed)
    · exact fun free => Exit.leaves_halts (E.stuckClock s h opened first gz cm free)
    · exact fun t p d free => Exit.leaves_halts (E.stuckTimed s t p d h opened first gz cm free)
    · exact fun m p d fixed => E.writeData len (E.emitted s m p d h opened first gz cm fixed)
    · exact fun m e k p d fixed short =>
        E.answer _ _ (E.emitFailed s m p d e k h opened first gz cm fixed short) rfl
    · exact fun t p d p' d' free => E.writeData len (E.timed s t p d p' d' h opened first gz cm free)
    · exact fun t e k p d p' d' free short =>
        E.answer _ _ (E.timedFailed s t p d p' d' e k h opened first gz cm free short) rfl
    · exact E.writeData len (E.enterWriter s h opened first no)
  · refine E.writeData len (E.stayWriter s h opened ?_)
    cases mode : s.streamMode with
    | undefined => exact absurd mode later
    | reader => exact absurd mode unread
    | writer => rfl

/-! ### READ -/

theorem readAnswer (h : M s) :
    Act.wp (Machine.readAnswer 0) (fun r s' => I (s'.respond r)) (Exit.Leaves callerBuffer I) s := by
  unfold Machine.readAnswer
  rw [Act.wp_bind, Act.wp_getState, Act.wp_pure]
  exact E.answer s _ h rfl

theorem readEnd (len room : Nat) (w : Bytes) (h : L len room w s) :
    Act.wp (Machine.readEnd len room w) (fun r s' => I (s'.respond r)) (Exit.Leaves callerBuffer I) s := by
  unfold Machine.readEnd finalStep
  rw [Act.wp_bind, Act.wp_bind, Act.wp_getState, Act.wp_ite]
  refine ⟨fun due => ?_, fun _ => ?_⟩
  · have pos : 0 < room := by
      simp only [State.needsFinalStep, Bool.and_eq_true, decide_eq_true_eq] at due
      exact due.1.1
    rw [Act.wp_bind]
    refine pullStep_wp _ _ _ (Exit.leaves_halts (E.stuckPull len room w s h pos)) fun a p d fits => ?_
    rw [Act.wp_ite]
    refine ⟨fun bad => E.answer _ _ (E.stepFailed len room w s .finish p d a h pos fits bad) rfl, fun good => ?_⟩
    simp only [Act.wp_pure, Act.wp_bind, Act.wp_update]
    exact E.counted len _ _ _ (E.stepped len room w s .finish p d a h pos fits (by simpa using good))
  · simp only [Act.wp_pure, Act.wp_bind, Act.wp_update]
    exact E.counted len room w s h

/-- What follows the chunk pull in a round of READ's loop. -/
theorem readStep (len room : Nat) (w : Bytes) (h : L len room w s) (pos : 0 < room) :
    Act.wp (Machine.pullStep .none room w >>= fun a => do
      let room := room - a.produced.length
      let w := w ++ a.produced
      let s ← getState
      if s.benignEnd a.status then do
        let r ← Machine.readAnswer 0
        pure (Sum.inr r)
      else if a.status.isFailure then raise (.engineFail a.status)
      else if s.readAgain room a.status then pure (Sum.inl (room, w))
      else do
        let r ← Machine.readEnd len room w
        pure (Sum.inr r))
      (fun r s' => match r with
        | .inl y => L len y.1 y.2 s' ∧ 0 < y.1 ∧ s'.noMoreInput = false
        | .inr r => I (s'.respond r)) (Exit.Leaves callerBuffer I) s := by
  rw [Act.wp_bind]
  refine pullStep_wp _ _ _ (Exit.leaves_halts (E.stuckPull len room w s h pos)) fun a p d fits => ?_
  rw [Act.wp_bind, Act.wp_getState, Act.wp_ite]
  refine ⟨fun benign => ?_, fun _ => ?_⟩
  · have bad : a.status.isFailure = true := by
      simp only [State.benignEnd, Bool.and_eq_true, decide_eq_true_eq] at benign
      simp [benign.2, EngStatus.isFailure]
    rw [Act.wp_bind]
    exact E.readAnswer (E.stepFailed len room w s .none p d a h pos fits bad)
  rw [Act.wp_ite]
  refine ⟨fun bad => E.answer _ _ (E.stepFailed len room w s .none p d a h pos fits bad) rfl, fun good => ?_⟩
  have next := E.stepped len room w s .none p d a h pos fits (by simpa using good)
  rw [Act.wp_ite]
  refine ⟨fun again => ?_, fun _ => ?_⟩
  · rw [Act.wp_pure]
    simp only [State.readAgain, Bool.and_eq_true, decide_eq_true_eq, Bool.not_eq_true'] at again
    exact ⟨next, again.1.1, again.1.2⟩
  · rw [Act.wp_bind]
    exact E.readEnd len _ _ next

theorem readRound (len : Nat) (x : Nat × Bytes) (h : L len x.1 x.2 s) (pos : 0 < x.1) :
    Act.wp (Machine.readRound len x) (fun r s' => match r with
      | .inl y => L len y.1 y.2 s' ∧ 0 < y.1 ∧ s'.noMoreInput = false
      | .inr r => I (s'.respond r)) (Exit.Leaves callerBuffer I) s := by
  unfold Machine.readRound
  rw [Act.wp_bind, Act.wp_getState, Act.wp_bind, Act.wp_onlyIf]
  refine ⟨fun due => ?_, fun _ => E.readStep len x.1 x.2 h pos⟩
  simp only [State.needsChunk, Bool.and_eq_true, decide_eq_true_eq, Bool.not_eq_true'] at due
  exact pullChunk_wp (Exit.leaves_halts (E.stuckChunk len x.1 x.2 s h due.1 due.2))
    (fun k p d short => E.readStep len x.1 x.2 (E.pulled len x.1 x.2 s p d k h due.1 due.2 short) pos)
    fun e p d => E.answer _ _ (E.pullFailed len x.1 x.2 s p d e h due.1 due.2) rfl

theorem readLoop (len room : Nat) (w : Bytes) (h : L len room w s) (pos : 0 < room) :
    Act.wp (Machine.readLoop len room w) (fun r s' => I (s'.respond r)) (Exit.Leaves callerBuffer I) s := by
  unfold Machine.readLoop
  rw [Act.wp_bind, Act.wp_getState]
  have go : ∀ more (s : State) (x : Nat × Bytes), L len x.1 x.2 s → 0 < x.1 →
      Act.wp (iterate (Machine.readRound len) (fun x => .readLoop len x.1 x.2) more x)
        (fun r s' => I (s'.respond r)) (Exit.Leaves callerBuffer I) s := by
    intro more
    induction more with
    | zero =>
      intro s x h pos
      rw [iterate, Act.wp_bind]
      refine Act.wp_mono (E.readRound len x h pos) ?_ (fun _ _ h => h)
      intro r s' h
      cases r with
      | inl y => exact E.pauseRead len y.1 y.2 s' h.1 h.2.1 h.2.2
      | inr a => exact h
    | succ n ih =>
      intro s x h pos
      rw [iterate, Act.wp_bind]
      refine Act.wp_mono (E.readRound len x h pos) ?_ (fun _ _ h => h)
      intro r s' h
      cases r with
      | inl y => exact ih s' y h.1 h.2.1
      | inr a => exact h
  exact go _ s (room, w) h pos

theorem readData (len : Nat) (h : R len s) :
    Act.wp (Machine.readData len) (fun r s' => I (s'.respond r)) (Exit.Leaves callerBuffer I) s := by
  unfold Machine.readData
  rw [Act.wp_bind, Act.wp_getState, Act.wp_ite]
  refine ⟨fun _ => E.readAnswer (E.reading len s h), fun full => ?_⟩
  rw [Act.wp_ite]
  refine ⟨fun _ => E.readAnswer (E.reading len s h), fun some => ?_⟩
  rw [Act.wp_bind]
  refine materialise_wp (fun off => Exit.leaves_halts (E.stuckInitR len s h full off))
    (fun u p d off => Exit.leaves_halts (E.stuckLeaseR len s p d u h full off)) (E.togetherR len s h)
    (fun live => E.readLoop len len [] (E.looping len s h full live) (by omega))
    (fun u b p d p' d' off long =>
      E.readLoop len len [] (E.startedR len s p d p' d' u b h full off long) (by omega))
    fun msg p d off => E.answer _ _ (E.initFailedR len s p d msg h full off) rfl

/-- A header parse may be stuck on each of its reads. -/
theorem haltsParsing {buffer : State → Option Bytes} {len n : Nat} (h : H len n s) :
    Act.HaltsReading (Exit.Leaves buffer I) s := fun b p d ts run =>
  Exit.leaves_halts (E.stuckParse len _ _ (E.drew len n s ts b p d h run))

theorem hdrClose (len : Nat) (h : HdrFields) (hs : H len h.total s) (ten : 10 ≤ h.total)
    (name : h.name.isSome = flgFname h.flg) (comment : h.comment.isSome = flgFcomment h.flg) :
    Act.wp (Machine.hdrClose h >>= fun _ => Machine.readData len) (fun r s' => I (s'.respond r))
      (Exit.Leaves callerBuffer I) s := by
  rw [Act.wp_bind]
  refine hdrClose_wp h (E.haltsParsing hs) (fun b p d ts run => ?_) fun e b p d ts run _ =>
    E.answer _ _ (E.unparsed len _ _ (E.drew len _ s ts b p d hs run)) rfl
  exact E.readData len (E.parsed len _ { h with total := h.total + b.length } (E.drew len _ s ts b p d hs run)
    (by simp only; omega) name comment)

theorem readComment (len : Nat) (h : HdrFields) (acc : Bytes) (hs : H len (h.total + acc.length) s)
    (ten : 10 ≤ h.total) (name : h.name.isSome = flgFname h.flg) (none : h.comment = none)
    (flag : flgFcomment h.flg = true) :
    Act.wp (Machine.readComment len h acc >>= fun h => Machine.hdrClose h >>= fun _ => Machine.readData len)
      (fun r s' => I (s'.respond r)) (Exit.Leaves callerBuffer I) s := by
  rw [Act.wp_bind]
  refine readComment_wp len h acc (E.haltsParsing hs) (fun str b p d ts run count => ?_)
    (fun str b p d ts run count => ?_) fun e b p d ts run _ =>
      E.answer _ _ (E.unparsed len _ _ (E.drew len _ s ts b p d hs run)) rfl
  · have drawn := E.drew len _ s ts b p d hs run
    rw [show h.total + acc.length + b.length = h.total + str.length + 1 by omega] at drawn
    exact E.hdrClose len _ drawn (by simp only; omega) name (by simp [flag])
  · have drawn := E.drew len _ s ts b p d hs run
    rw [show h.total + acc.length + b.length = h.total + str.length by omega] at drawn
    exact E.pauseComment len _ h str drawn ten name none flag

theorem hdrFromComment (len : Nat) (h : HdrFields) (hs : H len h.total s) (ten : 10 ≤ h.total)
    (name : h.name.isSome = flgFname h.flg) (none : h.comment = none) :
    Act.wp (Machine.hdrFromComment len h >>= fun _ => Machine.readData len) (fun r s' => I (s'.respond r))
      (Exit.Leaves callerBuffer I) s := by
  rw [Act.wp_bind]
  unfold Machine.hdrFromComment commentField
  rw [Act.wp_bind, Act.wp_ite]
  refine ⟨fun flag => ?_, fun off => ?_⟩
  · have := E.readComment len h [] hs ten name none flag
    simp only [Act.wp_bind] at this ⊢
    exact this
  · have := E.hdrClose len h hs ten name (by simpa [none] using off)
    simp only [Act.wp_bind] at this ⊢
    exact this

theorem readName (len : Nat) (h : HdrFields) (acc : Bytes) (hs : H len (h.total + acc.length) s)
    (ten : 10 ≤ h.total) (name : h.name = none) (none : h.comment = none) (flag : flgFname h.flg = true) :
    Act.wp (Machine.readName len h acc >>= fun h => Machine.hdrFromComment len h >>= fun _ => Machine.readData len)
      (fun r s' => I (s'.respond r)) (Exit.Leaves callerBuffer I) s := by
  rw [Act.wp_bind]
  refine readName_wp len h acc (E.haltsParsing hs) (fun str b p d ts run count => ?_)
    (fun str b p d ts run count => ?_) fun e b p d ts run _ =>
      E.answer _ _ (E.unparsed len _ _ (E.drew len _ s ts b p d hs run)) rfl
  · have drawn := E.drew len _ s ts b p d hs run
    rw [show h.total + acc.length + b.length = h.total + str.length + 1 by omega] at drawn
    exact E.hdrFromComment len _ drawn (by simp only; omega) (by simp [flag]) none
  · have drawn := E.drew len _ s ts b p d hs run
    rw [show h.total + acc.length + b.length = h.total + str.length by omega] at drawn
    exact E.pauseName len _ h str drawn ten name none flag

theorem hdrFromName (len : Nat) (h : HdrFields) (hs : H len h.total s) (ten : 10 ≤ h.total) (name : h.name = none)
    (none : h.comment = none) :
    Act.wp (Machine.hdrFromName len h >>= fun _ => Machine.readData len) (fun r s' => I (s'.respond r))
      (Exit.Leaves callerBuffer I) s := by
  rw [Act.wp_bind]
  unfold Machine.hdrFromName nameField
  rw [Act.wp_bind, Act.wp_ite]
  refine ⟨fun flag => ?_, fun off => ?_⟩
  · have := E.readName len h [] hs ten name none flag
    simp only [Act.wp_bind] at this ⊢
    exact this
  · have := E.hdrFromComment len h hs ten (by simpa [name] using off) none
    simp only [Act.wp_bind] at this ⊢
    exact this

theorem readBody (len : Nat) (h : M s) (fits : s.caller.length = len) :
    Act.wp (Machine.readBody len) (fun r s' => I (s'.respond r)) (Exit.Leaves callerBuffer I) s := by
  subst len
  unfold Machine.readBody
  rw [Act.wp_bind, Act.wp_getState, Act.wp_ite]
  refine ⟨fun _ => E.answer s _ h rfl, fun opened => ?_⟩
  have opened : s.disposed = false := by simpa using opened
  rw [Act.wp_ite]
  refine ⟨fun _ => E.answer s _ h rfl, fun unwritten => ?_⟩
  rw [Act.wp_ite]
  refine ⟨fun first => ?_, fun later => ?_⟩
  · unfold Machine.enterReader
    rw [Act.wp_bind, Act.wp_update, Act.wp_bind, Act.wp_getState, Act.wp_ite]
    refine ⟨fun ⟨gz, cm⟩ => ?_, fun no => E.readData _ (E.enterReader s h opened first no)⟩
    have hs := E.enterParser s h opened first gz cm
    unfold readParsing
    rw [Act.wp_bind]
    refine hdrOpen_wp (E.haltsParsing hs) (fun p d ts run => ?_) (fun hd b p d ts run count ten name none => ?_)
      fun e b p d ts run _ => E.answer _ _ (E.unparsed _ _ _ (E.drew _ _ _ ts b p d hs run)) rfl
    · exact E.readAnswer (E.empty _ _ (E.drew _ _ _ ts [] p d hs run))
    · have drawn := E.drew _ _ _ ts b p d hs run
      rw [show 0 + b.length = hd.total by omega] at drawn
      exact E.hdrFromName _ hd drawn ten name none
  · refine E.readData _ (E.stayReader s h opened ?_)
    cases mode : s.streamMode with
    | undefined => exact absurd mode later
    | reader => rfl
    | writer => exact absurd mode unwritten

/-! ### CLOSE -/

theorem teardown (err : Option Error) (h : T s) :
    Act.wp (Machine.teardown err) (fun r s' => I (s'.respond r)) (Exit.Leaves noBuffer I) s := by
  have quiet : ∀ e, (closeResponse e).returned = [] := by
    intro e
    cases e <;> rfl
  have rest : ∀ s', C s' → Act.Torn (fun r s' => I (s'.respond r)) (Exit.Leaves noBuffer I) err s' := fun s' h =>
    ⟨fun shut => Exit.leaves_halts (E.stuckClose s' h shut), fun left => E.answer _ _ (E.left s' h left) (quiet _),
      fun a p d shut => E.answer _ _ (E.closed s' p d a h shut) (quiet _)⟩
  exact teardown_wp err (fun live => Exit.leaves_halts (E.stuckEnd s h live))
    (fun live p d => Exit.leaves_halts (E.stuckRelease s p d h live)) (E.togetherT s h)
    (fun live p p' d d' => rest _ (E.torn s p p' d d' h live)) fun off => rest _ (E.bare s h off)

theorem writerFinish (h : P s) :
    Act.wp (attempt Machine.writerFinish >>= Machine.teardown) (fun r s' => I (s'.respond r))
      (Exit.Leaves noBuffer I) s := by
  rw [Act.wp_bind]
  refine Act.wp_attempt _ ?_
  let X : Exit → State → Prop := fun x s' => match x with
    | .raise _ => T s'
    | .pause f => I (s'.paused f)
    | .refuse _ => True
  have halt : ∀ p s, I (s.paused (.stuck p)) → Act.Halts X p s := fun _ _ h => ⟨h, fun _ => trivial⟩
  refine Act.wp_mono (Q := fun _ s' => T s') (X := X) ?_ (fun _ _ h => E.teardown _ h) (fun x s' h => by
    cases x
    · exact E.teardown _ h
    · exact h
    · trivial)
  unfold Machine.writerFinish finishLoop
  simp only [Act.wp_bind, Act.wp_getState]
  refine Act.wp_iterate (fun _ s => P s) ?_ (fun _ s h => E.pauseFinish s h) _ _ h
  intro _ s h
  unfold finishRound
  rw [Act.wp_bind]
  refine Act.wp_mono (E.pushStep .finish halt (fun e s h => h.2) h) ?_ (fun _ _ h => h)
  intro a s h
  simp only [Act.wp_bind, Act.wp_getState, Act.wp_ite, Act.wp_pure]
  refine ⟨fun _ => ?_, fun _ => h⟩
  refine chFlush_wp (halt _ _ (E.stuckFinish s h)) (fun p d => ?_) fun e p d => E.flushFailed s p d e h
  rw [Act.wp_onlyIf]
  refine ⟨fun gz => ?_, fun no => E.flushed s p d () h fun gz => no gz.1⟩
  simp only [State.exchanged_cmode]
  cases cm : s.cmode with
  | compress =>
    unfold trailerEmit
    rw [Act.wp_bind, Act.wp_getState]
    exact chWrite_wp _ (halt _ _ (E.stuckTrailer s p d () h gz cm)) (fun p' d' => E.trailed s p d p' d' () h gz cm)
      fun e k p' d' short => E.trailFailed s p d p' d' () e k h gz cm short
  | decompress => exact E.flushed s p d () h (by simp [cm])

theorem closeBody (h : M s) :
    Act.wp Machine.closeBody (fun r s' => I (s'.respond r)) (Exit.Leaves noBuffer I) s := by
  unfold Machine.closeBody
  rw [Act.wp_bind, Act.wp_getState, Act.wp_ite]
  refine ⟨fun _ => E.answer s _ h rfl, fun opened => ?_⟩
  have opened : s.disposed = false := by simpa using opened
  by_cases due : s.engLive = true ∧ s.streamMode = .writer
  · have := E.writerFinish (E.finishing s h opened due.1 due.2)
    rw [Act.wp_bind] at this ⊢
    unfold attempt Act.wp at this ⊢
    unfold finishIfTouched finish
    simpa [onlyIf, due.1, due.2] using this
  · have t := E.unfinished s h opened fun live mode => due ⟨live, mode⟩
    rw [Act.wp_bind]
    refine Act.wp_attempt _ ?_
    unfold finishIfTouched
    rw [Act.wp_bind, Act.wp_getState, Act.wp_onlyIf]
    refine ⟨fun live => ?_, fun _ => E.teardown _ t⟩
    unfold finish
    rw [Act.wp_bind, Act.wp_getState]
    cases mode : s.streamMode with
    | undefined => exact E.teardown _ t
    | reader =>
      unfold readerFinish
      rw [Act.wp_bind, Act.wp_getState, Act.wp_onlyIf]
      refine ⟨fun _ => ?_, fun _ => E.teardown _ t⟩
      cases s.cmode <;> exact E.teardown _ t
    | writer => exact absurd ⟨live, mode⟩ due

/-! ### A whole step -/

theorem unsupported (m : Mnemonic) (h : M s) :
    Act.wp (Machine.unsupported m) (fun r s' => I (s'.respond r)) (Exit.Leaves noBuffer I) s := by
  unfold Machine.unsupported
  rw [Act.wp_bind, Act.wp_getState, Act.wp_ite]
  exact ⟨fun _ => E.answer s _ h rfl, fun _ => E.answer s _ h rfl⟩

theorem exec {i : Instr} {t : State} (h : s.inFlight = none → M s) (ht : Machine.exec i s = .next t) : I t := by
  cases i with
  | write len =>
    have ht : execWrite len s = .next t := ht
    unfold execWrite at ht
    split at ht
    · exact runCommand_next (fun f => E.writeBody _ (h f)) ht
    · cases ht
  | read len =>
    have ht : execRead len s = .next t := ht
    unfold execRead at ht
    split at ht
    · exact runCommand_next (fun f => E.readBody _ (h f) ‹_›) ht
    · cases ht
  | flush =>
    refine runCommand_next (body := flushBody) (fun f => ?_) ht
    unfold flushBody
    rw [Act.wp_bind, Act.wp_getState, Act.wp_ite]
    refine ⟨fun _ => E.answer s _ (h f) rfl, fun opened => ?_⟩
    rw [Act.wp_bind]
    exact askFlush_wp (Exit.leaves_halts (E.stuckFlush s (h f) (by simpa using opened))) fun a p d =>
      E.answer _ _ (E.flush s p d a (h f) (by simpa using opened)) (by cases a <;> rfl)
  | close => exact runCommand_next (body := Machine.closeBody) (fun f => E.closeBody (h f)) ht
  | seek offset origin =>
    refine runCommand_next (body := (if (Instr.seek offset origin).wf then Machine.unsupported .seek
      else raise (.illegalCommand (Instr.seek offset origin).encode))) (fun f => ?_) ht
    rw [Act.wp_ite]
    exact ⟨fun _ => E.unsupported _ (h f), fun _ => E.answer s _ (h f) rfl⟩
  | getpos => exact runCommand_next (body := Machine.unsupported .getpos) (fun f => E.unsupported _ (h f)) ht
  | setpos value => exact runCommand_next (body := Machine.unsupported .setpos) (fun f => E.unsupported _ (h f)) ht
  | setlen value => exact runCommand_next (body := Machine.unsupported .setlen) (fun f => E.unsupported _ (h f)) ht
  | getlen =>
    refine runCommand_next (body := getlenBody) (fun f => ?_) ht
    unfold getlenBody
    rw [Act.wp_bind, Act.wp_getState, Act.wp_ite]
    refine ⟨fun _ => E.answer s _ (h f) rfl, fun opened => ?_⟩
    rw [Act.wp_bind]
    exact askLength_wp (Exit.leaves_halts (E.stuckLength s (h f) (by simpa using opened))) fun a p d =>
      E.answer _ _ (E.length s p d a (h f) (by simpa using opened)) (by cases a <;> rfl)
  | rdstat sel =>
    refine runCommand_next (body := rdstatBody sel) (fun f => ?_) ht
    unfold rdstatBody
    rw [Act.wp_bind, Act.wp_getState]
    cases statReg sel <;> exact E.answer s _ (h f) rfl

theorem resume {f : InFlight} {t : State} (h : I s) (hf : s.inFlight = some f)
    (ht : Machine.resume f s.resumed = .next t) : I t := by
  cases f with
  | writeLoop => exact settle_next (E.writeLoop (E.resumeWrite s h hf)) ht
  | finishLoop => exact settle_next (body := Machine.resumeFinish) (E.writerFinish (E.resumeFinish s h hf)) ht
  | readLoop len room w =>
    obtain ⟨l, pos⟩ := E.resumeRead len room w s h hf
    exact settle_next (E.readLoop len room w l pos) ht
  | nameLoop len hd acc =>
    obtain ⟨hs, ten, name, none, flag⟩ := E.resumeName len s hd acc h hf
    exact settle_next (body := Machine.resumeName len hd acc) (E.readName len hd acc hs ten name none flag) ht
  | commentLoop len hd acc =>
    obtain ⟨hs, ten, name, none, flag⟩ := E.resumeComment len s hd acc h hf
    exact settle_next (body := Machine.resumeComment len hd acc) (E.readComment len hd acc hs ten name none flag) ht
  | stuck p =>
    cases ht
    have same : s.resumed.paused (.stuck p) = s := by
      cases s
      cases hf
      rfl
    rwa [same]

/-- Every step keeps the property. -/
theorem step {t : State} (h : I s) (ht : Machine.step s = .next t) : I t := by
  unfold Machine.step at ht
  split at ht
  · exact E.resume h ‹_› ht
  · rename_i none
    have m := E.start s h none
    split at ht
    · cases ht
      exact h
    · split at ht
      · cases ht
        exact E.answer _ _ (E.take s _ m) rfl
      · exact E.exec (fun _ => E.data _ _ (E.take s _ m)) ht

end Phases

end Sys2Proof.Machine
end

