-- ==== Sys2Proof/Laws/Invariant.lean ====
section
/-! SUPPORT. What the invariant of an instance says inside a command, phase by phase, and that each elementary effect
keeps it. The phases are those of `Phases`; the step itself is not proved here. -/

namespace Sys2Proof.Machine

/-- The invariant with no command in flight: what holds inside a command. -/
def State.Between (s : State) : Prop :=
  (s.WindowInv ∧ s.ChecksumInv ∧ s.BufferInv ∧
    ((s.engLive = true → s.streamMode ≠ .undefined ∧ s.disposed = false) ∧
      (s.noMoreInput = true → s.streamMode = .reader)) ∧ s.HeaderInv) ∧
  s.inFlight = none

/-- Inside a WRITE, its mode set. -/
def State.Writing (s : State) : Prop := s.Between ∧ s.streamMode = .writer ∧ s.disposed = false

/-- Inside a loop of push steps. -/
def State.Pushing (s : State) : Prop := s.Writing ∧ s.engLive = true

/-- Inside CLOSE, before the teardown. -/
def State.Tearing (s : State) : Prop := s.Between ∧ s.disposed = false

/-- Inside CLOSE, the engine and the buffer given back. -/
def State.Closing (s : State) : Prop := s.Between ∧ s.disposed = false ∧ s.engLive = false

/-- Inside a READ of `len` bytes, its mode set. -/
def State.Reading (len : Nat) (s : State) : Prop :=
  s.Between ∧ s.streamMode = .reader ∧ s.disposed = false ∧ s.caller.length = len

/-- Inside the header parse of a READ of `len` bytes. -/
def State.Parsing (len : Nat) (s : State) : Prop :=
  s.Reading len ∧ s.flavor = .gzip ∧ s.cmode = .decompress ∧ s.hdrState = .none ∧ s.engLive = false

/-- Inside READ's loop, `w` produced and `room` left. -/
def State.Pulling (len room : Nat) (w : Bytes) (s : State) : Prop :=
  s.Reading len ∧ s.engLive = true ∧ room + w.length = len ∧ s.caller.take w.length = w

variable {s : State}

theorem State.Between.inv (h : s.Between) : s.Inv := by
  obtain ⟨h, f⟩ := h
  exact ⟨h.1, h.2.1, h.2.2.1, ⟨h.2.2.2.1.1, h.2.2.2.1.2, by simp [f]⟩, h.2.2.2.2, by simp [State.FlightInv, f]⟩

theorem State.Inv.between (h : s.Inv) (f : s.inFlight = none) : s.Between :=
  ⟨⟨h.1, h.2.1, h.2.2.1, ⟨h.2.2.2.1.1, h.2.2.2.1.2.1⟩, h.2.2.2.2.1⟩, f⟩

/-- Between two transactions the engine and the buffer are live together. -/
theorem State.Between.together (h : s.Between) : s.engLive = s.wbLive :=
  h.1.2.2.1.2.1 (by simp [h.2]) (by simp [h.2])

/-- A command that goes on: one in flight that is not stuck. -/
theorem State.Inv.resumed (h : s.Inv) (going : ∀ p, ¬s.StuckOn p) : s.resumed.Between :=
  ⟨⟨h.1, h.2.1, ⟨h.2.2.1.1, fun _ _ => h.2.2.1.2.1 (going _) (going _), h.2.2.1.2.2⟩,
    ⟨h.2.2.2.1.1, h.2.2.2.1.2.1⟩, h.2.2.2.2.1⟩, rfl⟩

/-- What the invariant says of a command in flight. -/
theorem State.Inv.fits (h : s.Inv) {f : InFlight} (hf : s.inFlight = some f) :
    InFlight.fits s f = true ∧ s.disposed = false :=
  ⟨by have := h.2.2.2.2.2; simpa [State.FlightInv, hf] using this, h.2.2.2.1.2.2 (by simp [hf])⟩

theorem State.Between.paused (h : s.Between) (opened : s.disposed = false) (f : InFlight)
    (fits : InFlight.fits s f = true) : (s.paused f).Inv := by
  have together := h.together
  obtain ⟨h, -⟩ := h
  refine ⟨h.1, h.2.1, ⟨h.2.2.1.1, fun _ _ => together, h.2.2.1.2.2⟩, ⟨h.2.2.2.1.1, h.2.2.2.1.2, fun _ => opened⟩, h.2.2.2.2, ?_⟩
  show ((s.paused f).inFlight.all (InFlight.fits (s.paused f))) = true
  cases f
  case stuck p => cases p <;> exact fits
  all_goals exact fits

theorem State.Between.setMode (h : s.Between) (fresh : s.streamMode = .undefined) {m : StreamMode}
    (direction : m ≠ .undefined) (opened : s.disposed = false) : (s.setMode m).Between := by
  obtain ⟨⟨window, checksum, buffer, life, header⟩, f⟩ := h
  refine ⟨⟨window, checksum, buffer, ?_, ?_⟩, f⟩ <;> simp_all [State.HeaderInv]

theorem State.Between.hdr_none (h : s.Between) (fresh : s.streamMode = .undefined) : s.hdrState = .none := by
  obtain ⟨⟨-, -, -, -, header⟩, -⟩ := h
  cases e : s.hdrState <;> simp_all [State.HeaderInv]

theorem State.Between.hdrEmitted (h : s.Between) (fresh : s.streamMode = .undefined) (opened : s.disposed = false)
    (gzip : s.flavor = .gzip) (compress : s.cmode = .compress) (t : U32) :
    ((s.setMode .writer).hdrEmitted t).Between := by
  obtain ⟨⟨window, checksum, buffer, life, -⟩, f⟩ := h.setMode fresh (m := .writer) (by simp) opened
  exact ⟨⟨window, checksum, buffer, life, by simp [State.HeaderInv, gzip, compress]⟩, f⟩

theorem State.Between.crcFeed (h : s.Between) (b : Bytes) : (s.crcFeed b).Between := by
  unfold State.crcFeed
  split <;> exact h

theorem State.Between.loadWindow (h : s.Between) (b : Bytes) : (s.loadWindow b).Between :=
  ⟨⟨by simp [State.WindowInv], h.1.2⟩, h.2⟩

/-- Materialise: the engine initialised and the buffer leased. -/
theorem State.Between.started (h : s.Between) (direction : s.streamMode ≠ .undefined) (opened : s.disposed = false)
    (stream : s.hdrState ≠ .empty) (p p' : Ports) (d d' : Nat) (t t' : Txn) (b : Bytes)
    (long : s.workbufSize ≤ b.length) :
    ((((s.exchanged p d t).setEngLive true).exchanged p' d' t').leased b).Between := by
  obtain ⟨⟨window, checksum, buffer, life, header⟩, f⟩ := h
  refine ⟨⟨window, checksum, ?_, ?_, ?_⟩, f⟩
  · have := buffer.1
    simp [State.BufferInv]
    omega
  · simp_all
  · exact ⟨header.1, header.2.1, header.2.2.1, fun e => absurd e stream⟩

/-- Materialise stuck between the engine and the buffer. -/
theorem State.Between.stuckLease (h : s.Between) (direction : s.streamMode ≠ .undefined) (opened : s.disposed = false)
    (stream : s.hdrState ≠ .empty) (off : s.engLive = false) (p : Ports) (d : Nat) (t : Txn) :
    (((s.exchanged p d t).setEngLive true).paused (.stuck .poolLease)).Inv := by
  have idle : s.wbLive = false := h.together ▸ off
  obtain ⟨⟨window, checksum, buffer, life, header⟩, f⟩ := h
  refine ⟨window, checksum, ⟨buffer.1, fun e => absurd rfl e, buffer.2.2⟩, ⟨fun _ => ⟨direction, opened⟩, life.2,
    fun _ => opened⟩, ⟨header.1, header.2.1, header.2.2.1, fun e => absurd e stream⟩, ?_⟩
  simp [State.FlightInv, InFlight.fits, PortName.fits, idle]

/-- Teardown stuck between the engine's end and the buffer's release. -/
theorem State.Between.stuckRelease (h : s.Between) (opened : s.disposed = false) (live : s.engLive = true) (p : Ports)
    (d : Nat) (t : Txn) : (((s.exchanged p d t).setEngLive false).paused (.stuck .poolRelease)).Inv := by
  have leased : s.wbLive = true := h.together ▸ live
  obtain ⟨⟨window, checksum, buffer, life, header⟩, f⟩ := h
  refine ⟨window, checksum, ⟨buffer.1, fun _ e => absurd rfl e, buffer.2.2⟩, ⟨fun e => by simp at e, life.2,
    fun _ => opened⟩, ⟨header.1, header.2.1, header.2.2.1, fun e => ?_⟩, ?_⟩
  · exact absurd live (by simp [(header.2.2.2 e).2.2.2.2])
  · simp [State.FlightInv, InFlight.fits, PortName.fits, leased]

/-- A push step: the window moves and its bytes go to WORK. -/
theorem State.Between.pushed (h : s.Between) (flush : FlushType) (a : StepAnswer) (p : Ports) (d : Nat)
    (live : s.engLive = true) (fits : stepFits s.window s.wbLen a = true) :
    (((s.exchanged p d (.engStep flush s.cmode s.window s.wbLen a)).afterStep a).setWork
      (memWrite s.work 0 a.produced)).Between := by
  have inside := window_length_le s
  have leased : s.wbLive = true := h.together ▸ live
  rw [stepFits_iff] at fits
  obtain ⟨⟨window, checksum, buffer, life, header⟩, f⟩ := h
  have whole := buffer.2.2.1 leased
  have kept : (memWrite s.work 0 a.produced).length = s.work.length := memWrite_length _ _ _ (by omega)
  refine ⟨⟨?_, checksum, ?_, life, header⟩, f⟩
  · simp [State.WindowInv] at *
    omega
  · exact ⟨buffer.1, buffer.2.1, fun _ => ⟨kept.trans whole.1, whole.2⟩, fun e => by
      have e : s.wbLive = false := e
      simp [e] at leased⟩

/-- A pull step: the window moves and its bytes go to CALLER. -/
theorem State.Between.stepped (h : s.Between) (flush : FlushType) (a : StepAnswer) (p : Ports) (d room : Nat)
    (c : Bytes) (fits : stepFits s.window room a = true) :
    (((s.exchanged p d (.engStep flush s.cmode s.window room a)).afterStep a).setCaller c).Between := by
  have inside := window_length_le s
  rw [stepFits_iff] at fits
  obtain ⟨⟨window, checksum, buffer, life, header⟩, f⟩ := h
  refine ⟨⟨?_, checksum, buffer, life, header⟩, f⟩
  simp [State.WindowInv] at *
  omega

/-- A chunk pull. -/
theorem State.Between.pulled (h : s.Between) (reader : s.streamMode = .reader) (live : s.engLive = true) (k : Bytes)
    (p : Ports) (d : Nat) (t : Txn) (short : k.length ≤ s.wbLen) : ((s.exchanged p d t).pulled k).Between := by
  have leased : s.wbLive = true := h.together ▸ live
  obtain ⟨⟨window, checksum, buffer, life, header⟩, f⟩ := h
  have kept : (memWrite s.work 0 k).length = s.work.length := memWrite_length _ _ _ (by simp_all)
  refine ⟨⟨by simp [State.WindowInv], checksum, ?_, ?_, header⟩, f⟩ <;> simp_all [State.BufferInv]

/-- The engine ended and the buffer released. -/
theorem State.Between.tornDown (h : s.Between) (p p' : Ports) (d d' : Nat) : (s.tornDown p p' d d').Between := by
  obtain ⟨⟨window, checksum, buffer, life, header⟩, f⟩ := h
  refine ⟨⟨by simpa [State.WindowInv] using window, checksum, ?_, ?_, ?_⟩, by simpa using f⟩
  · simp [State.BufferInv, buffer.1]
  · simpa using life.2
  · simp only [State.HeaderInv] at *
    simp_all

theorem State.Closing.setDisposed (h : s.Closing) : s.setDisposed.Between := by
  obtain ⟨⟨⟨window, checksum, buffer, life, header⟩, f⟩, -, ended⟩ := h
  exact ⟨⟨window, checksum, buffer, ⟨fun e => by simp [ended] at e, life.2⟩, header⟩, f⟩

/-- A Writer's stream is not the empty one a parse has met. -/
theorem State.Writing.hdr_ne_empty (h : s.Writing) : s.hdrState ≠ .empty := by
  obtain ⟨⟨⟨-, -, -, -, header⟩, -⟩, writer, -⟩ := h
  intro e
  have := (header.2.2.2 e).2.2.1
  simp_all

/-- The header registers after an empty channel. -/
theorem State.Parsing.hdrEmpty {len : Nat} (h : s.Parsing len) : s.hdrEmpty.Between := by
  obtain ⟨⟨⟨⟨window, checksum, buffer, life, header⟩, f⟩, reader, opened, long⟩, gzip, decompress, fresh, idle⟩ := h
  exact ⟨⟨window, checksum, buffer, life, by simp_all [State.HeaderInv]⟩, f⟩

end Sys2Proof.Machine
end

