-- ==== Sys2Proof/Laws/Keeps.lean ====
section
/-! SUPPORT. The induction of a whole step, packaged once: a property that every elementary effect keeps is kept by
every step (`step_keeps`). -/

namespace Sys2Proof.Machine

/-- `m` keeps `P`, however it ends. -/
def Act.Keeps {α : Type} (P : State → Prop) (m : Act α) : Prop :=
  ∀ s, P s → Act.wp m (fun _ s' => P s') (fun _ s' => P s') s

/-- The port transactions keep `P`. -/
structure PortEffects (P : State → Prop) : Prop where
  other : ∀ s p d t, t.isStep = false → P s → P (s.exchanged p d t)
  stepped : ∀ s flush cap p d a, stepFits s.window cap a = true → P s →
    P ((s.exchanged p d (.engStep flush s.cmode s.window cap a)).afterStep a)

/-- The effects of a push step keep `P`. -/
structure PushEffects (P : State → Prop) : Prop extends PortEffects P where
  work : ∀ s b, P s → P (s.setWork b)

/-- The effects of Materialise keep `P`. -/
structure StartEffects (P : State → Prop) : Prop extends PortEffects P where
  started : ∀ s, s.engLive = false → P s → P (s.setEngLive true)
  leased : ∀ s b, s.wbLive = false → P s → P (s.leased b)

/-- The effects of WRITE past its first-call work keep `P`. -/
structure WriteEffects (P : State → Prop) : Prop extends PushEffects P, StartEffects P where
  crc : ∀ s b, P s → P (s.crcFeed b)
  window : ∀ s b, P s → P (s.loadWindow b)

/-- The effects of READ past its first-call work keep `P`. -/
structure ReadEffects (P : State → Prop) : Prop extends StartEffects P where
  crc : ∀ s b, P s → P (s.crcFeed b)
  pulled : ∀ s k, P s → P (s.pulled k)
  caller : ∀ s b, P s → P (s.setCaller b)

/-- The effects of a header parse keep `P`. -/
structure ParseEffects (P : State → Prop) : Prop extends PortEffects P where
  hdrEmpty : ∀ s, P s → P s.hdrEmpty
  hdrParsed : ∀ s h, P s → P (s.hdrParsed h)

/-- The effects of the teardown keep `P`. -/
structure TeardownEffects (P : State → Prop) : Prop extends PortEffects P where
  stopped : ∀ s, P s → P (s.setEngLive false)
  released : ∀ s, P s → P s.released
  disposed : ∀ s, P s → P s.setDisposed

/-- The effects of CLOSE keep `P`. -/
structure CloseEffects (P : State → Prop) : Prop extends PushEffects P, TeardownEffects P

/-- Every elementary effect inside a command keeps `P`. -/
structure BodyEffects (P : State → Prop) : Prop extends WriteEffects P, ReadEffects P, ParseEffects P, CloseEffects P where
  mode : ∀ s m, s.streamMode = .undefined → P s → P (s.setMode m)
  hdrEmitted : ∀ s t, P s → P (s.hdrEmitted t)

/-- Every elementary effect of the block keeps `P`. -/
structure Effects (P : State → Prop) : Prop extends BodyEffects P where
  respond : ∀ s r, P s → P (s.respond r)
  paused : ∀ s f, P s → P (s.paused f)
  resumed : ∀ s, P s → P s.resumed
  command : ∀ s rest, P s → P (s.takeCommand rest)
  data : ∀ s b, P s → P (s.withData b)

section
variable {α β σ : Type} {P : State → Prop}

theorem keeps_pure (a : α) : Act.Keeps P (pure a) := fun _ h => h

theorem keeps_raise (e : Error) : Act.Keeps P (raise e : Act α) := fun _ h => h

theorem keeps_getState : Act.Keeps P getState := fun _ h => h

theorem keeps_update {f : State → State} (h : ∀ s, P s → P (f s)) : Act.Keeps P (update f) := h

theorem keeps_bind {m : Act α} {f : α → Act β} (hm : Act.Keeps P m) (hf : ∀ a, Act.Keeps P (f a)) :
    Act.Keeps P (m >>= f) := fun s h =>
  (Act.wp_bind m f).2 (Act.wp_mono (hm s h) (fun a s' h' => hf a s' h') fun _ _ h' => h')

theorem keeps_ite {c : Prop} [Decidable c] {m n : Act α} (hm : Act.Keeps P m) (hn : Act.Keeps P n) :
    Act.Keeps P (if c then m else n) := by
  split <;> assumption

theorem keeps_onlyIf {c : Prop} [Decidable c] {m : Act Unit} (hm : Act.Keeps P m) : Act.Keeps P (onlyIf c m) :=
  keeps_ite hm (keeps_pure ())

theorem keeps_attempt {m : Act Unit} (hm : Act.Keeps P m) : Act.Keeps P (attempt m) := fun s h =>
  Act.wp_attempt m (Act.wp_mono (hm s h) (fun _ _ h' => h') fun x _ h' => by cases x <;> exact h')

theorem keeps_iterate {body : σ → Act (σ ⊕ α)} {at_ : σ → InFlight} (hb : ∀ x, Act.Keeps P (body x)) (more : Nat)
    (x : σ) : Act.Keeps P (iterate body at_ more x) := fun s h =>
  Act.wp_iterate (fun _ s => P s)
    (fun x s hs => Act.wp_mono (hb x s hs) (fun r _ h' => by cases r <;> exact h') fun _ _ h' => h')
    (fun _ _ h' => h') more x h


theorem keeps_chRead (E : PortEffects P) (n : Nat) : Act.Keeps P (chRead n) := by
  intro s h
  unfold chRead
  rw [Act.wp_bind]
  refine askRead_wp n ⟨h, fun _ => h⟩ fun a p d _ => ?_
  cases a <;> exact E.other _ _ _ _ rfl h

theorem keeps_chWrite (E : PortEffects P) (b : Bytes) : Act.Keeps P (chWrite b) := by
  intro s h
  unfold chWrite
  rw [Act.wp_bind]
  refine askWrite_wp b ⟨h, fun _ => h⟩ fun a p d _ => ?_
  cases a <;> exact E.other _ _ _ _ rfl h

theorem keeps_askFlush (E : PortEffects P) : Act.Keeps P askFlush := fun _ h =>
  askFlush_wp ⟨h, fun _ => h⟩ fun _ _ _ => E.other _ _ _ _ rfl h

theorem keeps_chFlush (E : PortEffects P) : Act.Keeps P chFlush :=
  keeps_bind (keeps_askFlush E) fun a => by cases a <;> exact fun _ h => h

theorem keeps_askClose (E : PortEffects P) : Act.Keeps P askClose := fun _ h =>
  askClose_wp ⟨h, fun _ => h⟩ fun _ _ _ => E.other _ _ _ _ rfl h

theorem keeps_askLength (E : PortEffects P) : Act.Keeps P askLength := fun _ h =>
  askLength_wp ⟨h, fun _ => h⟩ fun _ _ _ => E.other _ _ _ _ rfl h

theorem keeps_clock (E : PortEffects P) : Act.Keeps P clock := fun _ h =>
  clock_wp ⟨h, fun _ => h⟩ fun _ _ _ => E.other _ _ _ _ rfl h

theorem keeps_engEnd (E : PortEffects P) (dir : CMode) : Act.Keeps P (engEnd dir) := fun _ h =>
  engEnd_wp dir ⟨h, fun _ => h⟩ fun _ _ => E.other _ _ _ _ rfl h

theorem keeps_poolRelease (E : PortEffects P) : Act.Keeps P poolRelease := fun _ h =>
  poolRelease_wp ⟨h, fun _ => h⟩ fun _ _ => E.other _ _ _ _ rfl h

theorem keeps_engStep (E : PortEffects P) (flush : FlushType) (cap : Nat) : Act.Keeps P (engStep flush cap) := by
  intro s h
  unfold engStep
  rw [Act.wp_bind, Act.wp_getState, Act.wp_bind]
  exact askStep_wp _ _ _ _ ⟨h, fun _ => h⟩ fun a p d fits => E.stepped s flush cap p d a fits h

theorem keeps_startEngine (E : StartEffects P) {s : State} (off : s.engLive = false) (h : P s) :
    Act.wp startEngine (fun _ s' => P s') (fun _ s' => P s') s := by
  unfold startEngine
  rw [Act.wp_bind, Act.wp_getState, Act.wp_bind]
  refine askInit_wp _ _ _ ⟨h, fun _ => h⟩ fun a p d => ?_
  cases a with
  | ok u => exact E.started _ off (E.other _ _ _ _ rfl h)
  | fail msg => exact E.other _ _ _ _ rfl h

theorem keeps_leaseBuffer (E : StartEffects P) {s : State} (off : s.wbLive = false) (h : P s) :
    Act.wp leaseBuffer (fun _ s' => P s') (fun _ s' => P s') s := by
  unfold leaseBuffer
  rw [Act.wp_bind, Act.wp_getState, Act.wp_bind]
  exact poolLease_wp _ ⟨h, fun _ => h⟩ fun b p d _ => E.leased _ _ off (E.other _ _ _ _ rfl h)

theorem keeps_materialise (E : StartEffects P) : Act.Keeps P materialise := by
  have lease : Act.Keeps P (do let s ← getState; onlyIf (s.wbLive = false) leaseBuffer) := fun s h => by
    rw [Act.wp_bind, Act.wp_getState, Act.wp_onlyIf]
    exact ⟨fun off => keeps_leaseBuffer E off h, fun _ => h⟩
  intro s h
  unfold materialise
  rw [Act.wp_bind, Act.wp_getState, Act.wp_bind, Act.wp_onlyIf]
  refine ⟨fun off => ?_, fun _ => lease s h⟩
  exact Act.wp_mono (keeps_startEngine E off h) (fun _ s' h' => lease s' h') fun _ _ h' => h'

/-! ### The envelope -/

theorem keeps_readFill (E : PortEffects P) (n rounds : Nat) (b : Bytes) : Act.Keeps P (readFill n rounds b) := by
  induction rounds generalizing b with
  | zero => exact keeps_pure _
  | succ k ih =>
    exact keeps_ite (keeps_bind (keeps_chRead E _) fun r => keeps_ite (keeps_pure _) (ih _)) (keeps_pure _)

theorem keeps_readField (E : PortEffects P) (place : HdrField) (n : Nat) : Act.Keeps P (readField place n) :=
  keeps_bind (keeps_readFill E n n []) fun _ => keeps_ite (keeps_raise _) (keeps_pure _)

theorem keeps_skipExtra (E : PortEffects P) : Act.Keeps P skipExtra :=
  keeps_bind (keeps_readField E _ _) fun _ => keeps_bind (keeps_readField E _ _) fun _ => keeps_pure _

theorem keeps_checkFixed (h : Bytes) : Act.Keeps P (checkFixed h) :=
  keeps_ite (keeps_raise _) (keeps_ite (keeps_raise _) (keeps_pure _))

theorem keeps_hdrOpen (E : ParseEffects P) : Act.Keeps P hdrOpen :=
  keeps_bind (keeps_readFill E.toPortEffects 10 10 []) fun _ =>
    keeps_ite (keeps_bind (keeps_update E.hdrEmpty) fun _ => keeps_pure _)
      (keeps_ite (keeps_raise _)
        (keeps_bind (keeps_checkFixed _) fun _ =>
          keeps_ite (keeps_bind (keeps_skipExtra E.toPortEffects) fun _ => keeps_pure _) (keeps_pure _)))

theorem keeps_zstringRound (E : PortEffects P) (place : HdrField) (acc : Bytes) : Act.Keeps P (zstringRound place acc) :=
  keeps_bind (keeps_readField E _ _) fun _ => keeps_ite (keeps_pure _) (keeps_pure _)

theorem keeps_readName (E : PortEffects P) (len : Nat) (h : HdrFields) (acc : Bytes) : Act.Keeps P (readName len h acc) :=
  keeps_bind keeps_getState fun _ => keeps_bind (keeps_iterate (keeps_zstringRound E _) _ _) fun _ => keeps_pure _

theorem keeps_readComment (E : PortEffects P) (len : Nat) (h : HdrFields) (acc : Bytes) : Act.Keeps P (readComment len h acc) :=
  keeps_bind keeps_getState fun _ => keeps_bind (keeps_iterate (keeps_zstringRound E _) _ _) fun _ => keeps_pure _

theorem keeps_hdrClose (E : ParseEffects P) (h : HdrFields) : Act.Keeps P (hdrClose h) :=
  keeps_ite (keeps_bind (keeps_readField E.toPortEffects _ _) fun _ => keeps_update fun s => E.hdrParsed s _)
    (keeps_update fun s => E.hdrParsed s _)

theorem keeps_hdrFromComment (E : ParseEffects P) (len : Nat) (h : HdrFields) : Act.Keeps P (hdrFromComment len h) :=
  keeps_bind (keeps_ite (keeps_readComment E.toPortEffects _ _ _) (keeps_pure _)) fun _ => keeps_hdrClose E _

theorem keeps_hdrFromName (E : ParseEffects P) (len : Nat) (h : HdrFields) : Act.Keeps P (hdrFromName len h) :=
  keeps_bind (keeps_ite (keeps_readName E.toPortEffects _ _ _) (keeps_pure _)) fun _ => keeps_hdrFromComment E _ _

theorem keeps_timestamp (E : PortEffects P) : Act.Keeps P timestamp :=
  keeps_bind keeps_getState fun s => by
    cases s.mtimeFixed with
    | some m => exact keeps_pure _
    | none => exact keeps_bind (keeps_clock E) fun _ => keeps_pure _

theorem keeps_hdrEmit (E : BodyEffects P) : Act.Keeps P hdrEmit :=
  keeps_bind (keeps_timestamp E.toPortEffects) fun _ => keeps_bind keeps_getState fun _ =>
    keeps_bind (keeps_chWrite E.toPortEffects _) fun _ => keeps_update fun s => E.hdrEmitted s _

theorem keeps_trailerEmit (E : PortEffects P) : Act.Keeps P trailerEmit := keeps_bind keeps_getState fun _ => keeps_chWrite E _

/-! ### WRITE -/

theorem keeps_pushStep (E : PushEffects P) (flush : FlushType) : Act.Keeps P (pushStep flush) :=
  keeps_bind keeps_getState fun _ => keeps_bind (keeps_engStep E.toPortEffects _ _) fun _ =>
    keeps_bind (keeps_update fun s => E.work s _) fun _ =>
      keeps_ite (keeps_raise _)
        (keeps_bind keeps_getState fun _ => keeps_bind (keeps_onlyIf (keeps_chWrite E.toPortEffects _)) fun _ => keeps_pure _)

theorem keeps_writeRound (E : PushEffects P) (u : Unit) : Act.Keeps P (writeRound u) :=
  keeps_bind (keeps_pushStep E _) fun _ => keeps_bind keeps_getState fun _ => keeps_ite (keeps_pure _) (keeps_pure _)

theorem keeps_writeLoop (E : PushEffects P) : Act.Keeps P writeLoop :=
  keeps_bind keeps_getState fun _ => keeps_iterate (keeps_writeRound E) _ _

theorem keeps_writeData (E : WriteEffects P) (len : Nat) : Act.Keeps P (writeData len) :=
  keeps_ite (keeps_pure _)
    (keeps_bind (keeps_update fun s => E.crc s _) fun _ => keeps_bind (keeps_materialise E.toStartEffects) fun _ =>
      keeps_bind (keeps_update fun s => E.window s _) fun _ => keeps_writeLoop E.toPushEffects)

theorem keeps_writeBody (E : BodyEffects P) (len : Nat) : Act.Keeps P (writeBody len) := by
  intro s h
  unfold writeBody
  rw [Act.wp_bind, Act.wp_getState, Act.wp_ite]
  refine ⟨fun _ => h, fun _ => ?_⟩
  rw [Act.wp_ite]
  refine ⟨fun _ => h, fun _ => ?_⟩
  rw [Act.wp_bind, Act.wp_onlyIf]
  refine ⟨fun first => ?_, fun _ => keeps_writeData E.toWriteEffects len s h⟩
  have go : Act.Keeps P (do let s ← getState; onlyIf (s.flavor = .gzip ∧ s.cmode = .compress) hdrEmit) :=
    keeps_bind keeps_getState fun _ => keeps_onlyIf (keeps_hdrEmit E)
  exact Act.wp_mono (go _ (E.mode s _ first h)) (fun _ s' h' => keeps_writeData E.toWriteEffects len s' h') fun _ _ h' => h'

/-! ### READ -/

theorem keeps_readAnswer (n : Nat) : Act.Keeps P (readAnswer n) := keeps_bind keeps_getState fun _ => keeps_pure _

theorem keeps_pullChunk (E : ReadEffects P) : Act.Keeps P pullChunk :=
  keeps_bind keeps_getState fun _ => keeps_bind (keeps_chRead E.toPortEffects _) fun _ => keeps_update fun s => E.pulled s _

theorem keeps_pullStep (E : ReadEffects P) (flush : FlushType) (room : Nat) (w : Bytes) : Act.Keeps P (pullStep flush room w) :=
  keeps_bind (keeps_engStep E.toPortEffects _ _) fun _ => keeps_bind (keeps_update fun s => E.caller s _) fun _ => keeps_pure _

theorem keeps_finalStep (E : ReadEffects P) (room : Nat) (w : Bytes) : Act.Keeps P (finalStep room w) :=
  keeps_bind keeps_getState fun _ =>
    keeps_ite (keeps_bind (keeps_pullStep E _ _ _) fun _ => keeps_ite (keeps_raise _) (keeps_pure _)) (keeps_pure _)

theorem keeps_readEnd (E : ReadEffects P) (len room : Nat) (w : Bytes) : Act.Keeps P (readEnd len room w) :=
  keeps_bind (keeps_finalStep E _ _) fun _ => keeps_bind (keeps_update fun s => E.crc s _) fun _ => keeps_readAnswer _

theorem keeps_readRound (E : ReadEffects P) (len : Nat) (x : Nat × Bytes) : Act.Keeps P (readRound len x) :=
  keeps_bind keeps_getState fun _ => keeps_bind (keeps_onlyIf (keeps_pullChunk E)) fun _ =>
    keeps_bind (keeps_pullStep E _ _ _) fun _ => keeps_bind keeps_getState fun _ =>
      keeps_ite (keeps_bind (keeps_readAnswer _) fun _ => keeps_pure _)
        (keeps_ite (keeps_raise _)
          (keeps_ite (keeps_pure _) (keeps_bind (keeps_readEnd E _ _ _) fun _ => keeps_pure _)))

theorem keeps_readLoop (E : ReadEffects P) (len room : Nat) (w : Bytes) : Act.Keeps P (readLoop len room w) :=
  keeps_bind keeps_getState fun _ => keeps_iterate (keeps_readRound E len) _ _

theorem keeps_readData (E : ReadEffects P) (len : Nat) : Act.Keeps P (readData len) :=
  keeps_bind keeps_getState fun _ =>
    keeps_ite (keeps_readAnswer _)
      (keeps_ite (keeps_readAnswer _) (keeps_bind (keeps_materialise E.toStartEffects) fun _ => keeps_readLoop E _ _ _))

theorem keeps_readParsing (E : BodyEffects P) (len : Nat) : Act.Keeps P (readParsing len) :=
  keeps_bind (keeps_hdrOpen E.toParseEffects) fun h => by
    cases h with
    | none => exact keeps_readAnswer _
    | some h => exact keeps_bind (keeps_hdrFromName E.toParseEffects _ _) fun _ => keeps_readData E.toReadEffects _

theorem keeps_readBody (E : BodyEffects P) (len : Nat) : Act.Keeps P (readBody len) := by
  intro s h
  unfold readBody
  rw [Act.wp_bind, Act.wp_getState, Act.wp_ite]
  refine ⟨fun _ => h, fun _ => ?_⟩
  rw [Act.wp_ite]
  refine ⟨fun _ => h, fun _ => ?_⟩
  rw [Act.wp_ite]
  refine ⟨fun first => ?_, fun _ => keeps_readData E.toReadEffects len s h⟩
  have go : Act.Keeps P (do
      let s ← getState
      if s.flavor = .gzip ∧ s.cmode = .decompress then readParsing len else readData len) :=
    keeps_bind keeps_getState fun _ => keeps_ite (keeps_readParsing E _) (keeps_readData E.toReadEffects _)
  exact go _ (E.mode s _ first h)

/-! ### The control commands -/

theorem keeps_flushBody (E : PortEffects P) : Act.Keeps P flushBody :=
  keeps_bind keeps_getState fun _ => keeps_ite (keeps_raise _) (keeps_bind (keeps_askFlush E) fun _ => keeps_pure _)

theorem keeps_getlenBody (E : PortEffects P) : Act.Keeps P getlenBody :=
  keeps_bind keeps_getState fun _ => keeps_ite (keeps_raise _) (keeps_bind (keeps_askLength E) fun _ => keeps_pure _)

theorem keeps_finishRound (E : PushEffects P) (u : Unit) : Act.Keeps P (finishRound u) :=
  keeps_bind (keeps_pushStep E _) fun _ => keeps_bind keeps_getState fun _ => keeps_ite (keeps_pure _) (keeps_pure _)

theorem keeps_writerFinish (E : PushEffects P) : Act.Keeps P writerFinish :=
  keeps_bind (keeps_bind keeps_getState fun _ => keeps_iterate (keeps_finishRound E) _ _) fun _ =>
    keeps_bind (keeps_chFlush E.toPortEffects) fun _ => keeps_bind keeps_getState fun s => keeps_onlyIf (by
      cases s.cmode
      · exact keeps_trailerEmit E.toPortEffects
      · exact keeps_raise _)

theorem keeps_readerFinish : Act.Keeps P readerFinish :=
  keeps_bind keeps_getState fun s => keeps_onlyIf (by
    cases s.cmode
    · exact keeps_raise _
    · exact keeps_pure _)

theorem keeps_finish (E : PushEffects P) : Act.Keeps P finish :=
  keeps_bind keeps_getState fun s => by
    cases s.streamMode
    · exact keeps_pure _
    · exact keeps_readerFinish
    · exact keeps_writerFinish E

theorem keeps_teardown (E : TeardownEffects P) (err : Option Error) : Act.Keeps P (teardown err) :=
  keeps_bind keeps_getState fun _ =>
    keeps_bind (keeps_onlyIf (keeps_bind keeps_getState fun _ => keeps_bind (keeps_engEnd E.toPortEffects _) fun _ =>
      keeps_update E.stopped)) fun _ =>
    keeps_bind keeps_getState fun _ =>
    keeps_bind (keeps_onlyIf (keeps_bind (keeps_poolRelease E.toPortEffects) fun _ => keeps_update E.released)) fun _ =>
    keeps_bind (keeps_bind keeps_getState fun _ =>
      keeps_ite (keeps_pure _) (keeps_bind (keeps_askClose E.toPortEffects) fun _ => keeps_pure _)) fun _ =>
    keeps_bind (keeps_update E.disposed) fun _ => keeps_pure _

theorem keeps_closeBody (E : CloseEffects P) : Act.Keeps P closeBody :=
  keeps_bind keeps_getState fun _ =>
    keeps_ite (keeps_pure _)
      (keeps_bind (keeps_attempt (keeps_bind keeps_getState fun _ => keeps_onlyIf (keeps_finish E.toPushEffects))) fun _ =>
        keeps_teardown E.toTeardownEffects _)

theorem keeps_unsupported (m : Mnemonic) : Act.Keeps P (unsupported m) :=
  keeps_bind keeps_getState fun _ => keeps_ite (keeps_raise _) (keeps_raise _)

theorem keeps_rdstatBody (sel : Byte) : Act.Keeps P (rdstatBody sel) :=
  keeps_bind keeps_getState fun s => by
    cases statReg sel with
    | some r => exact keeps_pure _
    | none => exact keeps_raise _

/-! ### Whole steps -/

/-- How a step ends that runs pseudocode which keeps `P`: with a response, or with the command in flight. -/
abbrev Ends (P : State → Prop) (t : State) : Prop :=
  (∃ s r, P s ∧ t = s.respond r) ∨ (∃ s f, P s ∧ t = s.paused f)

theorem settle_ends {buffer : State → Option Bytes} {body : Act Response} (hb : Act.Keeps P body) {s t : State}
    (hs : P s) (ht : settle buffer (body s) = .next t) : Ends P t :=
  settle_next (Act.wp_mono (hb s hs) (fun r s' h => .inl ⟨s', r, h, rfl⟩) fun x s' h => by
    cases x
    · exact .inl ⟨s', _, h, rfl⟩
    · exact .inr ⟨s', _, h, rfl⟩
    · trivial) ht

theorem runCommand_ends {buffer : State → Option Bytes} {body : Act Response} (hb : Act.Keeps P body) {s t : State}
    (hs : s.inFlight = none → P s) (ht : runCommand buffer body s = .next t) : Ends P t := by
  unfold runCommand at ht
  split at ht
  · cases ht
  · exact settle_ends hb (hs ‹_›) ht

/-- How a WRITE ends whose pseudocode keeps `P`. -/
theorem execWrite_ends {len : U32} (hb : Act.Keeps P (writeBody (operandLen len))) {s t : State}
    (hs : s.caller.length = operandLen len → s.inFlight = none → P s) (ht : exec (.write len) s = .next t) :
    Ends P t := by
  have ht : execWrite len s = .next t := ht
  unfold execWrite at ht
  split at ht
  · exact runCommand_ends hb (hs ‹_›) ht
  · cases ht

/-- How a READ ends whose pseudocode keeps `P`. -/
theorem execRead_ends {len : U32} (hb : Act.Keeps P (readBody (operandLen len))) {s t : State}
    (hs : s.caller.length = operandLen len → s.inFlight = none → P s) (ht : exec (.read len) s = .next t) :
    Ends P t := by
  have ht : execRead len s = .next t := ht
  unfold execRead at ht
  split at ht
  · exact runCommand_ends hb (hs ‹_›) ht
  · cases ht

/-- How a command ends when every effect inside it keeps `P`. -/
theorem exec_ends (E : BodyEffects P) {i : Instr} {s t : State} (hs : s.inFlight = none → P s)
    (ht : exec i s = .next t) : Ends P t := by
  cases i with
  | write len => exact execWrite_ends (keeps_writeBody E _) (fun _ => hs) ht
  | read len => exact execRead_ends (keeps_readBody E _) (fun _ => hs) ht
  | flush => exact runCommand_ends (keeps_flushBody E.toPortEffects) hs ht
  | close => exact runCommand_ends (keeps_closeBody E.toCloseEffects) hs ht
  | seek offset origin => exact runCommand_ends (keeps_ite (keeps_unsupported _) (keeps_raise _)) hs ht
  | getpos => exact runCommand_ends (keeps_unsupported _) hs ht
  | setpos value => exact runCommand_ends (keeps_unsupported _) hs ht
  | setlen value => exact runCommand_ends (keeps_unsupported _) hs ht
  | getlen => exact runCommand_ends (keeps_getlenBody E.toPortEffects) hs ht
  | rdstat sel => exact runCommand_ends (keeps_rdstatBody _) hs ht

/-- How the step of a command in flight ends when every effect inside it keeps `P`. -/
theorem resume_ends (E : BodyEffects P) {f : InFlight} {s t : State} (hs : P s) (ht : resume f s = .next t) :
    Ends P t := by
  cases f with
  | writeLoop => exact settle_ends (keeps_writeLoop E.toPushEffects) hs ht
  | nameLoop len h acc =>
    exact settle_ends (body := resumeName len h acc) (keeps_bind (keeps_readName E.toPortEffects _ _ _) fun _ =>
      keeps_bind (keeps_hdrFromComment E.toParseEffects _ _) fun _ => keeps_readData E.toReadEffects _) hs ht
  | commentLoop len h acc =>
    exact settle_ends (body := resumeComment len h acc) (keeps_bind (keeps_readComment E.toPortEffects _ _ _) fun _ =>
      keeps_bind (keeps_hdrClose E.toParseEffects _) fun _ => keeps_readData E.toReadEffects _) hs ht
  | readLoop len room w => exact settle_ends (keeps_readLoop E.toReadEffects _ _ _) hs ht
  | finishLoop =>
    exact settle_ends (body := resumeFinish) (keeps_bind (keeps_attempt (keeps_writerFinish E.toPushEffects)) fun _ =>
      keeps_teardown E.toTeardownEffects _) hs ht
  | stuck p => cases ht; exact .inr ⟨s, _, hs, rfl⟩

variable (E : Effects P)
include E

theorem ends_keeps {t : State} (h : Ends P t) : P t := by
  obtain ⟨s, r, h, rfl⟩ | ⟨s, f, h, rfl⟩ := h
  · exact E.respond _ _ h
  · exact E.paused _ _ h

/-- A property that every elementary effect keeps is kept by every command. -/
theorem exec_keeps {i : Instr} {s t : State} (hs : P s) (ht : exec i s = .next t) : P t :=
  ends_keeps E (exec_ends E.toBodyEffects (fun _ => hs) ht)

theorem resume_keeps {f : InFlight} {s t : State} (hs : P s) (ht : resume f s = .next t) : P t :=
  ends_keeps E (resume_ends E.toBodyEffects hs ht)

/-- A property that every elementary effect keeps is kept by every step. -/
theorem step_keeps {s t : State} (hs : P s) (ht : step s = .next t) : P t := by
  unfold step at ht
  split at ht
  · exact resume_keeps E (E.resumed _ hs) ht
  · split at ht
    · cases ht; exact hs
    · split at ht
      · cases ht; exact E.respond _ _ (E.command _ _ hs)
      · exact exec_keeps E (E.data _ _ (E.command _ _ hs)) ht

end

end Sys2Proof.Machine
end

