-- ==== Sys2Proof/Laws/PerInstr.lean ====
section
/-! SUPPORT. What holds of every instruction as syntax, one lemma a constructor: the fields of its word are the ones
30_encoding.md R142 lists. -/

namespace Sys2Proof.Laws.WordFields

/-- The opcode of R142. -/
def opcode : Instr → Byte
  | .write _ => 0x01
  | .read _ => 0x02
  | .flush => 0x03
  | .close => 0x04
  | .seek _ _ => 0x05
  | .getpos => 0x06
  | .setpos _ => 0x07
  | .setlen _ => 0x08
  | .getlen => 0x09
  | .rdstat _ => 0x0A

/-- The SEL operand, 0 where R142 requires it to be. -/
def selector : Instr → Byte
  | .seek _ origin => origin
  | .rdstat sel => sel
  | .write _ | .read _ | .flush | .close | .getpos | .setpos _ | .setlen _ | .getlen => 0

/-- The LEN operand, 0 where R142 requires it to be. -/
def length : Instr → U32
  | .write len => len
  | .read len => len
  | .seek offset _ => offset
  | .setpos value => value
  | .setlen value => value
  | .flush | .close | .getpos | .getlen | .rdstat _ => 0

/-- The word has the row's opcode, its operands in SEL and LEN, and RSV 0. -/
def Statement (i : Instr) : Prop :=
  opcOf i.encode = opcode i ∧ selOf i.encode = selector i ∧ rsvOf i.encode = 0 ∧ lenOf i.encode = length i

theorem write (len : U32) : Statement (.write len) := by simp [Statement, Instr.encode, opcode, selector, length]

theorem read (len : U32) : Statement (.read len) := by simp [Statement, Instr.encode, opcode, selector, length]

theorem flush : Statement .flush := by simp [Statement, Instr.encode, opcode, selector, length]

theorem close : Statement .close := by simp [Statement, Instr.encode, opcode, selector, length]

theorem seek (offset : U32) (origin : Byte) : Statement (.seek offset origin) := by
  simp [Statement, Instr.encode, opcode, selector, length]

theorem getpos : Statement .getpos := by simp [Statement, Instr.encode, opcode, selector, length]

theorem setpos (value : U32) : Statement (.setpos value) := by
  simp [Statement, Instr.encode, opcode, selector, length]

theorem setlen (value : U32) : Statement (.setlen value) := by
  simp [Statement, Instr.encode, opcode, selector, length]

theorem getlen : Statement .getlen := by simp [Statement, Instr.encode, opcode, selector, length]

theorem rdstat (sel : Byte) : Statement (.rdstat sel) := by
  simp [Statement, Instr.encode, opcode, selector, length]

end Sys2Proof.Laws.WordFields
end

