-- ==== Sys2Proof/Laws/Runs.lean ====
section
/-! SUPPORT. What the shared operations do where the answer is known: one equation for each port transaction with a
scripted answer, for the steps of the push and pull paths, and for a loop whose first round ends it. -/

namespace Sys2Proof.Machine

variable {α σ : Type} {s : State}

/-! ### Port transactions -/

/-- A transaction whose next reply is scripted and fits. -/
theorem transact_run {port : PortName} {queue : Ports → List (Reply α)} {drop : Ports → Ports} {free : Nat → α}
    {fits : α → Bool} {bad : Refusal} {log : α → Txn} {a : α} {q : List (Reply α)}
    (h : queue s.ports = .answer a :: q) (ok : fits a = true) :
    transact port queue drop free fits bad log s = .ok a (s.exchanged (drop s.ports) s.draws (log a)) := by
  simp [transact, h, ok]

/-- A transaction with nothing scripted takes a free value. -/
theorem transact_free {port : PortName} {queue : Ports → List (Reply α)} {drop : Ports → Ports} {free : Nat → α}
    {fits : α → Bool} {bad : Refusal} {log : α → Txn} (h : queue s.ports = []) :
    transact port queue drop free fits bad log s =
      .ok (free s.draws) (s.exchanged s.ports (s.draws + 1) (log (free s.draws))) := by
  simp [transact, h]

/-- A transaction that is never answered leaves its command stuck (20_memory.md R105). -/
theorem transact_silent {port : PortName} {queue : Ports → List (Reply α)} {drop : Ports → Ports} {free : Nat → α}
    {fits : α → Bool} {bad : Refusal} {log : α → Txn} {q : List (Reply α)} (h : queue s.ports = .silent :: q) :
    transact port queue drop free fits bad log s = .error (.pause (.stuck port)) s := by
  simp [transact, h]

theorem askRead_run {n : Nat} {a : Answer Bytes} {q : List (Reply (Answer Bytes))}
    (h : s.ports.chRead = .answer a :: q) (ok : readFits n a = true) :
    askRead n s = .ok a (s.exchanged { s.ports with chRead := q } s.draws (.chRead n a)) := by
  rw [askRead, transact_run h ok, h]; rfl

theorem askWrite_run {b : Bytes} {a : WriteAnswer} {q : List (Reply WriteAnswer)}
    (h : s.ports.chWrite = .answer a :: q) (ok : writeFits b a = true) :
    askWrite b s = .ok a (s.exchanged { s.ports with chWrite := q } s.draws (.chWrite b a)) := by
  rw [askWrite, transact_run h ok, h]; rfl

theorem askFlush_run {a : Answer Unit} {q : List (Reply (Answer Unit))} (h : s.ports.chFlush = .answer a :: q) :
    askFlush s = .ok a (s.exchanged { s.ports with chFlush := q } s.draws (.chFlush a)) := by
  rw [askFlush, transact_run h rfl, h]; rfl

theorem askClose_run {a : Answer Unit} {q : List (Reply (Answer Unit))} (h : s.ports.chClose = .answer a :: q) :
    askClose s = .ok a (s.exchanged { s.ports with chClose := q } s.draws (.chClose a)) := by
  rw [askClose, transact_run h rfl, h]; rfl

theorem askLength_run {a : Answer ChLength} {q : List (Reply (Answer ChLength))}
    (h : s.ports.chLength = .answer a :: q) :
    askLength s = .ok a (s.exchanged { s.ports with chLength := q } s.draws (.chLength a)) := by
  rw [askLength, transact_run h rfl, h]; rfl

theorem askInit_run {dir : CMode} {level : Option Int} {want : Bool} {a : Answer Unit} {q : List (Reply (Answer Unit))}
    (h : s.ports.engInit = .answer a :: q) :
    askInit dir level want s = .ok a (s.exchanged { s.ports with engInit := q } s.draws (.engInit dir level want a)) := by
  rw [askInit, transact_run h rfl, h]; rfl

theorem askStep_run {flush : FlushType} {dir : CMode} {input : Bytes} {cap : Nat} {a : StepAnswer}
    {q : List (Reply StepAnswer)} (h : s.ports.engStep = .answer a :: q) (ok : stepFits input cap a = true) :
    askStep flush dir input cap s =
      .ok a (s.exchanged { s.ports with engStep := q } s.draws (.engStep flush dir input cap a)) := by
  rw [askStep, transact_run h ok, h]; rfl

theorem engEnd_run {dir : CMode} {q : List (Reply Unit)} (h : s.ports.engEnd = .answer () :: q) :
    engEnd dir s = .ok () (s.exchanged { s.ports with engEnd := q } s.draws (.engEnd dir)) := by
  rw [engEnd, transact_run h rfl, h]; rfl

theorem poolLease_run {n : Nat} {b : Bytes} {q : List (Reply Bytes)} (h : s.ports.poolLease = .answer b :: q)
    (ok : n ≤ b.length) :
    poolLease n s = .ok b (s.exchanged { s.ports with poolLease := q } s.draws (.poolLease n b)) := by
  rw [poolLease, transact_run h (by simpa [leaseFits] using ok), h]; rfl

theorem poolRelease_run {q : List (Reply Unit)} (h : s.ports.poolRelease = .answer () :: q) :
    poolRelease s = .ok () (s.exchanged { s.ports with poolRelease := q } s.draws .poolRelease) := by
  rw [poolRelease, transact_run h rfl, h]; rfl

theorem clock_run {t : Int} {q : List (Reply Int)} (h : s.ports.clock = .answer t :: q) :
    clock s = .ok t (s.exchanged { s.ports with clock := q } s.draws (.clock t)) := by
  rw [clock, transact_run h rfl, h]; rfl

theorem chRead_run {n : Nat} {b : Bytes} {q : List (Reply (Answer Bytes))}
    (h : s.ports.chRead = .answer (.ok b) :: q) (ok : b.length ≤ n) :
    chRead n s = .ok b (s.exchanged { s.ports with chRead := q } s.draws (.chRead n (.ok b))) := by
  rw [chRead, bind_run, askRead_run h (by simpa [readFits] using ok)]; rfl

theorem chWrite_run {b : Bytes} {q : List (Reply WriteAnswer)} (h : s.ports.chWrite = .answer .ok :: q) :
    chWrite b s = .ok () (s.exchanged { s.ports with chWrite := q } s.draws (.chWrite b .ok)) := by
  rw [chWrite, bind_run, askWrite_run h rfl]; rfl

theorem chFlush_run {q : List (Reply (Answer Unit))} (h : s.ports.chFlush = .answer (.ok ()) :: q) :
    chFlush s = .ok () (s.exchanged { s.ports with chFlush := q } s.draws (.chFlush (.ok ()))) := by
  rw [chFlush, bind_run, askFlush_run h]; rfl

theorem chRead_failed {n : Nat} {e : Bytes} {q : List (Reply (Answer Bytes))}
    (h : s.ports.chRead = .answer (.fail e) :: q) :
    chRead n s = .error (.raise (.chFail e))
      (s.exchanged { s.ports with chRead := q } s.draws (.chRead n (.fail e))) := by
  rw [chRead, bind_run, askRead_run h rfl]; rfl

theorem chWrite_failed {b e : Bytes} {k : Nat} {q : List (Reply WriteAnswer)}
    (h : s.ports.chWrite = .answer (.fail e k) :: q) (ok : k ≤ b.length) :
    chWrite b s = .error (.raise (.chFail e))
      (s.exchanged { s.ports with chWrite := q } s.draws (.chWrite b (.fail e k))) := by
  rw [chWrite, bind_run, askWrite_run h (by simpa [writeFits] using ok)]; rfl

theorem chFlush_failed {e : Bytes} {q : List (Reply (Answer Unit))} (h : s.ports.chFlush = .answer (.fail e) :: q) :
    chFlush s = .error (.raise (.chFail e))
      (s.exchanged { s.ports with chFlush := q } s.draws (.chFlush (.fail e))) := by
  rw [chFlush, bind_run, askFlush_run h]; rfl

/-! ### Engine steps -/

theorem engStep_run {flush : FlushType} {cap : Nat} {a : StepAnswer} {q : List (Reply StepAnswer)}
    (h : s.ports.engStep = .answer a :: q) (ok : stepFits s.window cap a = true) :
    engStep flush cap s = .ok a
      ((s.exchanged { s.ports with engStep := q } s.draws (.engStep flush s.cmode s.window cap a)).afterStep a) := by
  rw [engStep, bind_run, getState_run]
  simp only [bind_run, askStep_run h ok, update_run, pure_run]

/-- The state after a push step's engine step, its bytes in WORK. -/
def State.stepped (s : State) (flush : FlushType) (a : StepAnswer) (q : List (Reply StepAnswer)) : State :=
  ((s.exchanged { s.ports with engStep := q } s.draws (.engStep flush s.cmode s.window s.wbLen a)).afterStep a).setWork
    (memWrite s.work 0 a.produced)

/-- A push step with a failure status: raised before anything is written (41_write.md R208). -/
theorem pushStep_failed {flush : FlushType} {a : StepAnswer} {q : List (Reply StepAnswer)}
    (h : s.ports.engStep = .answer a :: q) (ok : stepFits s.window s.wbLen a = true)
    (bad : a.status.isFailure = true) :
    pushStep flush s = .error (.raise (.engineFail a.status)) (s.stepped flush a q) := by
  simp only [pushStep, bind_run, getState_run, engStep_run h ok, update_run, bad, if_true, raise_run]
  rfl

/-- A push step that produced nothing. -/
theorem pushStep_quiet {flush : FlushType} {a : StepAnswer} {q : List (Reply StepAnswer)}
    (h : s.ports.engStep = .answer a :: q) (ok : stepFits s.window s.wbLen a = true)
    (good : a.status.isFailure = false) (none : a.produced = []) :
    pushStep flush s = .ok a (s.stepped flush a q) := by
  simp only [pushStep, bind_run, getState_run, engStep_run h ok, update_run, good, none]
  simp [onlyIf, State.stepped, none]

/-- A push step whose bytes the channel took (41_write.md R205). -/
theorem pushStep_wrote {flush : FlushType} {a : StepAnswer} {q : List (Reply StepAnswer)} {r : List (Reply WriteAnswer)}
    (h : s.ports.engStep = .answer a :: q) (ok : stepFits s.window s.wbLen a = true)
    (good : a.status.isFailure = false) (some : a.produced ≠ []) (hr : s.ports.chWrite = .answer .ok :: r) :
    pushStep flush s = .ok a ((s.stepped flush a q).exchanged
      { s.ports with engStep := q, chWrite := r } s.draws (.chWrite a.produced .ok)) := by
  simp only [pushStep, bind_run, getState_run, engStep_run h ok, update_run, good]
  have pos : 0 < a.produced.length := List.length_pos_iff.mpr some
  have same : memRead (memWrite s.work 0 a.produced) 0 a.produced.length = a.produced := by
    simp [memRead, memWrite]
  simp only [Bool.false_eq_true, if_false, bind_run, getState_run, onlyIf, pos, if_true]
  rw [chWrite_run (q := r) (by simpa using hr)]
  simp only [pure_run, State.setWork_work, State.afterStep_work, State.exchanged_work, same]
  rfl

/-- A push step with a good status, its bytes on the channel if there are any (41_write.md R205). -/
theorem pushStep_run {flush : FlushType} {a : StepAnswer} {q : List (Reply StepAnswer)} {r : List (Reply WriteAnswer)}
    (h : s.ports.engStep = .answer a :: q) (ok : stepFits s.window s.wbLen a = true)
    (good : a.status.isFailure = false)
    (hr : s.ports.chWrite = (if a.produced = [] then [] else [.answer .ok]) ++ r) :
    pushStep flush s = .ok a { s with
      inNext := s.inNext + a.consumed, inAvail := s.inAvail - a.consumed
      engTotalOut := s.engTotalOut + BitVec.ofNat 64 a.produced.length
      work := memWrite s.work 0 a.produced
      ports := { s.ports with engStep := q, chWrite := r }
      trace := s.trace ++ [.engStep flush s.cmode s.window s.wbLen a] ++
        (if a.produced = [] then [] else [.chWrite a.produced .ok]) } := by
  by_cases quiet : a.produced = []
  · simp only [quiet, if_true, List.nil_append] at hr
    rw [pushStep_quiet h ok good quiet]
    simp [State.stepped, State.exchanged, State.afterStep, State.setWork, quiet, hr]
  · simp only [quiet, if_false, List.singleton_append] at hr
    rw [pushStep_wrote h ok good quiet hr]
    simp [State.stepped, State.exchanged, State.afterStep, State.setWork, quiet]

/-- A push step whose bytes the channel did not take, but for a prefix (60_exceptions.md R284, R290). -/
theorem pushStep_unwritten {flush : FlushType} {a : StepAnswer} {q : List (Reply StepAnswer)}
    {r : List (Reply WriteAnswer)} {e : Bytes} {k : Nat}
    (h : s.ports.engStep = .answer a :: q) (ok : stepFits s.window s.wbLen a = true)
    (good : a.status.isFailure = false) (some : a.produced ≠ []) (hr : s.ports.chWrite = .answer (.fail e k) :: r)
    (prefix_ : k ≤ a.produced.length) :
    pushStep flush s = .error (.raise (.chFail e)) ((s.stepped flush a q).exchanged
      { s.ports with engStep := q, chWrite := r } s.draws (.chWrite a.produced (.fail e k))) := by
  simp only [pushStep, bind_run, getState_run, engStep_run h ok, update_run, good]
  have pos : 0 < a.produced.length := List.length_pos_iff.mpr some
  have same : memRead (memWrite s.work 0 a.produced) 0 a.produced.length = a.produced := by
    simp [memRead, memWrite]
  simp only [Bool.false_eq_true, if_false, bind_run, getState_run, onlyIf, pos, if_true, State.setWork_work,
    State.afterStep_work, State.exchanged_work, same]
  rw [chWrite_failed (q := r) (by simpa using hr) prefix_]
  rfl

/-- An engine step into the caller's buffer (42_read.md R226). -/
theorem pullStep_run {flush : FlushType} {room : Nat} {w : Bytes} {a : StepAnswer} {q : List (Reply StepAnswer)}
    (h : s.ports.engStep = .answer a :: q) (ok : stepFits s.window room a = true) :
    pullStep flush room w s = .ok a
      (((s.exchanged { s.ports with engStep := q } s.draws (.engStep flush s.cmode s.window room a)).afterStep a).setCaller
        (memWrite s.caller w.length a.produced)) := by
  simp only [pullStep, bind_run, engStep_run h ok, update_run, pure_run]
  rfl

/-- Materialise with everything live already (41_write.md R204). -/
theorem materialise_live (engine : s.engLive = true) (buffer : s.wbLive = true) : materialise s = .ok () s := by
  simp [materialise, onlyIf, engine, buffer]

/-- Materialise with nothing live: the engine initialised, then the buffer leased (41_write.md R204). -/
theorem materialise_run {b : Bytes} {q : List (Reply (Answer Unit))} {bs : List (Reply Bytes)}
    (engine : s.engLive = false) (buffer : s.wbLive = false) (h : s.ports.engInit = .answer (.ok ()) :: q)
    (h' : s.ports.poolLease = .answer b :: bs) (ok : s.workbufSize ≤ b.length) :
    materialise s = .ok () ((((s.exchanged { s.ports with engInit := q } s.draws
      (.engInit s.cmode s.initLevel s.wantHeader (.ok ()))).setEngLive true).exchanged
      { s.ports with engInit := q, poolLease := bs } s.draws (.poolLease s.workbufSize b)).leased b) := by
  simp only [materialise, bind_run, getState_run, onlyIf]
  rw [if_pos engine]
  simp only [startEngine, bind_run, getState_run, askInit_run h, update_run]
  rw [if_pos (by simpa using buffer)]
  simp only [leaseBuffer, bind_run, getState_run]
  rw [poolLease_run (q := bs) (by simpa using h') (by simpa using ok)]
  rfl

/-- Materialise whose EngInit fails: nothing is live, and nothing is leased (R204). -/
theorem materialise_failed {msg : Bytes} {q : List (Reply (Answer Unit))} (engine : s.engLive = false)
    (h : s.ports.engInit = .answer (.fail msg) :: q) :
    materialise s = .error (.raise (.initFail msg)) (s.exchanged { s.ports with engInit := q } s.draws
      (.engInit s.cmode s.initLevel s.wantHeader (.fail msg))) := by
  simp only [materialise, bind_run, getState_run, onlyIf]
  rw [if_pos engine]
  simp only [startEngine, bind_run, getState_run, askInit_run h]
  rfl

/-- A chunk pull whose ChRead answers (42_read.md R225). -/
theorem pullChunk_run {k : Bytes} {ks : List (Reply (Answer Bytes))} (h : s.ports.chRead = .answer (.ok k) :: ks)
    (ok : k.length ≤ s.wbLen) :
    pullChunk s =
      .ok () ((s.exchanged { s.ports with chRead := ks } s.draws (.chRead s.wbLen (.ok k))).pulled k) := by
  simp only [pullChunk, bind_run, getState_run, chRead_run h ok, update_run]

/-! ### Rounds of the push loops -/

/-- The field-wise form of feeding the accumulator. -/
theorem State.crcFeed_eq (s : State) (b : Bytes) :
    s.crcFeed b = { s with
      crcReg := if s.crcLive then crcFold s.plat.crc32fn s.crcReg b else s.crcReg
      crcCount := if s.crcLive then s.crcCount + BitVec.ofNat 64 b.length else s.crcCount } := by
  cases s with
  | mk => unfold State.crcFeed State.crcUpdate; split <;> rename_i h <;> simp only at h <;> simp [h]

/-- A round of WRITE's loop from what its push step does. -/
theorem writeRound_run {a : StepAnswer} {t : State} (h : pushStep .none s = .ok a t) :
    writeRound () s =
      .ok (if t.writeDone (t.wbLen - a.produced.length) then .inr (.ok .unit) else .inl ()) t := by
  simp only [writeRound, bind_run, h, getState_run]
  split <;> rfl

theorem writeRound_left {e : Exit} {t : State} (h : pushStep .none s = .error e t) : writeRound () s = .error e t := by
  simp only [writeRound, bind_run, h]

/-- A round of the writer Finish's loop from what its push step does. -/
theorem finishRound_run {a : StepAnswer} {t : State} (h : pushStep .finish s = .ok a t) :
    finishRound () s =
      .ok (if t.finishDone (t.wbLen - a.produced.length) a.status then .inr () else .inl ()) t := by
  simp only [finishRound, bind_run, h, getState_run]
  split <;> rfl

theorem finishRound_left {e : Exit} {t : State} (h : pushStep .finish s = .error e t) :
    finishRound () s = .error e t := by
  simp only [finishRound, bind_run, h]

/-! ### Loops -/

/-- A loop whose first round ends it. -/
theorem iterate_done {body : σ → Act (σ ⊕ α)} {at_ : σ → InFlight} {more : Nat} {x : σ} {a : α} {t : State}
    (h : body x s = .ok (.inr a) t) : iterate body at_ more x s = .ok a t := by
  cases more <;> simp [iterate, h]

/-- A loop whose first round leaves early. -/
theorem iterate_left {body : σ → Act (σ ⊕ α)} {at_ : σ → InFlight} {more : Nat} {x : σ} {e : Exit} {t : State}
    (h : body x s = .error e t) : iterate body at_ more x s = .error e t := by
  cases more <;> simp [iterate, h]

/-- A loop that goes round again within the step. -/
theorem iterate_again {body : σ → Act (σ ⊕ α)} {at_ : σ → InFlight} {more : Nat} {x y : σ} {t : State}
    (h : body x s = .ok (.inl y) t) : iterate body at_ (more + 1) x s = iterate body at_ more y t := by
  simp [iterate, h]

/-- A loop that would go round again, with no further round in this step. -/
theorem iterate_pause {body : σ → Act (σ ⊕ α)} {at_ : σ → InFlight} {x y : σ} {t : State}
    (h : body x s = .ok (.inl y) t) : iterate body at_ 0 x s = .error (.pause (at_ y)) t := by
  simp [iterate, h]

/-! ### Teardown -/

theorem endEngine_run {q : List (Reply Unit)} (h : s.ports.engEnd = .answer () :: q) :
    endEngine s = .ok () ((s.exchanged { s.ports with engEnd := q } s.draws (.engEnd s.cmode)).setEngLive false) := by
  simp only [endEngine, bind_run, getState_run, engEnd_run h, update_run]

theorem releaseBuffer_run {q : List (Reply Unit)} (h : s.ports.poolRelease = .answer () :: q) :
    releaseBuffer s = .ok () ((s.exchanged { s.ports with poolRelease := q } s.draws .poolRelease).released) := by
  simp only [releaseBuffer, bind_run, poolRelease_run h, update_run]

theorem closeChannel_left (h : s.leaveOpen = true) : closeChannel s = .ok none s := by
  simp [closeChannel, h]

theorem closeChannel_run {c : Answer Unit} {q : List (Reply (Answer Unit))} (h : s.leaveOpen = false)
    (h' : s.ports.chClose = .answer c :: q) :
    closeChannel s = .ok c.error? (s.exchanged { s.ports with chClose := q } s.draws (.chClose c)) := by
  simp only [closeChannel, bind_run, getState_run]
  rw [if_neg (by simp [h]), bind_run, askClose_run h']
  rfl

/-- Teardown of a live engine and buffer with every answer scripted (43_control.md R249, R252). -/
theorem teardown_run {err : Option Error} {c : Answer Unit} {q₁ q₂ : List (Reply Unit)} {q₃ : List (Reply (Answer Unit))}
    (engine : s.engLive = true) (buffer : s.wbLive = true) (h₁ : s.ports.engEnd = .answer () :: q₁)
    (h₂ : s.ports.poolRelease = .answer () :: q₂)
    (h₃ : s.ports.chClose = (if s.leaveOpen then [] else [.answer c]) ++ q₃) :
    teardown err s = .ok (closeResponse (err.or (if s.leaveOpen then none else c.error?))) { s with
      disposed := true, engLive := false, wbLive := false, work := []
      ports := { s.ports with engEnd := q₁, poolRelease := q₂, chClose := q₃ }
      trace := s.trace ++ [.engEnd s.cmode, .poolRelease] ++ (if s.leaveOpen then [] else [.chClose c]) } := by
  rw [teardown, bind_run, getState_run]
  simp only [bind_run, onlyIf, engine, if_true, endEngine_run h₁, getState_run]
  simp only [State.setEngLive_wbLive, State.exchanged_wbLive, buffer, if_true]
  rw [releaseBuffer_run (q := q₂) (by simpa using h₂)]
  rcases Bool.eq_false_or_eq_true s.leaveOpen with lo | lo
  · simp [lo] at h₃
    simp only
    rw [closeChannel_left (by simpa using lo)]
    simp [lo, State.exchanged, State.setEngLive, State.setDisposed, State.released, h₃]
  · simp [lo] at h₃
    simp only
    rw [closeChannel_run (c := c) (q := q₃) (by simpa using lo) (by simpa using h₃)]
    simp [lo, State.exchanged, State.setEngLive, State.setDisposed, State.released]

end Sys2Proof.Machine
end

