-- ==== Sys2Proof/Tests/Slice0.lean ====
section
/-! SUPPORT. Tests of the model, each expected result from spec/ (the id of its vector in 95_test_vectors.md stands in its
docstring), and for every statement of Certificates/Slice0/Obligations.lean that has hypotheses a witness: concrete
states and operands that meet them together. -/

namespace Sys2Proof.Tests

open Sys2Proof.Machine

/-! ### Well-formedness -/

/-- L2.2: a SEEK of origin 3 is ill-formed. -/
theorem test_wf_seek_origin_3 : (Instr.seek 0 3).wf = false := by decide

/-- L2.2: an RDSTAT of selector 0x16 is ill-formed. -/
theorem test_wf_rdstat_0x16 : (Instr.rdstat 0x16).wf = false := by decide

/-! ### Decoding: the words of L2.1 and L2.2 -/

/-- L2.1 `write "abc"`. -/
theorem test_decode_write : decode 0x0000000300000001 = .ok (.write 3) := by decide

/-- L2.1 `read 10`. -/
theorem test_decode_read : decode 0x0000000A00000002 = .ok (.read 10) := by decide

/-- L2.1 `flush`. -/
theorem test_decode_flush : decode 0x0000000000000003 = .ok .flush := by decide

/-- L2.1 `close` and `dispose`. -/
theorem test_decode_close : decode 0x0000000000000004 = .ok .close ∧ Instr.dispose = .close := by decide

/-- L2.1 `seek 7, end`. -/
theorem test_decode_seek : decode 0x0000000700000205 = .ok (.seek 7 2) := by decide

/-- L2.1 `getpos`. -/
theorem test_decode_getpos : decode 0x0000000000000006 = .ok .getpos := by decide

/-- L2.1 `setpos 0`. -/
theorem test_decode_setpos : decode 0x0000000000000007 = .ok (.setpos 0) := by decide

/-- L2.1 `setlen 5`. -/
theorem test_decode_setlen : decode 0x0000000500000008 = .ok (.setlen 5) := by decide

/-- L2.1 `getlen`. -/
theorem test_decode_getlen : decode 0x0000000000000009 = .ok .getlen := by decide

/-- L2.1 `hdrbytes`. -/
theorem test_decode_rdstat : decode 0x0000000000000F0A = .ok Instr.hdrbytes := by decide

/-- L2.2: each illegal word, with the reason given there. -/
theorem test_decode_illegal :
    decode 0x0000000000000000 = .error .opcode ∧ decode 0x000000000000000B = .error .opcode ∧
    decode 0x00000000000000FF = .error .opcode ∧ decode 0x0000000000010001 = .error .reserved ∧
    decode 0x0000000000000103 = .error .selector ∧ decode 0x0000000100000003 = .error .length ∧
    decode 0x0000000000000104 = .error .selector ∧ decode 0x0000000000000305 = .error .origin ∧
    decode 0x000000000000160A = .error .register ∧ decode 0x0000000100000009 = .error .length ∧
    decode 0x0000000000000102 = .error .selector := by decide

/-- L2.1: the lines as text. -/
theorem test_assemble :
    assembleLine "write \"abc\"  ; three bytes".toList = .line (.write [0x61, 0x62, 0x63]) ∧
    assembleLine "seek 7, end".toList = .line (.seek 7 2) ∧
    assembleLine "rdstat HDR_BYTES".toList = .line (.rdstat 0x0F) ∧
    assembleLine "seek 7 end".toList = .malformed := by decide

/-! ### Small states -/

/-- An instance of working-buffer size 16 and fixed timestamp 0. -/
def block (flavor : Flavor) (cmode : CMode) : State :=
  State.fresh {} { flavor := flavor, cmode := cmode, level := 6, leaveOpen := false, wbSize := some 16, mtimeFixed := some 0 }

/-- Sixteen bytes. -/
def sixteen : Bytes := [1, 2, 3, 4, 5, 6, 7, 8, 9, 10, 11, 12, 13, 14, 15, 16]

/-- The ASCII bytes `abc`. -/
def abc : Bytes := [0x61, 0x62, 0x63]

/-- The raw deflate stream of `abc` (L2.7 R1). -/
def deflated : Bytes := [0x4B, 0x4C, 0x4A, 0x06, 0x00]

/-- A Writer or Reader with a live engine and a leased buffer of 16 bytes. -/
def live (flavor : Flavor) (cmode : CMode) (mode : StreamMode) (caller : Bytes) (ports : Ports) : State :=
  { block flavor cmode with
    streamMode := mode, engLive := true, wbLive := true, wbLen := 16, work := sixteen, caller := caller, ports := ports }

/-- An instance with a command's data in CALLER and answers to come. -/
def placed (s : State) (caller : Bytes) (ports : Ports) : State := { s with caller := caller, ports := ports }

/-- A closed instance. -/
def closed (flavor : Flavor) : State := { block flavor .compress with streamMode := .writer, disposed := true }

/-- An answered engine step. -/
def took (consumed : Nat) (produced : Bytes) (status : EngStatus) : Reply StepAnswer :=
  .answer { consumed := consumed, produced := produced, status := status }

/-- A test of the next state an outcome gives. -/
def gives (o : Host.Outcome State Fault Refusal) (p : State → Bool) : Bool :=
  match o with
  | .next t => p t
  | .fault _ => false
  | .refused _ => false

theorem exists_of_gives {o : Host.Outcome State Fault Refusal} {p : State → Bool} (h : gives o p = true) :
    ∃ t, o = .next t ∧ p t = true := by
  cases o with
  | next t => exact ⟨t, rfl, h⟩
  | fault f => cases h
  | refused r => cases h

/-! ### One step of each command -/

/-- L2.6 W3: a failure status, its bytes not written to the channel, every earlier effect kept. -/
theorem test_write_engine_fails :
    gives (exec (.write 3) (placed (block .gzip .compress) abc
      { chWrite := [.answer .ok], engInit := [.answer (.ok ())], poolLease := [.answer sixteen],
        engStep := [took 2 [0x99, 0x99] (.fail (-3) [])] }))
      (fun t => decide (t.responses = [.err (.engineFail (.fail (-3) [])) none] ∧ t.inAvail = 1 ∧ t.engTotalOut = 2 ∧
        t.crcCount = 3 ∧ sunk t.trace = [0x1F, 0x8B, 0x08, 0, 0, 0, 0, 0, 0, 0xFF])) = true := by decide +kernel

/-- L2.4 E4: the clock's seconds modulo 2^32. -/
theorem test_write_clock :
    gives (exec (.write 0) { placed (block .gzip .compress) []
      { chWrite := [.answer .ok], clock := [.answer 0x100000005] } with mtimeFixed := none })
      (fun t => decide (sunk t.trace = [0x1F, 0x8B, 0x08, 0, 0x05, 0, 0, 0, 0, 0xFF] ∧ t.hdrMtime = 5)) = true := by
  decide

/-- L2.7 R6: the benign end answers 0 with two bytes produced. -/
theorem test_read_benign_end :
    gives (exec (.read 4) (placed (block .deflate .decompress) [0xEE, 0xEE, 0xEE, 0xEE]
      { chRead := [.answer (.ok [0x4B, 0x4C, 0x4A]), .answer (.ok [])], engInit := [.answer (.ok ())],
        poolLease := [.answer sixteen], engStep := [took 3 [0x61, 0x62] .ok, took 0 [] .bufError] }))
      (fun t => decide (t.responses = [.ok (.read 0 [0x61, 0x62, 0xEE, 0xEE])] ∧ t.noMoreInput = true ∧
        t.engTotalOut = 2)) = true := by decide

/-- L2.3 H5: all four optional fields in one header. -/
theorem test_read_header :
    gives (exec (.read 0) (placed (block .gzip .decompress) []
      { chRead := [.answer (.ok [0x1F, 0x8B, 0x08, 0x1E, 0, 0, 0, 0, 0, 3]), .answer (.ok [3, 0]),
          .answer (.ok [0xAA, 0xBB, 0xCC])] ++
          [0x61, 0x2E, 0x74, 0x78, 0x74, 0, 0x68, 0x69, 0].map (fun b => .answer (.ok [b])) ++
          [.answer (.ok [0x12, 0x34])] }))
      (fun t => decide (t.hdrState = .parsed ∧ t.hdrBytes = 26 ∧ t.hdrFlg = 0x1E ∧
        t.hdrFname = some [0x61, 0x2E, 0x74, 0x78, 0x74] ∧ t.hdrComment = some [0x68, 0x69])) = true := by decide +kernel

/-- L2.8 F1: the mode stays undefined and no engine is touched. -/
theorem test_flush_fresh :
    gives (exec .flush (placed (block .deflate .compress) [] { chFlush := [.answer (.ok ())] }))
      (fun t => decide (t.responses = [.ok .unit] ∧ t.streamMode = .undefined ∧ t.trace = [.chFlush (.ok ())])) = true := by
  decide

/-- L2.8 F4. -/
theorem test_flush_fails :
    gives (exec .flush (placed (block .deflate .compress) [] { chFlush := [.answer (.fail [9])] }))
      (fun t => decide (t.responses = [.err (.chFail [9]) none])) = true := by decide

/-- L2.9 K3: the writer Finish, no trailer for Deflate. -/
theorem test_close_writer :
    gives (exec .close (live .deflate .compress .writer []
      { engStep := [took 0 deflated .streamEnd], chWrite := [.answer .ok], chFlush := [.answer (.ok ())],
        engEnd := [.answer ()], poolRelease := [.answer ()], chClose := [.answer (.ok ())] }))
      (fun t => decide (t.responses = [.ok .unit] ∧ t.trace = [.engStep .finish .compress [] 16 ⟨0, deflated, .streamEnd⟩,
        .chWrite deflated .ok, .chFlush (.ok ()), .engEnd .compress, .poolRelease, .chClose (.ok ())])) = true := by decide

/-- L2.9 K7: the first error wins, and everything is released. -/
theorem test_close_first_error :
    gives (exec .close (live .deflate .compress .writer []
      { engStep := [took 0 [] (.fail (-2) [])], engEnd := [.answer ()], poolRelease := [.answer ()],
        chClose := [.answer (.fail [9])] }))
      (fun t => decide (t.responses = [.err (.engineFail (.fail (-2) [])) none] ∧ t.disposed = true ∧
        t.engLive = false ∧ t.wbLive = false)) = true := by decide

/-- L2.10 S1. -/
theorem test_seek : gives (exec (.seek 0 0) (block .deflate .compress))
    (fun t => decide (t.responses = [.err (.unsupportedOp .seek) none])) = true := by decide

/-- L2.10 S3. -/
theorem test_seek_closed : gives (exec (.seek 0 0) (closed .deflate))
    (fun t => decide (t.responses = [.err (.disposed .seek) none])) = true := by decide

/-- L2.10 S4. -/
theorem test_getpos : gives (exec .getpos { block .deflate .compress with streamMode := .reader })
    (fun t => decide (t.responses = [.err (.unsupportedOp .getpos) none])) = true := by decide

/-- L2.10 S5. -/
theorem test_setpos : gives (exec (.setpos 0) (block .deflate .compress))
    (fun t => decide (t.responses = [.err (.unsupportedOp .setpos) none])) = true := by decide

/-- L2.10 S6. -/
theorem test_setlen : gives (exec (.setlen 5) (block .deflate .compress))
    (fun t => decide (t.responses = [.err (.unsupportedOp .setlen) none])) = true := by decide

/-- L2.10 S7. -/
theorem test_getlen : gives (exec .getlen (placed (block .deflate .compress) [] { chLength := [.answer (.ok (.known 58))] }))
    (fun t => decide (t.responses = [.ok (.length (.known 58))])) = true := by decide

/-- L2.10 S9. -/
theorem test_getlen_closed : gives (exec .getlen (closed .deflate))
    (fun t => decide (t.responses = [.err (.disposed .getlen) none] ∧ t.trace = [])) = true := by decide

/-- L2.11 Q6: the CRC-32 of `abc` is 0x352441C2. -/
theorem test_rdstat_crc : gives (exec (.rdstat 0x14) ((block .gzip .compress).crcUpdate abc))
    (fun t => decide (t.responses = [.ok (.reg (.num 0x352441C2))])) = true := by decide

/-- L2.11 Q7: RDSTAT is legal after CLOSE. -/
theorem test_rdstat_closed : gives (exec (.rdstat 0x01) (closed .deflate))
    (fun t => decide (t.responses = [.ok (.reg (.num 1))])) = true := by decide

/-! ### Witnesses: the hypotheses of each statement can be met together -/

/-- A command word as the caller's next one. -/
def next (s : State) (word : U64) (data : Bytes) : State := { s with commands := [{ word := word, data := data }] }

/-- The state after a step that gives one, else the state itself. -/
def after (s : State) : State :=
  match step s with
  | .next t => t
  | .fault _ => s
  | .refused _ => s

/-- Whether a step gives a next state. -/
def goesOn (s : State) : Bool := gives (step s) (fun _ => true)

theorem step_after {s : State} (h : goesOn s = true) : step s = .next (after s) := by
  unfold goesOn gives at h
  unfold after
  cases hs : step s with
  | next t => rfl
  | fault f => rw [hs] at h; cases h
  | refused r => rw [hs] at h; cases h

/-- A Writer that a step is about to leave in flight, and the same Writer in flight (41_write.md R206: the buffer is
full). -/
def filling : State :=
  next (placed (block .deflate .compress) []
    { engInit := [.answer (.ok ())], poolLease := [.answer sixteen], engStep := [took 3 sixteen .ok],
      chWrite := [.answer .ok] }) 0x0000000300000001 abc

/-- DecodeOfEncode, at the greatest origin and selector, and EncodeOfDecode. -/
theorem witness_encoding :
    (Instr.seek 0xFFFFFFFF 2).wf = true ∧ (Instr.rdstat 0x15).wf = true ∧ (Instr.write 0).wf = true ∧
    decode 0xFFFFFFFF00000205 = .ok (.seek 0xFFFFFFFF 2) ∧ decode 0x000000000000150A = .ok (.rdstat 0x15) := by decide

/-- IllegalCommands, on an open and on a closed instance, and a payload that is not LEN bytes long. -/
theorem witness_illegalCommands :
    (∀ s ∈ [next (block .gzip .compress) 0x000000000000160A [], next (closed .gzip) 0 []],
      s.inFlight = none ∧ ∃ c rest e, s.commands = c :: rest ∧ decode c.word = .error e) ∧
    (placed (block .gzip .compress) abc {}).caller.length ≠ (2 : U32).toNat := by
  refine ⟨fun s h => ?_, by decide⟩
  simp only [List.mem_cons, List.not_mem_nil, or_false] at h
  obtain rfl | rfl := h
  · exact ⟨rfl, _, _, .register, rfl, by decide⟩
  · exact ⟨rfl, _, _, .opcode, rfl, by decide⟩

/-- StepRunsDecoded. -/
theorem witness_stepRunsDecoded :
    filling.inFlight = none ∧ ∃ c rest, filling.commands = c :: rest ∧ decode c.word = .ok (.write 3) :=
  ⟨rfl, _, _, rfl, by decide⟩

/-- StepOtherwise: nothing to do; a command in flight; a WRITE and a READ given beside it. -/
theorem witness_stepOtherwise :
    ((block .gzip .compress).inFlight = none ∧ (block .gzip .compress).commands = []) ∧
    (after filling).inFlight = some .writeLoop ∧
    (∀ len, Instr.write 3 = .write len ∨ Instr.write 3 = .read len → (after filling).caller.length = len.toNat) ∧
    (∀ len, Instr.read 3 = .write len ∨ Instr.read 3 = .read len → (after filling).caller.length = len.toNat) := by
  refine ⟨by decide, by decide, fun len h => ?_, fun len h => ?_⟩
  · obtain h | h := h <;> cases h
    decide
  · obtain h | h := h <;> cases h
    decide

/-- EveryCommandAnswers, with and without data. -/
theorem witness_everyCommandAnswers :
    ((block .gzip .compress).inFlight = none ∧ (block .gzip .compress).ports = {} ∧
      ∀ len, Instr.close = .write len ∨ Instr.close = .read len → (block .gzip .compress).caller.length = len.toNat) ∧
    ((placed (block .gzip .compress) abc {}).inFlight = none ∧ (placed (block .gzip .compress) abc {}).ports = {} ∧
      ∀ len, Instr.read 3 = .write len ∨ Instr.read 3 = .read len →
        (placed (block .gzip .compress) abc {}).caller.length = len.toNat) := by
  refine ⟨⟨rfl, rfl, fun len h => ?_⟩, rfl, rfl, fun len h => ?_⟩
  · obtain h | h := h <;> cases h
  · obtain h | h := h <;> cases h
    rfl

/-- Construction and ConstructionMeetsInvariants, at the least working-buffer size. -/
theorem witness_construction :
    State.construct {} { ConstructArgs.first with wbSize := some 1 } =
      some (State.fresh {} { ConstructArgs.first with wbSize := some 1 }) ∧
    1 ≤ (some 1 : Option Nat).getD ({} : Platform).workbufSizeDefault := by decide

/-- A WRITE of `abc` on a fresh compressing Gzip instance, one step long. -/
def gzipWrite : State :=
  next (placed (block .gzip .compress) []
    { engInit := [.answer (.ok ())], poolLease := [.answer sixteen], engStep := [took 3 [] .ok],
      chWrite := [.answer .ok] }) 0x0000000300000001 abc

/-- A READ of 4 bytes on a fresh decompressing Deflate instance that its collaborators leave in flight. -/
def shortRead : State :=
  next (placed (block .deflate .decompress) []
    { engInit := [.answer (.ok ())], poolLease := [.answer sixteen], chRead := [.answer (.ok deflated)],
      engStep := [took 3 [0x61] .ok] }) 0x0000000400000002 [0, 0, 0, 0]

/-- The first READ of a decompressing Gzip instance, left in flight inside FNAME. -/
def longName : State :=
  next (placed (block .gzip .decompress) []
    { chRead := [.answer (.ok [0x1F, 0x8B, 0x08, 0x08, 0, 0, 0, 0, 0, 3]), .answer (.ok [0x61])] }) 0x0000000000000002 []

/-- The first READ of a decompressing Gzip instance, left in flight inside FCOMMENT. -/
def longComment : State :=
  next (placed (block .gzip .decompress) []
    { chRead := [.answer (.ok [0x1F, 0x8B, 0x08, 0x10, 0, 0, 0, 0, 0, 3]), .answer (.ok [0x61])] }) 0x0000000000000002 []

/-- The first WRITE of a compressing Gzip instance whose channel never answers. -/
def silentWrite : State := next (placed (block .gzip .compress) [] { chWrite := [.silent] }) 0x0000000300000001 abc

/-- A CLOSE that its engine leaves in flight, its working buffer filled. -/
def longClose : State :=
  next (placed (after gzipWrite) [] { engStep := [took 0 sixteen .ok], chWrite := [.answer .ok] }) 0x0000000000000004 []

/-- The states of the witnesses below: fresh instances, and commands in flight in WRITE, READ, the header parse and CLOSE,
each with the answers its step takes; and a command stuck. -/
def started : List State :=
  [gzipWrite, shortRead, longName, longComment, silentWrite, longClose,
    placed (after filling) abc { engStep := [took 0 [0x01] .ok], chWrite := [.answer .ok] },
    placed (after shortRead) (after shortRead).caller { engStep := [took 2 [0x62, 0x63] .streamEnd] },
    placed (after longName) [] { chRead := [.answer (.ok [0])] },
    placed (after longComment) [] { chRead := [.answer (.ok [0])] },
    after silentWrite,
    placed (after longClose) []
      { engStep := [took 0 [0x01] .streamEnd], chWrite := [.answer .ok, .answer .ok], chFlush := [.answer (.ok ())],
        engEnd := [.answer ()], poolRelease := [.answer ()], chClose := [.answer (.ok ())] }]

/-- Where the commands of the last six stand. -/
theorem witness_inFlight :
    (started.drop 6).map (·.inFlight) =
      [some .writeLoop, some (.readLoop 4 3 [0x61]), some (.nameLoop 0 ⟨0x08, 0, 10, none, none⟩ [0x61]),
        some (.commentLoop 0 ⟨0x10, 0, 10, none, none⟩ [0x61]), some (.stuck .chWrite), some .finishLoop] := by
  decide +kernel

/-- StepKeepsInv. -/
theorem witness_inv : ∀ s ∈ started, goesOn s = true ∧ s.Inv := by
  have parts : ∀ s ∈ started, goesOn s = true ∧ s.WindowInv ∧ s.ChecksumInv ∧ s.BufferInv ∧ s.LifeInv := by
    decide +kernel
  have rest : ∀ s ∈ started, s.HeaderInv ∧ s.FlightInv := by decide +kernel
  intro s h
  obtain ⟨a, b, c, d, e⟩ := parts s h
  exact ⟨a, b, c, d, e, rest s h⟩

/-- The further premises of StepKeepsRelease, StepKeepsTotals, StepKeepsSound and StepKeepsSink. -/
theorem witness_writerInvariants :
    (started.all (fun s => decide (s.ReleaseInv ∧ s.TotalInv ∧ s.SoundInv ∧ s.ClockInv)) = true) ∧
    (started.all (fun s => decide s.SinkInv) = true) := by decide +kernel

/-- The further premises of StepKeepsReaderChecksum, StepKeepsReturned and StepKeepsDrawn. -/
theorem witness_readerInvariants :
    (started.all (fun s => decide s.ReaderChecksumInv) = true) ∧ (started.all (fun s => decide s.ReturnInv) = true) ∧
    (started.all (fun s => decide s.DrawnInv) = true) := by decide +kernel

/-- SilentCollaborator: each primitive unanswered, in a command that issues it. -/
theorem witness_silentCollaborator :
    (after silentWrite).StuckOn .chWrite ∧
    (∀ x ∈ [(Instr.flush, PortName.chFlush, placed (block .zlib .compress) [] { chFlush := [.silent] }),
        (.getlen, .chLength, placed (block .zlib .compress) [] { chLength := [.silent] }),
        (.close, .chClose, placed (block .zlib .compress) [] { chClose := [.silent] }),
        (.close, .engEnd, live .gzip .compress .reader [] { engEnd := [.silent] }),
        (.close, .poolRelease, live .gzip .compress .reader [] { engEnd := [.answer ()], poolRelease := [.silent] }),
        (.read 3, .chRead, live .gzip .decompress .reader abc { chRead := [.silent] }),
        (.write 3, .clock, { placed (block .gzip .compress) abc { clock := [.silent] } with mtimeFixed := none }),
        (.write 3, .engInit, { placed (block .zlib .compress) abc { engInit := [.silent] } with streamMode := .writer }),
        (.write 3, .poolLease, { placed (block .zlib .compress) abc
          { engInit := [.answer (.ok ())], poolLease := [.silent] } with streamMode := .writer }),
        (.write 3, .engStep, live .zlib .compress .writer abc { engStep := [.silent] }),
        (.write 3, .chWrite, live .zlib .compress .writer abc
          { engStep := [took 3 sixteen .ok], chWrite := [.silent] })],
      x.2.2.inFlight = none ∧ x.2.2.disposed = false ∧
      gives (exec x.1 x.2.2) (fun t => decide (t.StuckOn x.2.1)) = true) ∧
    ((block .zlib .compress).leaveOpen = false ∧ (block .zlib .compress).engLive = false ∧
      (block .zlib .compress).wbLive = false ∧ (block .zlib .compress).crcLive = false ∧
      (live .gzip .decompress .reader abc {}).hdrState ≠ .empty ∧ (live .gzip .decompress .reader abc {}).inAvail = 0 ∧
      (live .gzip .decompress .reader abc {}).noMoreInput = false ∧ abc.length = (3 : U32).toNat ∧
      (live .zlib .compress .writer abc {}).crcLive = false ∧ sixteen.length ≤ (live .zlib .compress .writer abc {}).wbLen) := by
  decide +kernel

/-- ReadOnlyRegisters, RecordOnlyGrows, NoRuleReadsTheWindow and ExhaustedReader: steps that give a next state, also
with the input exhausted, and other bytes for the window. -/
theorem witness_steps :
    (∀ s ∈ started, ∃ t, step s = .next t) ∧
    (∃ s ∈ started, s.inWin ≠ [] ∧ (List.replicate s.inWin.length (0xFF : Byte)).length = s.inWin.length) ∧
    (∃ t, step (next { block .deflate .decompress with noMoreInput := true, streamMode := .reader } 3 []) = .next t) := by
  refine ⟨fun s h => ⟨after s, step_after (witness_inv s h).1⟩, ?_, ?_⟩
  · decide +kernel
  · have h : goesOn (next { block .deflate .decompress with noMoreInput := true, streamMode := .reader } 3 []) = true := by
      rfl
    exact ⟨_, step_after h⟩

/-- ModeImmutable: a step with the mode set, a WRITE on a Reader and a READ on a Writer. -/
theorem witness_modeImmutable :
    (∃ s ∈ started, s.streamMode ≠ .undefined ∧ goesOn s = true) ∧
    ((live .deflate .compress .reader abc {}).inFlight = none ∧ (live .deflate .compress .reader abc {}).disposed = false ∧
      (live .deflate .compress .reader abc {}).streamMode = .reader ∧
      (live .deflate .compress .reader abc {}).caller.length = (3 : U32).toNat) ∧
    (live .deflate .compress .writer abc {}).streamMode = .writer := by decide +kernel

/-- LifecycleTransitions, OneResponse and ErrorsByCommand: commands that give a next state with an Ok, with an error and
in flight; steps of commands in flight that end with an Ok and with an error; and a step of a closed instance. -/
theorem witness_commands :
    gives (exec .close (placed (block .deflate .compress) [] { chClose := [.answer (.ok ())] }))
      (fun t => decide (t.responses = [.ok .unit])) = true ∧
    ((Instr.seek 0 2).wf = true ∧ gives (exec (.seek 0 2) (block .deflate .compress))
      (fun t => decide (t.responses = [.err (.unsupportedOp .seek) none])) = true) ∧
    (after filling).inFlight = some .writeLoop ∧
    gives (resume .writeLoop (live .deflate .compress .writer abc { engStep := [took 0 [] .ok] }))
      (fun t => decide (t.responses = [.ok .unit])) = true ∧
    gives (resume .finishLoop (live .deflate .compress .writer []
      { engStep := [took 0 [] .bufError], engEnd := [.answer ()], poolRelease := [.answer ()]
        chClose := [.answer (.ok ())] }))
      (fun t => decide (t.responses = [.err (.engineFail .bufError) none])) = true ∧
    ((closed .gzip).life = .closed ∧ goesOn (next (closed .gzip) 4 []) = true) ∧
    (∃ s ∈ started, s.inFlight = some .finishLoop ∧ gives (step s) (fun t => decide (t.life = .closed)) = true) ∧
    (∃ s ∈ started, s.inFlight = some .writeLoop ∧ gives (step s) (fun t => decide (t.life = .writer)) = true) := by
  decide +kernel

/-- ExhaustedReader and NoSecondParse: a READ of a Reader with the input exhausted. -/
theorem witness_exhausted :
    ({ live .deflate .compress .reader abc {} with noMoreInput := true } : State).streamMode = .reader ∧
    gives (exec (.read 3) { live .deflate .compress .reader abc
      { engStep := [took 0 [] .ok, took 0 [1, 2, 3] .ok] } with noMoreInput := true })
      (fun t => decide (t.responses = [.ok (.read 3 [1, 2, 3])])) = true := by decide +kernel

/-- NoSecondParse: a READ of a Reader that answers an error. -/
theorem witness_noSecondParse :
    gives (exec (.read 3) (live .gzip .decompress .reader abc { chRead := [.answer (.fail [9])] }))
      (fun t => decide (t.responses = [.err (.chFail [9]) (some abc)])) = true := by decide +kernel

/-- ControlFrame: each of its commands gives a next state. -/
theorem witness_controlFrame :
    ∀ i ∈ [Instr.flush, .getlen, .seek 0 2, .seek 0 3, .getpos, .setpos 1, .setlen 1, .rdstat 0x15, .rdstat 0xFF],
      gives (exec i (placed (block .gzip .compress) []
        { chFlush := [.answer (.ok ())], chLength := [.answer (.ok .unknown)] })) (fun _ => true) = true := by
  decide +kernel

/-- ControlFrame: FLUSH and GETLEN that the channel never answers. -/
theorem witness_controlStuck :
    gives (exec .flush (placed (block .zlib .compress) [] { chFlush := [.silent] }))
      (fun t => decide (t.StuckOn .chFlush)) = true ∧
    gives (exec .getlen (placed (block .zlib .compress) [] { chLength := [.silent] }))
      (fun t => decide (t.StuckOn .chLength)) = true := by decide +kernel

/-- A Writer of each kind in one engine step that consumes all but the trailer. -/
def writers : List State :=
  [live .deflate .compress .writer abc { engStep := [took 3 [] .ok] },
    live .zlib .decompress .writer abc
      { engStep := [took 3 [1, 2, 3, 4, 5, 6, 7, 8, 9, 10, 11, 12, 13, 14, 15] .streamEnd], chWrite := [.answer .ok] },
    live .gzip .compress .writer abc { engStep := [took 3 [1] .ok], chWrite := [.answer .ok] }]

/-- WriteFrame, WriteChecksum and WriteEndsWhenDone: WRITEs with data that give a next state and answer Ok, on a Writer
and as the first WRITE with and without a header, with and without an accumulator. -/
theorem witness_writes :
    (∀ s ∈ writers, s.disposed = false ∧ s.streamMode ≠ .reader ∧ s.engLive = true ∧ s.wbLive = true ∧
      s.streamMode ≠ .undefined ∧ (3 : U32) ≠ 0 ∧
      gives (exec (.write 3) s) (fun t => decide (t.responses = s.responses ++ [.ok .unit])) = true) ∧
    (writers.map (·.crcLive) = [false, false, true]) ∧
    (¬((block .deflate .compress).flavor = .gzip ∧ (block .deflate .compress).cmode = .compress) ∧
      gives (exec (.write 3) (placed (block .deflate .compress) abc { engInit := [.answer (.fail [])] }))
        (fun _ => true) = true) ∧
    ((block .gzip .compress).hdrState ≠ .emitted ∧
      gives (exec (.write 3) (placed (block .gzip .compress) abc
        { chWrite := [.answer .ok], engInit := [.answer (.fail [])] }))
        (fun t => decide (t.hdrState = .emitted)) = true) ∧
    ((closed .gzip).disposed = true ∧
      gives (exec (.write 3) (placed (closed .gzip) abc {})) (fun _ => true) = true) ∧
    (∃ s ∈ started, s.inFlight = some .writeLoop ∧
      gives (step s) (fun t => decide (t.responses = s.responses ++ [.ok .unit])) = true) := by decide +kernel

/-- ReadBuffer and ReadFrame: READs that give a next state, begun and in flight. -/
theorem witness_reads :
    gives (exec (.read 3) (live .deflate .decompress .reader abc
      { chRead := [.answer (.ok deflated)], engStep := [took 5 [1, 2, 3] .ok] })) (fun _ => true) = true ∧
    ((live .deflate .decompress .reader abc {}).streamMode ≠ .undefined ∧
      (live .deflate .decompress .reader abc {}).engLive = true ∧ (live .deflate .decompress .reader abc {}).wbLive = true ∧
      (live .deflate .decompress .reader abc {}).crcLive = false) ∧
    (∃ s ∈ started, s.inFlight = some (.readLoop 4 3 [0x61]) ∧ goesOn s = true) ∧
    (∃ s ∈ started, s.inFlight = some (.nameLoop 0 ⟨0x08, 0, 10, none, none⟩ [0x61]) ∧ goesOn s = true) ∧
    (∃ s ∈ started, s.inFlight = some (.commentLoop 0 ⟨0x10, 0, 10, none, none⟩ [0x61]) ∧ goesOn s = true) ∧
    (InFlight.readLoop 4 3 [0x61]).isRead = true := by decide +kernel

/-- A Writer whose Finish will fail. -/
def failing : State :=
  placed (after gzipWrite) []
    { engStep := [took 0 [] (.fail 0 [])], engEnd := [.answer ()], poolRelease := [.answer ()]
      chClose := [.answer (.ok ())] }

/-- CloseFrame: a CLOSE that gives a next state with no command in flight, from a state that meets the invariant, an
engine being live; and one that goes on from inside the writer Finish (it meets the invariant: witness_inv). -/
theorem witness_closeFrame :
    failing.Inv ∧ failing.engLive = true ∧
    gives (exec .close failing) (fun t => decide (t.inFlight = none)) = true ∧
    (∃ s ∈ started, s.inFlight = some .finishLoop ∧ gives (step s) (fun t => decide (t.inFlight = none)) = true) := by
  have parts : failing.WindowInv ∧ failing.ChecksumInv ∧ failing.BufferInv ∧ failing.LifeInv ∧
      failing.engLive = true := by decide +kernel
  have rest : failing.HeaderInv ∧ failing.FlightInv := by decide +kernel
  obtain ⟨a, b, c, d, e⟩ := parts
  exact ⟨⟨a, b, c, d, rest.1, rest.2⟩, e, by decide +kernel, by decide +kernel⟩

/-- ShortGzipDecompressWrite: a WRITE of 7 bytes begun, and one in flight with 7 bytes left. -/
theorem witness_shortGzipDecompressWrite :
    gives (exec (.write 7) (live .gzip .decompress .writer [1, 2, 3, 4, 5, 6, 7] { engStep := [took 0 [] .ok] }))
      (fun t => decide (t.inFlight = some .writeLoop)) = true ∧
    (((live .gzip .decompress .writer [] {}).loadWindow [1, 2, 3, 4, 5, 6, 7]).inAvail < 8 ∧
      goesOn { (live .gzip .decompress .writer []
        { engStep := [took 0 [] .ok] }).loadWindow [1, 2, 3, 4, 5, 6, 7] with inFlight := some .writeLoop } = true) := by decide +kernel

/-- StalledWriteHangs, for one answer and for three. -/
theorem witness_stalledWriteHangs :
    ∀ n ∈ [0, 2], ∃ s : State, s.inFlight = some .writeLoop ∧ 0 < s.inAvail ∧
      ¬(s.flavor = .gzip ∧ s.cmode = .decompress) ∧
      s.ports.engStep = List.replicate (n + 1) (.answer ⟨0, [], .ok⟩) := by
  intro n h
  refine ⟨{ (live .deflate .compress .writer []
    { engStep := List.replicate (n + 1) (.answer ⟨0, [], .ok⟩) }).loadWindow abc with inFlight := some .writeLoop },
    rfl, ?_, ?_, rfl⟩
  · simp [State.loadWindow, abc]
  · simp [State.loadWindow, live, block, State.fresh]

/-- A decompressing Deflate instance read by one READ of 10 bytes. -/
def readOnce : State :=
  State.loaded {} { ConstructArgs.first with flavor := .deflate, cmode := .decompress, wbSize := some 16 }
    [⟨0x0000000300000002, [0, 0, 0]⟩]
    { engInit := [.answer (.ok ())], poolLease := [.answer sixteen], chRead := [.answer (.ok deflated)],
      engStep := [took 5 abc .streamEnd] } 0

/-- The same read by two, of 2 bytes and of 1. -/
def readTwice : State :=
  State.loaded {} { ConstructArgs.first with flavor := .deflate, cmode := .decompress, wbSize := some 16 }
    [⟨0x0000000200000002, [0, 0]⟩, ⟨0x0000000100000002, [0]⟩]
    { engInit := [.answer (.ok ())], poolLease := [.answer sixteen], chRead := [.answer (.ok deflated)],
      engStep := [took 3 [0x61, 0x62] .ok, took 2 [0x63] .streamEnd] } 0

/-- PartialReadFidelity: an engine property that holds, and the two runs (L1.5). -/
theorem witness_partialReadFidelity :
    ChunkInvariant (fun r => produced r = abc) ∧
    Reaches readOnce (after readOnce) ∧ Reaches readTwice (after (after readTwice)) ∧
    (∀ s ∈ [after readOnce, after (after readTwice)], s.streamMode = .reader ∧ s.inFlight = none ∧
      s.trace.all Txn.clean = true ∧ produced s.trace = abc ∧ reachedEnd s.trace = true ∧
      consumed s.trace = deflated ∧ usesFinish s.trace = false) := by
  refine ⟨fun r q hr hq _ _ _ _ => hr.trans hq.symm, ?_, ?_, by decide +kernel⟩
  · exact .next .start (step_after (by decide +kernel))
  · exact .next (.next .start (step_after (by decide +kernel))) (step_after (by decide +kernel))

/-! ### Witnesses for the results of the commands -/

/-- ClosedInstance, at lengths 0 and 3. -/
theorem witness_closedInstance :
    ∀ x ∈ [((0 : U32), ([] : Bytes)), (3, abc)],
      (placed (closed .gzip) x.2 {}).inFlight = none ∧ (placed (closed .gzip) x.2 {}).disposed = true ∧
      (placed (closed .gzip) x.2 {}).caller.length = x.1.toNat := by decide +kernel

/-- PositioningUnsupported, FlushAndGetlenResult and RdstatResult: words that spell each of their commands, at the greatest
origin and selector and the first one past it. -/
theorem witness_words :
    (∀ x ∈ [((0x0000000700000205 : U64), (0x05 : Byte), (2 : Byte)), (6, 0x06, 0), (0x0000000500000007, 0x07, 0),
        (0x0000000500000008, 0x08, 0), (3, 0x03, 0), (9, 0x09, 0), (0x000000000000150A, 0x0A, 0x15)],
      rsvOf x.1 = 0 ∧ opcOf x.1 = x.2.1 ∧ selOf x.1 = x.2.2) ∧
    (∀ w ∈ [(6 : U64), 3, 9, 0x000000000000150A], lenOf w = 0) ∧
    (opcOf 0x000000000000160A = 0x0A ∧ 0x16 ≤ (selOf 0x000000000000160A).toNat) ∧
    (0x15 : Byte).toNat ≤ 0x15 := by
  refine ⟨fun x h => ?_, fun w h => ?_, by decide, by decide⟩
  · simp only [List.mem_cons, List.not_mem_nil, or_false] at h
    obtain rfl | rfl | rfl | rfl | rfl | rfl | rfl := h <;> decide
  · simp only [List.mem_cons, List.not_mem_nil, or_false] at h
    obtain rfl | rfl | rfl | rfl := h <;> decide

/-- PositioningUnsupported and RdstatResult: no command in flight, open and closed; the least and the greatest origin;
a register of the table. -/
theorem witness_positioning :
    (block .zlib .compress).inFlight = none ∧ (block .zlib .compress).disposed = false ∧
    (closed .zlib).inFlight = none ∧ (closed .zlib).disposed = true ∧ (0 : Byte).toNat ≤ 2 ∧ (2 : Byte).toNat ≤ 2 ∧
    (0x00, .num 0) ∈ (block .zlib .compress).registerTable ∧ (0x15, .absent) ∈ (block .zlib .compress).registerTable ∧
    (0x15, .num 0) ∈ (block .gzip .compress).registerTable := by decide +kernel

/-- FlushAndGetlenResult: closed; open with scripted answers, Ok and failures; open with free ones. -/
theorem witness_flushAndGetlen :
    ((closed .zlib).inFlight = none ∧ (closed .zlib).disposed = true) ∧
    (∀ a ∈ [Answer.ok (), .fail [9]],
      (placed (block .zlib .compress) [] { chFlush := [.answer a] }).ports.chFlush = .answer a :: [] ∧
      (placed (block .zlib .compress) [] { chFlush := [.answer a] }).disposed = false) ∧
    (∀ a ∈ [Answer.ok (.known 0), .ok .unknown, .fail [9]],
      (placed (block .zlib .compress) [] { chLength := [.answer a] }).ports.chLength = .answer a :: [] ∧
      (placed (block .zlib .compress) [] { chLength := [.answer a] }).disposed = false) ∧
    ((block .zlib .compress).ports.chFlush = [] ∧ (block .zlib .compress).ports.chLength = []) := by decide +kernel

/-- ZeroLengthTransfers: a Writer; a first WRITE; a Reader at length 0, and one of an empty stream at length 3; a first
READ. -/
theorem witness_zeroLength :
    ((live .gzip .compress .writer [] {}).inFlight = none ∧ (live .gzip .compress .writer [] {}).disposed = false ∧
      (live .gzip .compress .writer [] {}).caller = [] ∧ (live .gzip .compress .writer [] {}).streamMode = .writer) ∧
    ((block .gzip .decompress).caller = [] ∧ (block .gzip .decompress).streamMode = .undefined ∧
      ¬((block .gzip .decompress).flavor = .gzip ∧ (block .gzip .decompress).cmode = .compress)) ∧
    ((live .zlib .decompress .reader [] {}).caller.length = (0 : U32).toNat ∧
      (live .zlib .decompress .reader [] {}).streamMode = .reader) ∧
    ({ live .gzip .decompress .reader abc {} with hdrState := .empty }.caller.length = (3 : U32).toNat ∧
      { live .gzip .decompress .reader abc {} with hdrState := .empty }.hdrState = .empty) ∧
    ((block .gzip .compress).caller = [] ∧ (block .gzip .compress).streamMode = .undefined ∧
      ¬((block .gzip .compress).flavor = .gzip ∧ (block .gzip .compress).cmode = .decompress)) := by decide +kernel

/-- FirstWriteEmitsHeader: a fixed timestamp; the clock, past 2^32; a failed ChWrite that kept all ten bytes, at length 0
and at length 3. -/
theorem witness_firstWriteEmitsHeader :
    (∀ ports ∈ [({ chWrite := [.answer .ok] } : Ports), { chWrite := [.answer (.fail [9] 10)] }],
      (placed (block .gzip .compress) [] ports).inFlight = none ∧
      (placed (block .gzip .compress) [] ports).disposed = false ∧
      (placed (block .gzip .compress) [] ports).streamMode = .undefined ∧
      (placed (block .gzip .compress) [] ports).flavor = .gzip ∧
      (placed (block .gzip .compress) [] ports).cmode = .compress ∧
      (placed (block .gzip .compress) [] ports).caller = [] ∧
      (placed (block .gzip .compress) [] ports).mtimeFixed = some 0) ∧
    ({ placed (block .gzip .compress) [] { clock := [.answer 0x100000005], chWrite := [.answer .ok] } with
        mtimeFixed := none }.mtimeFixed = none ∧
      { placed (block .gzip .compress) [] { clock := [.answer 0x100000005], chWrite := [.answer .ok] } with
        mtimeFixed := none }.ports.clock = .answer 0x100000005 :: []) ∧
    ((placed (block .gzip .compress) abc { chWrite := [.answer (.fail [9] 10)] }).caller.length = (3 : U32).toNat ∧
      (placed (block .gzip .compress) abc { chWrite := [.answer (.fail [9] 10)] }).mtimeFixed = some 0) := by
  decide +kernel

/-- WriteResult: no bytes produced; one fewer than the working buffer's length; the 8 trailer bytes left. -/
theorem witness_writeResult :
    ∀ x ∈ [((3 : U32), live .deflate .compress .writer abc { engStep := [took 3 [] .ok] },
          (⟨3, [], .ok⟩ : StepAnswer)),
        (3, live .gzip .compress .writer abc { engStep := [took 3 (sixteen.take 15) .streamEnd], chWrite := [.answer .ok] },
          ⟨3, sixteen.take 15, .streamEnd⟩),
        (16, live .gzip .decompress .writer sixteen { engStep := [took 8 abc .streamEnd], chWrite := [.answer .ok] },
          ⟨8, abc, .streamEnd⟩)],
      x.2.1.inFlight = none ∧ x.2.1.disposed = false ∧ x.2.1.streamMode = .writer ∧ x.2.1.engLive = true ∧
      x.2.1.wbLive = true ∧ x.1 ≠ 0 ∧ x.2.1.caller.length = x.1.toNat ∧ x.2.1.ports.engStep = .answer x.2.2 :: [] ∧
      x.2.1.ports.chWrite = (if x.2.2.produced = [] then [] else [.answer .ok]) ++ [] ∧
      x.2.2.consumed ≤ x.2.1.caller.length ∧ x.2.2.produced.length < x.2.1.wbLen ∧
      (x.2.2.status = .ok ∨ x.2.2.status = .streamEnd) ∧
      x.2.1.caller.length - x.2.2.consumed =
        (if x.2.1.flavor = .gzip ∧ x.2.1.cmode = .decompress then 8 else 0) := by decide +kernel

/-- The collaborators of a first WRITE of `abc` that emits a header. -/
def headerPorts (clock : List (Reply Int)) : Ports :=
  { clock := clock, chWrite := [.answer .ok], engInit := [.answer (.ok ())], poolLease := [.answer sixteen],
    engStep := [took 3 [] .ok] }

/-- FirstWriteMaterialises: a lease of exactly the size asked for, without and with the trailer left; INIT_FAIL. -/
theorem witness_firstWriteMaterialises :
    (∀ x ∈ [((3 : U32), placed (block .zlib .compress) abc
            { engInit := [.answer (.ok ())], poolLease := [.answer sixteen], engStep := [took 3 [] .ok] },
          (⟨3, [], .ok⟩ : StepAnswer)),
        (16, placed (block .gzip .decompress) sixteen
            { engInit := [.answer (.ok ())], poolLease := [.answer sixteen], engStep := [took 8 [] .ok] }, ⟨8, [], .ok⟩)],
      x.2.1.inFlight = none ∧ x.2.1.disposed = false ∧ x.2.1.streamMode = .undefined ∧
      ¬(x.2.1.flavor = .gzip ∧ x.2.1.cmode = .compress) ∧ x.2.1.engLive = false ∧ x.2.1.wbLive = false ∧ x.1 ≠ 0 ∧
      x.2.1.caller.length = x.1.toNat ∧ x.2.1.ports.engInit = .answer (.ok ()) :: [] ∧
      x.2.1.ports.poolLease = .answer sixteen :: [] ∧ x.2.1.ports.engStep = .answer x.2.2 :: [] ∧
      x.2.1.workbufSize ≤ sixteen.length ∧ 0 < sixteen.length ∧ x.2.2.consumed ≤ x.2.1.caller.length ∧
      x.2.1.caller.length - x.2.2.consumed = (if x.2.1.flavor = .gzip then 8 else 0)) ∧
    (placed (block .zlib .compress) abc { engInit := [.answer (.fail [7])] }).ports.engInit = .answer (.fail [7]) :: [] ∧
    (placed (block .zlib .compress) abc { engInit := [.answer (.fail [7])] }).caller.length = (3 : U32).toNat := by
  decide +kernel

/-- FirstWriteMaterialises: a Writer after an empty first WRITE (vector T7), with a lease of exactly the size asked for,
and with an EngInit that fails (vector W9); a first WRITE with no header. -/
theorem witness_writeMaterialises :
    (∀ s ∈ [placed { block .gzip .compress with streamMode := .writer } abc
          { engInit := [.answer (.ok ())], poolLease := [.answer sixteen] },
        placed (block .gzip .decompress) abc { engInit := [.answer (.ok ())], poolLease := [.answer sixteen] }],
      (s.inFlight = none ∧ s.disposed = false ∧
        (s.streamMode = .writer ∨ s.streamMode = .undefined ∧ ¬(s.flavor = .gzip ∧ s.cmode = .compress)) ∧
        s.engLive = false ∧ s.wbLive = false) ∧
      (s.caller.length = (3 : U32).toNat ∧ s.ports.engInit = .answer (.ok ()) :: [] ∧
        s.ports.poolLease = .answer sixteen :: [] ∧ s.workbufSize ≤ sixteen.length)) ∧
    (placed { block .gzip .compress with streamMode := .writer } abc
      { engInit := [.answer (.fail [7])] }).ports.engInit = .answer (.fail [7]) :: [] := by decide +kernel

/-- FirstWriteMaterialises: a compressing Gzip instance, with a fixed timestamp and with the clock's. -/
theorem witness_firstWriteOfGzip :
    ∀ x ∈ [(placed (block .gzip .compress) abc (headerPorts []), some (0 : U32), ([] : List (Reply Int))),
      ({ placed (block .gzip .compress) abc (headerPorts [.answer 5]) with mtimeFixed := none }, none, [.answer 5])],
      x.1.inFlight = none ∧ x.1.disposed = false ∧ x.1.streamMode = .undefined ∧ x.1.flavor = .gzip ∧
      x.1.cmode = .compress ∧ x.1.engLive = false ∧ x.1.wbLive = false ∧ x.1.caller.length = (3 : U32).toNat ∧
      x.1.mtimeFixed = x.2.1 ∧ x.1.ports.clock = x.2.2 ∧ x.1.ports.chWrite = .answer .ok :: [] ∧
      x.1.ports.engInit = .answer (.ok ()) :: [] ∧ x.1.ports.poolLease = .answer sixteen :: [] ∧
      x.1.ports.engStep = .answer ⟨3, [], .ok⟩ :: [] ∧ x.1.workbufSize ≤ sixteen.length ∧ 3 = x.1.caller.length := by
  decide +kernel

/-- WriteEngineFailure: a payload ChWrite that fails and kept all its bytes, with the working buffer filled. -/
theorem witness_unwritten :
    ∀ s ∈ [live .deflate .compress .writer abc
        { engStep := [took 3 sixteen .ok], chWrite := [.answer (.fail [9] 16)] }],
      s.inFlight = none ∧ s.disposed = false ∧ s.streamMode = .writer ∧ s.engLive = true ∧ s.wbLive = true ∧
      s.caller.length = (3 : U32).toNat ∧ s.ports.engStep = .answer ⟨3, sixteen, .ok⟩ :: [] ∧ sixteen ≠ [] ∧
      sixteen.length ≤ s.wbLen ∧ s.ports.chWrite = .answer (.fail [9] sixteen.length) :: [] := by decide +kernel

/-- WriteEngineFailure: BUF_ERROR and a failure of the engine, with the working buffer filled. -/
theorem witness_writeEngineFails :
    ∀ rc ∈ [EngStatus.bufError, .fail (-3) []],
      ∀ s ∈ [live .deflate .compress .writer abc { engStep := [took 3 sixteen rc] }],
        s.inFlight = none ∧ s.disposed = false ∧ s.streamMode = .writer ∧ s.engLive = true ∧ s.wbLive = true ∧
        s.caller.length = (3 : U32).toNat ∧ s.ports.engStep = .answer ⟨3, sixteen, rc⟩ :: [] ∧
        3 ≤ s.caller.length ∧ sixteen.length ≤ s.wbLen ∧ rc ≠ .ok ∧ rc ≠ .streamEnd := by decide +kernel

/-- ReadBenignEnd: BUF_ERROR and a failure with the caller's buffer filled and the input exhausted. -/
theorem witness_readBenignEnd :
    ∀ rc ∈ [EngStatus.bufError, .fail (-3) []],
      ∀ s ∈ [{ live .gzip .decompress .reader abc { engStep := [took 0 abc rc] } with noMoreInput := true }],
        s.inFlight = none ∧ s.disposed = false ∧ s.streamMode = .reader ∧ s.hdrState ≠ .empty ∧ s.engLive = true ∧
        s.wbLive = true ∧ s.caller.length = (3 : U32).toNat ∧ s.noMoreInput = true ∧
        s.ports.engStep = .answer ⟨0, abc, rc⟩ :: [] ∧ 0 ≤ s.window.length ∧ abc.length ≤ (3 : U32).toNat ∧
        rc ≠ .ok ∧ rc ≠ .streamEnd := by decide +kernel

/-- ReadBenignEnd: the same with input staged, all of it consumed. -/
theorem witness_readFailsOnInput :
    ∀ rc ∈ [EngStatus.bufError, .fail (-3) []],
      ∀ s ∈ [(live .gzip .decompress .reader abc { engStep := [took 5 abc rc] }).loadWindow deflated],
        s.inFlight = none ∧ s.disposed = false ∧ s.streamMode = .reader ∧ s.hdrState ≠ .empty ∧ s.engLive = true ∧
        s.wbLive = true ∧ s.noMoreInput = false ∧ 0 < s.inAvail ∧ s.ports.engStep = .answer ⟨5, abc, rc⟩ :: [] ∧
        5 ≤ s.window.length ∧ rc ≠ .ok ∧ rc ≠ .streamEnd := by decide +kernel

/-- ReadBenignEnd: the same after a chunk pull, without and with bytes. -/
theorem witness_readFailsOnChunk :
    ∀ rc ∈ [EngStatus.bufError, .fail (-3) []], ∀ k ∈ [[], deflated],
      ∀ s ∈ [live .gzip .compress .reader abc { chRead := [.answer (.ok k)], engStep := [took k.length abc rc] }],
        s.hdrState ≠ .empty ∧ s.noMoreInput = false ∧ s.inAvail = 0 ∧ s.ports.chRead = .answer (.ok k) :: [] ∧
        k.length ≤ s.wbLen ∧ s.ports.engStep = .answer ⟨k.length, abc, rc⟩ :: [] ∧ rc ≠ .ok ∧ rc ≠ .streamEnd := by
  decide +kernel

/-- A WRITE in flight with all of `abc` in the window, a step taking `consumed` of it and producing `bytes`. -/
def rounding (flavor : Flavor) (cmode : CMode) (consumed : Nat) (bytes : Bytes) : State :=
  { (live flavor cmode .writer [] { engStep := [took consumed bytes .ok], chWrite := [.answer .ok] }).loadWindow
      sixteen with inFlight := some .writeLoop }

/-- WriteRound: done; input left; the working buffer filled; for Gzip decompression done with 8 bytes left, and past
them. -/
theorem witness_writeRound :
    ∀ x ∈ [(rounding .deflate .compress 16 abc, 16, abc), (rounding .deflate .compress 15 abc, 15, abc),
        (rounding .deflate .compress 16 sixteen, 16, sixteen), (rounding .gzip .decompress 8 abc, 8, abc),
        (rounding .gzip .decompress 9 abc, 9, abc)],
      x.1.inFlight = some .writeLoop ∧ x.1.ports.engStep = [.answer ⟨x.2.1, x.2.2, .ok⟩] ∧
      x.1.ports.chWrite = (if x.2.2 = [] then [] else [.answer .ok]) ++ [] ∧ x.2.1 ≤ x.1.window.length ∧
      x.2.2.length ≤ x.1.wbLen := by decide +kernel

/-- The premises of WriteRound's going on that its three loops share, for an answer `a`. -/
abbrev Pushing (s : State) (a : StepAnswer) (q : List (Reply StepAnswer)) : Prop :=
  s.ports.engStep = .answer a :: q ∧ s.ports.chWrite = (if a.produced = [] then [] else [.answer .ok]) ++ [] ∧
  a.consumed ≤ s.window.length ∧ a.produced.length ≤ s.wbLen ∧ (a.status = .ok ∨ a.status = .streamEnd)

/-- WriteRound: rounds that go on. WRITE with input left and nothing produced; the working buffer filled, as in vector
K4, in a CLOSE begun with a further answer to come; STREAM_END still wanted, as in vector K15, begun and in flight; Gzip
decompression past the trailer's 8 bytes, in flight. -/
theorem witness_loopsGoOn :
    (∀ s ∈ [{ (live .zlib .compress .writer [] { engStep := [took 2 [] .ok] }).loadWindow abc with
          inFlight := some .writeLoop }],
      Pushing s ⟨2, [], .ok⟩ [] ∧ s.inFlight = some .writeLoop ∧ s.inAvail - 2 ≠ 0) ∧
    (∀ s ∈ [live .deflate .compress .writer []
          { engStep := [took 0 sixteen .ok, took 0 [1] .streamEnd], chWrite := [.answer .ok] }],
      Pushing s ⟨0, sixteen, .ok⟩ [took 0 [1] .streamEnd] ∧ s.inFlight = none ∧ s.disposed = false ∧
      s.streamMode = .writer ∧ s.engLive = true ∧ sixteen.length = s.wbLen) ∧
    (∀ f ∈ [none, some InFlight.finishLoop],
      ∀ s ∈ [{ live .deflate .compress .writer [] { engStep := [took 0 [0x4B, 0x4C] .ok], chWrite := [.answer .ok] } with
          plat := { finishRequiresStreamEnd := true }, inFlight := f }],
        Pushing s ⟨0, [0x4B, 0x4C], .ok⟩ [] ∧ s.inFlight = f ∧ s.plat.finishRequiresStreamEnd = true) ∧
    (∀ s ∈ [{ (live .gzip .decompress .writer [] { engStep := [took 9 [] .streamEnd] }).loadWindow sixteen with
          inFlight := some .finishLoop }],
      Pushing s ⟨9, [], .streamEnd⟩ [] ∧ s.inFlight = some .finishLoop ∧ s.inAvail - 9 ≠ 8) := by decide +kernel

/-- WriteRound: a round that ends with nothing produced; and a WRITE with data on a live Writer, which is then in its
loop. -/
theorem witness_writeRoundQuiet :
    (∀ s ∈ [{ (live .zlib .compress .writer [] { engStep := [took 3 [] .ok] }).loadWindow abc with
          inFlight := some .writeLoop }],
      Pushing s ⟨3, [], .ok⟩ [] ∧ s.inFlight = some .writeLoop ∧ s.inAvail - 3 = 0) ∧
    (∀ s ∈ writers, s.inFlight = none ∧ s.disposed = false ∧ s.streamMode = .writer ∧ s.engLive = true ∧
      s.wbLive = true ∧ s.caller.length = (3 : U32).toNat) := by decide +kernel

/-- WriteEngineFailure: rounds of a WRITE in flight whose step fails and whose ChWrite fails. -/
theorem witness_writeFailsLater :
    (∀ s ∈ [{ (live .zlib .compress .writer [] { engStep := [took 3 sixteen .bufError] }).loadWindow abc with
          inFlight := some .writeLoop }],
      s.ports.engStep = .answer ⟨3, sixteen, .bufError⟩ :: [] ∧ 3 ≤ s.window.length ∧ sixteen.length ≤ s.wbLen ∧
      s.inFlight = some .writeLoop) ∧
    (∀ s ∈ [{ (live .zlib .compress .writer []
          { engStep := [took 3 sixteen .ok], chWrite := [.answer (.fail [9] 16)] }).loadWindow abc with
          inFlight := some .writeLoop }],
      s.ports.engStep = .answer ⟨3, sixteen, .ok⟩ :: [] ∧ 3 ≤ s.window.length ∧ sixteen.length ≤ s.wbLen ∧
      s.inFlight = some .writeLoop ∧ s.ports.chWrite = .answer (.fail [9] sixteen.length) :: []) := by decide +kernel

/-- The premises that the statements about READ with data on a live Reader share, for a READ of 3 bytes. -/
abbrev Reading (s : State) : Prop :=
  s.inFlight = none ∧ s.disposed = false ∧ s.streamMode = .reader ∧ s.hdrState ≠ .empty ∧ s.engLive = true ∧
  s.wbLive = true ∧ (3 : U32) ≠ 0 ∧ s.caller.length = (3 : U32).toNat

/-- A Reader whose channel is exhausted. -/
def exhaustedReader (cmode : CMode) (answers : List (Reply StepAnswer)) : State :=
  { live .deflate cmode .reader abc { engStep := answers } with noMoreInput := true }

/-- ReadResult: input staged, the buffer full, and STREAM_END with nothing produced; the input exhausted, STREAM_END as
in vector R3, OK with room left, and for compression the buffer full. -/
theorem witness_readResult :
    ∀ x ∈ [((live .gzip .decompress .reader abc { engStep := [took 5 abc .ok] }).loadWindow deflated,
          (⟨5, abc, .ok⟩ : StepAnswer)),
        ((live .gzip .decompress .reader abc { engStep := [took 0 [] .streamEnd] }).loadWindow deflated,
          ⟨0, [], .streamEnd⟩),
        (exhaustedReader .decompress [took 0 [] .streamEnd], ⟨0, [], .streamEnd⟩),
        (exhaustedReader .decompress [took 0 [1] .ok], ⟨0, [1], .ok⟩),
        (exhaustedReader .compress [took 0 abc .ok], ⟨0, abc, .ok⟩)],
      (Reading x.1 ∧ (0 < x.1.inAvail ∨ x.1.noMoreInput = true) ∧ x.1.ports.engStep = .answer x.2 :: []) ∧
      (x.2.consumed ≤ x.1.window.length ∧ x.2.produced.length ≤ (3 : U32).toNat) ∧
      ((x.2.status = .ok ∧ (x.2.produced.length = (3 : U32).toNat ∨ x.1.noMoreInput = true)) ∨
        x.2.status = .streamEnd) ∧
      (x.1.noMoreInput = true → x.1.cmode = .compress → x.2.produced.length = (3 : U32).toNat) := by decide +kernel

/-- A Reader whose next answer to ChRead is the chunk `k`. -/
def pulling (cmode : CMode) (k : Bytes) (a : StepAnswer) : State :=
  live .deflate cmode .reader abc { chRead := [.answer (.ok k)], engStep := [.answer a] }

/-- ReadResult: rounds without a chunk pull, begun by a READ: another round, the end, a failure, the benign end; and the
end of a READ in flight, past the byte it has produced. -/
theorem witness_readRound :
    (∀ x ∈ [((live .zlib .compress .reader abc { engStep := [took 5 [1] .ok] }).loadWindow deflated,
          (⟨5, [1], .ok⟩ : StepAnswer)),
        ((live .zlib .compress .reader abc { engStep := [took 0 abc .ok] }).loadWindow deflated, ⟨0, abc, .ok⟩),
        ((live .zlib .compress .reader abc { engStep := [took 0 [] .bufError] }).loadWindow deflated,
          ⟨0, [], .bufError⟩),
        (exhaustedReader .compress [took 0 [1] .bufError], ⟨0, [1], .bufError⟩)],
      (Reading x.1 ∧ (0 < x.1.inAvail ∨ x.1.noMoreInput = true) ∧ x.1.ports.engStep = [.answer x.2]) ∧
      (x.2.consumed ≤ x.1.window.length ∧ x.2.produced.length ≤ (3 : U32).toNat) ∧
      (x.2.status = .ok ∨ x.2.status = .streamEnd → x.1.noMoreInput = true → x.1.cmode = .compress →
        x.2.produced.length = (3 : U32).toNat)) ∧
    (∀ s ∈ [{ exhaustedReader .compress [took 0 [1, 2] .ok] with inFlight := some (.readLoop 3 2 [0x61]) }],
      s.inFlight = some (.readLoop (3 : U32).toNat 2 [0x61]) ∧ s.noMoreInput = true ∧
      s.ports.engStep = [.answer ⟨0, [1, 2], .ok⟩] ∧ 0 ≤ s.window.length ∧ [(1 : Byte), 2].length = 2) := by
  decide +kernel

/-- ReadResult: rounds with a chunk pull: another round, a failure, and, on no bytes, the benign end and the end. -/
theorem witness_readRoundPulls :
    ∀ x ∈ [(deflated, (⟨5, [1], .ok⟩ : StepAnswer)), (sixteen, ⟨16, [], .bufError⟩), ([], ⟨0, [1], .bufError⟩),
        ([], ⟨0, abc, .ok⟩)],
      (Reading (pulling .compress x.1 x.2) ∧ (pulling .compress x.1 x.2).inAvail = 0 ∧
        (pulling .compress x.1 x.2).noMoreInput = false ∧
        (pulling .compress x.1 x.2).ports.chRead = .answer (.ok x.1) :: [] ∧
        (pulling .compress x.1 x.2).ports.engStep = [.answer x.2]) ∧
      (x.1.length ≤ (pulling .compress x.1 x.2).wbLen ∧ x.2.consumed ≤ x.1.length ∧
        x.2.produced.length ≤ (3 : U32).toNat) ∧
      (x.2.status = .ok ∨ x.2.status = .streamEnd → decide (x.1 = []) = true →
        x.2.produced.length = (3 : U32).toNat) := by decide +kernel

/-- ReadPullsAChunk: a chunk pull that fails. -/
theorem witness_readPullFails :
    ∀ s ∈ [live .gzip .compress .reader abc { chRead := [.answer (.fail [9])] }],
      s.inFlight = none ∧ s.disposed = false ∧ s.streamMode = .reader ∧ s.hdrState ≠ .empty ∧ s.engLive = true ∧
      s.wbLive = true ∧ s.caller.length = (3 : U32).toNat ∧ s.inAvail = 0 ∧ s.noMoreInput = false ∧
      s.ports.chRead = .answer (.fail [9]) :: [] := by decide +kernel

/-- ReadPullsAChunk: the channel at its end, a chunk as long as the working buffer, and STREAM_END; in both directions,
but for compression no final step due. -/
theorem witness_readPullsAChunk :
    ∀ x ∈ [(CMode.decompress, ([] : Bytes), (⟨0, [1], .ok⟩ : StepAnswer)), (.decompress, sixteen, ⟨16, abc, .ok⟩),
        (.decompress, deflated, ⟨5, [1], .streamEnd⟩), (.compress, [], ⟨0, abc, .ok⟩),
        (.compress, sixteen, ⟨16, abc, .ok⟩), (.compress, deflated, ⟨5, [1], .streamEnd⟩)],
      ∀ s ∈ [pulling x.1 x.2.1 x.2.2],
        (Reading s ∧ s.inAvail = 0 ∧ s.noMoreInput = false ∧ s.ports.chRead = .answer (.ok x.2.1) :: [] ∧
          x.2.1.length ≤ s.wbLen ∧ s.ports.engStep = .answer x.2.2 :: []) ∧
        (x.2.2.consumed ≤ x.2.1.length ∧ x.2.2.produced.length ≤ (3 : U32).toNat) ∧
        ((x.2.2.status = .ok ∧ (x.2.1 = [] ∨ x.2.2.produced.length = (3 : U32).toNat)) ∨
          x.2.2.status = .streamEnd) ∧
        (x.2.1 = [] → s.cmode = .compress → x.2.2.produced.length = (3 : U32).toNat) := by decide +kernel

/-- ReadPullsAChunk: READs that materialise, the first one and one after a failed header parse, with a lease of exactly
the size asked for; and an EngInit that fails. -/
theorem witness_readMaterialises :
    (∀ s ∈ [placed (block .gzip .compress) abc
          { engInit := [.answer (.ok ())], poolLease := [.answer sixteen] },
        placed { block .gzip .decompress with streamMode := .reader } abc
          { engInit := [.answer (.ok ())], poolLease := [.answer sixteen] }],
      (s.inFlight = none ∧ s.disposed = false ∧
        (s.streamMode = .reader ∨ s.streamMode = .undefined ∧ ¬(s.flavor = .gzip ∧ s.cmode = .decompress)) ∧
        s.hdrState ≠ .empty ∧ s.engLive = false ∧ s.wbLive = false) ∧
      (s.caller.length = (3 : U32).toNat ∧ s.ports.engInit = .answer (.ok ()) :: [] ∧
        s.ports.poolLease = .answer sixteen :: [] ∧ s.workbufSize ≤ sixteen.length)) ∧
    (placed (block .gzip .compress) abc { engInit := [.answer (.fail [7])] }).ports.engInit =
      .answer (.fail [7]) :: [] := by decide +kernel

/-- ReadFinalStep: the FINISH step filling the buffer, and failing; the input exhausted before the READ. -/
theorem witness_readFinalStep :
    ∀ b ∈ [(⟨0, [2, 3], .streamEnd⟩ : StepAnswer), ⟨0, [], .bufError⟩],
      ∀ s ∈ [exhaustedReader .compress [took 0 [1] .ok, .answer b]],
        Reading s ∧ s.noMoreInput = true ∧ s.cmode = .compress ∧ s.inAvail = 0 ∧
        s.ports.engStep = .answer ⟨0, [1], .ok⟩ :: .answer b :: [] ∧ b.consumed = 0 ∧
        [(1 : Byte)].length < (3 : U32).toNat ∧ [(1 : Byte)].length + b.produced.length ≤ (3 : U32).toNat := by
  decide +kernel

/-- ReadFinalStep: the same, the input exhausted by the first chunk pull. -/
theorem witness_readFinalStepFirst :
    ∀ b ∈ [(⟨0, [2, 3], .streamEnd⟩ : StepAnswer), ⟨0, [], .bufError⟩],
      ∀ s ∈ [live .gzip .compress .reader abc
          { chRead := [.answer (.ok [])], engStep := [took 0 [1] .ok, .answer b] }],
        Reading s ∧ s.noMoreInput = false ∧ s.cmode = .compress ∧ s.inAvail = 0 ∧
        s.ports.chRead = .answer (.ok []) :: [] ∧
        s.ports.engStep = .answer ⟨0, [1], .ok⟩ :: .answer b :: [] := by decide +kernel

/-- ReadFinalStep: the same, the input exhausted by the second chunk pull. -/
theorem witness_readFinalStepLater :
    ∀ b ∈ [(⟨0, [2, 3], .streamEnd⟩ : StepAnswer), ⟨0, [], .bufError⟩],
      ∀ s ∈ [live .gzip .compress .reader abc
          { chRead := [.answer (.ok sixteen), .answer (.ok [])]
            engStep := [took 16 [] .ok, took 0 [1] .ok, .answer b] }],
        (Reading s ∧ s.noMoreInput = false ∧ s.cmode = .compress ∧ s.inAvail = 0 ∧ sixteen ≠ [] ∧
          sixteen.length ≤ s.wbLen ∧ s.ports.chRead = .answer (.ok sixteen) :: .answer (.ok []) :: []) ∧
        (s.ports.engStep =
            .answer ⟨sixteen.length, [], .ok⟩ :: .answer ⟨0, [1], .ok⟩ :: .answer b :: [] ∧ b.consumed = 0 ∧
          ([] : Bytes).length + [(1 : Byte)].length < (3 : U32).toNat ∧
          ([] ++ [1] ++ b.produced).length ≤ (3 : U32).toNat) := by
  decide +kernel

/-- ReadFinalStep: a READ in flight in its loop, the input exhausted before and by this round's chunk pull. -/
theorem witness_readFinalStepInFlight :
    ∀ b ∈ [(⟨0, [3], .streamEnd⟩ : StepAnswer), ⟨0, [], .bufError⟩],
      (∀ s ∈ [{ exhaustedReader .compress [took 0 [2] .ok, .answer b] with inFlight := some (.readLoop 3 2 [1]) }],
        s.inFlight = some (.readLoop 3 2 [1]) ∧ s.cmode = .compress ∧ s.inAvail = 0 ∧ s.noMoreInput = true ∧
        s.ports.engStep = .answer ⟨0, [2], .ok⟩ :: .answer b :: []) ∧
      (∀ s ∈ [{ live .gzip .compress .reader abc
            { chRead := [.answer (.ok [])], engStep := [took 0 [2] .ok, .answer b] } with
            inFlight := some (.readLoop 3 2 [1]) }],
        s.inFlight = some (.readLoop 3 2 [1]) ∧ s.noMoreInput = false ∧
        s.ports.chRead = .answer (.ok []) :: [] ∧
        s.ports.engStep = .answer ⟨0, [2], .ok⟩ :: .answer b :: []) ∧
      b.consumed = 0 ∧ [(2 : Byte)].length + b.produced.length ≤ 2 := by decide +kernel

/-- The header of vector H5, every optional field in it. -/
def fullHeader : WireHeader :=
  { rest := 0, mtime := 0, xfl := 0, os := 3, extra := some [0xAA, 0xBB, 0xCC],
    name := some [0x61, 0x2E, 0x74, 0x78, 0x74], comment := some [0x68, 0x69], hcrc := some (0x12, 0x34) }

/-- A header with no optional field, every other bit of FLG set. -/
def plainHeader : WireHeader :=
  { rest := 0xFF, mtime := 0xFFFFFFFF, xfl := 2, os := 255, extra := none, name := none, comment := none, hcrc := none }

/-- A decompressing Gzip instance whose channel gives these chunks. -/
def fed (chunks : List Bytes) : State :=
  placed (block .gzip .decompress) [] { chRead := chunks.map (fun k => .answer (.ok k)) }

/-- The common hypotheses of the statements about the header parse. -/
theorem witness_fed (chunks : List Bytes) :
    (fed chunks).inFlight = none ∧ (fed chunks).disposed = false ∧ (fed chunks).streamMode = .undefined ∧
    (fed chunks).flavor = .gzip ∧ (fed chunks).cmode = .decompress ∧ (fed chunks).caller = [] :=
  ⟨rfl, rfl, rfl, rfl, rfl, rfl⟩

/-- HeaderParse: the bytes of vector H5 one a read, and a header of the fixed part alone. -/
theorem witness_headerParse :
    fullHeader.wire = [0x1F, 0x8B, 0x08, 0x1E, 0, 0, 0, 0, 0, 3, 3, 0, 0xAA, 0xBB, 0xCC, 0x61, 0x2E, 0x74, 0x78, 0x74,
      0, 0x68, 0x69, 0, 0x12, 0x34] ∧
    (∀ h ∈ [fullHeader, plainHeader], h.wf = true ∧
      (fed (h.wire.map fun b => [b])).ports.chRead = h.wire.map (fun b => .answer (.ok [b])) ++ [] ∧
      ((fed (h.wire.map fun b => [b])).setCaller abc).caller.length = (3 : U32).toNat) := by
  decide +kernel

/-- HeaderRoundTrip: the emitted header in one chunk, in two and in ten. -/
theorem witness_headerRoundTrip :
    ∀ chunks ∈ [[headerBytes {} 0x12345678], [[0x1F], 0x8B :: (headerBytes {} 0x12345678).drop 2],
        (headerBytes {} 0x12345678).map fun b => [b]],
      (∀ k ∈ chunks, k ≠ []) ∧ chunks.flatten = headerBytes {} 0x12345678 ∧
      (fed chunks).ports.chRead = chunks.map (fun k => .answer (.ok k)) ++ [] := by decide +kernel

/-- TruncatedHeader: an end inside each part of the header, at its first byte and at its last. -/
theorem witness_truncatedHeader :
    (∀ n ∈ [1, 9, 10, 11, 12, 14, 15, 20, 21, 23, 24, 25], fullHeader.wf = true ∧ 0 < n ∧ n < fullHeader.wire.length ∧
      (fed ((fullHeader.wire.take n).map (fun b => [b]) ++ [[]])).ports.chRead =
        (fullHeader.wire.take n).map (fun b => .answer (.ok [b])) ++ .answer (.ok []) :: []) := by decide +kernel

/-- R165 to R168: the field an end lies in, from the byte counts of vector H5. -/
theorem test_placeAt :
    [10, 11, 12, 14, 15, 20, 21, 23, 24, 25].map fullHeader.placeAt =
      [.fextraLen, .fextraLen, .fextraData, .fextraData, .fname, .fname, .fcomment, .fcomment, .fhcrc, .fhcrc] := by
  decide

/-- R166: an end inside the name is EOF_IN_HEADER with FNAME. -/
theorem test_read_eof_in_name :
    gives (exec (.read 0) (fed [[0x1F, 0x8B, 0x08, 0x08, 0, 0, 0, 0, 0, 3], [0x61], []]))
      (fun t => decide (t.responses = [.err (.eofInHeader .fname) (some [])] ∧ t.hdrState = .none)) = true := by
  decide +kernel

/-- Ten bytes that begin with these three. -/
def tenBytes (x y z : Byte) : Bytes := [x, y, z, 0, 0, 0, 0, 0, 0, 3]

/-- FixedHeaderChecks: bad magic in either byte, a bad method, and the empty channel. -/
theorem witness_fixedHeaderChecks :
    (∀ b ∈ [tenBytes 0x1E 0x8B 0x08, tenBytes 0x1F 0x8C 0x08, tenBytes 0x1F 0x8B 0x07], b.length = 10 ∧
      b.take 3 ≠ [0x1F, 0x8B, 0x08] ∧ (fed [b]).ports.chRead = .answer (.ok b) :: []) ∧
    (fed [[]]).ports.chRead = .answer (.ok []) :: [] := by decide +kernel

/-! ### Witnesses for CLOSE -/

/-- CloseUntouched: with LEAVE_OPEN, and with a ChClose that succeeds or fails. -/
theorem witness_closeUntouched :
    (∀ s ∈ [{ block .gzip .compress with leaveOpen := true },
        placed (block .gzip .compress) [] { chClose := [.answer (.ok ())] },
        placed (block .gzip .compress) [] { chClose := [.answer (.fail [9])] }],
      s.inFlight = none ∧ s.disposed = false ∧ s.engLive = false ∧ s.wbLive = false) ∧
    (placed (block .gzip .compress) [] { chClose := [.answer (.fail [9])] }).leaveOpen = false ∧
    (placed (block .gzip .compress) [] { chClose := [.answer (.fail [9])] }).ports.chClose =
      .answer (.fail [9]) :: [] := by decide +kernel

/-- CloseReader: the three flavours of answer, and LEAVE_OPEN. -/
theorem witness_closeReader :
    ∀ s ∈ [live .gzip .compress .reader []
          { engEnd := [.answer ()], poolRelease := [.answer ()], chClose := [.answer (.fail [9])] },
        live .gzip .decompress .reader []
          { engEnd := [.answer ()], poolRelease := [.answer ()], chClose := [.answer (.fail [9])] },
        { live .zlib .compress .reader []
          { engEnd := [.answer ()], poolRelease := [.answer ()] } with leaveOpen := true }],
      s.inFlight = none ∧ s.disposed = false ∧ s.streamMode = .reader ∧ s.engLive = true ∧ s.wbLive = true ∧
      s.ports.engEnd = .answer () :: [] ∧ s.ports.poolRelease = .answer () :: [] ∧
      s.ports.chClose = (if s.leaveOpen then [] else [.answer (.fail [9])]) ++ [] := by decide +kernel

/-- A Writer that CLOSE finishes in one engine step. -/
def finishing (flavor : Flavor) (cmode : CMode) (writes : List (Reply WriteAnswer)) (a : StepAnswer) : State :=
  live flavor cmode .writer []
    { engStep := [.answer a], chWrite := writes, chFlush := [.answer (.ok ())], engEnd := [.answer ()],
      poolRelease := [.answer ()], chClose := [.answer (.ok ())] }

/-- CloseWriter: Deflate without a byte produced, LEAVE_OPEN and a platform that takes OK for the end; compressing Gzip
with a byte less than the working buffer; Gzip decompression with the trailer left; and a CLOSE in flight. -/
theorem witness_closeWriter :
    ∀ x ∈ [({ finishing .deflate .decompress [] ⟨0, [], .ok⟩ with
            leaveOpen := true,
            plat := { finishRequiresStreamEnd := false },
            ports := { (finishing .deflate .decompress [] ⟨0, [], .ok⟩).ports with chClose := [] } },
          (⟨0, [], .ok⟩ : StepAnswer)),
        (finishing .gzip .compress [.answer .ok, .answer .ok] ⟨0, sixteen.take 15, .streamEnd⟩,
          ⟨0, sixteen.take 15, .streamEnd⟩),
        ((finishing .gzip .decompress [.answer .ok] ⟨3, abc, .streamEnd⟩).loadWindow (sixteen.take 11),
          ⟨3, abc, .streamEnd⟩),
        ({ finishing .zlib .compress [.answer .ok] ⟨0, abc, .streamEnd⟩ with inFlight := some .finishLoop },
          ⟨0, abc, .streamEnd⟩)],
      (x.1.inFlight = none ∨ x.1.inFlight = some .finishLoop) ∧ x.1.disposed = false ∧ x.1.streamMode = .writer ∧ x.1.engLive = true ∧
      x.1.wbLive = true ∧ x.1.ports.engStep = .answer x.2 :: [] ∧ x.2.consumed ≤ x.1.window.length ∧
      x.2.produced.length < x.1.wbLen ∧
      (x.2.status = .streamEnd ∨ x.2.status = .ok ∧ x.1.plat.finishRequiresStreamEnd = false) ∧
      x.1.inAvail - x.2.consumed = (if x.1.flavor = .gzip ∧ x.1.cmode = .decompress then 8 else 0) ∧
      x.1.ports.chWrite = (if x.2.produced = [] then [] else [.answer .ok]) ++
        (if x.1.flavor = .gzip ∧ x.1.cmode = .compress then [.answer .ok] else []) ++ [] ∧
      x.1.ports.chFlush = .answer (.ok ()) :: [] ∧ x.1.ports.engEnd = .answer () :: [] ∧
      x.1.ports.poolRelease = .answer () :: [] ∧
      x.1.ports.chClose = (if x.1.leaveOpen then [] else [.answer (.ok ())]) ++ [] := by decide +kernel

/-- CloseErrorPrecedence: the engine fails, or gives BUF_ERROR, and the channel's close fails too, or is not due. -/
theorem witness_closeErrorPrecedence :
    ∀ rc ∈ [EngStatus.bufError, .fail (-2) []],
      ∀ s ∈ [placed (finishing .gzip .compress [] ⟨0, [], rc⟩) []
          { engStep := [took 0 sixteen rc], engEnd := [.answer ()], poolRelease := [.answer ()]
            chClose := [.answer (.fail [9])] },
          { placed (finishing .gzip .compress [] ⟨0, [], rc⟩) []
            { engStep := [took 0 sixteen rc], engEnd := [.answer ()], poolRelease := [.answer ()] } with
            leaveOpen := true }],
        s.inFlight = none ∧ s.disposed = false ∧ s.streamMode = .writer ∧ s.engLive = true ∧ s.wbLive = true ∧
        s.ports.engStep = .answer ⟨0, sixteen, rc⟩ :: [] ∧ 0 ≤ s.window.length ∧
        sixteen.length ≤ s.wbLen ∧ rc ≠ .ok ∧ rc ≠ .streamEnd ∧ s.ports.engEnd = .answer () :: [] ∧
        s.ports.poolRelease = .answer () :: [] ∧
        s.ports.chClose = (if s.leaveOpen then [] else [.answer (.fail [9])]) ++ [] := by decide +kernel

/-- CloseErrorPrecedence: the ChWrite of the step's bytes fails with none kept, the ChFlush, and the trailer's ChWrite
with all of it kept, in the step that begins the CLOSE and in a later one; vector P5. -/
theorem witness_closeChannelFails :
    (∀ x ∈ [(finishing .gzip .compress [.answer (.fail [9] 0)] ⟨0, abc, .streamEnd⟩, (⟨0, abc, .streamEnd⟩ : StepAnswer)),
        ({ finishing .gzip .compress [.answer .ok] ⟨0, abc, .streamEnd⟩ with
            ports := { (finishing .gzip .compress [.answer .ok] ⟨0, abc, .streamEnd⟩).ports with
              chFlush := [.answer (.fail [9])] } }, ⟨0, abc, .streamEnd⟩),
        (finishing .gzip .compress [.answer (.fail [9] 8)] ⟨0, [], .ok⟩, ⟨0, [], .ok⟩),
        ({ finishing .gzip .compress [.answer (.fail [9] 8)] ⟨0, [], .ok⟩ with inFlight := some .finishLoop },
          ⟨0, [], .ok⟩)],
      (x.1.inFlight = none ∨ x.1.inFlight = some .finishLoop) ∧ x.1.disposed = false ∧ x.1.streamMode = .writer ∧
      x.1.engLive = true ∧
      x.1.wbLive = true ∧ x.1.ports.engStep = .answer x.2 :: [] ∧ x.2.consumed ≤ x.1.window.length ∧
      x.2.produced.length < x.1.wbLen ∧ x.1.plat.finishRequiresStreamEnd = false ∧ x.1.inAvail - x.2.consumed = 0 ∧
      x.1.ports.engEnd = .answer () :: [] ∧ x.1.ports.poolRelease = .answer () :: [] ∧
      x.1.ports.chClose = (if x.1.leaveOpen then [] else [.answer (.ok ())]) ++ [] ∧
      gives (match x.1.inFlight with
        | none => exec .close x.1
        | some _ => step x.1)
        (fun t => decide (t.responses = [.err (.chFail [9]) none] ∧ t.disposed = true)) = true) := by decide +kernel

end Sys2Proof.Tests
end

section
/-! The read-only registers (00_scope.md R8, R9; 10_state.md R32): no elementary effect of the block writes one, so no
step does. -/

namespace Sys2Proof.Machine

/-- `t` has the platform parameters and the read-only registers of `s`. -/
def State.SameReadOnly (s t : State) : Prop :=
  t.plat = s.plat ∧ t.flavor = s.flavor ∧ t.cmode = s.cmode ∧ t.level = s.level ∧ t.leaveOpen = s.leaveOpen ∧
  t.workbufSize = s.workbufSize ∧ t.mtimeFixed = s.mtimeFixed ∧ t.crcLive = s.crcLive

theorem State.SameReadOnly.refl (s : State) : s.SameReadOnly s := ⟨rfl, rfl, rfl, rfl, rfl, rfl, rfl, rfl⟩

/-- Every effect but the checksum's is a record update of other fields, so what it must show is its hypothesis; the
checksum's first asks CRC_LIVE. -/
theorem sameReadOnly_effects (s₀ : State) : Effects s₀.SameReadOnly where
  other _ _ _ _ _ h := h
  stepped _ _ _ _ _ _ _ h := h
  work _ _ h := h
  started _ _ h := h
  leased _ _ _ h := h
  crc s b h := by simpa [State.SameReadOnly] using h
  window _ _ h := h
  pulled _ _ h := h
  caller _ _ h := h
  hdrEmpty _ h := h
  hdrParsed _ _ h := h
  stopped _ h := h
  released _ h := h
  disposed _ h := h
  mode _ _ _ h := h
  hdrEmitted _ _ h := h
  respond _ _ h := h
  paused _ _ h := h
  resumed _ h := h
  command _ _ h := h
  data _ _ h := h

theorem step_sameReadOnly {s t : State} (ht : step s = .next t) : s.SameReadOnly t :=
  step_keeps (sameReadOnly_effects s) (.refl s) ht

end Sys2Proof.Machine

/-- Settles O20: every elementary effect keeps the read-only registers, so every step does. -/
theorem readOnlyRegisters : Obligations.ReadOnlyRegisters :=
  fun _ _ ht => Sys2Proof.Machine.step_sameReadOnly ht
end

section
/-! The invariant of the adapter, O11: each effect of each phase keeps it, so every step does. -/

namespace Sys2Proof.Machine

variable {s : State}

/-! What each phase says of the mode, the engine and DISPOSED. -/

theorem State.Writing.between (h : s.Writing) : s.Between := h.1

theorem State.Writing.opened (h : s.Writing) : s.disposed = false := h.2.2

theorem State.Pushing.between (h : s.Pushing) : s.Between := h.1.between

theorem State.Pushing.writer (h : s.Pushing) : s.streamMode = .writer := h.1.2.1

theorem State.Pushing.opened (h : s.Pushing) : s.disposed = false := h.1.opened

theorem State.Tearing.between (h : s.Tearing) : s.Between := h.1

theorem State.Tearing.opened (h : s.Tearing) : s.disposed = false := h.2

theorem State.Closing.between (h : s.Closing) : s.Between := h.1

theorem State.Reading.between {len : Nat} (h : s.Reading len) : s.Between := h.1

theorem State.Reading.opened {len : Nat} (h : s.Reading len) : s.disposed = false := h.2.2.1

theorem State.Parsing.between {len : Nat} (h : s.Parsing len) : s.Between := h.1.between

theorem State.Parsing.reader {len : Nat} (h : s.Parsing len) : s.streamMode = .reader := h.1.2.1

theorem State.Parsing.opened {len : Nat} (h : s.Parsing len) : s.disposed = false := h.1.opened

variable {len room : Nat} {w : Bytes}

theorem State.Pulling.between (h : s.Pulling len room w) : s.Between := h.1.between

theorem State.Pulling.reader (h : s.Pulling len room w) : s.streamMode = .reader := h.1.2.1

theorem State.Pulling.opened (h : s.Pulling len room w) : s.disposed = false := h.1.opened

theorem State.Pulling.live (h : s.Pulling len room w) : s.engLive = true := h.2.1

/-- A transaction writes no register. -/
theorem State.Between.exchanged (h : s.Between) (p : Ports) (d : Nat) (t : Txn) : (s.exchanged p d t).Between := h

/-- The header registers after a parse, the optional strings present as its flags say. -/
theorem State.Parsing.hdrParsed {len : Nat} (h : s.Parsing len) (hd : HdrFields) (ten : 10 ≤ hd.total)
    (name : hd.name.isSome = flgFname hd.flg) (comment : hd.comment.isSome = flgFcomment hd.flg) :
    (s.hdrParsed hd).Reading len := by
  obtain ⟨⟨⟨⟨window, checksum, buffer, life, header⟩, f⟩, reader, opened, long⟩, gzip, decompress, -, -⟩ := h
  exact ⟨⟨⟨window, checksum, buffer, life, by simp_all [State.HeaderInv]⟩, f⟩, reader, opened, long⟩

theorem State.Writing.crcFeed (h : s.Writing) (b : Bytes) : (s.crcFeed b).Writing := by
  obtain ⟨between, writer, opened⟩ := h
  exact ⟨between.crcFeed b, by simpa using writer, by simpa using opened⟩

theorem State.Reading.direction {len : Nat} (h : s.Reading len) : s.streamMode ≠ .undefined := by
  obtain ⟨-, reader, -⟩ := h
  simp [reader]

theorem State.Writing.direction (h : s.Writing) : s.streamMode ≠ .undefined := by
  obtain ⟨-, writer, -⟩ := h
  simp [writer]

/-- Materialise in a WRITE. -/
theorem State.Writing.started (h : s.Writing) (p p' : Ports) (d d' : Nat) (t t' : Txn) (b : Bytes)
    (long : s.workbufSize ≤ b.length) :
    ((((s.exchanged p d t).setEngLive true).exchanged p' d' t').leased b).Writing :=
  ⟨h.between.started h.direction h.opened h.hdr_ne_empty p p' d d' t t' b long, h.2⟩

theorem State.Writing.loadWindow (h : s.Writing) (b : Bytes) : (s.loadWindow b).Writing := ⟨h.between.loadWindow b, h.2⟩

theorem State.Pushing.exchanged (h : s.Pushing) (p : Ports) (d : Nat) (t : Txn) : (s.exchanged p d t).Pushing := h

theorem State.Pushing.tearing (h : s.Pushing) : s.Tearing := ⟨h.between, h.opened⟩

/-- A push step, up to its channel write. -/
theorem State.Pushing.pushed (h : s.Pushing) (flush : FlushType) (a : StepAnswer) (p : Ports) (d : Nat)
    (fits : stepFits s.window s.wbLen a = true) :
    (((s.exchanged p d (.engStep flush s.cmode s.window s.wbLen a)).afterStep a).setWork
      (memWrite s.work 0 a.produced)).Pushing :=
  ⟨⟨h.between.pushed flush a p d h.2 fits, h.1.2⟩, h.2⟩

/-- The invariant in each phase of a command, and what each effect does to it. -/
theorem inv_phases : Phases State.Inv State.Between State.Writing State.Pushing State.Tearing State.Closing
    (fun len _ => State.Parsing len) State.Reading State.Pulling where
  start _ h none := h.between none
  rest _ h := h.inv
  take _ _ h := h
  data _ _ h := h
  answer s r h _ := State.Between.inv (s := s.respond r) h
  flush _ _ _ _ h _ := h
  length _ _ _ _ h _ := h
  stuckFlush _ h opened := h.paused opened _ rfl
  stuckLength _ h opened := h.paused opened _ rfl
  -- WRITE
  enterWriter _ h opened fresh _ := ⟨h.setMode fresh (by simp) opened, rfl, opened⟩
  emitted _ m _ _ h opened fresh gzip compress _ := ⟨h.hdrEmitted fresh opened gzip compress m, rfl, opened⟩
  emitFailed _ _ _ _ _ _ h opened fresh _ _ _ _ := h.setMode fresh (by simp) opened
  timed _ t _ _ _ _ h opened fresh gzip compress _ :=
    ⟨h.hdrEmitted fresh opened gzip compress (BitVec.ofInt 32 t), rfl, opened⟩
  timedFailed _ _ _ _ _ _ _ _ h opened fresh _ _ _ _ := h.setMode fresh (by simp) opened
  stuckEmit _ _ h opened fresh _ _ _ := (h.setMode fresh (m := .writer) (by simp) opened).paused opened _ rfl
  stuckClock _ h opened fresh _ _ free :=
    (h.setMode fresh (m := .writer) (by simp) opened).paused opened _ (by simp [InFlight.fits, PortName.fits, free])
  stuckTimed s t p d h opened fresh _ _ _ :=
    State.Between.paused (s := (s.setMode .writer).exchanged p d (.clock t)) (h.setMode fresh (by simp) opened) opened
      _ rfl
  stayWriter _ h opened writer := ⟨h, writer, opened⟩
  written _ h := h.between
  feed _ h := h.crcFeed _
  togetherW _ h := h.between.together
  initFailedW _ _ _ _ h _ := h.between
  startedW _ p d p' d' _ b h _ long := ⟨(h.started p p' d d' _ _ b long).loadWindow _, rfl⟩
  stuckInitW _ h off := h.between.paused h.opened _ (by simp [InFlight.fits, PortName.fits, off])
  stuckLeaseW _ p d _ h off := h.between.stuckLease h.direction h.opened h.hdr_ne_empty off p d _
  loaded _ h live := ⟨h.loadWindow _, live⟩
  pushFailed _ flush p d a h fits _ :=
    have failed := h.pushed flush a p d fits
    ⟨failed.between, failed.tearing⟩
  quiet _ flush p d a h fits _ none := by simpa [none] using h.pushed flush a p d fits
  pushed _ flush p d p' d' a h fits _ _ := (h.pushed flush a p d fits).exchanged p' d' _
  unwritten _ flush p d p' d' a _ _ h fits _ _ _ :=
    have failed := (h.pushed flush a p d fits).exchanged p' d' _
    ⟨failed.between, failed.tearing⟩
  pushDone _ h := h.between
  stuckPush _ h := h.between.paused h.opened _ h.2
  stuckWrite _ flush p d a h fits _ _ :=
    (h.between.pushed flush a p d h.2 fits).paused h.opened _ (by simp [InFlight.fits, PortName.fits, h.writer])
  pauseWrite _ h := h.between.paused h.opened _ (by simp [InFlight.fits, h.writer, h.2])
  resumeWrite s h going := by
    obtain ⟨fits, opened⟩ := h.fits going
    simp only [InFlight.fits, Bool.and_eq_true, decide_eq_true_eq] at fits
    exact ⟨⟨h.resumed (by simp [going]), fits.1, opened⟩, fits.2⟩
  -- CLOSE
  finishing _ h opened live writer := ⟨⟨h, writer, opened⟩, live⟩
  flushed _ p d _ h _ := (h.exchanged p d _).tearing
  flushFailed _ p d _ h := (h.exchanged p d _).tearing
  trailed _ p d p' d' _ h _ _ := ((h.exchanged p d _).exchanged p' d' _).tearing
  trailFailed _ p d p' d' _ _ _ h _ _ _ := ((h.exchanged p d _).exchanged p' d' _).tearing
  stuckFinish _ h := h.between.paused h.opened _ rfl
  stuckTrailer s p d u h _ _ :=
    State.Between.paused (s := s.exchanged p d (.chFlush (.ok u))) h.between h.opened _
      (by simp [InFlight.fits, PortName.fits, h.writer])
  pauseFinish _ h := h.between.paused h.opened _ (by simp [InFlight.fits, h.writer, h.2])
  resumeFinish s h going := by
    obtain ⟨fits, opened⟩ := h.fits going
    simp only [InFlight.fits, Bool.and_eq_true, decide_eq_true_eq] at fits
    exact ⟨⟨h.resumed (by simp [going]), fits.1, opened⟩, fits.2⟩
  unfinished _ h opened _ := ⟨h, opened⟩
  togetherT _ h := h.between.together
  stuckEnd _ h live := h.between.paused h.opened _ live
  stuckRelease _ p d h live := h.between.stuckRelease h.opened live p d _
  stuckClose _ h _ := by
    obtain ⟨between, opened, off⟩ := h
    exact between.paused opened _ (by simp [InFlight.fits, PortName.fits, off])
  torn _ p p' d d' h _ := ⟨h.between.tornDown p p' d d', h.opened, rfl⟩
  bare _ h off := ⟨h.between, h.opened, off⟩
  left _ h _ := h.setDisposed
  closed s p d a h _ := State.Closing.setDisposed (s := s.exchanged p d (.chClose a)) h
  -- READ
  enterReader _ h opened fresh _ := ⟨h.setMode fresh (by simp) opened, rfl, opened, rfl⟩
  enterParser s h opened fresh gzip decompress := by
    have idle : s.engLive = false := by
      obtain ⟨⟨-, -, -, ⟨direction, -⟩, -⟩, -⟩ := h
      cases live : s.engLive with
      | false => rfl
      | true => exact absurd fresh (direction live).1
    exact ⟨⟨h.setMode fresh (by simp) opened, rfl, opened, rfl⟩, gzip, decompress, h.hdr_none fresh, idle⟩
  stayReader _ h opened reader := ⟨h, reader, opened, rfl⟩
  drew _ _ _ _ _ _ _ h _ := h
  unparsed _ _ _ h := h.between
  stuckParse _ _ _ h := h.between.paused h.opened _ (by simp [InFlight.fits, PortName.fits, h.reader])
  empty _ _ h := h.hdrEmpty
  parsed _ _ hd h ten name comment := h.hdrParsed hd ten name comment
  pauseName len s hd acc h ten name none flag := by
    obtain ⟨⟨between, reader, opened, long⟩, gzip, decompress, fresh, idle⟩ := h
    exact between.paused opened _ (by simp [InFlight.fits, *])
  resumeName len s hd acc h going := by
    obtain ⟨fits, opened⟩ := h.fits going
    simp only [InFlight.fits, Bool.and_eq_true, decide_eq_true_eq, Bool.not_eq_true'] at fits
    obtain ⟨⟨⟨⟨⟨⟨⟨⟨⟨reader, gzip⟩, decompress⟩, fresh⟩, idle⟩, flag⟩, name⟩, none⟩, ten⟩, long⟩ := fits
    exact ⟨⟨⟨h.resumed (by simp [going]), reader, opened, long⟩, gzip, decompress, fresh, idle⟩, ten, name, none, flag⟩
  pauseComment len s hd acc h ten name none flag := by
    obtain ⟨⟨between, reader, opened, long⟩, gzip, decompress, fresh, idle⟩ := h
    exact between.paused opened _ (by simp [InFlight.fits, *])
  resumeComment len s hd acc h going := by
    obtain ⟨fits, opened⟩ := h.fits going
    simp only [InFlight.fits, Bool.and_eq_true, decide_eq_true_eq, Bool.not_eq_true'] at fits
    obtain ⟨⟨⟨⟨⟨⟨⟨⟨⟨reader, gzip⟩, decompress⟩, fresh⟩, idle⟩, flag⟩, name⟩, none⟩, ten⟩, long⟩ := fits
    exact ⟨⟨⟨h.resumed (by simp [going]), reader, opened, long⟩, gzip, decompress, fresh, idle⟩, ten, name, none, flag⟩
  reading _ _ h := h.1
  togetherR _ _ h := h.between.together
  initFailedR _ _ _ _ _ h _ _ := h.between
  startedR _ _ p d p' d' _ b h stream _ long :=
    ⟨⟨h.between.started h.direction h.opened stream p p' d d' _ _ b long, h.2⟩, rfl, by simp, by simp⟩
  stuckInitR _ _ h _ off := h.between.paused h.opened _ (by simp [InFlight.fits, PortName.fits, off])
  stuckLeaseR _ _ p d _ h stream off := h.between.stuckLease h.direction h.opened stream off p d _
  looping _ _ h _ live := ⟨h, live, by simp, by simp⟩
  pulled _ _ _ _ p d k h _ _ short := ⟨⟨h.between.pulled h.reader h.live k p d _ short, h.1.2⟩, h.2⟩
  pullFailed _ _ _ _ _ _ _ h _ _ := h.between
  stuckChunk _ _ _ _ h _ _ := h.between.paused h.opened _ (by simp [InFlight.fits, PortName.fits, h.reader])
  stuckPull _ _ _ _ h _ := h.between.paused h.opened _ h.live
  stepFailed _ room _ _ flush p d a h _ fits _ := h.between.stepped flush a p d room _ fits
  stepped len room w s flush p d a h _ fits _ := by
    obtain ⟨⟨between, reader, opened, long⟩, live, count, written⟩ := h
    have cap := ((stepFits_iff _ _ _).1 fits).2
    refine ⟨⟨between.stepped flush a p d room _ fits, reader, opened, ?_⟩, live, by simp; omega,
      memWrite_take_append _ _ _ written⟩
    exact (memWrite_length _ _ _ (by omega)).trans long
  pauseRead len room w s h pos more := by
    obtain ⟨⟨between, reader, opened, long⟩, live, count, written⟩ := h
    exact between.paused opened _ (by simp [InFlight.fits, *])
  resumeRead len room w s h going := by
    obtain ⟨fits, opened⟩ := h.fits going
    simp only [InFlight.fits, Bool.and_eq_true, decide_eq_true_eq, Bool.not_eq_true'] at fits
    obtain ⟨⟨⟨⟨⟨⟨reader, live⟩, more⟩, pos⟩, count⟩, long⟩, written⟩ := fits
    exact ⟨⟨⟨h.resumed (by simp [going]), reader, opened, long⟩, live, count, written⟩, pos⟩
  counted len room w s h :=
    State.Between.inv (s := (s.crcFeed w).respond (.ok (.read (len - room) (s.crcFeed w).caller))) (h.between.crcFeed w)

end Sys2Proof.Machine

/-- Settles O11: every effect of every phase keeps the invariant, so every step does. -/
theorem stepKeepsInv : Obligations.StepKeepsInv :=
  fun _ _ h ht => Sys2Proof.Machine.inv_phases.step h ht
end

section
/-! Properties that ride along with the invariant of the adapter: what must be shown of one (`Carried`), and that then
every step keeps it (`Carried.step`). The transactions that move such a property are all sound, shown here once. -/

namespace Sys2Proof.Machine

variable {s : State}

/-- A transaction that neither takes nor gives back the engine or the working buffer. -/
def Txn.isPlain (t : Txn) : Bool := !(t.isInit || t.isEnd || t.isLease || t.isRelease)

/-- The part of the state that carried properties speak of. -/
def State.watched (s : State) :=
  (s.trace, s.responses, s.engLive, s.wbLive, s.disposed, s.streamMode, s.inFlight, s.plat, s.crcLive, s.crcReg,
    s.crcCount)

/-! ### Sound transactions -/

/-- A write of at least one byte (10_state.md R52). -/
theorem chWrite_sound {b : Bytes} {a : WriteAnswer} (some : b ≠ []) (fits : writeFits b a = true) :
    (Txn.chWrite b a).sound = true := by
  have := List.length_pos_iff.2 some
  simp [Txn.sound, fits]
  omega

theorem header_sound (p : Platform) (t : U32) {a : WriteAnswer} (fits : writeFits (headerBytes p t) a = true) :
    (Txn.chWrite (headerBytes p t) a).sound = true :=
  chWrite_sound (by simp [headerBytes]) fits

theorem trailer_sound (s : State) {a : WriteAnswer} (fits : writeFits s.trailerBytes a = true) :
    (Txn.chWrite s.trailerBytes a).sound = true :=
  chWrite_sound (List.ne_nil_of_length_pos (by simp)) fits

theorem writeFits_fail {b e : Bytes} {k : Nat} (short : k ≤ b.length) : writeFits b (.fail e k) = true := by
  simpa [writeFits] using short

/-- A read of at least one byte (R51). -/
theorem chRead_sound {n : Nat} {a : Answer Bytes} (pos : 0 < n) (fits : readFits n a = true) :
    (Txn.chRead n a).sound = true := by
  simp [Txn.sound, fits]
  omega

/-- An engine step with room (R62). -/
theorem engStep_sound (flush : FlushType) (dir : CMode) {input : Bytes} {cap : Nat} {a : StepAnswer} (room : 0 < cap)
    (fits : stepFits input cap a = true) : (Txn.engStep flush dir input cap a).sound = true := by
  simp [Txn.sound, fits]
  omega

theorem lease_sound {n : Nat} {b : Bytes} (long : n ≤ b.length) : (Txn.poolLease n b).sound = true := by
  simpa [Txn.sound, leaseFits] using long

/-- With the engine live the working buffer has room (10_state.md R48, 20_memory.md R93). -/
theorem State.Between.room (h : s.Between) (live : s.engLive = true) : 0 < s.wbLen := by
  have leased := h.together.symm.trans live
  obtain ⟨⟨-, -, buffer, -, -⟩, -⟩ := h
  obtain ⟨-, -, size, -⟩ := buffer
  exact (size leased).2

/-! ### Carried properties -/

/-- What must be shown of a property `K` that holds along with the invariant in every phase of a command but the last
one of CLOSE, engine and buffer given back and DISPOSED not yet set, where its form is `K'`. -/
structure Carried (K K' : State → Prop) : Prop where
  frame : ∀ s s', K s → s'.watched = s.watched → K s'
  paused : ∀ s f, s.Between → K s → K (s.paused f)
  resumed : ∀ s, ¬s.HalfTorn → K s → K s.resumed
  answer : ∀ s r, r.returned = [] → K s → K (s.respond r)
  mode : ∀ s m, s.streamMode = .undefined → K s → K (s.setMode m)
  plain : ∀ s p d t, t.isPlain = true → t.sound = true → K s → K (s.exchanged p d t)
  started : ∀ s p d p' d' u b, s.Between → s.disposed = false → s.engLive = false → s.workbufSize ≤ b.length → K s →
    K ((((s.exchanged p d (.engInit s.cmode s.initLevel s.wantHeader (.ok u))).setEngLive true).exchanged p' d'
      (.poolLease s.workbufSize b)).leased b)
  stuckLease : ∀ s p d u, s.Between → s.disposed = false → s.engLive = false → K s →
    K (((s.exchanged p d (.engInit s.cmode s.initLevel s.wantHeader (.ok u))).setEngLive true).paused
      (.stuck .poolLease))
  feed : ∀ s b, s.Writing → K s → K (s.crcFeed b)
  counted : ∀ len room w s, s.Pulling len room w → K s →
    K ((s.crcFeed w).respond (.ok (.read (len - room) (s.crcFeed w).caller)))
  stuckRelease : ∀ s p d, s.Tearing → s.engLive = true → K s →
    K (((s.exchanged p d (.engEnd s.cmode)).setEngLive false).paused (.stuck .poolRelease))
  torn : ∀ s p p' d d', s.Tearing → s.engLive = true → K s → K' (s.tornDown p p' d d')
  bare : ∀ s, s.Tearing → s.engLive = false → K s → K' s
  stuckClose : ∀ s, s.Closing → K' s → K (s.paused (.stuck .chClose))
  closing : ∀ s p d a, K' s → K' (s.exchanged p d (.chClose a))
  disposed : ∀ s, s.Closing → K' s → K s.setDisposed

namespace Carried

variable {K K' : State → Prop} (E : Carried K K')
include E

theorem going {f : InFlight} (h : K s) (flight : s.inFlight = some f) (unstuck : ∀ p, f ≠ .stuck p) :
    K s.resumed :=
  E.resumed s (by simp [State.HalfTorn, flight, unstuck]) h

/-- A run of channel reads. -/
theorem reads {ts : List Txn} {b : Bytes} (p : Ports) (d : Nat) (h : K s) (run : ReadRun ts b) :
    K (s.exchangedAll p d ts) := by
  obtain ⟨reads, -⟩ := run
  induction ts generalizing s with
  | nil => exact E.frame s _ h (by simp [State.watched])
  | cons t ts ih =>
    obtain ⟨n, a, rfl, pos, fits⟩ := reads t (by simp)
    have next := ih (E.plain s p d _ rfl (chRead_sound pos fits) h) fun t ht => reads t (by simp [ht])
    simpa [State.exchangedAll, State.exchanged] using next

/-- A push step, up to its channel write. -/
theorem pushed (h : s.Pushing ∧ K s) (flush : FlushType) (a : StepAnswer) (p : Ports) (d : Nat)
    (fits : stepFits s.window s.wbLen a = true) :
    K (((s.exchanged p d (.engStep flush s.cmode s.window s.wbLen a)).afterStep a).setWork
      (memWrite s.work 0 a.produced)) :=
  E.frame _ _ (E.plain s p d _ rfl (engStep_sound flush s.cmode (h.1.between.room h.1.2) fits) h.2) rfl

/-- A pull step. -/
theorem pulled {room : Nat} (h : K s) (flush : FlushType) (a : StepAnswer) (p : Ports) (d : Nat) (c : Bytes)
    (pos : 0 < room) (fits : stepFits s.window room a = true) :
    K (((s.exchanged p d (.engStep flush s.cmode s.window room a)).afterStep a).setCaller c) :=
  E.frame _ _ (E.plain s p d _ rfl (engStep_sound flush s.cmode pos fits) h) rfl

/-- The first effect of a header emit after the mode, the clock's reading, where there is one. -/
theorem timed (h : K s) (fresh : s.streamMode = .undefined) (p : Ports) (d : Nat) (t : Int) :
    K ((s.setMode .writer).exchanged p d (.clock t)) :=
  E.plain _ _ _ _ rfl rfl (E.mode s _ fresh h)

/-- The property along with the invariant, phase by phase. -/
theorem phases : Phases (fun s => s.Inv ∧ K s) (fun s => s.Between ∧ K s) (fun s => s.Writing ∧ K s)
    (fun s => s.Pushing ∧ K s) (fun s => s.Tearing ∧ K s) (fun s => s.Closing ∧ K' s)
    (fun len _ s => s.Parsing len ∧ K s) (fun len s => s.Reading len ∧ K s)
    (fun len room w s => s.Pulling len room w ∧ K s) where
  start _ h none := ⟨inv_phases.start _ h.1 none, h.2⟩
  rest _ h := ⟨inv_phases.rest _ h.1, h.2⟩
  take _ _ h := ⟨h.1, E.frame _ _ h.2 rfl⟩
  data _ _ h := ⟨h.1, E.frame _ _ h.2 rfl⟩
  answer s r h quiet := ⟨inv_phases.answer s r h.1 quiet, E.answer s r quiet h.2⟩
  flush s p d a h _ := ⟨h.1, E.plain s p d _ rfl rfl h.2⟩
  length s p d a h _ := ⟨h.1, E.plain s p d _ rfl rfl h.2⟩
  stuckFlush s h opened := ⟨inv_phases.stuckFlush s h.1 opened, E.paused s _ h.1 h.2⟩
  stuckLength s h opened := ⟨inv_phases.stuckLength s h.1 opened, E.paused s _ h.1 h.2⟩
  -- WRITE
  enterWriter s h opened fresh no := ⟨inv_phases.enterWriter s h.1 opened fresh no, E.mode s _ fresh h.2⟩
  emitted s m p d h opened fresh gzip compress fixed :=
    ⟨inv_phases.emitted s m p d h.1 opened fresh gzip compress fixed,
      E.frame _ _ (E.plain _ p d _ rfl (header_sound s.plat m rfl) (E.mode s .writer fresh h.2)) rfl⟩
  emitFailed s m p d e k h opened fresh gzip compress fixed short :=
    ⟨inv_phases.emitFailed s m p d e k h.1 opened fresh gzip compress fixed short,
      E.plain _ p d _ rfl (header_sound _ _ (writeFits_fail short)) (E.mode s .writer fresh h.2)⟩
  timed s t p d p' d' h opened fresh gzip compress free :=
    ⟨inv_phases.timed s t p d p' d' h.1 opened fresh gzip compress free,
      E.frame _ _ (E.plain _ p' d' _ rfl (header_sound s.plat (.ofInt 32 t) rfl) (E.timed h.2 fresh p d t)) rfl⟩
  timedFailed s t p d p' d' e k h opened fresh gzip compress free short :=
    ⟨inv_phases.timedFailed s t p d p' d' e k h.1 opened fresh gzip compress free short,
      E.plain _ p' d' _ rfl (header_sound _ _ (writeFits_fail short)) (E.timed h.2 fresh p d t)⟩
  stuckEmit s m h opened fresh gzip compress fixed :=
    ⟨inv_phases.stuckEmit s m h.1 opened fresh gzip compress fixed,
      E.paused _ _ (h.1.setMode fresh (by simp) opened) (E.mode s .writer fresh h.2)⟩
  stuckClock s h opened fresh gzip compress free :=
    ⟨inv_phases.stuckClock s h.1 opened fresh gzip compress free,
      E.paused _ _ (h.1.setMode fresh (by simp) opened) (E.mode s .writer fresh h.2)⟩
  stuckTimed s t p d h opened fresh gzip compress free :=
    ⟨inv_phases.stuckTimed s t p d h.1 opened fresh gzip compress free,
      E.paused _ _ ((h.1.setMode fresh (by simp) opened).exchanged p d _) (E.timed h.2 fresh p d t)⟩
  stayWriter s h opened writer := ⟨inv_phases.stayWriter s h.1 opened writer, h.2⟩
  written s h := ⟨inv_phases.written s h.1, h.2⟩
  feed s h := ⟨inv_phases.feed s h.1, E.feed s _ h.1 h.2⟩
  togetherW s h := inv_phases.togetherW s h.1
  initFailedW s p d msg h off := ⟨inv_phases.initFailedW s p d msg h.1 off, E.plain s p d _ rfl rfl h.2⟩
  startedW s p d p' d' u b h off long :=
    ⟨inv_phases.startedW s p d p' d' u b h.1 off long,
      E.frame _ _ (E.started s p d p' d' u b h.1.between h.1.opened off long h.2) rfl⟩
  stuckInitW s h off := ⟨inv_phases.stuckInitW s h.1 off, E.paused s _ h.1.between h.2⟩
  stuckLeaseW s p d u h off :=
    ⟨inv_phases.stuckLeaseW s p d u h.1 off, E.stuckLease s p d u h.1.between h.1.opened off h.2⟩
  loaded s h live := ⟨inv_phases.loaded s h.1 live, E.frame _ _ h.2 rfl⟩
  pushFailed s flush p d a h fits bad :=
    have failed := inv_phases.pushFailed s flush p d a h.1 fits bad
    ⟨⟨failed.1, E.pushed h flush a p d fits⟩, failed.2, E.pushed h flush a p d fits⟩
  quiet s flush p d a h fits good none :=
    ⟨inv_phases.quiet s flush p d a h.1 fits good none, E.frame _ _ (E.pushed h flush a p d fits) rfl⟩
  pushed s flush p d p' d' a h fits good some :=
    ⟨inv_phases.pushed s flush p d p' d' a h.1 fits good some,
      E.plain _ p' d' _ rfl (chWrite_sound some rfl) (E.pushed h flush a p d fits)⟩
  unwritten s flush p d p' d' a e k h fits good some short :=
    have failed := inv_phases.unwritten s flush p d p' d' a e k h.1 fits good some short
    have kept := E.plain _ p' d' _ rfl (chWrite_sound some (writeFits_fail short)) (E.pushed h flush a p d fits)
    ⟨⟨failed.1, kept⟩, failed.2, kept⟩
  pushDone s h := ⟨inv_phases.pushDone s h.1, h.2⟩
  stuckPush s h := ⟨inv_phases.stuckPush s h.1, E.paused s _ h.1.between h.2⟩
  stuckWrite s flush p d a h fits good some :=
    ⟨inv_phases.stuckWrite s flush p d a h.1 fits good some,
      E.paused _ _ (h.1.pushed flush a p d fits).between (E.pushed h flush a p d fits)⟩
  pauseWrite s h := ⟨inv_phases.pauseWrite s h.1, E.paused s _ h.1.between h.2⟩
  resumeWrite s h flight := ⟨inv_phases.resumeWrite s h.1 flight, E.going h.2 flight (by simp)⟩
  -- CLOSE
  finishing s h opened live writer := ⟨inv_phases.finishing s h.1 opened live writer, h.2⟩
  flushed s p d u h no := ⟨inv_phases.flushed s p d u h.1 no, E.plain s p d _ rfl rfl h.2⟩
  flushFailed s p d e h := ⟨inv_phases.flushFailed s p d e h.1, E.plain s p d _ rfl rfl h.2⟩
  trailed s p d p' d' u h gzip compress :=
    ⟨inv_phases.trailed s p d p' d' u h.1 gzip compress,
      E.plain _ p' d' _ rfl (trailer_sound s rfl) (E.plain s p d (.chFlush (.ok u)) rfl rfl h.2)⟩
  trailFailed s p d p' d' u e k h gzip compress short :=
    ⟨inv_phases.trailFailed s p d p' d' u e k h.1 gzip compress short,
      E.plain _ p' d' _ rfl (trailer_sound s (writeFits_fail short)) (E.plain s p d (.chFlush (.ok u)) rfl rfl h.2)⟩
  stuckFinish s h := ⟨inv_phases.stuckFinish s h.1, E.paused s _ h.1.between h.2⟩
  stuckTrailer s p d u h gzip compress :=
    ⟨inv_phases.stuckTrailer s p d u h.1 gzip compress,
      E.paused _ _ (h.1.exchanged p d _).between (E.plain s p d (.chFlush (.ok u)) rfl rfl h.2)⟩
  pauseFinish s h := ⟨inv_phases.pauseFinish s h.1, E.paused s _ h.1.between h.2⟩
  resumeFinish s h flight := ⟨inv_phases.resumeFinish s h.1 flight, E.going h.2 flight (by simp)⟩
  unfinished s h opened no := ⟨inv_phases.unfinished s h.1 opened no, h.2⟩
  togetherT s h := inv_phases.togetherT s h.1
  stuckEnd s h live := ⟨inv_phases.stuckEnd s h.1 live, E.paused s _ h.1.between h.2⟩
  stuckRelease s p d h live := ⟨inv_phases.stuckRelease s p d h.1 live, E.stuckRelease s p d h.1 live h.2⟩
  stuckClose s h shut := ⟨inv_phases.stuckClose s h.1 shut, E.stuckClose s h.1 h.2⟩
  torn s p p' d d' h live := ⟨inv_phases.torn s p p' d d' h.1 live, E.torn s p p' d d' h.1 live h.2⟩
  bare s h off := ⟨inv_phases.bare s h.1 off, E.bare s h.1 off h.2⟩
  left s h stays := ⟨inv_phases.left s h.1 stays, E.disposed s h.1 h.2⟩
  closed s p d a h shut := ⟨inv_phases.closed s p d a h.1 shut, E.disposed _ h.1 (E.closing s p d a h.2)⟩
  -- READ
  enterReader s h opened fresh no := ⟨inv_phases.enterReader s h.1 opened fresh no, E.mode s _ fresh h.2⟩
  enterParser s h opened fresh gzip decompress :=
    ⟨inv_phases.enterParser s h.1 opened fresh gzip decompress, E.mode s _ fresh h.2⟩
  stayReader s h opened reader := ⟨inv_phases.stayReader s h.1 opened reader, h.2⟩
  drew len n s ts b p d h run := ⟨inv_phases.drew len n s ts b p d h.1 run, E.reads p d h.2 run⟩
  unparsed len n s h := ⟨inv_phases.unparsed len n s h.1, h.2⟩
  stuckParse len n s h := ⟨inv_phases.stuckParse len n s h.1, E.paused s _ h.1.between h.2⟩
  empty len s h := ⟨inv_phases.empty len s h.1, E.frame _ _ h.2 rfl⟩
  parsed len s hd h ten name comment := ⟨inv_phases.parsed len s hd h.1 ten name comment, E.frame _ _ h.2 rfl⟩
  pauseName len s hd acc h ten name none flag :=
    ⟨inv_phases.pauseName len s hd acc h.1 ten name none flag, E.paused s _ h.1.between h.2⟩
  resumeName len s hd acc h flight :=
    have ⟨parsing, facts⟩ := inv_phases.resumeName len s hd acc h.1 flight
    ⟨⟨parsing, E.going h.2 flight (by simp)⟩, facts⟩
  pauseComment len s hd acc h ten name none flag :=
    ⟨inv_phases.pauseComment len s hd acc h.1 ten name none flag, E.paused s _ h.1.between h.2⟩
  resumeComment len s hd acc h flight :=
    have ⟨parsing, facts⟩ := inv_phases.resumeComment len s hd acc h.1 flight
    ⟨⟨parsing, E.going h.2 flight (by simp)⟩, facts⟩
  reading len s h := ⟨inv_phases.reading len s h.1, h.2⟩
  togetherR len s h := inv_phases.togetherR len s h.1
  initFailedR len s p d msg h stream off :=
    ⟨inv_phases.initFailedR len s p d msg h.1 stream off, E.plain s p d _ rfl rfl h.2⟩
  startedR len s p d p' d' u b h stream off long :=
    ⟨inv_phases.startedR len s p d p' d' u b h.1 stream off long,
      E.started s p d p' d' u b h.1.between h.1.opened off long h.2⟩
  stuckInitR len s h stream off := ⟨inv_phases.stuckInitR len s h.1 stream off, E.paused s _ h.1.between h.2⟩
  stuckLeaseR len s p d u h stream off :=
    ⟨inv_phases.stuckLeaseR len s p d u h.1 stream off, E.stuckLease s p d u h.1.between h.1.opened off h.2⟩
  looping len s h stream live := ⟨inv_phases.looping len s h.1 stream live, h.2⟩
  pulled len room w s p d k h none more short :=
    ⟨inv_phases.pulled len room w s p d k h.1 none more short,
      E.frame _ _ (E.plain s p d (.chRead s.wbLen (.ok k)) rfl
        (chRead_sound (h.1.between.room h.1.live) (by simpa [readFits] using short)) h.2) rfl⟩
  pullFailed len room w s p d e h none more :=
    ⟨inv_phases.pullFailed len room w s p d e h.1 none more,
      E.plain s p d _ rfl (chRead_sound (h.1.between.room h.1.live) rfl) h.2⟩
  stuckChunk len room w s h none more :=
    ⟨inv_phases.stuckChunk len room w s h.1 none more, E.paused s _ h.1.between h.2⟩
  stuckPull len room w s h pos := ⟨inv_phases.stuckPull len room w s h.1 pos, E.paused s _ h.1.between h.2⟩
  stepFailed len room w s flush p d a h pos fits bad :=
    ⟨inv_phases.stepFailed len room w s flush p d a h.1 pos fits bad, E.pulled h.2 flush a p d _ pos fits⟩
  stepped len room w s flush p d a h pos fits good :=
    ⟨inv_phases.stepped len room w s flush p d a h.1 pos fits good, E.pulled h.2 flush a p d _ pos fits⟩
  pauseRead len room w s h pos more := ⟨inv_phases.pauseRead len room w s h.1 pos more, E.paused s _ h.1.between h.2⟩
  resumeRead len room w s h flight :=
    have ⟨pulling, pos⟩ := inv_phases.resumeRead len room w s h.1 flight
    ⟨⟨pulling, E.going h.2 flight (by simp)⟩, pos⟩
  counted len room w s h := ⟨inv_phases.counted len room w s h.1, E.counted len room w s h.1 h.2⟩

/-- A carried property holds after every step from a state where it holds along with the invariant. -/
theorem step {t : State} (inv : s.Inv) (h : K s) (ht : Machine.step s = .next t) : K t :=
  (E.phases.step ⟨inv, h⟩ ht).2

end Carried

end Sys2Proof.Machine
end

section
/-! Three carried properties: the record is sound (O14), engine and buffer are released exactly once (O12), and a
Reader's accumulator holds what its READs returned (O16). -/

namespace Sys2Proof.Machine

variable {s : State}

theorem State.watched_iff {s s' : State} : s'.watched = s.watched ↔
    s'.trace = s.trace ∧ s'.responses = s.responses ∧ s'.engLive = s.engLive ∧ s'.wbLive = s.wbLive ∧
    s'.disposed = s.disposed ∧ s'.streamMode = s.streamMode ∧ s'.inFlight = s.inFlight ∧ s'.plat = s.plat ∧
    s'.crcLive = s.crcLive ∧ s'.crcReg = s.crcReg ∧ s'.crcCount = s.crcCount := by
  simp [State.watched]

/-! ### Sound transactions -/

theorem State.SoundInv.exchanged (h : s.SoundInv) (p : Ports) (d : Nat) {t : Txn} (sound : t.sound = true) :
    (s.exchanged p d t).SoundInv := by
  simp [State.SoundInv, List.all_append, h, sound]

theorem soundInv_carried : Carried State.SoundInv State.SoundInv where
  frame s s' h same := by
    obtain ⟨trace, -⟩ := State.watched_iff.1 same
    simpa [State.SoundInv, trace] using h
  paused _ _ _ h := h
  resumed _ _ h := h
  answer _ _ _ h := h
  mode _ _ _ h := h
  plain _ p d _ _ sound h := h.exchanged p d sound
  started _ p d p' d' u _ _ _ _ long h :=
    State.SoundInv.exchanged (h.exchanged p d (t := .engInit _ _ _ (.ok u)) rfl) p' d' (lease_sound long)
  stuckLease _ p d u _ _ _ h := h.exchanged p d (t := .engInit _ _ _ (.ok u)) rfl
  feed _ _ _ h := by simpa [State.SoundInv] using h
  counted _ _ _ _ _ h := by simpa [State.SoundInv] using h
  stuckRelease s p d _ _ h := h.exchanged p d (t := .engEnd s.cmode) rfl
  torn s p p' d d' _ _ h :=
    State.SoundInv.exchanged (h.exchanged p d (t := .engEnd s.cmode) rfl) p' d' (t := .poolRelease) rfl
  bare _ _ _ h := h
  stuckClose _ _ h := h
  closing _ p d a h := h.exchanged p d (t := .chClose a) rfl
  disposed _ _ h := h

/-! ### Exactly-once release -/

/-- `ReleaseInv` without what it says of an adapter that has given nothing back: what holds of a CLOSE past the end of
the engine. -/
def State.Balanced (s : State) : Prop :=
  s.trace.countP Txn.isInit = s.trace.countP Txn.isEnd + boolNumber s.engLive ∧
  s.trace.countP Txn.isLease = s.trace.countP Txn.isRelease + boolNumber s.wbLive ∧
  s.trace.countP Txn.isInit ≤ 1 ∧ s.trace.countP Txn.isLease ≤ 1

theorem State.ReleaseInv.balanced (h : s.ReleaseInv) : s.Balanced := by
  obtain ⟨engine, buffer, -, once⟩ := h
  exact ⟨engine, buffer, once⟩

/-- A plain transaction is counted nowhere. -/
theorem Txn.isPlain_iff {t : Txn} :
    t.isPlain = true ↔ t.isInit = false ∧ t.isEnd = false ∧ t.isLease = false ∧ t.isRelease = false := by
  simp [Txn.isPlain, and_assoc]

theorem State.Balanced.exchanged (h : s.Balanced) (p : Ports) (d : Nat) {t : Txn} (plain : t.isPlain = true) :
    (s.exchanged p d t).Balanced := by
  obtain ⟨init, ends, lease, release⟩ := Txn.isPlain_iff.1 plain
  simpa [State.Balanced, List.countP_append, init, ends, lease, release] using h

/-- Nothing has been given back by an open adapter no CLOSE of which is half done: what is live was taken once, and
what is not live was never taken. -/
theorem State.ReleaseInv.opened (h : s.ReleaseInv) (between : s.inFlight = none) (opened : s.disposed = false) :
    s.trace.countP Txn.isEnd = 0 ∧ s.trace.countP Txn.isRelease = 0 ∧
    s.trace.countP Txn.isInit = boolNumber s.engLive ∧ s.trace.countP Txn.isLease = boolNumber s.wbLive := by
  obtain ⟨engine, buffer, whole, -⟩ := h
  obtain ⟨ends, releases⟩ := whole opened (by simp [between])
  omega

/-- With the engine idle nothing was ever taken. -/
theorem State.ReleaseInv.untaken (h : s.ReleaseInv) (between : s.Between) (opened : s.disposed = false)
    (off : s.engLive = false) : s.wbLive = false ∧
    s.trace.countP Txn.isEnd = 0 ∧ s.trace.countP Txn.isRelease = 0 ∧
    s.trace.countP Txn.isInit = 0 ∧ s.trace.countP Txn.isLease = 0 := by
  have idle : s.wbLive = false := between.together ▸ off
  simpa [boolNumber, off, idle] using h.opened between.2 opened

/-- With the engine live engine and buffer were taken once, and neither was given back. -/
theorem State.ReleaseInv.taken (h : s.ReleaseInv) (tearing : s.Tearing) (live : s.engLive = true) : s.wbLive = true ∧
    s.trace.countP Txn.isEnd = 0 ∧ s.trace.countP Txn.isRelease = 0 ∧
    s.trace.countP Txn.isInit = 1 ∧ s.trace.countP Txn.isLease = 1 := by
  have leased : s.wbLive = true := tearing.between.together ▸ live
  simpa [boolNumber, live, leased] using h.opened tearing.between.2 tearing.opened

@[simp]
theorem Txn.engInit_counts (dir : CMode) (level : Option Int) (header : Bool) (u : Unit) :
    (engInit dir level header (.ok u)).isInit = true ∧ (engInit dir level header (.ok u)).isEnd = false ∧
    (engInit dir level header (.ok u)).isLease = false ∧ (engInit dir level header (.ok u)).isRelease = false :=
  ⟨rfl, rfl, rfl, rfl⟩

@[simp]
theorem Txn.poolLease_counts (n : Nat) (b : Bytes) :
    (poolLease n b).isInit = false ∧ (poolLease n b).isEnd = false ∧ (poolLease n b).isLease = true ∧
    (poolLease n b).isRelease = false :=
  ⟨rfl, rfl, rfl, rfl⟩

@[simp]
theorem Txn.engEnd_counts (dir : CMode) :
    (engEnd dir).isInit = false ∧ (engEnd dir).isEnd = true ∧ (engEnd dir).isLease = false ∧
    (engEnd dir).isRelease = false :=
  ⟨rfl, rfl, rfl, rfl⟩

@[simp]
theorem Txn.poolRelease_counts :
    poolRelease.isInit = false ∧ poolRelease.isEnd = false ∧ poolRelease.isLease = false ∧
    poolRelease.isRelease = true :=
  ⟨rfl, rfl, rfl, rfl⟩

theorem releaseInv_carried : Carried State.ReleaseInv State.Balanced where
  frame s s' h same := by
    obtain ⟨trace, -, engine, buffer, disposed, -, flight, -⟩ := State.watched_iff.1 same
    simpa [State.ReleaseInv, trace, engine, buffer, disposed, flight] using h
  paused s f between h := by
    obtain ⟨engine, buffer, whole, once⟩ := h
    exact ⟨engine, buffer, fun opened _ => whole opened (by simp [between.2]), once⟩
  resumed s unhalved h := by
    obtain ⟨engine, buffer, whole, once⟩ := h
    exact ⟨engine, buffer, fun opened _ => whole opened unhalved, once⟩
  answer _ _ _ h := h
  mode _ _ _ h := h
  plain s p d t plain _ h := by
    obtain ⟨init, ends, lease, release⟩ := Txn.isPlain_iff.1 plain
    simpa [State.ReleaseInv, List.countP_append, init, ends, lease, release] using h
  started s p d p' d' u b between opened off _ h := by
    obtain ⟨idle, counts⟩ := h.untaken between opened off
    simp [State.ReleaseInv, List.countP_append, boolNumber, counts]
  stuckLease s p d u between opened off h := by
    obtain ⟨idle, counts⟩ := h.untaken between opened off
    simp [State.ReleaseInv, List.countP_append, boolNumber, idle, counts]
  feed _ _ _ h := by simpa [State.ReleaseInv] using h
  counted _ _ _ _ _ h := by simpa [State.ReleaseInv] using h
  stuckRelease s p d tearing live h := by
    obtain ⟨leased, counts⟩ := h.taken tearing live
    simp [State.ReleaseInv, List.countP_append, boolNumber, leased, counts]
  torn s p p' d d' tearing live h := by
    obtain ⟨leased, counts⟩ := h.taken tearing live
    simp [State.Balanced, List.countP_append, boolNumber, counts]
  bare _ _ _ h := h.balanced
  stuckClose s _ h := by
    obtain ⟨engine, buffer, once⟩ := h
    exact ⟨engine, buffer, fun _ unhalved => absurd (.inr rfl) unhalved, once⟩
  closing _ p d _ h := h.exchanged p d rfl
  disposed s _ h := by
    obtain ⟨engine, buffer, once⟩ := h
    exact ⟨engine, buffer, fun opened => by simp at opened, once⟩

/-! ### A Reader's accumulator -/

theorem crcFold_append (f : Crc32Fn) (crc : U32) (a b : Bytes) :
    crcFold f crc (a ++ b) = crcFold f (crcFold f crc a) b := by
  simp [crcFold]

theorem readerChecksumInv_carried : Carried State.ReaderChecksumInv State.ReaderChecksumInv where
  frame s s' h same := by
    obtain ⟨-, responses, -, -, -, mode, -, plat, live, reg, count⟩ := State.watched_iff.1 same
    simpa [State.ReaderChecksumInv, responses, mode, plat, live, reg, count] using h
  paused _ _ _ h := h
  resumed _ _ h := h
  answer s r quiet h := by simpa [State.ReaderChecksumInv, quiet] using h
  mode s m fresh h := fun live _ => h live (by simp [fresh])
  plain _ _ _ _ _ _ h := h
  started _ _ _ _ _ _ _ _ _ _ _ h := h
  stuckLease _ _ _ _ _ _ _ h := h
  feed s b writing _ := fun _ unwritten => absurd writing.2.1 (by simpa using unwritten)
  counted len room w s pulling h := by
    obtain ⟨⟨-, reader, -⟩, -, count, written⟩ := pulling
    have returned : s.caller.take (len - room) = w := by
      rw [← count, Nat.add_sub_cancel_left, written]
    intro live _
    have live : s.crcLive = true := by simpa using live
    obtain ⟨reg, total⟩ := h live (by simp [reader])
    simp [State.crcFeed_eq, live, returned, crcFold_append, Response.returned, reg, total, BitVec.ofNat_add]
  stuckRelease _ _ _ _ _ h := h
  torn _ _ _ _ _ _ _ h := h
  bare _ _ _ h := h
  stuckClose _ _ h := h
  closing _ _ _ _ h := h
  disposed _ _ h := h

end Sys2Proof.Machine

/-- Settles O14: every transaction the block issues is sound, and the record carries that along with the invariant. -/
theorem stepKeepsSound : Obligations.StepKeepsSound :=
  fun _ _ inv h ht => Sys2Proof.Machine.soundInv_carried.step inv h ht

/-- Settles O12: the counts on record are carried along with the invariant. -/
theorem stepKeepsRelease : Obligations.StepKeepsRelease :=
  fun _ _ inv h ht => Sys2Proof.Machine.releaseInv_carried.step inv h ht

/-- Settles O16: a READ feeds what it returns, in the same step, and no other command of a Reader feeds anything. -/
theorem stepKeepsReaderChecksum : Obligations.StepKeepsReaderChecksum :=
  fun _ _ inv h ht => Sys2Proof.Machine.readerChecksumInv_carried.step inv h ht
end

section
/-! How a step ends, where its pseudocode keeps a property that not every effect of the block keeps: a READ asks less of
its effects than a CLOSE does, and a command in flight no more than its own part. -/

namespace Sys2Proof.Machine

variable {P : State → Prop} {s t : State}

/-- How a command ends whose pseudocode ends in `P` from `s`. -/
theorem settle_wp_ends {buffer : State → Option Bytes} {body : Act Response}
    (h : Act.wp body (fun _ s' => P s') (fun _ s' => P s') s) (ht : settle buffer (body s) = .next t) : Ends P t :=
  settle_next (Act.wp_mono h (fun r s' h => .inl ⟨s', r, h, rfl⟩) fun x s' h => by
    cases x with
    | raise e => exact .inl ⟨s', _, h, rfl⟩
    | pause f => exact .inr ⟨s', _, h, rfl⟩
    | refuse r => trivial) ht

theorem runCommand_wp_ends {buffer : State → Option Bytes} {body : Act Response}
    (h : s.inFlight = none → Act.wp body (fun _ s' => P s') (fun _ s' => P s') s)
    (ht : runCommand buffer body s = .next t) : Ends P t := by
  unfold runCommand at ht
  split at ht
  · cases ht
  · exact settle_wp_ends (h ‹_›) ht

/-- How a WRITE ends whose pseudocode ends in `P` from `s`. -/
theorem execWrite_wp_ends {len : U32}
    (h : s.caller.length = operandLen len → s.inFlight = none →
      Act.wp (writeBody (operandLen len)) (fun _ s' => P s') (fun _ s' => P s') s)
    (ht : exec (.write len) s = .next t) : Ends P t := by
  have ht : execWrite len s = .next t := ht
  unfold execWrite at ht
  split at ht
  · exact runCommand_wp_ends (h ‹_›) ht
  · cases ht

/-- What a step that ends in `P` ends with has `P`, where an answer and a pause keep it. -/
theorem ends_of (respond : ∀ s r, P s → P (s.respond r)) (paused : ∀ s f, P s → P (s.paused f)) (h : Ends P t) :
    P t := by
  obtain ⟨s, r, h, rfl⟩ | ⟨s, f, h, rfl⟩ := h
  · exact respond s r h
  · exact paused s f h

/-- READ, WRITE and CLOSE, the commands that can change the mode or DISPOSED. -/
def turnsDirection : Instr → Bool
  | .read _ | .write _ | .close => true
  | .flush | .seek _ _ | .getpos | .setpos _ | .setlen _ | .getlen | .rdstat _ => false

/-- How a command ends that is none of them: two ask the channel, the others issue nothing. -/
theorem exec_control_ends (flush : Act.Keeps P flushBody) (getlen : Act.Keeps P getlenBody) {i : Instr}
    (control : turnsDirection i = false) (start : s.inFlight = none → P s) (ht : exec i s = .next t) : Ends P t := by
  cases i with
  | read _ | write _ | close => cases control
  | flush => exact runCommand_ends flush start ht
  | getlen => exact runCommand_ends getlen start ht
  | seek offset origin => exact runCommand_ends (keeps_ite (keeps_unsupported _) (keeps_raise _)) start ht
  | getpos => exact runCommand_ends (keeps_unsupported _) start ht
  | setpos value => exact runCommand_ends (keeps_unsupported _) start ht
  | setlen value => exact runCommand_ends (keeps_unsupported _) start ht
  | rdstat sel => exact runCommand_ends (keeps_rdstatBody _) start ht

/-- A READ keeps what its header parse, its data and the setting of Reader mode keep. -/
theorem keeps_readBody_by {len : Nat} (parse : Act.Keeps P (readParsing len)) (data : Act.Keeps P (readData len))
    (mode : ∀ s, s.streamMode = .undefined → s.disposed = false → P s → P (s.setMode .reader)) :
    Act.Keeps P (readBody len) := by
  have first : Act.Keeps P (do
      let s ← getState
      if s.flavor = .gzip ∧ s.cmode = .decompress then readParsing len else readData len) :=
    keeps_bind keeps_getState fun _ => keeps_ite parse data
  intro s h
  unfold readBody
  rw [Act.wp_bind, Act.wp_getState, Act.wp_ite]
  refine ⟨fun _ => h, fun opened => ?_⟩
  rw [Act.wp_ite]
  refine ⟨fun _ => h, fun _ => ?_⟩
  rw [Act.wp_ite]
  exact ⟨fun fresh => first _ (mode s fresh (by simpa using opened) h), fun _ => data s h⟩

/-- A READ keeps what the effects of its header parse and its loop, and the setting of Reader mode, keep. -/
theorem keeps_readBody_of (parse : ParseEffects P) (read : ReadEffects P)
    (mode : ∀ s, s.streamMode = .undefined → s.disposed = false → P s → P (s.setMode .reader)) (len : Nat) :
    Act.Keeps P (readBody len) := by
  refine keeps_readBody_by (keeps_bind (keeps_hdrOpen parse) fun h => ?_) (keeps_readData read _) mode
  cases h with
  | none => exact keeps_readAnswer _
  | some h => exact keeps_bind (keeps_hdrFromName parse _ _) fun _ => keeps_readData read _

/-- A WRITE keeps what its first-call work and its data keep. -/
theorem keeps_writeBody_by {len : Nat} (data : Act.Keeps P (writeData len))
    (first : ∀ s, s.streamMode = .undefined → s.disposed = false → P s →
      Act.wp enterWriter (fun _ s' => P s') (fun _ s' => P s') s) : Act.Keeps P (writeBody len) := by
  intro s h
  unfold writeBody
  rw [Act.wp_bind, Act.wp_getState, Act.wp_ite]
  refine ⟨fun _ => h, fun opened => ?_⟩
  rw [Act.wp_ite]
  refine ⟨fun _ => h, fun _ => ?_⟩
  rw [Act.wp_bind, Act.wp_onlyIf]
  refine ⟨fun fresh => ?_, fun _ => data s h⟩
  exact Act.wp_mono (first s fresh (by simpa using opened) h) (fun _ s' h' => data s' h') fun _ _ h' => h'

/-- A WRITE keeps what the effects of its header emit and its loop, and the setting of Writer mode, keep. -/
theorem keeps_writeBody_of (write : WriteEffects P) (emitted : ∀ s t, P s → P (s.hdrEmitted t))
    (mode : ∀ s, s.streamMode = .undefined → s.disposed = false → P s → P (s.setMode .writer)) (len : Nat) :
    Act.Keeps P (writeBody len) := by
  have emit : Act.Keeps P hdrEmit :=
    keeps_bind (keeps_timestamp write.toPortEffects) fun _ => keeps_bind keeps_getState fun _ =>
      keeps_bind (keeps_chWrite write.toPortEffects _) fun _ => keeps_update fun s => emitted s _
  have header : Act.Keeps P (do let s ← getState; onlyIf (s.flavor = .gzip ∧ s.cmode = .compress) hdrEmit) :=
    keeps_bind keeps_getState fun _ => keeps_onlyIf emit
  exact keeps_writeBody_by (keeps_writeData write len) fun s fresh opened h => header _ (mode s fresh opened h)

/-- How a step of a WRITE in flight ends. -/
theorem resumeWrite_ends (push : PushEffects P) (hs : P s) (ht : resume .writeLoop s = .next t) : Ends P t :=
  settle_ends (keeps_writeLoop push) hs ht

/-- How a step of a CLOSE in flight ends. -/
theorem resumeFinish_ends (close : CloseEffects P) (hs : P s) (ht : resume .finishLoop s = .next t) : Ends P t :=
  settle_ends (body := resumeFinish)
    (keeps_bind (keeps_attempt (keeps_writerFinish close.toPushEffects)) fun _ =>
      keeps_teardown close.toTeardownEffects _) hs ht

/-- How a step of a READ in flight ends: only one inside its header parse can write the header registers, and only as a
parse that ends well does. -/
theorem resumeRead_ends (read : ReadEffects P) {f : InFlight} (reads : f.isRead = true)
    (parsed : f.isParse = true → ∀ s h, P s → P (s.hdrParsed h)) (hs : P s) (ht : resume f s = .next t) :
    Ends P t := by
  have port := read.toPortEffects
  have close : f.isParse = true → ∀ h, Act.Keeps P (hdrClose h) := fun parse h =>
    keeps_ite (keeps_bind (keeps_readField port _ _) fun _ => keeps_update fun s => parsed parse s _)
      (keeps_update fun s => parsed parse s _)
  cases f with
  | nameLoop len h acc =>
    have rest : ∀ h, Act.Keeps P (hdrFromComment len h) := fun h =>
      keeps_bind (keeps_ite (keeps_readComment port _ _ _) (keeps_pure _)) fun _ => close rfl _
    exact settle_ends (body := resumeName len h acc) (keeps_bind (keeps_readName port _ _ _) fun _ =>
      keeps_bind (rest _) fun _ => keeps_readData read _) hs ht
  | commentLoop len h acc =>
    exact settle_ends (body := resumeComment len h acc) (keeps_bind (keeps_readComment port _ _ _) fun _ =>
      keeps_bind (close rfl _) fun _ => keeps_readData read _) hs ht
  | readLoop len room w => exact settle_ends (keeps_readLoop read _ _ _) hs ht
  | writeLoop => cases reads
  | finishLoop => cases reads
  | stuck p => cases reads

end Sys2Proof.Machine
end

section
/-! The mode and DISPOSED (10_state.md R45, R46): all a command and a step of one in flight can do to the two, and with
it O21, that the mode is written once, and O22, the transitions of the lifecycle. -/

namespace Sys2Proof.Machine

variable {s t : State}

/-- The mode and DISPOSED are related by `D`. -/
def State.Directed (D : StreamMode → Bool → Prop) (s : State) : Prop := D s.streamMode s.disposed

/-- They are those of `s`. -/
def State.Steady (s : State) (m : StreamMode) (d : Bool) : Prop := m = s.streamMode ∧ d = s.disposed

/-- They are those of `s`, or `s` is open and undefined and the mode has become `dir`. -/
def State.Turned (s : State) (dir m : StreamMode) (d : Bool) : Prop :=
  s.Steady m d ∨ s.streamMode = .undefined ∧ s.disposed = false ∧ m = dir ∧ d = false

/-- They are those of `s`, but that DISPOSED may be set. -/
def State.Shut (s : State) (m : StreamMode) (d : Bool) : Prop := m = s.streamMode ∧ (d = s.disposed ∨ d = true)

section
variable (D : StreamMode → Bool → Prop)

/-! No effect of WRITE or READ but the setting of the mode, and none of CLOSE but DISPOSED's, writes either of them. -/

theorem directed_write : WriteEffects (State.Directed D) where
  other _ _ _ _ _ h := h
  stepped _ _ _ _ _ _ _ h := h
  work _ _ h := h
  started _ _ h := h
  leased _ _ _ h := h
  crc _ _ h := by simpa [State.Directed] using h
  window _ _ h := h

theorem directed_read : ReadEffects (State.Directed D) where
  toStartEffects := (directed_write D).toStartEffects
  crc := (directed_write D).crc
  pulled _ _ h := h
  caller _ _ h := h

theorem directed_parse : ParseEffects (State.Directed D) where
  toPortEffects := (directed_write D).toPortEffects
  hdrEmpty _ h := h
  hdrParsed _ _ h := h

theorem directed_close (shut : ∀ m d, D m d → D m true) : CloseEffects (State.Directed D) where
  toPushEffects := (directed_write D).toPushEffects
  stopped _ h := h
  released _ h := h
  disposed _ h := shut _ _ h

end

theorem ends_directed {D : StreamMode → Bool → Prop} (h : Ends (State.Directed D) t) :
    D t.streamMode t.disposed :=
  ends_of (fun _ _ h => h) (fun _ _ h => h) h

theorem Shut.mono (m : StreamMode) (d : Bool) (h : s.Shut m d) : s.Shut m true := ⟨h.1, .inr rfl⟩

/-- All a READ does to the mode and DISPOSED. -/
theorem read_turned {len : U32} (ht : exec (.read len) s = .next t) : s.Turned .reader t.streamMode t.disposed :=
  ends_directed (execRead_ends
    (keeps_readBody_of (directed_parse _) (directed_read _) (fun _ fresh opened h => h.elim
      (fun h => .inr ⟨h.1 ▸ fresh, h.2 ▸ opened, rfl, opened⟩) fun h => .inr ⟨h.1, h.2.1, rfl, opened⟩) _)
    (fun _ _ => .inl ⟨rfl, rfl⟩) ht)

/-- All a WRITE does to the mode and DISPOSED. -/
theorem write_turned {len : U32} (ht : exec (.write len) s = .next t) : s.Turned .writer t.streamMode t.disposed :=
  ends_directed (execWrite_ends
    (keeps_writeBody_of (directed_write _) (fun _ _ h => h) (fun _ fresh opened h => h.elim
      (fun h => .inr ⟨h.1 ▸ fresh, h.2 ▸ opened, rfl, opened⟩) fun h => .inr ⟨h.1, h.2.1, rfl, opened⟩) _)
    (fun _ _ => .inl ⟨rfl, rfl⟩) ht)

/-- All a CLOSE does to the mode and DISPOSED. -/
theorem close_shut (ht : exec .close s = .next t) : s.Shut t.streamMode t.disposed :=
  ends_directed (runCommand_ends (keeps_closeBody (directed_close _ Shut.mono)) (fun _ => ⟨rfl, .inl rfl⟩) ht)

/-- Every other command leaves them. -/
theorem control_steady {i : Instr} (control : turnsDirection i = false) (ht : exec i s = .next t) :
    s.Steady t.streamMode t.disposed := by
  have port := (directed_write s.Steady).toPortEffects
  exact ends_directed
    (exec_control_ends (keeps_flushBody port) (keeps_getlenBody port) control (fun _ => ⟨rfl, rfl⟩) ht)

/-- The step of a READ or a WRITE in flight leaves them; that of a CLOSE may set DISPOSED. -/
theorem resume_shut {f : InFlight} (ht : resume f s = .next t) :
    s.Steady t.streamMode t.disposed ∨ f = .finishLoop ∧ s.Shut t.streamMode t.disposed := by
  have read : f.isRead = true → s.Steady t.streamMode t.disposed := fun reads =>
    ends_directed (resumeRead_ends (directed_read _) reads (fun _ _ _ h => h) ⟨rfl, rfl⟩ ht)
  cases f with
  | writeLoop => exact .inl (ends_directed (resumeWrite_ends (directed_write _).toPushEffects ⟨rfl, rfl⟩ ht))
  | nameLoop _ _ _ => exact .inl (read rfl)
  | commentLoop _ _ _ => exact .inl (read rfl)
  | readLoop _ _ _ => exact .inl (read rfl)
  | finishLoop =>
    exact .inr ⟨rfl, ends_directed (resumeFinish_ends (directed_close _ Shut.mono) ⟨rfl, .inl rfl⟩ ht)⟩
  | stuck p => cases ht; exact .inl ⟨rfl, rfl⟩

theorem step_of_flight {f : InFlight} (flight : s.inFlight = some f) : step s = resume f s.resumed := by
  simp [step, flight]

/-- A command leaves a directed or closed adapter's mode, and never clears DISPOSED. -/
theorem exec_shut {i : Instr} (settled : s.streamMode ≠ .undefined ∨ s.disposed = true) (ht : exec i s = .next t) :
    s.Shut t.streamMode t.disposed := by
  have steady : ∀ {m d}, s.Steady m d → s.Shut m d := fun h => ⟨h.1, .inl h.2⟩
  have turned : ∀ {dir m d}, s.Turned dir m d → s.Shut m d := fun h => h.elim steady fun h => by simp [h] at settled
  cases turns : turnsDirection i with
  | false => exact steady (control_steady turns ht)
  | true =>
    cases i with
    | read len => exact turned (read_turned ht)
    | write len => exact turned (write_turned ht)
    | close => exact close_shut ht
    | _ => cases turns

/-- A step leaves a directed or closed adapter's mode, and never clears DISPOSED. -/
theorem step_shut (settled : s.streamMode ≠ .undefined ∨ s.disposed = true) (ht : step s = .next t) :
    s.Shut t.streamMode t.disposed := by
  unfold step at ht
  split at ht
  · exact (resume_shut ht).elim (fun h => ⟨h.1, .inl h.2⟩) fun h => h.2
  · split at ht
    · cases ht; exact ⟨rfl, .inl rfl⟩
    · split at ht
      · cases ht; exact ⟨rfl, .inl rfl⟩
      · have shut := exec_shut (by exact settled) ht
        exact shut

/-! ### The lifecycle state -/

theorem life_closed_iff : s.life = .closed ↔ s.disposed = true := by
  unfold State.life
  cases s.disposed <;> cases s.streamMode <;> simp

theorem life_opened (opened : s.disposed = false) :
    (s.streamMode = .undefined → s.life = .undefined) ∧ (s.streamMode = .reader → s.life = .reader) ∧
    (s.streamMode = .writer → s.life = .writer) := by
  simp +contextual [State.life, opened]

theorem life_steady (h : s.Steady t.streamMode t.disposed) : t.life = s.life := by
  simp [State.life, h.1, h.2]

theorem life_shut (h : s.Shut t.streamMode t.disposed) :
    t.life = s.life ∨ t.life = .closed ∧ t.streamMode = s.streamMode :=
  h.2.elim (fun kept => .inl (life_steady ⟨h.1, kept⟩)) fun closed => .inr ⟨life_closed_iff.2 closed, h.1⟩

end Sys2Proof.Machine

open Sys2Proof Sys2Proof.Machine in
/-- Settles O21: the mode is set only where it is undefined, and a command in the other direction raises at once. -/
theorem modeImmutable : Obligations.ModeImmutable := by
  refine ⟨fun s t directed ht => (step_shut (.inl directed) ht).1, ?_, ?_⟩
  · intro len s idle opened reader fits
    simp [exec, execWrite, operandLen, fits, runCommand, idle, writeBody, opened, reader, settle, noBuffer,
      State.respond]
  · intro len s idle opened writer fits
    simp [exec, execRead, operandLen, fits, runCommand, idle, readBody, opened, writer, settle, callerBuffer,
      State.respond]

open Sys2Proof Sys2Proof.Machine in
/-- Settles O22: what each command, and each step of one in flight, does to the mode and DISPOSED. -/
theorem lifecycleTransitions : Obligations.LifecycleTransitions := by
  refine ⟨fun i s t ht => ?_, fun f s t flight ht => ?_, fun s t closed ht => ?_⟩
  · cases turns : turnsDirection i with
    | false => exact .inl (life_steady (control_steady turns ht))
    | true =>
      cases i with
      | read len =>
        obtain steady | ⟨fresh, opened, reader, opened'⟩ := read_turned ht
        · exact .inl (life_steady steady)
        · exact .inr (.inl ⟨len, rfl, (life_opened opened).1 fresh, (life_opened opened').2.1 reader⟩)
      | write len =>
        obtain steady | ⟨fresh, opened, writer, opened'⟩ := write_turned ht
        · exact .inl (life_steady steady)
        · exact .inr (.inr (.inl ⟨len, rfl, (life_opened opened).1 fresh, (life_opened opened').2.2 writer⟩))
      | close =>
        obtain same | ended := life_shut (close_shut ht)
        · exact .inl same
        · exact .inr (.inr (.inr ⟨rfl, ended⟩))
      | _ => cases turns
  · rw [step_of_flight flight] at ht
    obtain steady | ⟨finish, shut⟩ := resume_shut ht
    · exact .inl (life_steady (s := s) steady)
    · exact (life_shut (s := s) shut).imp id fun ended => ⟨finish, ended⟩
  · have disposed := life_closed_iff.1 closed
    obtain ⟨mode, kept⟩ := step_shut (.inr disposed) ht
    exact ⟨life_closed_iff.2 (kept.elim (·.trans disposed) id), mode⟩
end

section
/-! What a command adds to the responses (O24), what a READ leaves (O32), and what a WRITE feeds to the accumulator
(O30). -/

namespace Sys2Proof.Machine

variable {s t : State}

/-! ### One response -/

/-- Inside a command, no response has gone out since `rs`. -/
def State.Unanswered (rs : List Response) (s : State) : Prop := s.inFlight = none ∧ s.responses = rs

theorem unanswered_body (rs : List Response) : BodyEffects (State.Unanswered rs) where
  other _ _ _ _ _ h := h
  stepped _ _ _ _ _ _ _ h := h
  work _ _ h := h
  started _ _ h := h
  leased _ _ _ h := h
  crc _ _ h := by simpa [State.Unanswered] using h
  window _ _ h := h
  pulled _ _ h := h
  caller _ _ h := h
  hdrEmpty _ h := h
  hdrParsed _ _ h := h
  stopped _ h := h
  released _ h := h
  disposed _ h := h
  mode _ _ _ h := h
  hdrEmitted _ _ h := h

/-- A step that ends in pseudocode which has answered nothing answers once, or stays in flight. -/
theorem ends_once {rs : List Response} (h : Ends (State.Unanswered rs) t) :
    (t.inFlight = none ∧ ∃ r, t.responses = rs ++ [r]) ∨ (t.inFlight ≠ none ∧ t.responses = rs) := by
  obtain ⟨s, r, ⟨idle, none⟩, rfl⟩ | ⟨s, f, ⟨-, none⟩, rfl⟩ := h
  · exact .inl ⟨idle, r, by simp [none]⟩
  · exact .inr ⟨by simp, none⟩

/-! ### What a READ leaves -/

/-- `s` agrees with `s₀` in what a READ leaves, wherever it is in its command. -/
def State.ReadKept (s₀ s : State) : Prop :=
  s.disposed = s₀.disposed ∧ s.commands = s₀.commands ∧
  (s₀.streamMode ≠ .undefined → s.streamMode = s₀.streamMode) ∧
  (s₀.engLive = true → s₀.wbLive = true → s.engLive = true ∧ s.wbLive = true ∧ s.wbLen = s₀.wbLen) ∧
  s.crcLive = s₀.crcLive ∧ (s₀.crcLive = false → s.crcReg = s₀.crcReg ∧ s.crcCount = s₀.crcCount)

theorem State.ReadKept.refl (s : State) : s.ReadKept s :=
  ⟨rfl, rfl, fun _ => rfl, fun engine buffer => ⟨engine, buffer, rfl⟩, rfl, fun _ => ⟨rfl, rfl⟩⟩

theorem readKept_read (s₀ : State) : ReadEffects s₀.ReadKept where
  other _ _ _ _ _ h := h
  stepped _ _ _ _ _ _ _ h := h
  started _ off h := by
    obtain ⟨disposed, commands, mode, live, crc⟩ := h
    exact ⟨disposed, commands, mode, fun engine buffer => by simp [(live engine buffer).1] at off, crc⟩
  leased _ _ off h := by
    obtain ⟨disposed, commands, mode, live, crc⟩ := h
    exact ⟨disposed, commands, mode, fun engine buffer => by simp [(live engine buffer).2.1] at off, crc⟩
  crc s b h := by
    obtain ⟨disposed, commands, mode, live, crc, kept⟩ := h
    simpa [State.ReadKept, State.crcFeed_eq, disposed, commands, crc] using
      ⟨mode, live, fun off => by simpa [off] using kept off⟩
  pulled _ _ h := h
  caller _ _ h := h

theorem readKept_parse (s₀ : State) : ParseEffects s₀.ReadKept where
  toPortEffects := (readKept_read s₀).toPortEffects
  hdrEmpty _ h := h
  hdrParsed _ _ h := h

theorem State.ReadKept.setMode {s₀ : State} (h : s₀.ReadKept s) (fresh : s.streamMode = .undefined)
    (m : StreamMode) : s₀.ReadKept (s.setMode m) := by
  obtain ⟨disposed, commands, mode, rest⟩ := h
  exact ⟨disposed, commands, fun directed => absurd (mode directed ▸ fresh) directed, rest⟩

theorem ends_readKept {s₀ : State} (h : Ends s₀.ReadKept t) : s₀.ReadKept t :=
  ends_of (fun _ _ h => h) (fun _ _ h => h) h

/-- All a READ leaves, in the step that begins it. -/
theorem read_kept {len : U32} (ht : exec (.read len) s = .next t) : s.ReadKept t :=
  ends_readKept (execRead_ends
    (keeps_readBody_of (readKept_parse s) (readKept_read s) (fun _ fresh _ h => h.setMode fresh _) _)
    (fun _ _ => .refl s) ht)

/-- The header registers are those of `s₀`; or, in a parse, it has ended. -/
def State.HeaderKept (s₀ : State) (parse : Bool) (s : State) : Prop :=
  s.hdrState = s₀.hdrState ∧ s.hdrBytes = s₀.hdrBytes ∧ s.hdrMtime = s₀.hdrMtime ∧ s.hdrFlg = s₀.hdrFlg ∧
    s.hdrFname = s₀.hdrFname ∧ s.hdrComment = s₀.hdrComment ∨ parse = true ∧ s.hdrState = .parsed

theorem headerKept_read (s₀ : State) (parse : Bool) : ReadEffects (s₀.HeaderKept parse) where
  other _ _ _ _ _ h := h
  stepped _ _ _ _ _ _ _ h := h
  started _ _ h := h
  leased _ _ _ h := h
  crc _ _ h := by simpa [State.HeaderKept] using h
  pulled _ _ h := h
  caller _ _ h := h

theorem ends_headerKept {s₀ : State} {parse : Bool} (h : Ends (s₀.HeaderKept parse) t) : s₀.HeaderKept parse t :=
  ends_of (fun _ _ h => h) (fun _ _ h => h) h

/-! ### What a WRITE feeds -/

/-- The accumulator holds what that of `s₀` holds and the bytes of its caller. -/
def State.Fed (s₀ s : State) : Prop :=
  s.crcReg = (s₀.crcFeed s₀.caller).crcReg ∧ s.crcCount = (s₀.crcFeed s₀.caller).crcCount

/-- `s` has the caller's bytes and the accumulator of `s₀`. -/
def State.ToFeed (s₀ s : State) : Prop :=
  s.caller = s₀.caller ∧ s.plat = s₀.plat ∧ s.crcLive = s₀.crcLive ∧ s.crcReg = s₀.crcReg ∧ s.crcCount = s₀.crcCount

/-- A WRITE's end: the bytes are fed, or the header was due and is not written. -/
def State.FedOrUnwritten (s₀ s : State) : Prop :=
  s₀.Fed s ∨ s₀.streamMode = .undefined ∧ s₀.flavor = .gzip ∧ s₀.cmode = .compress ∧ s.hdrState = s₀.hdrState

theorem State.ToFeed.feed {s₀ : State} (h : s₀.ToFeed s) : s₀.Fed (s.crcFeed s.caller) := by
  obtain ⟨caller, plat, live, reg, count⟩ := h
  simp [State.Fed, State.crcFeed_eq, caller, plat, live, reg, count]

theorem State.ToFeed.fed_of_nil {s₀ : State} (h : s₀.ToFeed s) (none : s₀.caller = []) : s₀.Fed s := by
  obtain ⟨-, -, -, reg, count⟩ := h
  simp [State.Fed, State.crcFeed_eq, none, reg, count, crcFold]

theorem fed_push (s₀ : State) : PushEffects s₀.Fed where
  other _ _ _ _ _ h := h
  stepped _ _ _ _ _ _ _ h := h
  work _ _ h := h

theorem fed_start (s₀ : State) : StartEffects s₀.Fed where
  toPortEffects := (fed_push s₀).toPortEffects
  started _ _ h := h
  leased _ _ _ h := h

/-- A WRITE past its first-call work feeds its bytes before anything else, and nothing more. -/
theorem writeData_fed {s₀ : State} (len : Nat) (fits : s₀.caller.length = len) (h : s₀.ToFeed s) :
    Act.wp (writeData len) (fun _ s' => s₀.Fed s') (fun _ s' => s₀.Fed s') s := by
  unfold writeData
  rw [Act.wp_ite]
  refine ⟨fun none => h.fed_of_nil (List.eq_nil_of_length_eq_zero (fits.trans none)), fun _ => ?_⟩
  rw [Act.wp_bind, Act.wp_update]
  have rest : Act.Keeps s₀.Fed (materialise >>= fun _ => do
      update fun s => s.loadWindow s.caller
      writeLoop) :=
    keeps_bind (keeps_materialise (fed_start s₀)) fun _ => keeps_bind (keeps_update fun _ h => h) fun _ =>
      keeps_writeLoop (fed_push s₀)
  exact rest _ h.feed

theorem writeBody_fed (len : Nat) (fits : s.caller.length = len) (opened : s.disposed = false)
    (unread : s.streamMode ≠ .reader) :
    Act.wp (writeBody len) (fun _ s' => s.FedOrUnwritten s') (fun _ s' => s.FedOrUnwritten s') s := by
  have data : ∀ s', s.ToFeed s' →
      Act.wp (writeData len) (fun _ s' => s.FedOrUnwritten s') (fun _ s' => s.FedOrUnwritten s') s' := fun s' h =>
    Act.wp_mono (writeData_fed len fits h) (fun _ _ h => .inl h) fun _ _ h => .inl h
  unfold writeBody
  rw [Act.wp_bind, Act.wp_getState, if_neg (by simp [opened]), if_neg unread, Act.wp_bind, Act.wp_onlyIf]
  refine ⟨fun fresh => ?_, fun _ => data s ⟨rfl, rfl, rfl, rfl, rfl⟩⟩
  unfold enterWriter
  rw [Act.wp_bind, Act.wp_update, Act.wp_bind, Act.wp_getState, Act.wp_onlyIf]
  refine ⟨fun ⟨gzip, compress⟩ => ?_, fun _ => data _ ⟨rfl, rfl, rfl, rfl, rfl⟩⟩
  have unwritten : ∀ {s'}, s'.hdrState = s.hdrState → s.FedOrUnwritten s' := fun same =>
    .inr ⟨fresh, gzip, compress, same⟩
  refine hdrEmit_wp (fun _ _ => ⟨unwritten rfl, fun _ => unwritten rfl⟩)
    (fun _ => ⟨unwritten rfl, fun _ => unwritten rfl⟩) (fun _ _ _ _ => ⟨unwritten rfl, fun _ => unwritten rfl⟩)
    (fun _ _ _ _ => data _ ⟨rfl, rfl, rfl, rfl, rfl⟩)
    (fun _ _ _ _ _ _ _ => unwritten rfl) (fun _ _ _ _ _ _ => data _ ⟨rfl, rfl, rfl, rfl, rfl⟩)
    fun _ _ _ _ _ _ _ _ _ => unwritten rfl

/-- The accumulator is left by every step of a WRITE in flight. -/
def State.ChecksumIs (reg : U32) (count : U64) (s : State) : Prop := s.crcReg = reg ∧ s.crcCount = count

theorem checksumIs_push (reg : U32) (count : U64) : PushEffects (State.ChecksumIs reg count) where
  other _ _ _ _ _ h := h
  stepped _ _ _ _ _ _ _ h := h
  work _ _ h := h

end Sys2Proof.Machine

open Sys2Proof Sys2Proof.Machine in
/-- Settles O24: no effect inside a command answers, and its end answers once or leaves it in flight. -/
theorem oneResponse : Obligations.OneResponse :=
  ⟨fun _ s _ ht => ends_once (exec_ends (unanswered_body s.responses) (fun idle => ⟨idle, rfl⟩) ht),
    fun _ s _ idle ht => ends_once (resume_ends (unanswered_body s.responses) ⟨idle, rfl⟩ ht)⟩

open Sys2Proof Sys2Proof.Machine in
/-- Settles O32: every effect of a READ leaves what the frame names; a parse in flight writes the header registers only
where it ends. -/
theorem readFrame : Obligations.ReadFrame := by
  refine ⟨fun len s t ht => ?_, fun f s t flight reads ht => ?_⟩
  · obtain ⟨disposed, commands, mode, live, -, crc⟩ := read_kept ht
    exact ⟨disposed, commands, mode, live, crc⟩
  · rw [step_of_flight flight] at ht
    obtain ⟨disposed, commands, -, live, -, crc⟩ := ends_readKept
      (resumeRead_ends (readKept_read _) reads (fun _ _ _ h => h) (.refl s.resumed) ht)
    have mode := (resume_shut ht).elim (·.1) fun shut => shut.2.1
    have header := ends_headerKept (resumeRead_ends (headerKept_read s.resumed f.isParse) reads
      (fun parse _ _ _ => .inr ⟨parse, rfl⟩) (.inl ⟨rfl, rfl, rfl, rfl, rfl, rfl⟩) ht)
    exact ⟨disposed, commands, mode, live, crc, header⟩

open Sys2Proof Sys2Proof.Machine in
/-- Settles O30: the step that begins a WRITE feeds all its bytes first; no push step feeds any. -/
theorem writeChecksum : Obligations.WriteChecksum := by
  refine ⟨fun len s t ht opened unread due => ?_, fun s t flight ht => ?_⟩
  · have fed : s.Fed t := by
      have ends : s.FedOrUnwritten t := ends_of (fun _ _ h => h) (fun _ _ h => h)
        (execWrite_wp_ends (fun fits _ => writeBody_fed _ fits opened unread) ht)
      obtain fed | ⟨fresh, gzip, compress, same⟩ := ends
      · exact fed
      · obtain writer | no | ⟨emitted, unemitted⟩ := due
        · exact absurd (fresh.symm.trans writer) (by decide)
        · exact absurd ⟨gzip, compress⟩ no
        · exact absurd (same.symm.trans emitted) unemitted
    obtain ⟨reg, count⟩ := fed
    simp only [State.crcFeed_eq] at reg count
    exact ⟨fun live => by simp [reg, count, live], fun off => by simp [reg, count, off]⟩
  · rw [step_of_flight flight] at ht
    exact ends_of (P := State.ChecksumIs s.crcReg s.crcCount) (fun _ _ h => h) (fun _ _ h => h)
      (resumeWrite_ends (checksumIs_push s.crcReg s.crcCount) (s := s.resumed) ⟨rfl, rfl⟩ ht)
end

section
/-! The output counter and the clock (10_state.md R32, R62, R78, R171), O13. The counter is kept by every elementary
effect. The clock is read in one place, the first WRITE of a compressing Gzip adapter with no fixed timestamp; that no
other pseudocode reads it needs no invariant. -/

namespace Sys2Proof.Machine

variable {s t : State}

/-! ### The output counter -/

theorem produced_of_not_step {t : Txn} (other : t.isStep = false) : t.produced = [] := by
  cases t with
  | engStep _ _ _ _ _ => cases other
  | _ => rfl

theorem totalInv_effects : Effects State.TotalInv where
  other _ _ _ t other h := by simpa [State.TotalInv, produced_of_not_step other] using h
  stepped _ _ _ _ _ _ _ h := by simpa [State.TotalInv, Txn.produced, BitVec.ofNat_add] using h
  work _ _ h := h
  started _ _ h := h
  leased _ _ _ h := h
  crc _ _ h := by simpa [State.TotalInv] using h
  window _ _ h := h
  pulled _ _ h := h
  caller _ _ h := h
  hdrEmpty _ h := h
  hdrParsed _ _ h := h
  stopped _ h := h
  released _ h := h
  disposed _ h := h
  mode _ _ _ h := h
  hdrEmitted _ _ h := h
  respond _ _ h := h
  paused _ _ h := h
  resumed _ h := h
  command _ _ h := h
  data _ _ h := h

/-! ### The clock -/

/-- A transaction that is no reading of the clock. -/
theorem State.ClockInv.exchanged (h : s.ClockInv) (p : Ports) (d : Nat) {t : Txn} (other : t.isClock = false) :
    (s.exchanged p d t).ClockInv := by
  simpa [State.ClockInv, List.countP_append, List.countP_cons, other] using h

/-- While the mode is undefined the clock has not been read. -/
theorem State.ClockInv.setMode (h : s.ClockInv) (fresh : s.streamMode = .undefined) (m : StreamMode) :
    (s.setMode m).ClockInv := by
  have unread : s.trace.countP Txn.isClock = 0 := h.2 (.inl fresh)
  simp [State.ClockInv, unread]

theorem State.ClockInv.exchangedAll (h : s.ClockInv) (p : Ports) (d : Nat) {ts : List Txn} {b : Bytes}
    (run : ReadRun ts b) : (s.exchangedAll p d ts).ClockInv := by
  simpa [State.ClockInv, List.countP_append, run.countP Txn.isClock fun _ _ => rfl] using h

/-- `m` reads no clock and leaves the mode. -/
abbrev Act.Clockless {α : Type} (m : Act α) : Prop := Act.Keeps State.ClockInv m

/-- Wherever a run of channel reads stops. -/
theorem State.ClockInv.reading (h : s.ClockInv) : Act.HaltsReading (fun _ s' => s'.ClockInv) s := fun _ p d _ run =>
  ⟨h.exchangedAll p d run, fun _ => h.exchangedAll p d run⟩

theorem clockless_startEngine : Act.Clockless startEngine := fun _ h =>
  startEngine_wp ⟨h, fun _ => h⟩ (fun _ p d => h.exchanged p d (t := .engInit _ _ _ (.ok _)) rfl)
    fun _ p d => h.exchanged p d rfl

theorem clockless_leaseBuffer : Act.Clockless leaseBuffer := fun _ h =>
  leaseBuffer_wp ⟨h, fun _ => h⟩ fun b p d _ => h.exchanged p d (t := .poolLease _ b) rfl

theorem clockless_materialise : Act.Clockless materialise :=
  keeps_bind keeps_getState fun _ => keeps_bind (keeps_onlyIf clockless_startEngine) fun _ =>
    keeps_bind keeps_getState fun _ => keeps_onlyIf clockless_leaseBuffer

/-! WRITE. -/

theorem clockless_pushStep (flush : FlushType) : Act.Clockless (pushStep flush) := fun s h =>
  have stepped : ∀ a p d w,
      (((s.exchanged p d (.engStep flush s.cmode s.window s.wbLen a)).afterStep a).setWork w).ClockInv :=
    fun a p d _ => h.exchanged p d (t := .engStep flush s.cmode s.window s.wbLen a) rfl
  pushStep_wp flush ⟨h, fun _ => h⟩ (fun a p d _ _ _ => ⟨stepped a p d _, fun _ => stepped a p d _⟩)
    (fun a p d _ _ => stepped a p d _) (fun a p d _ _ _ => stepped a p d _)
    (fun a p d p' d' _ _ _ => (stepped a p d _).exchanged p' d' rfl)
    fun a p d p' d' _ _ _ _ _ _ => (stepped a p d _).exchanged p' d' rfl

theorem clockless_writeLoop : Act.Clockless writeLoop :=
  keeps_bind keeps_getState fun _ => keeps_iterate (fun _ => keeps_bind (clockless_pushStep _) fun _ =>
    keeps_bind keeps_getState fun _ => keeps_ite (keeps_pure _) (keeps_pure _)) _ _

theorem clockless_writeData (len : Nat) : Act.Clockless (writeData len) :=
  keeps_ite (keeps_pure _) (keeps_bind (keeps_update fun _ h => by simpa [State.ClockInv] using h) fun _ =>
    keeps_bind clockless_materialise fun _ => keeps_bind (keeps_update fun _ h => h) fun _ => clockless_writeLoop)

/-- The one place where the clock is read: the mode has just been set, and the record holds no reading yet. -/
theorem clockInv_hdrEmit (h : s.ClockInv) (fresh : s.streamMode = .undefined) :
    Act.wp hdrEmit (fun _ s' => s'.ClockInv) (fun _ s' => s'.ClockInv) (s.setMode .writer) := by
  have unread : s.trace.countP Txn.isClock = 0 := h.2 (.inl fresh)
  have entered : (s.setMode .writer).ClockInv := h.setMode fresh _
  have timed : ∀ t p d, s.mtimeFixed = none → ((s.setMode .writer).exchanged p d (.clock t)).ClockInv := by
    intro t p d free
    simp [State.ClockInv, List.countP_append, List.countP_cons, unread, free, Txn.isClock]
  exact hdrEmit_wp (fun _ _ => ⟨entered, fun _ => entered⟩) (fun _ => ⟨entered, fun _ => entered⟩)
    (fun t p d free => ⟨timed t p d free, fun _ => timed t p d free⟩)
    (fun m p d _ => entered.exchanged p d (t := .chWrite (headerBytes s.plat m) .ok) rfl)
    (fun _ _ _ p d _ _ => entered.exchanged p d rfl)
    (fun t p d p' d' free =>
      (timed t p d free).exchanged p' d' (t := .chWrite (headerBytes s.plat (.ofInt 32 t)) .ok) rfl)
    fun t _ _ p d p' d' free _ => (timed t p d free).exchanged p' d' rfl

theorem clockInv_writeBody (len : Nat) : Act.Keeps State.ClockInv (writeBody len) := by
  refine keeps_writeBody_by (clockless_writeData len) fun s fresh _ h => ?_
  unfold enterWriter
  rw [Act.wp_bind, Act.wp_update, Act.wp_bind, Act.wp_getState, Act.wp_onlyIf]
  exact ⟨fun _ => clockInv_hdrEmit h fresh, fun _ => h.setMode fresh _⟩

/-! READ. -/

theorem clockless_hdrOpen : Act.Clockless hdrOpen := fun _ h =>
  hdrOpen_wp h.reading (fun p d _ run => h.exchangedAll p d run) (fun _ _ p d _ run _ _ _ _ => h.exchangedAll p d run)
    fun _ _ p d _ run _ => h.exchangedAll p d run

theorem clockless_readName (len : Nat) (hd : HdrFields) (acc : Bytes) : Act.Clockless (readName len hd acc) :=
  fun _ h => readName_wp len hd acc h.reading (fun _ _ p d _ run _ => h.exchangedAll p d run)
    (fun _ _ p d _ run _ => h.exchangedAll p d run) fun _ _ p d _ run _ => h.exchangedAll p d run

theorem clockless_readComment (len : Nat) (hd : HdrFields) (acc : Bytes) : Act.Clockless (readComment len hd acc) :=
  fun _ h => readComment_wp len hd acc h.reading (fun _ _ p d _ run _ => h.exchangedAll p d run)
    (fun _ _ p d _ run _ => h.exchangedAll p d run) fun _ _ p d _ run _ => h.exchangedAll p d run

theorem clockless_hdrClose (hd : HdrFields) : Act.Clockless (hdrClose hd) := fun _ h =>
  hdrClose_wp hd h.reading (fun _ p d _ run => h.exchangedAll p d run) fun _ _ p d _ run _ => h.exchangedAll p d run

theorem clockless_hdrFromComment (len : Nat) (hd : HdrFields) : Act.Clockless (hdrFromComment len hd) :=
  keeps_bind (keeps_ite (clockless_readComment _ _ _) (keeps_pure _)) fun _ => clockless_hdrClose _

theorem clockless_hdrFromName (len : Nat) (hd : HdrFields) : Act.Clockless (hdrFromName len hd) :=
  keeps_bind (keeps_ite (clockless_readName _ _ _) (keeps_pure _)) fun _ => clockless_hdrFromComment _ _

theorem clockless_pullChunk : Act.Clockless pullChunk := fun s h =>
  pullChunk_wp ⟨h, fun _ => h⟩ (fun k p d _ => h.exchanged p d (t := .chRead s.wbLen (.ok k)) rfl)
    fun _ p d => h.exchanged p d rfl

theorem clockless_pullStep (flush : FlushType) (room : Nat) (w : Bytes) : Act.Clockless (pullStep flush room w) :=
  fun s h => pullStep_wp flush room w ⟨h, fun _ => h⟩ fun a p d _ =>
    h.exchanged p d (t := .engStep flush s.cmode s.window room a) rfl

theorem clockless_readEnd (len room : Nat) (w : Bytes) : Act.Clockless (readEnd len room w) :=
  keeps_bind (keeps_bind keeps_getState fun _ =>
    keeps_ite (keeps_bind (clockless_pullStep _ _ _) fun _ => keeps_ite (keeps_raise _) (keeps_pure _)) (keeps_pure _))
    fun _ => keeps_bind (keeps_update fun _ h => by simpa [State.ClockInv] using h) fun _ => keeps_readAnswer _

theorem clockless_readLoop (len room : Nat) (w : Bytes) : Act.Clockless (readLoop len room w) :=
  keeps_bind keeps_getState fun _ => keeps_iterate (fun _ =>
    keeps_bind keeps_getState fun _ => keeps_bind (keeps_onlyIf clockless_pullChunk) fun _ =>
      keeps_bind (clockless_pullStep _ _ _) fun _ => keeps_bind keeps_getState fun _ =>
        keeps_ite (keeps_bind (keeps_readAnswer _) fun _ => keeps_pure _)
          (keeps_ite (keeps_raise _)
            (keeps_ite (keeps_pure _) (keeps_bind (clockless_readEnd _ _ _) fun _ => keeps_pure _)))) _ _

theorem clockless_readData (len : Nat) : Act.Clockless (readData len) :=
  keeps_bind keeps_getState fun _ => keeps_ite (keeps_readAnswer _) (keeps_ite (keeps_readAnswer _)
    (keeps_bind clockless_materialise fun _ => clockless_readLoop _ _ _))

theorem clockInv_readBody (len : Nat) : Act.Keeps State.ClockInv (readBody len) := by
  refine keeps_readBody_by (keeps_bind clockless_hdrOpen fun h => ?_) (clockless_readData len)
    fun _ fresh _ h => h.setMode fresh _
  cases h with
  | none => exact keeps_readAnswer _
  | some h => exact keeps_bind (clockless_hdrFromName _ _) fun _ => clockless_readData _

/-! CLOSE. -/

theorem clockless_chFlush : Act.Clockless chFlush := fun _ h =>
  chFlush_wp ⟨h, fun _ => h⟩ (fun p d => h.exchanged p d rfl) fun _ p d => h.exchanged p d rfl

theorem clockless_chWrite (b : Bytes) : Act.Clockless (chWrite b) := fun _ h =>
  chWrite_wp b ⟨h, fun _ => h⟩ (fun p d => h.exchanged p d rfl) fun _ _ p d _ => h.exchanged p d rfl

theorem clockless_writerFinish : Act.Clockless writerFinish :=
  keeps_bind (keeps_bind keeps_getState fun _ => keeps_iterate (fun _ => keeps_bind (clockless_pushStep _) fun _ =>
      keeps_bind keeps_getState fun _ => keeps_ite (keeps_pure _) (keeps_pure _)) _ _) fun _ =>
    keeps_bind clockless_chFlush fun _ => keeps_bind keeps_getState fun s => keeps_onlyIf (by
      cases s.cmode with
      | compress => exact keeps_bind keeps_getState fun _ => clockless_chWrite _
      | decompress => exact keeps_raise _)

theorem clockless_teardown (err : Option Error) : Act.Clockless (teardown err) :=
  keeps_bind keeps_getState fun _ =>
    keeps_bind (keeps_onlyIf fun s h => endEngine_wp ⟨h, fun _ => h⟩ fun p d =>
      h.exchanged p d (t := .engEnd s.cmode) rfl) fun _ =>
    keeps_bind keeps_getState fun _ =>
    keeps_bind (keeps_onlyIf fun _ h => releaseBuffer_wp ⟨h, fun _ => h⟩ fun p d =>
      h.exchanged p d (t := .poolRelease) rfl) fun _ =>
    keeps_bind (fun _ h => closeChannel_wp (fun _ => ⟨h, fun _ => h⟩) (fun _ => h) fun _ p d _ =>
      h.exchanged p d rfl) fun _ =>
    keeps_bind (keeps_update fun _ h => h) fun _ => keeps_pure _

theorem clockless_closeBody : Act.Clockless closeBody :=
  keeps_bind keeps_getState fun _ => keeps_ite (keeps_pure _)
    (keeps_bind (keeps_attempt (keeps_bind keeps_getState fun _ => keeps_onlyIf (keeps_bind keeps_getState fun s => by
      cases s.streamMode with
      | undefined => exact keeps_pure _
      | reader => exact keeps_readerFinish
      | writer => exact clockless_writerFinish))) fun _ => clockless_teardown _)

/-! ### Whole steps -/

theorem ends_clockInv (h : Ends State.ClockInv t) : t.ClockInv :=
  ends_of (fun _ _ h => h) (fun _ _ h => h) h

theorem clockless_flushBody : Act.Clockless flushBody :=
  keeps_bind keeps_getState fun _ => keeps_ite (keeps_raise _)
    (keeps_bind (fun _ h => askFlush_wp ⟨h, fun _ => h⟩ fun _ p d => h.exchanged p d rfl) fun _ => keeps_pure _)

theorem clockless_getlenBody : Act.Clockless getlenBody :=
  keeps_bind keeps_getState fun _ => keeps_ite (keeps_raise _)
    (keeps_bind (fun _ h => askLength_wp ⟨h, fun _ => h⟩ fun _ p d => h.exchanged p d rfl) fun _ => keeps_pure _)

theorem exec_clockInv {i : Instr} (h : s.ClockInv) (ht : exec i s = .next t) : t.ClockInv := by
  have start : s.inFlight = none → s.ClockInv := fun _ => h
  refine ends_clockInv ?_
  cases turns : turnsDirection i with
  | false => exact exec_control_ends clockless_flushBody clockless_getlenBody turns start ht
  | true =>
    cases i with
    | write len => exact execWrite_ends (clockInv_writeBody _) (fun _ => start) ht
    | read len => exact execRead_ends (clockInv_readBody _) (fun _ => start) ht
    | close => exact runCommand_ends clockless_closeBody start ht
    | _ => cases turns

theorem resume_clockInv {f : InFlight} (h : s.ClockInv) (ht : resume f s = .next t) : t.ClockInv := by
  refine ends_clockInv ?_
  cases f with
  | writeLoop => exact settle_ends clockless_writeLoop h ht
  | nameLoop len hd acc =>
    exact settle_ends (body := resumeName len hd acc) (keeps_bind (clockless_readName _ _ _) fun _ =>
      keeps_bind (clockless_hdrFromComment _ _) fun _ => clockless_readData _) h ht
  | commentLoop len hd acc =>
    exact settle_ends (body := resumeComment len hd acc) (keeps_bind (clockless_readComment _ _ _) fun _ =>
      keeps_bind (clockless_hdrClose _) fun _ => clockless_readData _) h ht
  | readLoop len room w => exact settle_ends (clockless_readLoop _ _ _) h ht
  | finishLoop =>
    exact settle_ends (body := resumeFinish)
      (keeps_bind (keeps_attempt clockless_writerFinish) fun _ => clockless_teardown _) h ht
  | stuck p => cases ht; exact .inr ⟨s, _, h, rfl⟩

theorem step_clockInv (h : s.ClockInv) (ht : step s = .next t) : t.ClockInv := by
  unfold step at ht
  split at ht
  · exact resume_clockInv (s := s.resumed) h ht
  · split at ht
    · cases ht; exact h
    · split at ht
      · cases ht; exact h
      · exact exec_clockInv (by exact h) ht

end Sys2Proof.Machine

/-- Settles O13: every effect keeps the output counter, and only the first header emit reads the clock. -/
theorem stepKeepsTotals : Obligations.StepKeepsTotals :=
  ⟨fun _ _ h ht => Sys2Proof.Machine.step_keeps Sys2Proof.Machine.totalInv_effects h ht,
    fun _ _ h ht => Sys2Proof.Machine.step_clockInv h ht⟩
end

section
/-! The checksum (O37), RDSTAT (O41), and a WRITE whose answers are known: its header (O42) and its Materialise
(O44). -/

namespace Sys2Proof.Machine

variable {s : State}

/-! ### RDSTAT -/

/-- Every entry of the selector table is the register that the selector names. -/
theorem regValue_of_mem_registerTable (s : State) :
    ∀ p ∈ s.registerTable, (statReg p.1).map s.regValue = some p.2 := by
  simp only [State.registerTable, State.registerTableA, State.registerTableB, State.registerTableC,
    List.cons_append, List.nil_append, List.forall_mem_cons]
  exact ⟨rfl, rfl, rfl, rfl, rfl, rfl, rfl, rfl, rfl, rfl, rfl, rfl, rfl, rfl, rfl, rfl, rfl, rfl, rfl, rfl, rfl, rfl,
    by simp⟩

/-- RDSTAT of a selector that names a register. -/
theorem execRdstat_eq (idle : s.inFlight = none) {sel : Byte} {r : StatReg} (named : statReg sel = some r) :
    exec (.rdstat sel) s = .next (s.respond (.ok (.reg (s.regValue r)))) := by
  show runCommand noBuffer (rdstatBody sel) s = _
  simp [runCommand, idle, rdstatBody, named, settle]

/-- A word of RDSTAT that spells no command: a reserved selector's. -/
theorem decode_reserved_rdstat {w : U64} (opc : opcOf w = 0x0A) (reserved : 0x16 ≤ (selOf w).toNat) :
    ∃ e, decode w = .error e := by
  have outside : ¬(selOf w).toNat < firstReservedSelector := by
    simp only [firstReservedSelector]
    omega
  have byOpcode : decodeOpcode w = if lenOf w = 0 then .error .register else .error .length := by
    simp [decodeOpcode, opc, outside]
  rw [decode, byOpcode]
  split_ifs <;> exact ⟨_, rfl⟩

/-! ### WRITE up to its loop -/

/-- A WRITE with its payload, no other command in flight. -/
theorem execWrite_eq (idle : s.inFlight = none) {len : U32} (fits : s.caller.length = len.toNat) :
    exec (.write len) s = settle noBuffer (writeBody len.toNat s) := by
  show execWrite len s = _
  simp [execWrite, operandLen, fits, runCommand, idle]

theorem writeBody_of_writer (opened : s.disposed = false) (writer : s.streamMode = .writer) (len : Nat) :
    writeBody len s = writeData len s := by
  simp [writeBody, opened, writer, onlyIf]

/-- The first WRITE of an adapter with no header to emit. -/
theorem writeBody_enter (opened : s.disposed = false) (fresh : s.streamMode = .undefined)
    (no : ¬(s.flavor = .gzip ∧ s.cmode = .compress)) (len : Nat) :
    writeBody len s = writeData len (s.setMode .writer) := by
  simp [writeBody, opened, fresh, onlyIf, enterWriter, no]

/-- The first WRITE of an adapter with a header to emit, its emit a success. -/
theorem writeBody_emitted (opened : s.disposed = false) (fresh : s.streamMode = .undefined) (gzip : s.flavor = .gzip)
    (compress : s.cmode = .compress) {s' : State} (emit : hdrEmit (s.setMode .writer) = .ok () s') (len : Nat) :
    writeBody len s = writeData len s' := by
  simp [writeBody, opened, fresh, onlyIf, enterWriter, gzip, compress, emit]

/-- And one whose emit leaves early. -/
theorem writeBody_unemitted (opened : s.disposed = false) (fresh : s.streamMode = .undefined) (gzip : s.flavor = .gzip)
    (compress : s.cmode = .compress) {x : Exit} {s' : State} (emit : hdrEmit (s.setMode .writer) = .error x s')
    (len : Nat) : writeBody len s = .error x s' := by
  simp [writeBody, opened, fresh, onlyIf, enterWriter, gzip, compress, emit]

/-- The timestamp of an emit is `m`, with `ticks` the clock's transactions and `clk` what is left of its script: the
fixed one, or the clock's next reading (40_envelope.md R171). -/
def State.Timed (s : State) (m : U32) (ticks : List Txn) (clk : List (Reply Int)) : Prop :=
  s.mtimeFixed = some m ∧ ticks = [] ∧ s.ports.clock = clk ∨
    ∃ t, s.mtimeFixed = none ∧ ticks = [.clock t] ∧ s.ports.clock = .answer t :: clk ∧ m = BitVec.ofInt 32 t

theorem timestamp_run {m : U32} {ticks : List Txn} {clk : List (Reply Int)} (h : s.Timed m ticks clk) :
    timestamp s = .ok m (s.exchangedAll { s.ports with clock := clk } s.draws ticks) := by
  obtain ⟨fixed, rfl, rfl⟩ | ⟨t, free, rfl, script, rfl⟩ := h
  · simp only [timestamp, bind_run, getState_run, fixed]
    exact congrArg (EStateM.Result.ok m) s.exchangedAll_nil.symm
  · simp only [timestamp, bind_run, getState_run, free, clock_run script]
    rfl

/-- The state after an emit that succeeded (R170). -/
def State.emitted (s : State) (m : U32) (ticks : List Txn) (clk : List (Reply Int)) (w : List (Reply WriteAnswer)) :
    State :=
  (s.exchangedAll { s.ports with clock := clk, chWrite := w } s.draws
    (ticks ++ [.chWrite (headerBytes s.plat m) .ok])).hdrEmitted m

theorem hdrEmit_run {m : U32} {ticks : List Txn} {clk : List (Reply Int)} {w : List (Reply WriteAnswer)}
    (h : s.Timed m ticks clk) (hw : s.ports.chWrite = .answer .ok :: w) :
    hdrEmit s = .ok () (s.emitted m ticks clk w) := by
  simp only [hdrEmit, bind_run, timestamp_run h, getState_run]
  rw [chWrite_run (q := w) (by simpa using hw)]
  simp [State.exchangedAll_exchanged, State.emitted]

theorem hdrEmit_failed {m : U32} {ticks : List Txn} {clk : List (Reply Int)} {w : List (Reply WriteAnswer)} {e : Bytes}
    {k : Nat} (h : s.Timed m ticks clk) (hw : s.ports.chWrite = .answer (.fail e k) :: w) (short : k ≤ 10) :
    hdrEmit s = .error (.raise (.chFail e)) (s.exchangedAll { s.ports with clock := clk, chWrite := w } s.draws
      (ticks ++ [.chWrite (headerBytes s.plat m) (.fail e k)])) := by
  simp only [hdrEmit, bind_run, timestamp_run h, getState_run]
  rw [chWrite_failed (q := w) (by simpa using hw) (by simpa using short)]
  simp [State.exchangedAll_exchanged]

/-! ### Materialise -/

theorem initLevel_eq (s : State) : s.initLevel = if s.cmode = .compress then some s.level else none := by
  cases h : s.cmode <;> simp [State.initLevel, h]

/-- The state after Materialise (41_write.md R204): the engine initialised, the buffer leased, whole. -/
def State.materialised (s : State) (b : Bytes) (q : List (Reply (Answer Unit))) (bs : List (Reply Bytes)) : State :=
  { s with
    engLive := true, wbLive := true, wbLen := b.length, work := b
    ports := { s.ports with engInit := q, poolLease := bs }
    trace := s.trace ++ [.engInit s.cmode s.initLevel s.wantHeader (.ok ()), .poolLease s.workbufSize b] }

/-- The state after a Materialise whose EngInit failed. -/
def State.unstarted (s : State) (msg : Bytes) (q : List (Reply (Answer Unit))) : State :=
  s.exchanged { s.ports with engInit := q } s.draws (.engInit s.cmode s.initLevel s.wantHeader (.fail msg))

theorem materialise_materialised {b : Bytes} {q : List (Reply (Answer Unit))} {bs : List (Reply Bytes)}
    (engine : s.engLive = false) (buffer : s.wbLive = false) (h : s.ports.engInit = .answer (.ok ()) :: q)
    (h' : s.ports.poolLease = .answer b :: bs) (long : s.workbufSize ≤ b.length) :
    materialise s = .ok () (s.materialised b q bs) := by
  rw [materialise_run engine buffer h h' long]
  simp [State.exchanged, State.setEngLive, State.leased, State.materialised]

/-- Feeding the accumulator and materialising touch nothing of one another. -/
theorem crcFeed_materialised (s : State) (c b : Bytes) (q : List (Reply (Answer Unit))) (bs : List (Reply Bytes)) :
    (s.crcFeed c).materialised b q bs = (s.materialised b q bs).crcFeed c := by
  simp only [State.crcFeed_eq, State.materialised, State.initLevel, State.wantHeader]

/-- A WRITE with data, everything live: the loop on the fed state. -/
theorem writeData_live (engine : s.engLive = true) (buffer : s.wbLive = true) {len : Nat} (some : len ≠ 0) :
    writeData len s = writeLoop ((s.crcFeed s.caller).loadWindow s.caller) := by
  simp only [writeData, if_neg some, bind_run, update_run]
  rw [materialise_live (by simpa using engine) (by simpa using buffer)]
  simp

/-- A WRITE with data, nothing live, goes on as one with everything live after Materialise. -/
theorem writeData_materialised (engine : s.engLive = false) (buffer : s.wbLive = false) {len : Nat} (some : len ≠ 0)
    {b : Bytes} {q : List (Reply (Answer Unit))} {bs : List (Reply Bytes)}
    (h : s.ports.engInit = .answer (.ok ()) :: q) (h' : s.ports.poolLease = .answer b :: bs)
    (long : s.workbufSize ≤ b.length) : writeData len s = writeData len (s.materialised b q bs) := by
  rw [writeData_live (s := s.materialised b q bs) rfl rfl some]
  simp only [writeData, if_neg some, bind_run, update_run]
  rw [materialise_materialised (q := q) (bs := bs) (by simpa using engine) (by simpa using buffer) (by simpa using h)
    (by simpa using h') (by simpa using long), crcFeed_materialised]
  simp [State.materialised]

/-- A WRITE with data, nothing live, whose EngInit fails: INIT_FAIL, the bytes fed, nothing leased. -/
theorem writeData_unstarted (engine : s.engLive = false) {len : Nat} (some : len ≠ 0) {msg : Bytes}
    {q : List (Reply (Answer Unit))} (h : s.ports.engInit = .answer (.fail msg) :: q) :
    writeData len s = .error (.raise (.initFail msg)) ((s.crcFeed s.caller).unstarted msg q) := by
  simp only [writeData, if_neg some, bind_run, update_run]
  rw [materialise_failed (q := q) (by simpa using engine) (by simpa using h)]
  rfl

/-- A WRITE's loop of one quiet step that ends it (41_write.md R205 to R207). -/
theorem writeLoop_quiet {a : StepAnswer} {q : List (Reply StepAnswer)} (h : s.ports.engStep = .answer a :: q)
    (fits : a.consumed ≤ s.window.length) (none : a.produced = []) (good : a.status = .ok) (room : 0 < s.wbLen)
    (done : s.inAvail - a.consumed = s.doneAvail) :
    writeLoop s = .ok (.ok .unit) (s.stepped .none a q) := by
  have push := pushStep_quiet (flush := .none) h ((stepFits_iff _ _ _).2 ⟨fits, by simp [none]⟩)
    (by simp [good, EngStatus.isFailure]) none
  have ends : (s.stepped .none a q).writeDone ((s.stepped .none a q).wbLen - a.produced.length) = true := by
    have := Nat.pos_iff_ne_zero.1 room
    simpa [State.writeDone, State.stepped, none, this, State.doneAvail] using done
  simp only [writeLoop, bind_run, getState_run]
  exact iterate_done (by rw [writeRound_run push, if_pos ends])

end Sys2Proof.Machine
end

section
/-! Whole WRITEs with known answers: a command that goes on as another one from a later state, and the shortest run of
the loop. With them O42 and O44; and O37 and O41. -/

namespace Sys2Proof.Machine

variable {s : State} {len : U32}

@[simp] theorem window_loadWindow (s : State) (b : Bytes) : (s.loadWindow b).window = b := by
  simp [State.window, memRead]

theorem toNat_ne_zero (some : len ≠ 0) : len.toNat ≠ 0 := fun none =>
  some (BitVec.eq_of_toNat_eq (by simpa using none))

/-- A WRITE on a Writer, or a first one with no header to emit, is its data's part in Writer mode. -/
theorem writeBody_headerless (opened : s.disposed = false)
    (due : s.streamMode = .writer ∨ s.streamMode = .undefined ∧ ¬(s.flavor = .gzip ∧ s.cmode = .compress))
    (n : Nat) :
    writeBody n s = writeData n (s.setMode .writer) := by
  obtain writer | ⟨fresh, no⟩ := due
  · have same : s.setMode .writer = s := by rw [State.setMode, ← writer]
    rw [writeBody_of_writer opened writer, same]
  · exact writeBody_enter opened fresh no n

/-- With nothing live it goes on as a WRITE with both live (41_write.md R204). -/
theorem execWrite_materialised (idle : s.inFlight = none) (opened : s.disposed = false)
    (due : s.streamMode = .writer ∨ s.streamMode = .undefined ∧ ¬(s.flavor = .gzip ∧ s.cmode = .compress))
    (engine : s.engLive = false) (buffer : s.wbLive = false) (some : len ≠ 0) (fits : s.caller.length = len.toNat)
    {b : Bytes} {q : List (Reply (Answer Unit))} {bs : List (Reply Bytes)}
    (init : s.ports.engInit = .answer (.ok ()) :: q) (lease : s.ports.poolLease = .answer b :: bs)
    (long : s.workbufSize ≤ b.length) :
    exec (.write len) s = exec (.write len) ((s.setMode .writer).materialised b q bs) := by
  rw [execWrite_eq idle fits, execWrite_eq (s := (s.setMode .writer).materialised b q bs) idle fits,
    writeBody_headerless opened due, writeBody_of_writer (by exact opened) rfl,
    writeData_materialised (s := s.setMode .writer) engine buffer (toNat_ne_zero some) init lease long]

/-- Or answers INIT_FAIL, its bytes fed and nothing leased. -/
theorem execWrite_unstarted (idle : s.inFlight = none) (opened : s.disposed = false)
    (due : s.streamMode = .writer ∨ s.streamMode = .undefined ∧ ¬(s.flavor = .gzip ∧ s.cmode = .compress))
    (engine : s.engLive = false) (some : len ≠ 0) (fits : s.caller.length = len.toNat) {msg : Bytes}
    {q : List (Reply (Answer Unit))} (init : s.ports.engInit = .answer (.fail msg) :: q) :
    exec (.write len) s =
      .next ((((s.setMode .writer).crcFeed s.caller).unstarted msg q).respond (.err (.initFail msg) none)) := by
  rw [execWrite_eq idle fits, writeBody_headerless opened due,
    writeData_unstarted (s := s.setMode .writer) engine (toNat_ne_zero some) init]
  rfl

/-- A first WRITE whose header is written goes on as a WRITE on a Writer (40_envelope.md R170). -/
theorem execWrite_emitted (idle : s.inFlight = none) (opened : s.disposed = false) (fresh : s.streamMode = .undefined)
    (gzip : s.flavor = .gzip) (compress : s.cmode = .compress) (fits : s.caller.length = len.toNat) {m : U32}
    {ticks : List Txn} {clk : List (Reply Int)} {w : List (Reply WriteAnswer)} (timed : s.Timed m ticks clk)
    (wrote : s.ports.chWrite = .answer .ok :: w) :
    exec (.write len) s = exec (.write len) ((s.setMode .writer).emitted m ticks clk w) := by
  have emit := hdrEmit_run (s := s.setMode .writer) timed wrote
  rw [execWrite_eq idle fits, execWrite_eq (s := (s.setMode .writer).emitted m ticks clk w) idle fits,
    writeBody_emitted opened fresh gzip compress emit, writeBody_of_writer (by exact opened) rfl]

/-- One of no bytes on a Writer answers at once. -/
theorem execWrite_zero (idle : s.inFlight = none) (opened : s.disposed = false) (writer : s.streamMode = .writer)
    (none : s.caller = []) : exec (.write 0) s = .next (s.respond (.ok .unit)) := by
  rw [execWrite_eq idle (by simp [none]), writeBody_of_writer opened writer]
  rfl

/-- A WRITE with data on a live Writer, its loop one quiet step long (41_write.md R203, R205 to R207). -/
theorem execWrite_quiet (idle : s.inFlight = none) (opened : s.disposed = false) (writer : s.streamMode = .writer)
    (engine : s.engLive = true) (buffer : s.wbLive = true) (some : len ≠ 0) (fits : s.caller.length = len.toNat)
    {a : StepAnswer} {q : List (Reply StepAnswer)} (step : s.ports.engStep = .answer a :: q) (room : 0 < s.wbLen)
    (within : a.consumed ≤ s.caller.length) (done : s.caller.length - a.consumed = s.doneAvail)
    (none : a.produced = []) (good : a.status = .ok) :
    exec (.write len) s = .next { s with
      crcReg := if s.crcLive then crcFold s.plat.crc32fn s.crcReg s.caller else s.crcReg
      crcCount := if s.crcLive then s.crcCount + BitVec.ofNat 64 s.caller.length else s.crcCount
      inWin := s.caller, inNext := a.consumed, inAvail := s.caller.length - a.consumed
      ports := { s.ports with engStep := q }
      trace := s.trace ++ [.engStep .none s.cmode s.caller s.wbLen a]
      responses := s.responses ++ [.ok .unit] } := by
  have loop := writeLoop_quiet (s := (s.crcFeed s.caller).loadWindow s.caller) (by simpa using step)
    (by simpa using within) none good (by simpa using room) (by simpa [State.doneAvail] using done)
  rw [execWrite_eq idle fits, writeBody_of_writer opened writer,
    writeData_live engine buffer (toNat_ne_zero some), loop]
  simp [settle, State.stepped, State.exchanged, State.afterStep, State.setWork, State.respond, none, State.crcFeed_eq,
    State.loadWindow, State.window, memRead]

end Sys2Proof.Machine

open Sys2Proof Sys2Proof.Machine in
/-- Settles O37: a fold over a concatenation is a fold after a fold. -/
theorem checksumIncremental : Obligations.ChecksumIncremental := by
  refine ⟨fun s => ?_, fun s a b => ?_, fun p c b => ?_⟩
  · simp [State.crcUpdate, crcFold]
  · simp [State.crcUpdate, crcFold_append, BitVec.ofNat_add, BitVec.add_assoc]
  · exact BitVec.xor_allOnes

open Sys2Proof Sys2Proof.Machine in
/-- Settles O41: the table of selectors is the register function, entry by entry. -/
theorem rdstatResult : Obligations.RdstatResult := by
  refine ⟨fun w opc rsv len low => ?_, fun s c rest idle next opc reserved => ?_, fun s idle p mem => ?_⟩
  · have inside : (selOf w).toNat < firstReservedSelector := by
      simp only [firstReservedSelector]
      omega
    simp [decode, decodeOpcode, rsv, len, opc, inside]
  · obtain ⟨e, illegal⟩ := decode_reserved_rdstat opc reserved
    simp [step, idle, next, illegal, State.answerIllegal, State.takeCommand, State.respond]
  · obtain ⟨r, named, value⟩ := Option.map_eq_some_iff.1 (regValue_of_mem_registerTable s p mem)
    rw [execRdstat_eq idle named, value]
    rfl

open Sys2Proof Sys2Proof.Machine in
/-- Settles O42: the emit's one ChWrite, then the WRITE of no bytes; or the failure, whatever the length. -/
theorem firstWriteEmitsHeader : Obligations.FirstWriteEmitsHeader := by
  intro s idle opened fresh gzip compress
  refine ⟨fun m q none fixed wrote => ?_, fun t r q none free script wrote => ?_,
    fun len m e k q fits fixed short failed => ?_⟩
  · rw [execWrite_emitted idle opened fresh gzip compress (by simp [none]) (.inl ⟨fixed, rfl, rfl⟩) wrote,
      execWrite_zero (s := (s.setMode .writer).emitted m [] s.ports.clock q) idle opened rfl none]
    rfl
  · rw [execWrite_emitted idle opened fresh gzip compress (by simp [none])
        (.inr ⟨t, free, rfl, script, rfl⟩) wrote,
      execWrite_zero (s := (s.setMode .writer).emitted (.ofInt 32 t) [.clock t] r q) idle opened rfl none]
    rfl
  · have emit := hdrEmit_failed (s := s.setMode .writer) (.inl ⟨fixed, rfl, rfl⟩) failed short
    rw [execWrite_eq idle fits, writeBody_unemitted opened fresh gzip compress emit]
    rfl

open Sys2Proof Sys2Proof.Machine in
/-- Settles O44: the header's emit and Materialise, each of which leaves a state from which the same WRITE goes on; and
its shortest loop. -/
theorem firstWriteMaterialises : Obligations.FirstWriteMaterialises := by
  refine ⟨fun len s q idle opened fresh no engine buffer some fits => ⟨fun b bs a as init lease step long pos within
      done none good => ?_, fun msg init => ?_⟩,
    fun len s m ticks clk w q b bs a as idle opened fresh gzip compress engine buffer some fits timed wrote init lease
      step long pos all none good => ?_,
    fun len s q idle opened due engine buffer some fits => ⟨fun b bs init lease long => ?_, fun msg init => ?_⟩,
    fun len s m ticks clk w idle opened fresh gzip compress fits timed wrote => ?_⟩
  · have left : s.caller.length - a.consumed = s.doneAvail := by
      rw [done, State.doneAvail]
      cases dir : s.cmode with
      | compress =>
        have plain : s.flavor ≠ .gzip := fun gzip => no ⟨gzip, dir⟩
        simp [plain]
      | decompress => simp
    rw [execWrite_materialised idle opened (.inr ⟨fresh, no⟩) engine buffer some fits init lease long,
      execWrite_quiet (s := (s.setMode .writer).materialised b q bs) idle opened rfl rfl rfl some fits step pos within
        left none good]
    simp only [State.materialised, initLevel_eq, List.append_assoc]
    rfl
  · rw [execWrite_unstarted idle opened (.inr ⟨fresh, no⟩) engine some fits init]
    simp [State.unstarted, State.exchanged, State.respond, State.crcFeed_eq, State.setMode, initLevel_eq,
      State.wantHeader]
  · have left : s.caller.length - a.consumed = s.doneAvail := by simp [all, State.doneAvail, compress]
    rw [execWrite_emitted idle opened fresh gzip compress fits timed wrote,
      execWrite_materialised (s := (s.setMode .writer).emitted m ticks clk w) idle opened (.inl rfl) engine buffer some
        fits init lease long,
      execWrite_quiet (s := (((s.setMode .writer).emitted m ticks clk w).setMode .writer).materialised b q bs) idle
        opened rfl rfl rfl some fits step pos all.le left none good]
    simp [State.materialised, State.emitted, State.exchangedAll, State.hdrEmitted, State.setMode, initLevel_eq,
      State.wantHeader, gzip, compress, headerBytes, all]
  · rw [execWrite_materialised idle opened due engine buffer some fits init lease long]
    simp only [State.materialised, initLevel_eq]
    rfl
  · rw [execWrite_unstarted idle opened due engine some fits init]
    simp [State.unstarted, State.exchanged, State.respond, State.crcFeed_eq, State.setMode, initLevel_eq,
      State.wantHeader]
  · rw [execWrite_emitted idle opened fresh gzip compress fits timed wrote]
    simp [State.emitted, State.exchangedAll, State.hdrEmitted, State.setMode, headerBytes]
end

section
/-! A READ with known answers (42_read.md): Materialise, the chunk pull and one pull step that ends its loop, O49. -/

namespace Sys2Proof.Machine

variable {s : State} {len : U32}

/-! ### READ up to its loop -/

/-- A READ with its buffer, no other command in flight. -/
theorem execRead_eq (idle : s.inFlight = none) (fits : s.caller.length = len.toNat) :
    exec (.read len) s = settle callerBuffer (readBody len.toNat s) := by
  show execRead len s = _
  simp [execRead, operandLen, fits, runCommand, idle]

theorem readBody_of_reader (opened : s.disposed = false) (reader : s.streamMode = .reader) (n : Nat) :
    readBody n s = readData n s := by
  simp [readBody, opened, reader]

/-- A READ on a Reader, or a first one with no header to parse, is its data's part in Reader mode. -/
theorem readBody_headerless (opened : s.disposed = false)
    (due : s.streamMode = .reader ∨ s.streamMode = .undefined ∧ ¬(s.flavor = .gzip ∧ s.cmode = .decompress)) (n : Nat) :
    readBody n s = readData n (s.setMode .reader) := by
  obtain reader | ⟨fresh, no⟩ := due
  · have same : s.setMode .reader = s := by rw [State.setMode, ← reader]
    rw [readBody_of_reader opened reader, same]
  · simp [readBody, opened, fresh, enterReader, no]

/-- A READ with a buffer and a stream, everything live, is its loop (R222 to R226). -/
theorem readData_live (stream : s.hdrState ≠ .empty) (engine : s.engLive = true) (buffer : s.wbLive = true) {n : Nat}
    (pos : n ≠ 0) : readData n s = readLoop n n [] s := by
  simp [readData, stream, pos, materialise_live engine buffer]

/-- With nothing live it goes on as one with everything live after Materialise (R224). -/
theorem readData_materialised (stream : s.hdrState ≠ .empty) (engine : s.engLive = false) (buffer : s.wbLive = false)
    {n : Nat} (pos : n ≠ 0) {b : Bytes} {q : List (Reply (Answer Unit))} {bs : List (Reply Bytes)}
    (init : s.ports.engInit = .answer (.ok ()) :: q) (lease : s.ports.poolLease = .answer b :: bs)
    (long : s.workbufSize ≤ b.length) : readData n s = readData n (s.materialised b q bs) := by
  rw [readData_live (s := s.materialised b q bs) stream rfl rfl pos]
  simp [readData, stream, pos, materialise_materialised engine buffer init lease long]

theorem readData_unstarted (stream : s.hdrState ≠ .empty) (engine : s.engLive = false) {n : Nat} (pos : n ≠ 0)
    {msg : Bytes} {q : List (Reply (Answer Unit))} (init : s.ports.engInit = .answer (.fail msg) :: q) :
    readData n s = .error (.raise (.initFail msg)) (s.unstarted msg q) := by
  simp [readData, stream, pos, materialise_failed engine init, State.unstarted]

/-- With nothing live a READ goes on as one with both live (41_write.md R204, 42_read.md R224). -/
theorem execRead_materialised (idle : s.inFlight = none) (opened : s.disposed = false)
    (due : s.streamMode = .reader ∨ s.streamMode = .undefined ∧ ¬(s.flavor = .gzip ∧ s.cmode = .decompress))
    (stream : s.hdrState ≠ .empty) (engine : s.engLive = false) (buffer : s.wbLive = false) (pos : len ≠ 0)
    (fits : s.caller.length = len.toNat) {b : Bytes} {q : List (Reply (Answer Unit))} {bs : List (Reply Bytes)}
    (init : s.ports.engInit = .answer (.ok ()) :: q) (lease : s.ports.poolLease = .answer b :: bs)
    (long : s.workbufSize ≤ b.length) :
    exec (.read len) s = exec (.read len) ((s.setMode .reader).materialised b q bs) := by
  rw [execRead_eq idle fits, execRead_eq (s := (s.setMode .reader).materialised b q bs) idle fits,
    readBody_headerless opened due, readBody_of_reader (by exact opened) rfl,
    readData_materialised (s := s.setMode .reader) stream engine buffer (toNat_ne_zero pos) init lease long]

/-- Or answers INIT_FAIL with its buffer, nothing leased (60_exceptions.md R283). -/
theorem execRead_unstarted (idle : s.inFlight = none) (opened : s.disposed = false)
    (due : s.streamMode = .reader ∨ s.streamMode = .undefined ∧ ¬(s.flavor = .gzip ∧ s.cmode = .decompress))
    (stream : s.hdrState ≠ .empty) (engine : s.engLive = false) (pos : len ≠ 0) (fits : s.caller.length = len.toNat)
    {msg : Bytes} {q : List (Reply (Answer Unit))} (init : s.ports.engInit = .answer (.fail msg) :: q) :
    exec (.read len) s =
      .next (((s.setMode .reader).unstarted msg q).respond (.err (.initFail msg) (some s.caller))) := by
  rw [execRead_eq idle fits, readBody_headerless opened due,
    readData_unstarted (s := s.setMode .reader) stream engine (toNat_ne_zero pos) init]
  rfl

/-- A READ on a live Reader is its loop. -/
theorem execRead_live (idle : s.inFlight = none) (opened : s.disposed = false) (reader : s.streamMode = .reader)
    (stream : s.hdrState ≠ .empty) (engine : s.engLive = true) (buffer : s.wbLive = true) (pos : len ≠ 0)
    (fits : s.caller.length = len.toNat) :
    exec (.read len) s = settle callerBuffer (readLoop len.toNat len.toNat [] s) := by
  rw [execRead_eq idle fits, readBody_of_reader opened reader, readData_live stream engine buffer (toNat_ne_zero pos)]

/-! ### A round of READ's loop -/

/-- The state after a pull step (R226). -/
def State.pullStepped (s : State) (flush : FlushType) (room : Nat) (w : Bytes) (a : StepAnswer)
    (q : List (Reply StepAnswer)) : State :=
  ((s.exchanged { s.ports with engStep := q } s.draws (.engStep flush s.cmode s.window room a)).afterStep a).setCaller
    (memWrite s.caller w.length a.produced)

/-- READ's end where no final step is due (R228, R230). -/
theorem readEnd_run {n room : Nat} {w : Bytes} (undue : s.needsFinalStep room = false) :
    readEnd n room w s = .ok (.ok (.read (n - room) s.caller)) (s.crcFeed w) := by
  simp [readEnd, finalStep, undue, readAnswer]

/-- The start of a round: the window is empty and the channel not known exhausted, so a chunk is pulled (R225). -/
theorem pull_due (none : s.inAvail = 0) (more : s.noMoreInput = false) :
    onlyIf (s.needsChunk = true) pullChunk s = pullChunk s := by
  simp [onlyIf, State.needsChunk, none, more]

/-- A round whose step ends the loop with no final step due, from the state `s'` its chunk pull leaves. -/
theorem readRound_ends {n room : Nat} {w : Bytes} {s' : State} {a : StepAnswer} {q : List (Reply StepAnswer)}
    (pull : onlyIf (s.needsChunk = true) pullChunk s = .ok () s') (step : s'.ports.engStep = .answer a :: q)
    (fits : stepFits s'.window room a = true) (good : a.status.isFailure = false)
    (ends : s'.readAgain (room - a.produced.length) a.status = false)
    (undue : s'.needsFinalStep (room - a.produced.length) = false) :
    readRound n (room, w) s =
      .ok (.inr (.ok (.read (n - (room - a.produced.length)) (memWrite s'.caller w.length a.produced))))
        ((s'.pullStepped .none room w a q).crcFeed (w ++ a.produced)) := by
  have harm : (s'.pullStepped .none room w a q).benignEnd a.status = false := by
    obtain ok | ended := (isFailure_false_iff _).1 good <;> simp [State.benignEnd, *]
  have again : (s'.pullStepped .none room w a q).readAgain (room - a.produced.length) a.status = false := ends
  have final := readEnd_run (s := s'.pullStepped .none room w a q) (n := n) (w := w ++ a.produced) undue
  have stepped : pullStep .none room w s' = .ok a (s'.pullStepped .none room w a q) := pullStep_run step fits
  simp only [readRound, bind_run, getState_run, pull, stepped, harm, good, again, Bool.false_eq_true, if_false, final]
  rfl

theorem pullChunk_failed {e : Bytes} {ks : List (Reply (Answer Bytes))}
    (failed : s.ports.chRead = .answer (.fail e) :: ks) :
    pullChunk s = .error (.raise (.chFail e))
      (s.exchanged { s.ports with chRead := ks } s.draws (.chRead s.wbLen (.fail e))) := by
  simp only [pullChunk, bind_run, getState_run, chRead_failed failed]

/-- A round whose chunk pull leaves early. -/
theorem readRound_left {n : Nat} {x : Nat × Bytes} {s' : State} {e : Exit}
    (pull : onlyIf (s.needsChunk = true) pullChunk s = .error e s') : readRound n x s = .error e s' := by
  simp only [readRound, bind_run, getState_run, pull]

/-- A READ on a live Reader whose window is empty: the chunk `k`, then one step that ends the loop. -/
theorem execRead_pulled (idle : s.inFlight = none) (opened : s.disposed = false) (reader : s.streamMode = .reader)
    (stream : s.hdrState ≠ .empty) (engine : s.engLive = true) (buffer : s.wbLive = true) (pos : len ≠ 0)
    (fits : s.caller.length = len.toNat) (none : s.inAvail = 0) (more : s.noMoreInput = false) {k : Bytes}
    {ks : List (Reply (Answer Bytes))} {a : StepAnswer} {q : List (Reply StepAnswer)}
    (chunk : s.ports.chRead = .answer (.ok k) :: ks) (short : k.length ≤ s.wbLen)
    (step : s.ports.engStep = .answer a :: q) (within : a.consumed ≤ k.length) (room : a.produced.length ≤ len.toNat)
    (good : a.status.isFailure = false) (ends : (s.pulled k).readAgain (len.toNat - a.produced.length) a.status = false)
    (undue : (s.pulled k).needsFinalStep (len.toNat - a.produced.length) = false) :
    exec (.read len) s = .next (((((s.exchanged { s.ports with chRead := ks } s.draws
      (.chRead s.wbLen (.ok k))).pulled k).pullStepped .none len.toNat [] a q).crcFeed a.produced).respond
        (.ok (.read a.produced.length (memWrite s.caller 0 a.produced)))) := by
  let s' := (s.exchanged { s.ports with chRead := ks } s.draws (.chRead s.wbLen (.ok k))).pulled k
  have pull : onlyIf (s.needsChunk = true) pullChunk s = .ok () s' :=
    (pull_due none more).trans (pullChunk_run chunk short)
  have window : s'.window = k := by simp [s', State.window, memRead]
  have round := readRound_ends (n := len.toNat) (room := len.toNat) (w := []) pull (by exact step)
    ((stepFits_iff _ _ _).2 ⟨window ▸ within, room⟩) good ends undue
  rw [execRead_live idle opened reader stream engine buffer pos fits, readLoop, bind_run, getState_run]
  simp only
  rw [iterate_done round, Nat.sub_sub_self room]
  rfl

end Sys2Proof.Machine

open Sys2Proof Sys2Proof.Machine in
/-- Settles O49: the chunk pull and the one step, its failure, and Materialise, which leaves a state from which the same
READ goes on. -/
theorem readPullsAChunk : Obligations.ReadPullsAChunk := by
  refine ⟨fun len s k ks a q idle opened reader stream engine buffer pos fits none more chunk short step within room
      status final => ?_,
    fun len s e ks idle opened reader stream engine buffer pos fits none more failed => ?_,
    fun len s q idle opened due stream engine buffer pos fits =>
      ⟨fun b bs init lease long => ?_, fun msg init => ?_⟩⟩
  · have good : a.status.isFailure = false :=
      (isFailure_false_iff _).2 (status.imp (·.1) id)
    have ends : (s.pulled k).readAgain (len.toNat - a.produced.length) a.status = false := by
      obtain ⟨ok, rfl | full⟩ | ended := status <;> simp [State.readAgain, *]
    have undue : (s.pulled k).needsFinalStep (len.toNat - a.produced.length) = false := by
      by_cases last : k = []
      · by_cases dir : s.cmode = .compress
        · simp [State.needsFinalStep, final last dir]
        · simp [State.needsFinalStep, dir]
      · simp [State.needsFinalStep, last, more]
    rw [execRead_pulled idle opened reader stream engine buffer pos fits none more chunk short step within room good
      ends undue]
    simp [State.pullStepped, State.pulled, State.loadWindow, State.exchanged, State.afterStep, State.setCaller,
      State.respond, State.crcFeed_eq, State.window, memRead, memWrite, more]
    cases k <;> rfl
  · have round := readRound_left (n := len.toNat) (x := (len.toNat, []))
      ((pull_due none more).trans (pullChunk_failed failed))
    rw [execRead_live idle opened reader stream engine buffer pos fits, readLoop, bind_run, getState_run]
    simp only
    rw [iterate_left round]
    rfl
  · rw [execRead_materialised idle opened due stream engine buffer pos fits init lease long]
    simp only [State.materialised, initLevel_eq]
    rfl
  · rw [execRead_unstarted idle opened due stream engine pos fits init]
    simp only [State.unstarted, initLevel_eq]
    rfl
end

section
/-! The sink of a compressing Gzip writer (20_memory.md R103), O15: header, engine bytes in step order, trailer. Inside
a command the sink is known exactly, up to a tail that says how far Finish has come. -/

namespace Sys2Proof.Machine

variable {s : State} {tail : Bytes}

/-- While no transaction has failed, the sink of a compressing Gzip writer is the header, the engine's bytes and `tail`;
before the first WRITE it is empty. -/
def State.Sent (tail : Bytes) (s : State) : Prop :=
  s.flavor = .gzip → s.cmode = .compress → s.trace.all Txn.clean = true →
  (s.streamMode = .undefined → sunk s.trace = [] ∧ produced s.trace = []) ∧
  (s.streamMode = .writer → sunk s.trace = headerBytes s.plat s.hdrMtime ++ produced s.trace ++ tail)

/-- What `owedToSink` has behind the engine's bytes. -/
def State.endTail (s : State) : Bytes :=
  if s.trace.any Txn.isEnd = true ∨ s.StuckOn .engEnd then s.trailerBytes else []

/-- The tail once Finish is over, before the teardown: the trailer, if the engine was ever touched. -/
def State.finishTail (s : State) : Bytes := if s.engLive = true then s.trailerBytes else []

theorem State.Between.idle (h : s.Between) : s.inFlight = none := h.2

theorem State.Reading.reader {len : Nat} (h : s.Reading len) : s.streamMode = .reader := h.2.1

theorem State.Pushing.live (h : s.Pushing) : s.engLive = true := h.2

theorem State.Writing.tearing (h : s.Writing) : s.Tearing := ⟨h.between, h.opened⟩

/-! ### The sink between two steps and inside a command -/

theorem State.Sent.sinkInv (h : s.Sent s.endTail) : s.SinkInv := fun gzip compress clean =>
  have ⟨fresh, written⟩ := h gzip compress clean
  ⟨fresh, fun writer => ⟨written writer ▸ List.prefix_rfl, fun _ _ => written writer⟩⟩

theorem State.SinkInv.sent_unstuck (h : s.SinkInv) (unstuck : ∀ p, ¬s.StuckOn p) : s.Sent s.endTail :=
  fun gzip compress clean =>
    have ⟨fresh, written⟩ := h gzip compress clean
    ⟨fresh, fun writer => (written writer).2 (unstuck _) (unstuck _)⟩

theorem State.SinkInv.sent (h : s.SinkInv) (idle : s.inFlight = none) : s.Sent s.endTail :=
  h.sent_unstuck (by simp [idle])

/-- An open adapter with no command in flight has ended no engine. -/
theorem State.ReleaseInv.endTail_nil (h : s.ReleaseInv) (idle : s.inFlight = none) (opened : s.disposed = false) :
    s.endTail = [] := by
  have unended : s.trace.countP Txn.isEnd = 0 := (h.opened idle opened).1
  exact if_neg (by simpa [idle, List.countP_eq_zero] using unended)

/-- Before the teardown nothing stands behind the engine's bytes, between two steps as inside a command. -/
theorem State.Tearing.sent_nil_iff (h : s.Tearing) (release : s.ReleaseInv) : s.Sent [] ↔ s.SinkInv := by
  have none : s.endTail = [] := release.endTail_nil h.between.idle h.opened
  exact ⟨fun sent => State.Sent.sinkInv (none ▸ sent), fun sink => none ▸ sink.sent h.between.idle⟩

theorem State.Between.sent (h : s.Between ∧ s.ReleaseInv) (opened : s.disposed = false) (sink : s.SinkInv) :
    s.Sent [] :=
  (State.Tearing.sent_nil_iff ⟨h.1, opened⟩ h.2).2 sink

theorem State.Writing.sinkInv (h : s.Writing ∧ s.ReleaseInv) (sent : s.Sent []) : s.SinkInv :=
  (h.1.tearing.sent_nil_iff h.2).1 sent

theorem State.Pushing.sinkInv (h : s.Pushing ∧ s.ReleaseInv) (sent : s.Sent []) : s.SinkInv :=
  (h.1.tearing.sent_nil_iff h.2).1 sent

/-! ### What says nothing of the sink -/

theorem State.Sent.of_other (no : ¬(s.flavor = .gzip ∧ s.cmode = .compress)) : s.Sent tail :=
  fun gzip compress => absurd ⟨gzip, compress⟩ no

/-- A failure is on record. -/
theorem State.Sent.of_unclean (bad : s.trace.all Txn.clean = false) : s.Sent tail := fun _ _ clean => by
  simp [bad] at clean

theorem State.SinkInv.of_unclean (bad : s.trace.all Txn.clean = false) : s.SinkInv :=
  State.Sent.sinkInv (.of_unclean bad)

theorem unclean_append {r : List Txn} {t : Txn} (bad : t.clean = false) : (r ++ [t]).all Txn.clean = false := by
  simp [bad]

theorem State.SinkInv.of_reader (reader : s.streamMode = .reader) : s.SinkInv := by
  simp [State.SinkInv, reader]

/-! ### Effects -/

theorem clean_of_append {r : List Txn} {t : Txn} (clean : (r ++ [t]).all Txn.clean = true) :
    r.all Txn.clean = true := by
  rw [List.all_append, Bool.and_eq_true] at clean
  exact clean.1

/-- A transaction that writes nothing to the channel and is no engine step. -/
theorem State.Sent.quiet (h : s.Sent tail) (p : Ports) (d : Nat) {t : Txn} (unsunk : t.sunk = [])
    (none : t.produced = []) : (s.exchanged p d t).Sent tail := fun gzip compress clean => by
  simpa [unsunk, none] using h gzip compress (clean_of_append clean)

theorem State.SinkInv.quiet (h : s.SinkInv) (idle : s.inFlight = none) (p : Ports) (d : Nat) {t : Txn}
    (unsunk : t.sunk = []) (none : t.produced = []) (other : t.isEnd = false) : (s.exchanged p d t).SinkInv := by
  refine State.Sent.sinkInv ?_
  have same : (s.exchanged p d t).endTail = s.endTail := by
    simp [State.endTail, State.StuckOn, other, State.trailerBytes, State.crcResult]
  exact same ▸ (h.sent idle).quiet p d unsunk none

/-- Leaving a command in flight anywhere but at the end of the engine. -/
theorem State.SinkInv.paused (h : s.SinkInv) (idle : s.inFlight = none) {f : InFlight} (other : f ≠ .stuck .engEnd) :
    (s.paused f).SinkInv := by
  refine State.Sent.sinkInv ?_
  have same : (s.paused f).endTail = s.endTail := by
    simp [State.endTail, State.StuckOn, idle, other, State.trailerBytes, State.crcResult]
  exact same ▸ h.sent idle

/-- A push loop left in flight, or stuck before it writes. -/
theorem State.Pushing.sinkInv_paused (h : s.Pushing ∧ s.ReleaseInv) (sent : s.Sent []) {f : InFlight}
    (other : f ≠ .stuck .engEnd) : (s.paused f).SinkInv :=
  (State.Pushing.sinkInv h sent).paused h.1.between.idle other

/-- Going on with a command that is not stuck. -/
theorem State.SinkInv.going (h : s.SinkInv) {f : InFlight} (flight : s.inFlight = some f)
    (unstuck : ∀ p, f ≠ .stuck p) : s.resumed.SinkInv := by
  refine State.Sent.sinkInv ?_
  have same : s.resumed.endTail = s.endTail := by
    simp [State.endTail, State.StuckOn, flight, unstuck, State.trailerBytes, State.crcResult]
  exact same ▸ h.sent_unstuck (by simpa [flight] using unstuck)

/-- The first WRITE's header, written (40_envelope.md R170). -/
theorem State.SinkInv.emitted (h : s.SinkInv) (fresh : s.streamMode = .undefined) (p : Ports) (d : Nat) (m : U32) :
    (((s.setMode .writer).exchanged p d (.chWrite (headerBytes s.plat m) .ok)).hdrEmitted m).Sent [] :=
  fun gzip compress clean => by
    obtain ⟨unsunk, none⟩ := (h gzip compress (clean_of_append clean)).1 fresh
    simp [unsunk, none, Txn.sunk, Txn.produced]

/-- The first WRITE waiting for the clock, or for its header to be written. -/
theorem State.SinkInv.waiting (h : s.SinkInv) (fresh : s.streamMode = .undefined) {p : PortName}
    (waits : p = .chWrite ∨ p = .clock) : ((s.setMode .writer).paused (.stuck p)).SinkInv :=
  fun gzip compress clean => by
    have unsunk : sunk s.trace = [] := ((h gzip compress clean).1 fresh).1
    obtain rfl | rfl := waits <;> simp [unsunk]

/-- A push step whose bytes the channel took (41_write.md R205). -/
theorem State.Sent.pushed (h : s.Sent []) (writer : s.streamMode = .writer) (flush : FlushType) (p p' : Ports)
    (d d' : Nat) (a : StepAnswer) (input : Bytes) (cap : Nat) (w : Bytes) :
    ((((s.exchanged p d (.engStep flush s.cmode input cap a)).afterStep a).setWork w).exchanged p' d'
      (.chWrite a.produced .ok)).Sent [] := fun gzip compress clean => by
  have written : sunk s.trace = _ := (h gzip compress (clean_of_append (clean_of_append clean))).2 writer
  simp [written, writer, Txn.sunk, Txn.produced]

/-- A push step or Finish waiting for its bytes to be written, behind the transaction `t` before it. -/
theorem State.Sent.stuckWrite (h : s.Sent []) (writer : s.streamMode = .writer) (p : Ports) (d : Nat) {t : Txn}
    (unsunk : t.sunk = []) : ((s.exchanged p d t).paused (.stuck .chWrite)).SinkInv := fun gzip compress clean => by
  have written : sunk s.trace = _ := (h gzip compress (clean_of_append clean)).2 writer
  simp [written, writer, unsunk, State.owedToSink]

/-- Finish's trailer, written (40_envelope.md R173). -/
theorem State.Sent.trailed (h : s.Sent []) (writer : s.streamMode = .writer) (live : s.engLive = true) (p : Ports)
    (d : Nat) : (s.exchanged p d (.chWrite s.trailerBytes .ok)).Sent s.finishTail := fun gzip compress clean => by
  have written : sunk s.trace = _ := (h gzip compress (clean_of_append clean)).2 writer
  simp [written, writer, live, State.finishTail, Txn.sunk, Txn.produced]

/-- A CLOSE with no Finish to run for a writer: no trailer is due (43_control.md R248). -/
theorem State.Sent.unfinished (h : s.Sent []) (no : s.engLive = true → s.streamMode ≠ .writer) : s.Sent s.finishTail :=
  fun gzip compress clean => by
    obtain ⟨fresh, written⟩ := h gzip compress clean
    refine ⟨fresh, fun writer => ?_⟩
    have off : ¬s.engLive = true := fun live => no live writer
    rw [State.finishTail, if_neg off]
    exact written writer

/-- Teardown past the end of the engine. -/
theorem State.Sent.torn (h : s.Sent s.finishTail) (live : s.engLive = true) (p : Ports) (d : Nat) :
    ((s.exchanged p d (.engEnd s.cmode)).setEngLive false).SinkInv := by
  refine State.Sent.sinkInv ?_
  have same : ((s.exchanged p d (.engEnd s.cmode)).setEngLive false).endTail = s.finishTail := by
    simp [State.endTail, State.finishTail, live, Txn.isEnd, State.trailerBytes, State.crcResult]
  exact same ▸ h.quiet p d rfl rfl

/-- Teardown waiting for the end of the engine. -/
theorem State.Sent.stuckEnd (h : s.Sent s.finishTail) (live : s.engLive = true) :
    (s.paused (.stuck .engEnd)).SinkInv := by
  refine State.Sent.sinkInv ?_
  have same : (s.paused (.stuck .engEnd)).endTail = s.finishTail := by
    simp [State.endTail, State.finishTail, live, State.trailerBytes, State.crcResult]
  exact same ▸ h

/-! ### Phase by phase -/

/-- The sink along with the invariant and the counts on record; what is inside a READ says nothing of it. -/
theorem sink_phases : Phases (fun s => (s.Inv ∧ s.ReleaseInv) ∧ s.SinkInv)
    (fun s => (s.Between ∧ s.ReleaseInv) ∧ s.SinkInv)
    (fun s => (s.Writing ∧ s.ReleaseInv) ∧ s.Sent []) (fun s => (s.Pushing ∧ s.ReleaseInv) ∧ s.Sent [])
    (fun s => (s.Tearing ∧ s.ReleaseInv) ∧ s.Sent s.finishTail) (fun s => (s.Closing ∧ s.Balanced) ∧ s.SinkInv)
    (fun len _ s => s.Parsing len ∧ s.ReleaseInv) (fun len s => s.Reading len ∧ s.ReleaseInv)
    (fun len room w s => s.Pulling len room w ∧ s.ReleaseInv) :=
  have base := releaseInv_carried.phases
  {
    start _ h none := ⟨base.start _ h.1 none, h.2⟩
    rest _ h := ⟨base.rest _ h.1, h.2⟩
    take s rest h := ⟨base.take s rest h.1, h.2⟩
    data s b h := ⟨base.data s b h.1, h.2⟩
    answer s r h quiet := ⟨base.answer s r h.1 quiet, h.2⟩
    flush s p d a h opened := ⟨base.flush s p d a h.1 opened, h.2.quiet h.1.1.idle p d rfl rfl rfl⟩
    length s p d a h opened := ⟨base.length s p d a h.1 opened, h.2.quiet h.1.1.idle p d rfl rfl rfl⟩
    stuckFlush s h opened := ⟨base.stuckFlush s h.1 opened, h.2.paused h.1.1.idle (by simp)⟩
    stuckLength s h opened := ⟨base.stuckLength s h.1 opened, h.2.paused h.1.1.idle (by simp)⟩
    -- WRITE
    enterWriter s h opened fresh no := ⟨base.enterWriter s h.1 opened fresh no, .of_other no⟩
    emitted s m p d h opened fresh gzip compress fixed :=
      ⟨base.emitted s m p d h.1 opened fresh gzip compress fixed, h.2.emitted fresh p d m⟩
    emitFailed s m p d e k h opened fresh gzip compress fixed short :=
      ⟨base.emitFailed s m p d e k h.1 opened fresh gzip compress fixed short, .of_unclean (unclean_append rfl)⟩
    timed s t p d p' d' h opened fresh gzip compress free :=
      ⟨base.timed s t p d p' d' h.1 opened fresh gzip compress free,
        State.SinkInv.emitted (h.2.quiet h.1.1.idle p d (t := .clock t) rfl rfl rfl) fresh p' d' (.ofInt 32 t)⟩
    timedFailed s t p d p' d' e k h opened fresh gzip compress free short :=
      ⟨base.timedFailed s t p d p' d' e k h.1 opened fresh gzip compress free short, .of_unclean (unclean_append rfl)⟩
    stuckEmit s m h opened fresh gzip compress fixed :=
      ⟨base.stuckEmit s m h.1 opened fresh gzip compress fixed, h.2.waiting fresh (.inl rfl)⟩
    stuckClock s h opened fresh gzip compress free :=
      ⟨base.stuckClock s h.1 opened fresh gzip compress free, h.2.waiting fresh (.inr rfl)⟩
    stuckTimed s t p d h opened fresh gzip compress free :=
      ⟨base.stuckTimed s t p d h.1 opened fresh gzip compress free,
        State.SinkInv.waiting (h.2.quiet h.1.1.idle p d (t := .clock t) rfl rfl rfl) fresh (.inl rfl)⟩
    stayWriter s h opened writer := ⟨base.stayWriter s h.1 opened writer, State.Between.sent h.1 opened h.2⟩
    written s h := ⟨base.written s h.1, State.Writing.sinkInv h.1 h.2⟩
    feed s h := ⟨base.feed s h.1, by simpa [State.Sent] using h.2⟩
    togetherW s h := base.togetherW s h.1
    initFailedW s p d msg h off := ⟨base.initFailedW s p d msg h.1 off,
      (State.Writing.sinkInv h.1 h.2).quiet h.1.1.between.idle p d rfl rfl rfl⟩
    startedW s p d p' d' u b h off long := ⟨base.startedW s p d p' d' u b h.1 off long,
      State.Sent.quiet (h.2.quiet p d (t := .engInit s.cmode s.initLevel s.wantHeader (.ok u)) rfl rfl) p' d'
        (t := .poolLease s.workbufSize b) rfl rfl⟩
    stuckInitW s h off := ⟨base.stuckInitW s h.1 off,
      (State.Writing.sinkInv h.1 h.2).paused h.1.1.between.idle (by simp)⟩
    stuckLeaseW s p d u h off := ⟨base.stuckLeaseW s p d u h.1 off,
      State.SinkInv.paused (s := (s.exchanged p d (.engInit s.cmode s.initLevel s.wantHeader (.ok u))).setEngLive true)
        ((State.Writing.sinkInv h.1 h.2).quiet h.1.1.between.idle p d rfl rfl rfl) h.1.1.between.idle
        (by simp)⟩
    loaded s h live := ⟨base.loaded s h.1 live, h.2⟩
    pushFailed s flush p d a h fits bad :=
      have ⟨failed, ended⟩ := base.pushFailed s flush p d a h.1 fits bad
      have unclean := unclean_append (r := s.trace) (t := .engStep flush s.cmode s.window s.wbLen a)
        (by simpa [Txn.clean] using bad)
      ⟨⟨failed, .of_unclean unclean⟩, ended, .of_unclean unclean⟩
    quiet s flush p d a h fits good none := ⟨base.quiet s flush p d a h.1 fits good none,
      h.2.quiet p d (t := .engStep flush s.cmode s.window s.wbLen a) rfl none⟩
    pushed s flush p d p' d' a h fits good some := ⟨base.pushed s flush p d p' d' a h.1 fits good some,
      h.2.pushed h.1.1.writer flush p p' d d' a _ _ _⟩
    unwritten s flush p d p' d' a e k h fits good some short :=
      have ⟨failed, ended⟩ := base.unwritten s flush p d p' d' a e k h.1 fits good some short
      ⟨⟨failed, .of_unclean (unclean_append rfl)⟩, ended, .of_unclean (unclean_append rfl)⟩
    pushDone s h := ⟨base.pushDone s h.1, State.Pushing.sinkInv h.1 h.2⟩
    stuckPush s h := ⟨base.stuckPush s h.1, State.Pushing.sinkInv_paused h.1 h.2 (by simp)⟩
    stuckWrite s flush p d a h fits good some := ⟨base.stuckWrite s flush p d a h.1 fits good some,
      h.2.stuckWrite h.1.1.writer p d (t := .engStep flush s.cmode s.window s.wbLen a) rfl⟩
    pauseWrite s h := ⟨base.pauseWrite s h.1, State.Pushing.sinkInv_paused h.1 h.2 (by simp)⟩
    resumeWrite s h flight :=
      have pushing := base.resumeWrite s h.1 flight
      ⟨pushing, (pushing.1.tearing.sent_nil_iff pushing.2).2 (h.2.going flight (by simp))⟩
    -- CLOSE
    finishing s h opened live writer := ⟨base.finishing s h.1 opened live writer, State.Between.sent h.1 opened h.2⟩
    flushed s p d u h no := ⟨base.flushed s p d u h.1 no, .of_other no⟩
    flushFailed s p d e h := ⟨base.flushFailed s p d e h.1, .of_unclean (unclean_append rfl)⟩
    trailed s p d p' d' u h gzip compress := ⟨base.trailed s p d p' d' u h.1 gzip compress,
      State.Sent.trailed (h.2.quiet p d (t := .chFlush (.ok u)) rfl rfl) h.1.1.writer h.1.1.live p' d'⟩
    trailFailed s p d p' d' u e k h gzip compress short :=
      ⟨base.trailFailed s p d p' d' u e k h.1 gzip compress short, .of_unclean (unclean_append rfl)⟩
    stuckFinish s h := ⟨base.stuckFinish s h.1, State.Pushing.sinkInv_paused h.1 h.2 (by simp)⟩
    stuckTrailer s p d u h gzip compress :=
      ⟨base.stuckTrailer s p d u h.1 gzip compress, h.2.stuckWrite h.1.1.writer p d rfl⟩
    pauseFinish s h := ⟨base.pauseFinish s h.1, State.Pushing.sinkInv_paused h.1 h.2 (by simp)⟩
    resumeFinish s h flight :=
      have pushing := base.resumeFinish s h.1 flight
      ⟨pushing, (pushing.1.tearing.sent_nil_iff pushing.2).2 (h.2.going flight (by simp))⟩
    unfinished s h opened no := ⟨base.unfinished s h.1 opened no, (State.Between.sent h.1 opened h.2).unfinished no⟩
    togetherT s h := base.togetherT s h.1
    stuckEnd s h live := ⟨base.stuckEnd s h.1 live, h.2.stuckEnd live⟩
    stuckRelease s p d h live := ⟨base.stuckRelease s p d h.1 live,
      (h.2.torn live p d).paused h.1.1.between.idle (by simp)⟩
    stuckClose s h shut := ⟨base.stuckClose s h.1 shut, h.2.paused h.1.1.between.idle (by simp)⟩
    torn s p p' d d' h live := ⟨base.torn s p p' d d' h.1 live,
      (h.2.torn live p d).quiet h.1.1.between.idle p' d' (t := .poolRelease) rfl rfl rfl⟩
    bare s h off :=
      have sent : s.Sent [] := by simpa [State.finishTail, off] using h.2
      ⟨base.bare s h.1 off, (h.1.1.sent_nil_iff h.1.2).1 sent⟩
    left s h stays := ⟨base.left s h.1 stays, h.2⟩
    closed s p d a h shut := ⟨base.closed s p d a h.1 shut,
      h.2.quiet h.1.1.between.idle p d (t := .chClose a) rfl rfl rfl⟩
    -- READ
    enterReader s h opened fresh no := base.enterReader s h.1 opened fresh no
    enterParser s h opened fresh gzip decompress := base.enterParser s h.1 opened fresh gzip decompress
    stayReader s h opened reader := base.stayReader s h.1 opened reader
    drew := base.drew
    unparsed len n s h := ⟨base.unparsed len n s h, .of_reader h.1.reader⟩
    stuckParse len n s h := ⟨base.stuckParse len n s h, .of_reader h.1.reader⟩
    empty len s h := ⟨base.empty len s h, .of_reader h.1.reader⟩
    parsed := base.parsed
    pauseName len s hd acc h ten name none flag :=
      ⟨base.pauseName len s hd acc h ten name none flag, .of_reader h.1.reader⟩
    resumeName len s hd acc h flight := base.resumeName len s hd acc h.1 flight
    pauseComment len s hd acc h ten name none flag :=
      ⟨base.pauseComment len s hd acc h ten name none flag, .of_reader h.1.reader⟩
    resumeComment len s hd acc h flight := base.resumeComment len s hd acc h.1 flight
    reading len s h := ⟨base.reading len s h, .of_reader h.1.reader⟩
    togetherR := base.togetherR
    initFailedR len s p d msg h stream off := ⟨base.initFailedR len s p d msg h stream off, .of_reader h.1.reader⟩
    startedR := base.startedR
    stuckInitR len s h stream off := ⟨base.stuckInitR len s h stream off, .of_reader h.1.reader⟩
    stuckLeaseR len s p d u h stream off := ⟨base.stuckLeaseR len s p d u h stream off, .of_reader h.1.reader⟩
    looping := base.looping
    pulled := base.pulled
    pullFailed len room w s p d e h none more :=
      ⟨base.pullFailed len room w s p d e h none more, .of_reader h.1.reader⟩
    stuckChunk len room w s h none more := ⟨base.stuckChunk len room w s h none more, .of_reader h.1.reader⟩
    stuckPull len room w s h pos := ⟨base.stuckPull len room w s h pos, .of_reader h.1.reader⟩
    stepFailed len room w s flush p d a h pos fits bad :=
      ⟨base.stepFailed len room w s flush p d a h pos fits bad, .of_reader h.1.reader⟩
    stepped := base.stepped
    pauseRead len room w s h pos more := ⟨base.pauseRead len room w s h pos more, .of_reader h.1.reader⟩
    resumeRead len room w s h flight := base.resumeRead len room w s h.1 flight
    counted len room w s h := ⟨base.counted len room w s h, .of_reader (by simpa using h.1.reader)⟩
  }

end Sys2Proof.Machine

/-- Settles O15: each effect of a WRITE or a CLOSE adds to the sink what it adds to the bytes owed, or fails. -/
theorem stepKeepsSink : Obligations.StepKeepsSink :=
  fun _ _ inv release sink ht => (Sys2Proof.Machine.sink_phases.step ⟨⟨inv, release⟩, sink⟩ ht).2
end

section
/-! What stays: the record (O23); with nothing to do, or another command in flight, everything (O6); the registers in
the commands that only ask the channel or nothing (O28); and what a WRITE leaves (O29). -/

namespace Sys2Proof.Machine

variable {s t : State}

/-! ### The record -/

/-- `s` has the transactions and responses of `s₀`, and perhaps more behind them. -/
def State.Extends (s₀ s : State) : Prop := s₀.trace <+: s.trace ∧ s₀.responses <+: s.responses

theorem extends_effects (s₀ : State) : Effects s₀.Extends where
  other _ _ _ _ _ h := ⟨h.1.trans (List.prefix_append _ _), h.2⟩
  stepped _ _ _ _ _ _ _ h := ⟨h.1.trans (List.prefix_append _ _), h.2⟩
  work _ _ h := h
  started _ _ h := h
  leased _ _ _ h := h
  crc _ _ h := by simpa [State.Extends] using h
  window _ _ h := h
  pulled _ _ h := h
  caller _ _ h := h
  hdrEmpty _ h := h
  hdrParsed _ _ h := h
  stopped _ h := h
  released _ h := h
  disposed _ h := h
  mode _ _ _ h := h
  hdrEmitted _ _ h := h
  respond _ _ h := ⟨h.1, h.2.trans (List.prefix_append _ _)⟩
  paused _ _ h := h
  resumed _ h := h
  command _ _ h := h
  data _ _ h := h

/-! ### One command at a time -/

theorem runCommand_refused {f : InFlight} (flight : s.inFlight = some f) (buffer : State → Option Bytes)
    (body : Act Response) : runCommand buffer body s = .refused .commandInFlight := by
  simp [runCommand, flight]

/-- `exec` admits no command beside one in flight; WRITE and READ look at their data first. -/
theorem exec_refused {f : InFlight} (flight : s.inFlight = some f) (i : Instr)
    (fits : ∀ len, i = .write len ∨ i = .read len → s.caller.length = len.toNat) :
    exec i s = .refused .commandInFlight := by
  cases i with
  | write len => exact (if_pos (fits len (.inl rfl))).trans (runCommand_refused flight _ _)
  | read len => exact (if_pos (fits len (.inr rfl))).trans (runCommand_refused flight _ _)
  | _ => exact runCommand_refused flight _ _

/-! ### Commands that write no register -/

/-- `t` is `s` but for the responses, the record, what is left of the answers and where it stands; and it stands
nowhere, or is stuck on the channel. -/
def State.Asked (s t : State) : Prop :=
  t = { s with
    responses := t.responses, trace := t.trace, ports := t.ports, draws := t.draws, inFlight := t.inFlight } ∧
  (t.inFlight = none ∨ ∃ p, t.StuckOn p ∧ p.isChannel = true)

theorem State.Asked.responded (idle : s.inFlight = none) (r : Response) : s.Asked (s.respond r) := ⟨rfl, .inl idle⟩

theorem State.Asked.answered (idle : s.inFlight = none) (p : Ports) (d : Nat) (x : Txn) (r : Response) :
    s.Asked ((s.exchanged p d x).respond r) := ⟨rfl, .inl idle⟩

theorem State.Asked.stuck {p : PortName} (channel : p.isChannel = true) : s.Asked (s.paused (.stuck p)) :=
  ⟨rfl, .inr ⟨p, rfl, channel⟩⟩

/-- A command that only asks the channel, on an open adapter. -/
theorem ask_asked {α : Type} {m : Mnemonic} {ask : Act α} {answer : α → Response}
    (asks : s.inFlight = none →
      Act.wp ask (fun a s' => s.Asked (s'.respond (answer a))) (Exit.Leaves noBuffer s.Asked) s)
    (ht : runCommand noBuffer (do
      let s ← getState
      if s.disposed then raise (.disposed m)
      else do
        let a ← ask
        pure (answer a)) s = .next t) : s.Asked t := by
  refine runCommand_next (fun idle => ?_) ht
  rw [Act.wp_bind, Act.wp_getState, Act.wp_ite]
  refine ⟨fun _ => .responded idle _, fun _ => ?_⟩
  rw [Act.wp_bind]
  exact asks idle

theorem flush_asked (ht : exec .flush s = .next t) : s.Asked t :=
  ask_asked (ask := askFlush) (fun idle => askFlush_wp (Exit.leaves_halts (.stuck rfl)) fun _ p d =>
    .answered idle p d _ _) ht

theorem getlen_asked (ht : exec .getlen s = .next t) : s.Asked t :=
  ask_asked (ask := askLength) (fun idle => askLength_wp (Exit.leaves_halts (.stuck rfl)) fun _ p d =>
    .answered idle p d _ _) ht

/-- `t` is `s` but for the responses. -/
def State.Told (s t : State) : Prop := t = { s with responses := t.responses }

theorem State.Told.responded (r : Response) : s.Told (s.respond r) := rfl

/-- Pseudocode that writes nothing and ends in the step. -/
def Act.Silent {α : Type} (m : Act α) : Prop :=
  ∀ s, Act.wp m (fun _ s' => s' = s) (fun x s' => s' = s ∧ ∃ e, x = .raise e) s

theorem runCommand_told {body : Act Response} (silent : body.Silent) (ht : runCommand noBuffer body s = .next t) :
    s.Told t :=
  runCommand_next (fun _ => Act.wp_mono (silent s) (fun r s' same => same ▸ .responded r) fun x s' h => by
    obtain ⟨rfl, e, rfl⟩ := h
    exact .responded _) ht

theorem raise_silent {α : Type} (e : Error) : Act.Silent (raise e : Act α) := fun _ => ⟨rfl, e, rfl⟩

theorem unsupported_silent (m : Mnemonic) : (unsupported m).Silent := fun s => by
  unfold unsupported
  rw [Act.wp_bind, Act.wp_getState, Act.wp_ite]
  exact ⟨fun _ => raise_silent _ s, fun _ => raise_silent _ s⟩

theorem seek_silent (offset : U32) (origin : Byte) :
    Act.Silent (if (Instr.seek offset origin).wf then unsupported .seek
      else raise (.illegalCommand (Instr.seek offset origin).encode)) := fun s => by
  rw [Act.wp_ite]
  exact ⟨fun _ => unsupported_silent _ s, fun _ => raise_silent _ s⟩

theorem rdstat_silent (sel : Byte) : (rdstatBody sel).Silent := fun s => by
  unfold rdstatBody
  rw [Act.wp_bind, Act.wp_getState]
  cases statReg sel with
  | some r => exact rfl
  | none => exact raise_silent _ s

/-! ### What a WRITE leaves -/

/-- What `ReadKept` names a WRITE leaves too. -/
theorem readKept_write (s₀ : State) : WriteEffects s₀.ReadKept where
  toStartEffects := (readKept_read s₀).toStartEffects
  crc := (readKept_read s₀).crc
  work _ _ h := h
  window _ _ h := h

/-- `s` has the caller's bytes and the NO_MORE_INPUT of `s₀`. -/
def State.InputKept (s₀ s : State) : Prop := s.caller = s₀.caller ∧ s.noMoreInput = s₀.noMoreInput

theorem inputKept_write (s₀ : State) : WriteEffects s₀.InputKept where
  other _ _ _ _ _ h := h
  stepped _ _ _ _ _ _ _ h := h
  work _ _ h := h
  started _ _ h := h
  leased _ _ _ h := h
  crc _ _ h := by simpa [State.InputKept] using h
  window _ _ h := h

theorem headerKept_write (s₀ : State) : WriteEffects (s₀.HeaderKept false) where
  toStartEffects := (headerKept_read s₀ false).toStartEffects
  crc := (headerKept_read s₀ false).crc
  work _ _ h := h
  window _ _ h := h

theorem write_readKept {len : U32} (ht : exec (.write len) s = .next t) : s.ReadKept t :=
  ends_readKept (execWrite_ends (keeps_writeBody_of (readKept_write s) (fun _ _ h => h)
    (fun _ fresh _ h => h.setMode fresh _) _) (fun _ _ => .refl s) ht)

theorem write_inputKept {len : U32} (ht : exec (.write len) s = .next t) : s.InputKept t :=
  ends_of (fun _ _ h => h) (fun _ _ h => h) (execWrite_ends
    (keeps_writeBody_of (inputKept_write s) (fun _ _ h => h) (fun _ _ _ h => h) _) (fun _ _ => ⟨rfl, rfl⟩) ht)

/-- A WRITE that is not the first, or on a closed adapter, emits no header (41_write.md R201). -/
theorem write_headerKept {len : U32} (settled : s.streamMode ≠ .undefined ∨ s.disposed = true)
    (ht : exec (.write len) s = .next t) : s.HeaderKept false t := by
  refine ends_headerKept (execWrite_wp_ends (fun _ _ => ?_) ht)
  have here : s.HeaderKept false s := .inl ⟨rfl, rfl, rfl, rfl, rfl, rfl⟩
  unfold writeBody
  rw [Act.wp_bind, Act.wp_getState, Act.wp_ite]
  refine ⟨fun _ => here, fun opened => ?_⟩
  rw [Act.wp_ite]
  refine ⟨fun _ => here, fun _ => ?_⟩
  rw [Act.wp_bind, Act.wp_onlyIf]
  exact ⟨fun fresh => absurd settled (by simp [fresh, opened]), fun _ => keeps_writeData (headerKept_write s) _ s here⟩

/-- The state with everything blanked that a push step, its answer or its pause can write. -/
def State.unpushed (s : State) : State :=
  { s with
    work := [], inNext := 0, inAvail := 0, engTotalOut := 0
    responses := [], trace := [], ports := {}, draws := 0, inFlight := none }

theorem unpushed_push (s₀ : State) : PushEffects (fun s => s.unpushed = s₀.unpushed) where
  other _ _ _ _ _ h := h
  stepped _ _ _ _ _ _ _ h := h
  work _ _ h := h

/-- States that agree when blanked differ only there. -/
theorem eq_of_unpushed (same : t.unpushed = s.unpushed) :
    t = { s with
      work := t.work, inNext := t.inNext, inAvail := t.inAvail, engTotalOut := t.engTotalOut
      responses := t.responses, trace := t.trace, ports := t.ports, draws := t.draws, inFlight := t.inFlight } :=
  congrArg (fun u : State => { u with
    work := t.work, inNext := t.inNext, inAvail := t.inAvail, engTotalOut := t.engTotalOut
    responses := t.responses, trace := t.trace, ports := t.ports, draws := t.draws, inFlight := t.inFlight }) same

end Sys2Proof.Machine

open Sys2Proof Sys2Proof.Machine in
/-- Settles O23: every elementary effect keeps what is on record, and adds behind it. -/
theorem recordOnlyGrows : Obligations.RecordOnlyGrows := fun s _ ht =>
  have ⟨⟨ts, trace⟩, rs, responses⟩ := step_keeps (extends_effects s) ⟨List.prefix_rfl, List.prefix_rfl⟩ ht
  ⟨⟨ts, trace.symm⟩, rs, responses.symm⟩

open Sys2Proof Sys2Proof.Machine in
/-- Settles O6: the three branches of a step and of a command beside another. -/
theorem stepOtherwise : Obligations.StepOtherwise :=
  ⟨fun s idle none => by simp [step, idle, none, State.idle], fun _ _ flight => step_of_flight flight,
    fun i _ _ flight fits => exec_refused flight i fits⟩

open Sys2Proof Sys2Proof.Machine in
/-- Settles O28: two commands ask the channel once, the others only answer. -/
theorem controlFrame : Obligations.ControlFrame := by
  refine ⟨fun i s t asks ht => ?_, fun i s t silent ht => ?_⟩
  · obtain rfl | rfl := asks
    · exact flush_asked ht
    · exact getlen_asked ht
  · obtain ⟨o, g, rfl⟩ | rfl | ⟨v, rfl⟩ | ⟨v, rfl⟩ | ⟨r, rfl⟩ := silent
    · exact runCommand_told (seek_silent o g) ht
    · exact runCommand_told (unsupported_silent .getpos) ht
    · exact runCommand_told (unsupported_silent .setpos) ht
    · exact runCommand_told (unsupported_silent .setlen) ht
    · exact runCommand_told (rdstat_silent r) ht

open Sys2Proof Sys2Proof.Machine in
/-- Settles O29: a WRITE emits a header only where the mode is undefined, and none of its later effects writes what the
frame names. -/
theorem writeFrame : Obligations.WriteFrame := by
  refine ⟨fun len s t ht => ?_, fun s t flight ht => ?_⟩
  · obtain ⟨disposed, commands, -, live, -⟩ := write_readKept ht
    obtain ⟨caller, exhausted⟩ := write_inputKept ht
    refine ⟨caller, disposed, exhausted, commands, fun settled => ?_, live⟩
    have mode : t.streamMode = s.streamMode := (exec_shut settled ht).1
    obtain header | ⟨parse, -⟩ := write_headerKept settled ht
    · exact ⟨mode, header⟩
    · cases parse
  · rw [step_of_flight flight] at ht
    exact eq_of_unpushed (ends_of (P := fun s' => s'.unpushed = s.unpushed) (fun _ _ h => h) (fun _ _ h => h)
      (resumeWrite_ends (unpushed_push s) (s := s.resumed) rfl ht))
end

section
/-! A collaborator that never answers (20_memory.md R105), O8: one equation for each transaction whose reply is silent,
and the commands that issue one. -/

namespace Sys2Proof.Machine

variable {s : State}

/-! ### Transactions and actions left stuck -/

theorem askRead_silent {n : Nat} {q : List (Reply (Answer Bytes))} (h : s.ports.chRead = .silent :: q) :
    askRead n s = .error (.pause (.stuck .chRead)) s := transact_silent h

theorem askWrite_silent {b : Bytes} {q : List (Reply WriteAnswer)} (h : s.ports.chWrite = .silent :: q) :
    askWrite b s = .error (.pause (.stuck .chWrite)) s := transact_silent h

theorem askFlush_silent {q : List (Reply (Answer Unit))} (h : s.ports.chFlush = .silent :: q) :
    askFlush s = .error (.pause (.stuck .chFlush)) s := transact_silent h

theorem askClose_silent {q : List (Reply (Answer Unit))} (h : s.ports.chClose = .silent :: q) :
    askClose s = .error (.pause (.stuck .chClose)) s := transact_silent h

theorem askLength_silent {q : List (Reply (Answer ChLength))} (h : s.ports.chLength = .silent :: q) :
    askLength s = .error (.pause (.stuck .chLength)) s := transact_silent h

theorem askInit_silent {dir : CMode} {level : Option Int} {want : Bool} {q : List (Reply (Answer Unit))}
    (h : s.ports.engInit = .silent :: q) : askInit dir level want s = .error (.pause (.stuck .engInit)) s :=
  transact_silent h

theorem askStep_silent {flush : FlushType} {dir : CMode} {input : Bytes} {cap : Nat} {q : List (Reply StepAnswer)}
    (h : s.ports.engStep = .silent :: q) : askStep flush dir input cap s = .error (.pause (.stuck .engStep)) s :=
  transact_silent h

theorem engEnd_silent {dir : CMode} {q : List (Reply Unit)} (h : s.ports.engEnd = .silent :: q) :
    engEnd dir s = .error (.pause (.stuck .engEnd)) s := transact_silent h

theorem poolLease_silent {n : Nat} {q : List (Reply Bytes)} (h : s.ports.poolLease = .silent :: q) :
    poolLease n s = .error (.pause (.stuck .poolLease)) s := transact_silent h

theorem poolRelease_silent {q : List (Reply Unit)} (h : s.ports.poolRelease = .silent :: q) :
    poolRelease s = .error (.pause (.stuck .poolRelease)) s := transact_silent h

theorem clock_silent {q : List (Reply Int)} (h : s.ports.clock = .silent :: q) :
    clock s = .error (.pause (.stuck .clock)) s := transact_silent h

theorem chRead_silent {n : Nat} {q : List (Reply (Answer Bytes))} (h : s.ports.chRead = .silent :: q) :
    chRead n s = .error (.pause (.stuck .chRead)) s := by
  simp only [chRead, bind_run, askRead_silent h]

theorem chWrite_silent {b : Bytes} {q : List (Reply WriteAnswer)} (h : s.ports.chWrite = .silent :: q) :
    chWrite b s = .error (.pause (.stuck .chWrite)) s := by
  simp only [chWrite, bind_run, askWrite_silent h]

theorem engStep_silent {flush : FlushType} {cap : Nat} {q : List (Reply StepAnswer)}
    (h : s.ports.engStep = .silent :: q) : engStep flush cap s = .error (.pause (.stuck .engStep)) s := by
  simp only [engStep, bind_run, getState_run, askStep_silent h]

theorem pushStep_silent {flush : FlushType} {q : List (Reply StepAnswer)} (h : s.ports.engStep = .silent :: q) :
    pushStep flush s = .error (.pause (.stuck .engStep)) s := by
  simp only [pushStep, bind_run, getState_run, engStep_silent h]

/-- A push step whose bytes the channel never takes. -/
theorem pushStep_unanswered {flush : FlushType} {a : StepAnswer} {q : List (Reply StepAnswer)}
    {r : List (Reply WriteAnswer)} (h : s.ports.engStep = .answer a :: q) (ok : stepFits s.window s.wbLen a = true)
    (good : a.status.isFailure = false) (some : a.produced ≠ []) (hr : s.ports.chWrite = .silent :: r) :
    pushStep flush s = .error (.pause (.stuck .chWrite)) (s.stepped flush a q) := by
  have pos : 0 < a.produced.length := List.length_pos_iff.mpr some
  simp only [pushStep, bind_run, getState_run, engStep_run h ok, update_run, good, Bool.false_eq_true, if_false, onlyIf,
    pos, if_true]
  rw [chWrite_silent (q := r) (by simpa using hr)]
  rfl

theorem writeLoop_left {e : Exit} {s' : State} (h : pushStep .none s = .error e s') : writeLoop s = .error e s' := by
  simp only [writeLoop, bind_run, getState_run]
  exact iterate_left (writeRound_left h)

theorem pullChunk_silent {q : List (Reply (Answer Bytes))} (h : s.ports.chRead = .silent :: q) :
    pullChunk s = .error (.pause (.stuck .chRead)) s := by
  simp only [pullChunk, bind_run, getState_run, chRead_silent h]

theorem materialise_silent {q : List (Reply (Answer Unit))} (engine : s.engLive = false)
    (h : s.ports.engInit = .silent :: q) : materialise s = .error (.pause (.stuck .engInit)) s := by
  simp only [materialise, bind_run, getState_run, onlyIf, if_pos engine, startEngine, askInit_silent h]

/-- Materialise stuck between the engine and the buffer. -/
theorem materialise_unleased {q : List (Reply (Answer Unit))} {r : List (Reply Bytes)} (engine : s.engLive = false)
    (buffer : s.wbLive = false) (h : s.ports.engInit = .answer (.ok ()) :: q) (h' : s.ports.poolLease = .silent :: r) :
    materialise s = .error (.pause (.stuck .poolLease)) ((s.exchanged { s.ports with engInit := q } s.draws
      (.engInit s.cmode s.initLevel s.wantHeader (.ok ()))).setEngLive true) := by
  simp only [materialise, bind_run, getState_run, onlyIf, if_pos engine, startEngine, askInit_run h, update_run]
  rw [if_pos (by simpa using buffer)]
  simp only [leaseBuffer, bind_run, getState_run]
  rw [poolLease_silent (q := r) (by simpa using h')]

theorem hdrEmit_silent {q : List (Reply Int)} (free : s.mtimeFixed = none) (h : s.ports.clock = .silent :: q) :
    hdrEmit s = .error (.pause (.stuck .clock)) s := by
  simp only [hdrEmit, timestamp, bind_run, getState_run, free, clock_silent h]

/-! ### Teardown -/

theorem teardown_unended {err : Option Error} {q : List (Reply Unit)} (engine : s.engLive = true)
    (h : s.ports.engEnd = .silent :: q) : teardown err s = .error (.pause (.stuck .engEnd)) s := by
  simp only [teardown, bind_run, getState_run, onlyIf, if_pos engine, endEngine, engEnd_silent h]

theorem teardown_unreleased {err : Option Error} {q r : List (Reply Unit)} (engine : s.engLive = true)
    (buffer : s.wbLive = true) (h : s.ports.engEnd = .answer () :: q) (h' : s.ports.poolRelease = .silent :: r) :
    teardown err s = .error (.pause (.stuck .poolRelease))
      ((s.exchanged { s.ports with engEnd := q } s.draws (.engEnd s.cmode)).setEngLive false) := by
  simp only [teardown, bind_run, getState_run, onlyIf, if_pos engine, endEngine_run h]
  rw [if_pos (by simpa using buffer)]
  simp only [releaseBuffer, bind_run]
  rw [poolRelease_silent (q := r) (by simpa using h')]

theorem teardown_unclosed {err : Option Error} {q : List (Reply (Answer Unit))} (engine : s.engLive = false)
    (buffer : s.wbLive = false) (shut : s.leaveOpen = false) (h : s.ports.chClose = .silent :: q) :
    teardown err s = .error (.pause (.stuck .chClose)) s := by
  simp [teardown, onlyIf, engine, buffer, closeChannel, shut, askClose_silent h]

/-! ### Commands -/

theorem execClose_eq (idle : s.inFlight = none) (opened : s.disposed = false) :
    exec .close s = settle noBuffer ((attempt finishIfTouched >>= teardown) s) := by
  show execClose s = _
  simp [execClose, runCommand, idle, closeBody, opened]

/-- The Finish of a Reader, or of an adapter whose engine was never touched, does nothing (43_control.md R247,
R248). -/
theorem attempt_finish_quiet (no : s.engLive = true → s.streamMode = .reader) :
    ∃ err, attempt finishIfTouched s = .ok err s := by
  cases live : s.engLive with
  | false => exact ⟨none, by simp [attempt, finishIfTouched, onlyIf, live]⟩
  | true =>
    have reader := no live
    by_cases gzip : s.flavor = .gzip
    · cases dir : s.cmode <;>
        simp [attempt, finishIfTouched, onlyIf, live, finish, reader, readerFinish, gzip, dir]
    · simp [attempt, finishIfTouched, onlyIf, live, finish, reader, readerFinish, gzip]

/-- A CLOSE stuck in its teardown, nothing done before it. -/
theorem execClose_left (idle : s.inFlight = none) (opened : s.disposed = false)
    (no : s.engLive = true → s.streamMode = .reader) {f : InFlight} {s' : State}
    (stuck : ∀ err, teardown err s = .error (.pause f) s') : exec .close s = .next (s'.paused f) := by
  obtain ⟨err, finished⟩ := attempt_finish_quiet no
  rw [execClose_eq idle opened, bind_run, finished]
  simp only [stuck, settle]

/-- A WRITE with data and no accumulator to feed, stuck in Materialise. -/
theorem execWrite_unmaterialised {len : U32} (idle : s.inFlight = none) (opened : s.disposed = false)
    (fits : s.caller.length = len.toNat) (some : len ≠ 0) (writer : s.streamMode = .writer) (dead : s.crcLive = false)
    {f : InFlight} {s' : State} (stuck : materialise s = .error (.pause f) s') :
    exec (.write len) s = .next (s'.paused f) := by
  rw [execWrite_eq idle fits, writeBody_of_writer opened writer]
  simp [writeData, toNat_ne_zero some, State.crcFeed, dead, stuck, settle]

/-- A WRITE with data and no accumulator to feed, everything live, stuck in its first push step. -/
theorem execWrite_unpushed {len : U32} (idle : s.inFlight = none) (opened : s.disposed = false)
    (fits : s.caller.length = len.toNat) (some : len ≠ 0) (writer : s.streamMode = .writer) (dead : s.crcLive = false)
    (engine : s.engLive = true) (buffer : s.wbLive = true) {f : InFlight} {s' : State}
    (stuck : pushStep .none (s.loadWindow s.caller) = .error (.pause f) s') :
    exec (.write len) s = .next (s'.paused f) := by
  have unfed : s.crcFeed s.caller = s := by simp [State.crcFeed, dead]
  rw [execWrite_eq idle fits, writeBody_of_writer opened writer,
    writeData_live engine buffer (toNat_ne_zero some), unfed, writeLoop_left stuck]
  rfl

/-- A READ on a live Reader, stuck in its first chunk pull. -/
theorem execRead_unpulled {len : U32} (idle : s.inFlight = none) (opened : s.disposed = false)
    (fits : s.caller.length = len.toNat) (some : len ≠ 0) (reader : s.streamMode = .reader)
    (stream : s.hdrState ≠ .empty) (engine : s.engLive = true) (buffer : s.wbLive = true) (none : s.inAvail = 0)
    (more : s.noMoreInput = false) {f : InFlight} {s' : State} (stuck : pullChunk s = .error (.pause f) s') :
    exec (.read len) s = .next (s'.paused f) := by
  have round := readRound_left (n := len.toNat) (x := (len.toNat, [])) ((pull_due none more).trans stuck)
  rw [execRead_live idle opened reader stream engine buffer some fits, readLoop, bind_run, getState_run]
  simp only
  rw [iterate_left round]
  rfl

end Sys2Proof.Machine

open Sys2Proof Sys2Proof.Machine in
/-- Settles O8: each transaction's silent reply, carried up to the command that issues it. -/
theorem silentCollaborator : Obligations.SilentCollaborator := by
  refine ⟨fun s p stuck => ?_, fun s idle opened => ⟨fun q silent => ?_, fun q silent => ?_,
      fun q engine buffer shut silent => ?_, fun q engine reader silent => ?_,
      fun q r engine buffer reader ended silent => ?_⟩,
    fun s len idle opened fits some => ⟨fun q reader stream engine buffer none more silent => ?_,
      fun q fresh gzip compress free silent => ?_, fun q writer dead engine silent => ?_,
      fun q r writer dead engine buffer init silent => ?_, fun q writer dead engine buffer silent => ?_,
      fun a q r writer dead engine buffer step within room status wrote silent => ?_⟩⟩
  · rw [step_of_flight stuck]
    simp [resume, State.resumed, State.paused, ← stuck]
  · show runCommand noBuffer flushBody s = _
    simp [runCommand, idle, flushBody, opened, askFlush_silent silent, settle, State.paused]
  · show runCommand noBuffer getlenBody s = _
    simp [runCommand, idle, getlenBody, opened, askLength_silent silent, settle, State.paused]
  · exact execClose_left idle opened (by simp [engine]) fun _ => teardown_unclosed engine buffer shut silent
  · exact execClose_left idle opened (fun _ => reader) fun _ => teardown_unended engine silent
  · exact execClose_left idle opened (fun _ => reader) fun _ => teardown_unreleased engine buffer ended silent
  · exact execRead_unpulled idle opened fits some reader stream engine buffer none more (pullChunk_silent silent)
  · have emit := hdrEmit_silent (s := s.setMode .writer) free silent
    rw [execWrite_eq idle fits, writeBody_unemitted opened fresh gzip compress emit]
    rfl
  · exact execWrite_unmaterialised idle opened fits some writer dead (materialise_silent engine silent)
  · rw [execWrite_unmaterialised idle opened fits some writer dead (materialise_unleased engine buffer init silent),
      initLevel_eq]
    rfl
  · exact execWrite_unpushed idle opened fits some writer dead engine buffer (pushStep_silent (q := q) silent)
  · have inside : stepFits (s.loadWindow s.caller).window s.wbLen a = true :=
      (stepFits_iff _ _ _).2 ⟨by simpa using within, room⟩
    rw [execWrite_unpushed idle opened fits some writer dead engine buffer
      (pushStep_unanswered step inside ((isFailure_false_iff _).2 status) wrote silent)]
    simp [State.stepped, State.exchanged, State.afterStep, State.setWork, State.loadWindow, State.paused, State.window,
      memRead, memWrite]
end

section
/-! What a READ does to the record: with the channel exhausted (O26), and along with the caller's buffer (O31). Neither
rests on the invariant, so neither assumes that engine and buffer are live together. -/

namespace Sys2Proof.Machine

variable {α β : Type} {P : State → Prop} {X : Exit → State → Prop} {s s₀ t : State}

/-- Materialise keeps what its two transactions and their registers keep, whatever is live. -/
theorem materialise_wp_of (halt : ∀ s p, p = .engInit ∨ p = .poolLease → P s → Act.Halts X p s)
    (other : ∀ s p d t, t.isChannel = false → t.isStep = false → P s → P (s.exchanged p d t))
    (started : ∀ s, P s → P (s.setEngLive true)) (leased : ∀ s b, P s → P (s.leased b))
    (failed : ∀ s e, P s → X (.raise e) s) (h : P s) : Act.wp materialise (fun _ s' => P s') X s := by
  have lease : ∀ s, P s →
      Act.wp (do let s ← getState; onlyIf (s.wbLive = false) leaseBuffer) (fun _ s' => P s') X s := fun s h => by
    rw [Act.wp_bind, Act.wp_getState, Act.wp_onlyIf]
    exact ⟨fun _ => leaseBuffer_wp (halt s _ (.inr rfl) h) fun _ p d _ => leased _ _ (other s p d _ rfl rfl h),
      fun _ => h⟩
  unfold materialise
  rw [Act.wp_bind, Act.wp_getState, Act.wp_bind, Act.wp_onlyIf]
  exact ⟨fun _ => startEngine_wp (halt s _ (.inl rfl) h)
    (fun _ p d => lease _ (started _ (other s p d _ rfl rfl h))) fun _ p d => failed _ _ (other s p d _ rfl rfl h),
    fun _ => lease s h⟩

/-- A READ that gives a next state had a buffer of its length. -/
theorem runCommand_of_execRead {len : U32} (ht : exec (.read len) s = .next t) :
    runCommand callerBuffer (readBody (operandLen len)) s = .next t := by
  have ht : execRead len s = .next t := ht
  unfold execRead at ht
  split at ht
  · exact ht
  · cases ht

/-- A loop whose first round always ends it. -/
theorem wp_iterate_once {σ : Type} {body : σ → Act (σ ⊕ α)} {at_ : σ → InFlight} {Q : α → State → Prop} {x : σ}
    (round : Act.wp (body x) (fun r s' => ∃ a, r = .inr a ∧ Q a s') X s) (more : Nat) :
    Act.wp (iterate body at_ more x) Q X s := by
  cases more with
  | zero | succ _ =>
    rw [iterate, Act.wp_bind]
    refine Act.wp_mono round ?_ fun _ _ h => h
    rintro _ s' ⟨a, rfl, h⟩
    exact h

/-! ### A Reader whose channel is exhausted -/

theorem exhausted_effects : Effects (fun s => s.noMoreInput = true) where
  other _ _ _ _ _ h := h
  stepped _ _ _ _ _ _ _ h := h
  work _ _ h := h
  started _ _ h := h
  leased _ _ _ h := h
  crc _ _ h := by simpa using h
  window _ _ h := h
  pulled _ _ h := by simp [State.pulled, h]
  caller _ _ h := h
  hdrEmpty _ h := h
  hdrParsed _ _ h := h
  stopped _ h := h
  released _ h := h
  disposed _ h := h
  mode _ _ _ h := h
  hdrEmitted _ _ h := h
  respond _ _ h := h
  paused _ _ h := h
  resumed _ h := h
  command _ _ h := h
  data _ _ h := h

/-- Inside a READ with NO_MORE_INPUT set: since `s₀` no channel transaction, and at most `n` engine steps. -/
def State.Spent (s₀ : State) (n : Nat) (s : State) : Prop :=
  s.noMoreInput = true ∧ s.inFlight = none ∧
  ∃ ts, s.trace = s₀.trace ++ ts ∧ ts.countP Txn.isChannel = 0 ∧ ts.countP Txn.isStep ≤ n

/-- How a READ with NO_MORE_INPUT set ends: it has answered, or is stuck on the engine or the pool. -/
def State.EndedSpent (s₀ t : State) : Prop :=
  (t.inFlight = none ∨ ∃ p, t.StuckOn p ∧ p.isChannel = false) ∧
  ∃ ts, t.trace = s₀.trace ++ ts ∧ ts.countP Txn.isChannel = 0 ∧ ts.countP Txn.isStep ≤ 2

variable {n : Nat}

theorem State.Spent.refl (exhausted : s.noMoreInput = true) (idle : s.inFlight = none) : s.Spent 0 s :=
  ⟨exhausted, idle, [], by simp, rfl, le_rfl⟩

/-- One more transaction that is not the channel's. -/
theorem State.Spent.exchanged (h : s₀.Spent n s) (p : Ports) (d : Nat) {t : Txn} (off : t.isChannel = false) :
    s₀.Spent (n + boolNumber t.isStep) (s.exchanged p d t) := by
  obtain ⟨exhausted, idle, ts, trace, channel, steps⟩ := h
  refine ⟨exhausted, idle, ts ++ [t], by simp [trace], by simp [List.countP_append, channel, off], ?_⟩
  cases step : t.isStep <;> simpa [List.countP_append, step, boolNumber] using steps

theorem State.Spent.answered (h : s₀.Spent n s) (few : n ≤ 2) (r : Response) : s₀.EndedSpent (s.respond r) := by
  obtain ⟨-, idle, ts, trace, channel, steps⟩ := h
  exact ⟨.inl idle, ts, trace, channel, steps.trans few⟩

theorem State.Spent.stuck (h : s₀.Spent n s) (few : n ≤ 2) {p : PortName} (off : p.isChannel = false) :
    Act.Halts (Exit.Leaves callerBuffer s₀.EndedSpent) p s := by
  obtain ⟨-, -, ts, trace, channel, steps⟩ := h
  exact Exit.leaves_halts ⟨.inr ⟨p, rfl, off⟩, ts, trace, channel, steps.trans few⟩

theorem State.Spent.crcFeed (h : s₀.Spent n s) (b : Bytes) : s₀.Spent n (s.crcFeed b) := by
  simpa [State.Spent] using h

/-- READ past its first-call work ends as `EndedSpent` says. -/
abbrev Act.EndsSpent (s₀ : State) (m : Act Response) (s : State) : Prop :=
  Act.wp m (fun r s' => s₀.EndedSpent (s'.respond r)) (Exit.Leaves callerBuffer s₀.EndedSpent) s

theorem readAnswer_spent (h : s₀.Spent n s) (few : n ≤ 2) (k : Nat) : Act.EndsSpent s₀ (readAnswer k) s := by
  unfold Act.EndsSpent readAnswer
  rw [Act.wp_bind, Act.wp_getState]
  exact h.answered few _

theorem pullStep_spent {Q : StepAnswer → State → Prop} (h : s₀.Spent n s) (few : n < 2) (flush : FlushType) (room : Nat)
    (w : Bytes) (stepped : ∀ a s', s₀.Spent (n + 1) s' → Q a s') :
    Act.wp (pullStep flush room w) Q (Exit.Leaves callerBuffer s₀.EndedSpent) s :=
  pullStep_wp flush room w (h.stuck few.le rfl) fun a p d _ =>
    stepped a _ (h.exchanged p d (t := .engStep flush s.cmode s.window room a) rfl)

/-- The second engine step of such a READ, if there is one, is its last. -/
theorem readEnd_spent (h : s₀.Spent 1 s) (len room : Nat) (w : Bytes) : Act.EndsSpent s₀ (readEnd len room w) s := by
  unfold Act.EndsSpent readEnd finalStep
  rw [Act.wp_bind, Act.wp_bind, Act.wp_getState, Act.wp_ite]
  refine ⟨fun _ => ?_, fun _ => readAnswer_spent (h.crcFeed w) (by decide) _⟩
  rw [Act.wp_bind]
  refine pullStep_spent h (by decide) _ _ _ fun a s' h' => ?_
  rw [Act.wp_ite]
  exact ⟨fun _ => h'.answered le_rfl _, fun _ => readAnswer_spent (h'.crcFeed _) le_rfl _⟩

/-- With NO_MORE_INPUT set a round pulls no chunk, and is the loop's last (42_read.md R225, R229). -/
theorem readRound_spent (h : s₀.Spent 0 s) (len : Nat) (x : Nat × Bytes) :
    Act.wp (readRound len x) (fun r s' => ∃ a, r = .inr a ∧ s₀.EndedSpent (s'.respond a))
      (Exit.Leaves callerBuffer s₀.EndedSpent) s := by
  unfold readRound
  rw [Act.wp_bind, Act.wp_getState, Act.wp_bind, Act.wp_onlyIf]
  refine ⟨fun due => absurd due (by simp [State.needsChunk, h.1]), fun _ => ?_⟩
  rw [Act.wp_bind]
  refine pullStep_spent h (by decide) _ _ _ fun a s' h' => ?_
  rw [Act.wp_bind, Act.wp_getState, Act.wp_ite]
  refine ⟨fun _ => ?_, fun _ => ?_⟩
  · rw [Act.wp_bind]
    exact Act.wp_mono (readAnswer_spent h' (by decide) 0) (fun r _ ended => ⟨r, rfl, ended⟩) fun _ _ h => h
  rw [Act.wp_ite]
  refine ⟨fun _ => h'.answered (by decide) _, fun _ => ?_⟩
  rw [Act.wp_ite]
  refine ⟨fun again => absurd again (by simp [State.readAgain, h'.1]), fun _ => ?_⟩
  rw [Act.wp_bind]
  exact Act.wp_mono (readEnd_spent h' _ _ _) (fun r _ ended => ⟨r, rfl, ended⟩) fun _ _ h => h

theorem readLoop_spent (h : s₀.Spent 0 s) (len room : Nat) (w : Bytes) :
    Act.EndsSpent s₀ (readLoop len room w) s := by
  unfold Act.EndsSpent readLoop
  rw [Act.wp_bind, Act.wp_getState]
  exact wp_iterate_once (readRound_spent h len (room, w)) _

theorem readData_spent (h : s₀.Spent 0 s) (len : Nat) : Act.EndsSpent s₀ (readData len) s := by
  unfold Act.EndsSpent readData
  rw [Act.wp_bind, Act.wp_getState, Act.wp_ite]
  refine ⟨fun _ => readAnswer_spent h (by decide) 0, fun _ => ?_⟩
  rw [Act.wp_ite]
  refine ⟨fun _ => readAnswer_spent h (by decide) 0, fun _ => ?_⟩
  rw [Act.wp_bind]
  refine Act.wp_mono (materialise_wp_of (P := s₀.Spent 0) ?_ ?_ (fun _ h => h) (fun _ _ h => h) ?_ h)
    (fun _ s' h' => readLoop_spent h' len len []) fun _ _ h' => h'
  · rintro s p (rfl | rfl) h <;> exact h.stuck (by decide) rfl
  · intro s p d t off unstepped h
    simpa [unstepped, boolNumber] using h.exchanged p d off
  · exact fun s e h => h.answered (by decide) _

theorem exec_spent {len : U32} (reader : s.streamMode = .reader) (exhausted : s.noMoreInput = true)
    (ht : exec (.read len) s = .next t) : s.EndedSpent t := by
  refine runCommand_next (fun idle => ?_) (runCommand_of_execRead ht)
  have start := State.Spent.refl exhausted idle
  unfold readBody
  rw [Act.wp_bind, Act.wp_getState, if_neg (by simp [reader] : ¬s.streamMode = .writer),
    if_neg (by simp [reader] : ¬s.streamMode = .undefined), Act.wp_ite]
  exact ⟨fun _ => start.answered (by decide) _, fun _ => readData_spent start _⟩

/-! ### The parse of a header -/

/-- The effects of a header parse keep `P`, its transactions being runs of channel reads. -/
structure DrawEffects (P : State → Prop) : Prop where
  drew : ∀ s p d ts b, ReadRun ts b → P s → P (s.exchangedAll p d ts)
  hdrEmpty : ∀ s, P s → P s.hdrEmpty
  hdrParsed : ∀ s h, P s → P (s.hdrParsed h)

section
variable (E : DrawEffects P)
include E

theorem DrawEffects.halts (h : P s) : Act.HaltsReading (fun _ s' => P s') s := fun _ p d _ run =>
  ⟨E.drew _ p d _ _ run h, fun _ => E.drew _ p d _ _ run h⟩

theorem DrawEffects.hdrOpen : Act.Keeps P hdrOpen := fun _ h =>
  hdrOpen_wp (E.halts h) (fun p d _ run => E.hdrEmpty _ (E.drew _ p d _ _ run h))
    (fun _ _ p d _ run _ _ _ _ => E.drew _ p d _ _ run h) fun _ _ p d _ run _ => E.drew _ p d _ _ run h

theorem DrawEffects.readName (len : Nat) (hd : HdrFields) (acc : Bytes) : Act.Keeps P (readName len hd acc) :=
  fun _ h => readName_wp len hd acc (E.halts h) (fun _ _ p d _ run _ => E.drew _ p d _ _ run h)
    (fun _ _ p d _ run _ => E.drew _ p d _ _ run h) fun _ _ p d _ run _ => E.drew _ p d _ _ run h

theorem DrawEffects.readComment (len : Nat) (hd : HdrFields) (acc : Bytes) : Act.Keeps P (readComment len hd acc) :=
  fun _ h => readComment_wp len hd acc (E.halts h) (fun _ _ p d _ run _ => E.drew _ p d _ _ run h)
    (fun _ _ p d _ run _ => E.drew _ p d _ _ run h) fun _ _ p d _ run _ => E.drew _ p d _ _ run h

theorem DrawEffects.hdrClose (hd : HdrFields) : Act.Keeps P (hdrClose hd) := fun _ h =>
  hdrClose_wp hd (E.halts h) (fun _ p d _ run => E.hdrParsed _ _ (E.drew _ p d _ _ run h))
    fun _ _ p d _ run _ => E.drew _ p d _ _ run h

theorem DrawEffects.hdrFromComment (len : Nat) (hd : HdrFields) : Act.Keeps P (hdrFromComment len hd) :=
  keeps_bind (keeps_ite (E.readComment _ _ _) (keeps_pure _)) fun _ => E.hdrClose _

theorem DrawEffects.hdrFromName (len : Nat) (hd : HdrFields) : Act.Keeps P (hdrFromName len hd) :=
  keeps_bind (keeps_ite (E.readName _ _ _) (keeps_pure _)) fun _ => E.hdrFromComment _ _

end

/-! ### The caller's buffer -/

theorem memWrite_zero (space v : Bytes) : memWrite space 0 v = v ++ space.drop v.length := by
  simp [memWrite]

/-- Writing what is there already. -/
theorem memWrite_zero_of_take {space w : Bytes} (written : space.take w.length = w) : memWrite space 0 w = space := by
  calc memWrite space 0 w = space.take w.length ++ space.drop w.length := by rw [memWrite_zero, written]
    _ = space := List.take_append_drop _ _

/-- Inside a READ of `len` bytes: the `w₀` produced before `s₀` and the bytes of the engine's steps since are `w`, at
most `len` of them, and the caller's buffer of `s₀` begins with `w` now. -/
def State.Filled (s₀ : State) (w₀ : Bytes) (len : Nat) (w : Bytes) (s : State) : Prop :=
  ∃ ts, s.trace = s₀.trace ++ ts ∧ w₀ ++ produced ts = w ∧ w.length ≤ len ∧ s.caller = memWrite s₀.caller 0 w

/-- However many bytes they are. -/
def State.Landed (s₀ : State) (w₀ : Bytes) (len : Nat) (s : State) : Prop := ∃ w, s₀.Filled w₀ len w s

variable {w₀ w : Bytes} {len room : Nat}

theorem State.Filled.landed (h : s₀.Filled w₀ len w s) : s₀.Landed w₀ len s := ⟨w, h⟩

theorem State.Filled.start (written : s.caller.take w.length = w) (short : w.length ≤ len) : s.Filled w len w s :=
  ⟨[], by simp, by simp, short, (memWrite_zero_of_take written).symm⟩

theorem State.Filled.exchanged (h : s₀.Filled w₀ len w s) (p : Ports) (d : Nat) {t : Txn} (none : t.produced = []) :
    s₀.Filled w₀ len w (s.exchanged p d t) := by
  obtain ⟨ts, trace, bytes, short, buffer⟩ := h
  exact ⟨ts ++ [t], by simp [trace], by simp [bytes, none], short, buffer⟩

theorem State.Filled.crcFeed (h : s₀.Filled w₀ len w s) (b : Bytes) : s₀.Filled w₀ len w (s.crcFeed b) := by
  simpa [State.Filled] using h

/-- A pull step: its bytes land behind those produced before it (42_read.md R226). -/
theorem State.Filled.pulled (h : s₀.Filled w₀ len w s) (count : room + w.length = len) (flush : FlushType)
    (input : Bytes) (p : Ports) (d : Nat) {a : StepAnswer} (cap : a.produced.length ≤ room) :
    s₀.Filled w₀ len (w ++ a.produced) (((s.exchanged p d (.engStep flush s.cmode input room a)).afterStep a).setCaller
      (memWrite s.caller w.length a.produced)) := by
  obtain ⟨ts, trace, bytes, -, buffer⟩ := h
  refine ⟨ts ++ [.engStep flush s.cmode input room a], by simp [trace], by simp [← bytes, Txn.produced], ?_, ?_⟩
  · simp
    omega
  · simp [buffer, memWrite_memWrite]

theorem filled_draw (s₀ : State) (w₀ : Bytes) (len : Nat) (w : Bytes) : DrawEffects (s₀.Filled w₀ len w) where
  drew s p d ts b run h := by
    obtain ⟨us, trace, bytes, short, buffer⟩ := h
    exact ⟨us ++ ts, by simp [trace], by simp [bytes, run.produced], short, buffer⟩
  hdrEmpty _ h := h
  hdrParsed _ _ h := h

/-- Every end of `m` from `s` has the buffer as `Landed` says. -/
abbrev Act.Lands (s₀ : State) (w₀ : Bytes) (len : Nat) (m : Act α) (s : State) : Prop :=
  Act.wp m (fun _ s' => s₀.Landed w₀ len s') (fun _ s' => s₀.Landed w₀ len s') s

theorem readAnswer_lands (h : s₀.Landed w₀ len s) (k : Nat) : Act.Lands s₀ w₀ len (readAnswer k) s := by
  unfold Act.Lands readAnswer
  rw [Act.wp_bind, Act.wp_getState]
  exact h

theorem pullStep_lands {Q : StepAnswer → State → Prop} (h : s₀.Filled w₀ len w s) (count : room + w.length = len)
    (flush : FlushType)
    (pulled : ∀ a s', room - a.produced.length + (w ++ a.produced).length = len →
      s₀.Filled w₀ len (w ++ a.produced) s' → Q a s') :
    Act.wp (pullStep flush room w) Q (fun _ s' => s₀.Landed w₀ len s') s :=
  pullStep_wp flush room w ⟨h.landed, fun _ => h.landed⟩ fun a p d fits => by
    have cap := ((stepFits_iff _ _ _).1 fits).2
    exact pulled a _ (by simp; omega) (h.pulled count flush _ p d cap)

theorem readEnd_lands (h : s₀.Filled w₀ len w s) (count : room + w.length = len) :
    Act.Lands s₀ w₀ len (readEnd len room w) s := by
  unfold Act.Lands readEnd finalStep
  rw [Act.wp_bind, Act.wp_bind, Act.wp_getState, Act.wp_ite]
  refine ⟨fun _ => ?_, fun _ => readAnswer_lands (h.crcFeed w).landed (len - room)⟩
  rw [Act.wp_bind]
  refine pullStep_lands h count _ fun a s' _ h' => ?_
  rw [Act.wp_ite]
  exact ⟨fun _ => h'.landed, fun _ => readAnswer_lands (h'.crcFeed _).landed (len - (room - a.produced.length))⟩

/-- What READ's loop keeps from round to round. -/
def State.Filling (s₀ : State) (w₀ : Bytes) (len : Nat) (x : Nat × Bytes) (s : State) : Prop :=
  x.1 + x.2.length = len ∧ s₀.Filled w₀ len x.2 s

/-- How a round ends: the loop goes on, or the READ is over. -/
def State.AfterRound (s₀ : State) (w₀ : Bytes) (len : Nat) : (Nat × Bytes) ⊕ Response → State → Prop
  | .inl y => s₀.Filling w₀ len y
  | .inr _ => s₀.Landed w₀ len

theorem readRound_lands {x : Nat × Bytes} (h : s₀.Filling w₀ len x s) :
    Act.wp (readRound len x) (s₀.AfterRound w₀ len) (fun _ s' => s₀.Landed w₀ len s') s := by
  obtain ⟨count, filled⟩ := h
  have chunk : Act.wp (onlyIf (s.needsChunk = true) pullChunk) (fun _ s' => s₀.Filled w₀ len x.2 s')
      (fun _ s' => s₀.Landed w₀ len s') s := by
    rw [Act.wp_onlyIf]
    refine ⟨fun _ => pullChunk_wp ⟨filled.landed, fun _ => filled.landed⟩ (fun k p d _ => ?_) (fun e p d => ?_),
      fun _ => filled⟩
    · exact filled.exchanged p d (t := .chRead s.wbLen (.ok k)) rfl
    · exact (filled.exchanged p d rfl).landed
  unfold readRound
  rw [Act.wp_bind, Act.wp_getState, Act.wp_bind]
  refine Act.wp_mono chunk (fun _ s h => ?_) fun _ _ h => h
  rw [Act.wp_bind]
  refine pullStep_lands h count .none fun a s' count' h' => ?_
  rw [Act.wp_bind, Act.wp_getState, Act.wp_ite]
  refine ⟨fun _ => h'.landed, fun _ => ?_⟩
  rw [Act.wp_ite]
  refine ⟨fun _ => h'.landed, fun _ => ?_⟩
  rw [Act.wp_ite]
  refine ⟨fun _ => ⟨count', h'⟩, fun _ => ?_⟩
  rw [Act.wp_bind]
  exact readEnd_lands h' count'

theorem readLoop_lands (h : s₀.Filled w₀ len w s) (count : room + w.length = len) :
    Act.Lands s₀ w₀ len (readLoop len room w) s := by
  unfold Act.Lands readLoop
  rw [Act.wp_bind, Act.wp_getState]
  refine Act.wp_iterate (s₀.Filling w₀ len) (fun x s h => ?_) (fun _ _ h => h.2.landed) _ _ ⟨count, h⟩
  exact Act.wp_mono (readRound_lands h) (fun r _ h => by cases r <;> exact h) fun _ _ h => h

theorem readData_lands (h : s₀.Filled [] len [] s) : Act.Lands s₀ [] len (readData len) s := by
  unfold Act.Lands readData
  rw [Act.wp_bind, Act.wp_getState, Act.wp_ite]
  refine ⟨fun _ => readAnswer_lands h.landed 0, fun _ => ?_⟩
  rw [Act.wp_ite]
  refine ⟨fun _ => readAnswer_lands h.landed 0, fun _ => ?_⟩
  rw [Act.wp_bind]
  refine Act.wp_mono (materialise_wp_of (P := s₀.Filled [] len []) (fun _ _ _ h => ⟨h.landed, fun _ => h.landed⟩)
    (fun _ p d _ _ other h => h.exchanged p d (produced_of_not_step other)) (fun _ h => h) (fun _ _ h => h)
    (fun _ _ h => h.landed) h) (fun _ _ h => readLoop_lands h (by simp)) fun _ _ h => h

/-- Before READ proper nothing has been produced. -/
theorem parse_lands {m : Act α} {f : α → Act β} (parse : Act.Keeps (s₀.Filled [] len []) m)
    (rest : ∀ a s, s₀.Filled [] len [] s → Act.Lands s₀ [] len (f a) s) (h : s₀.Filled [] len [] s) :
    Act.Lands s₀ [] len (m >>= f) s := by
  unfold Act.Lands
  rw [Act.wp_bind]
  exact Act.wp_mono (parse s h) (fun a s h => rest a s h) fun _ _ h => h.landed

theorem readParsing_lands (h : s₀.Filled [] len [] s) : Act.Lands s₀ [] len (readParsing len) s :=
  parse_lands (filled_draw _ _ _ _).hdrOpen (fun hd s h => by
    cases hd with
    | none => exact readAnswer_lands h.landed 0
    | some hd =>
      exact parse_lands ((filled_draw _ _ _ _).hdrFromName _ _) (fun _ _ h => readData_lands h) h) h

theorem readBody_lands (h : s₀.Filled [] len [] s) : Act.Lands s₀ [] len (readBody len) s := by
  unfold Act.Lands readBody
  rw [Act.wp_bind, Act.wp_getState, Act.wp_ite]
  refine ⟨fun _ => h.landed, fun _ => ?_⟩
  rw [Act.wp_ite]
  refine ⟨fun _ => h.landed, fun _ => ?_⟩
  rw [Act.wp_ite]
  refine ⟨fun _ => ?_, fun _ => readData_lands h⟩
  unfold enterReader
  rw [Act.wp_bind, Act.wp_update, Act.wp_bind, Act.wp_getState, Act.wp_ite]
  exact ⟨fun _ => readParsing_lands h, fun _ => readData_lands h⟩

theorem ends_landed (h : Ends (s₀.Landed w₀ len) t) : s₀.Landed w₀ len t := ends_of (fun _ _ h => h) (fun _ _ h => h) h

theorem exec_landed {len : U32} (ht : exec (.read len) s = .next t) : s.Landed [] len.toNat t :=
  ends_landed (runCommand_wp_ends (fun _ => readBody_lands (.start (by simp) (by simp))) (runCommand_of_execRead ht))

theorem resumeName_landed {hd : HdrFields} {acc : Bytes} (ht : resume (.nameLoop len hd acc) s = .next t) :
    s.Landed [] len t :=
  ends_landed (settle_wp_ends (body := resumeName len hd acc) (parse_lands ((filled_draw _ _ _ _).readName _ _ _)
    (fun _ _ h => parse_lands ((filled_draw _ _ _ _).hdrFromComment _ _) (fun _ _ h => readData_lands h) h)
    (.start (by simp) (by simp))) ht)

theorem resumeComment_landed {hd : HdrFields} {acc : Bytes} (ht : resume (.commentLoop len hd acc) s = .next t) :
    s.Landed [] len t :=
  ends_landed (settle_wp_ends (body := resumeComment len hd acc) (parse_lands ((filled_draw _ _ _ _).readComment _ _ _)
    (fun _ _ h => parse_lands ((filled_draw _ _ _ _).hdrClose _) (fun _ _ h => readData_lands h) h)
    (.start (by simp) (by simp))) ht)

theorem resumeRead_landed (count : room + w.length = len) (written : s.caller.take w.length = w)
    (ht : resume (.readLoop len room w) s = .next t) : s.Landed w len t :=
  ends_landed (settle_wp_ends (readLoop_lands (.start written (by omega)) count) ht)

end Sys2Proof.Machine

open Sys2Proof Sys2Proof.Machine in
/-- Settles O26: no effect clears NO_MORE_INPUT, and with it set READ's loop is one round long and pulls no chunk. -/
theorem exhaustedReader : Obligations.ExhaustedReader :=
  ⟨fun _ _ exhausted ht => step_keeps exhausted_effects exhausted ht,
    fun _ _ _ reader exhausted ht => exec_spent reader exhausted ht⟩

open Sys2Proof Sys2Proof.Machine in
/-- Settles O31: each pull step writes its bytes behind those produced before it, and no other effect of a READ writes
the buffer. -/
theorem readBuffer : Obligations.ReadBuffer := by
  refine ⟨fun len s t ht => ?_, fun len hd acc s t _ flight ht => ?_, fun len room w s t inv flight ht => ?_⟩
  · obtain ⟨_, ts, trace, rfl, short, buffer⟩ := exec_landed ht
    exact ⟨ts, trace, short, buffer.trans (memWrite_zero _ _)⟩
  · have landed : s.resumed.Landed [] len t := by
      obtain name | comment := flight
      · exact resumeName_landed (step_of_flight name ▸ ht)
      · exact resumeComment_landed (step_of_flight comment ▸ ht)
    obtain ⟨_, ts, trace, rfl, short, buffer⟩ := landed
    exact ⟨ts, trace, short, buffer.trans (memWrite_zero _ _)⟩
  · obtain ⟨⟨-, -, count, written⟩, -⟩ := inv_phases.resumeRead len room w s inv flight
    obtain ⟨_, ts, trace, rfl, short, buffer⟩ :=
      resumeRead_landed (s := s.resumed) count written (step_of_flight flight ▸ ht)
    exact ⟨ts, trace, short, buffer.trans (memWrite_zero _ _)⟩
end

section
/-! The command word (30_encoding.md Part B): what decodes to a command is that command's encoding, O1 to O3, which
words spell none, O4, and that a step runs the command its word decodes to, O5. -/

namespace Sys2Proof

open Laws

variable {w : U64} {i j : Instr}

/-! ### Decoding an encoded command -/

/-- A well-formed command's word decodes to it (R140, R142). -/
theorem decode_encode (wf : i.wf = true) : decode i.encode = .ok i := by
  cases i with
  | write len => simp [decode, decodeOpcode, Instr.encode, needSelZero]
  | read len => simp [decode, decodeOpcode, Instr.encode, needSelZero]
  | flush => simp [decode, decodeOpcode, Instr.encode, needBothZero, needSelZero]
  | close => simp [decode, decodeOpcode, Instr.encode, needBothZero, needSelZero]
  | seek offset origin =>
    have within : origin.toNat ≤ maxOrigin := of_decide_eq_true wf
    simp [decode, decodeOpcode, Instr.encode, within]
  | getpos => simp [decode, decodeOpcode, Instr.encode, needBothZero, needSelZero]
  | setpos value => simp [decode, decodeOpcode, Instr.encode, needSelZero]
  | setlen value => simp [decode, decodeOpcode, Instr.encode, needSelZero]
  | getlen => simp [decode, decodeOpcode, Instr.encode, needBothZero, needSelZero]
  | rdstat sel =>
    have named : sel.toNat < firstReservedSelector := of_decide_eq_true wf
    simp [decode, decodeOpcode, Instr.encode, named]

theorem decode_of_encode_eq (wf : i.wf = true) (word : i.encode = w) : decode w = .ok i :=
  word ▸ decode_encode wf

/-! ### Encoding a decoded word -/

/-- The fields of a word are those of a well-formed command's row in R142. -/
structure Spells (w : U64) (i : Instr) : Prop where
  wf : i.wf = true
  opcode : opcOf w = WordFields.opcode i
  selector : selOf w = WordFields.selector i
  length : lenOf w = WordFields.length i

/-- The word of a command is built from its row's fields. -/
theorem encode_eq_wordOf (i : Instr) :
    i.encode = wordOf (WordFields.length i) (WordFields.selector i) (WordFields.opcode i) := by
  cases i <;> rfl

theorem Spells.encode_eq (h : Spells w i) (rsv : rsvOf w = 0) : i.encode = w := by
  rw [encode_eq_wordOf, ← h.opcode, ← h.selector, ← h.length, wordOf_fields w rsv]

theorem needSelZero_ok_iff : needSelZero w i = .ok j ↔ selOf w = 0 ∧ i = j := by
  by_cases sel : selOf w = 0#8 <;> simp [needSelZero, sel]

theorem needBothZero_ok_iff : needBothZero w i = .ok j ↔ lenOf w = 0 ∧ selOf w = 0 ∧ i = j := by
  by_cases len : lenOf w = 0#32 <;> simp [needBothZero, len, needSelZero_ok_iff]

theorem Spells.of_needSelZero (h : needSelZero w i = .ok j) (wf : i.wf = true) (opcode : opcOf w = WordFields.opcode i)
    (selector : 0 = WordFields.selector i) (length : lenOf w = WordFields.length i) : Spells w j := by
  obtain ⟨sel, rfl⟩ := needSelZero_ok_iff.1 h
  exact ⟨wf, opcode, sel.trans selector, length⟩

theorem Spells.of_needBothZero (h : needBothZero w i = .ok j) (wf : i.wf = true)
    (opcode : opcOf w = WordFields.opcode i) (selector : 0 = WordFields.selector i)
    (length : 0 = WordFields.length i) : Spells w j := by
  obtain ⟨len, sel, rfl⟩ := needBothZero_ok_iff.1 h
  exact ⟨wf, opcode, sel.trans selector, len.trans length⟩

/-- What the decoder answers is a command whose row the word's fields are, row by row. -/
theorem spells_of_decodeOpcode (h : decodeOpcode w = .ok i) : Spells w i := by
  unfold decodeOpcode at h
  split at h <;> rename_i opc
  · exact .of_needSelZero h rfl (BitVec.eq_of_toNat_eq opc) rfl rfl
  · exact .of_needSelZero h rfl (BitVec.eq_of_toNat_eq opc) rfl rfl
  · exact .of_needBothZero h rfl (BitVec.eq_of_toNat_eq opc) rfl rfl
  · exact .of_needBothZero h rfl (BitVec.eq_of_toNat_eq opc) rfl rfl
  · split at h <;> cases h
    exact ⟨decide_eq_true ‹_›, BitVec.eq_of_toNat_eq opc, rfl, rfl⟩
  · exact .of_needBothZero h rfl (BitVec.eq_of_toNat_eq opc) rfl rfl
  · exact .of_needSelZero h rfl (BitVec.eq_of_toNat_eq opc) rfl rfl
  · exact .of_needSelZero h rfl (BitVec.eq_of_toNat_eq opc) rfl rfl
  · exact .of_needBothZero h rfl (BitVec.eq_of_toNat_eq opc) rfl rfl
  · split at h
    · split at h <;> cases h
      exact ⟨decide_eq_true ‹_›, BitVec.eq_of_toNat_eq opc, rfl, ‹_›⟩
    · cases h
  · cases h

/-- A word decodes to a command exactly where it is the encoding of that command and the command is well-formed. -/
theorem decode_ok_iff : decode w = .ok i ↔ i.wf = true ∧ i.encode = w := by
  refine ⟨fun h => ?_, fun ⟨wf, word⟩ => decode_of_encode_eq wf word⟩
  unfold decode at h
  split at h
  · have spells := spells_of_decodeOpcode h
    exact ⟨spells.wf, spells.encode_eq ‹_›⟩
  · cases h

/-! ### Words that spell no command -/

theorem needSelZero_error_iff : (∃ e, needSelZero w i = .error e) ↔ selOf w ≠ 0 := by
  by_cases sel : selOf w = 0#8 <;> simp [needSelZero, sel]

theorem needBothZero_error_iff : (∃ e, needBothZero w i = .error e) ↔ selOf w ≠ 0 ∨ lenOf w ≠ 0 := by
  by_cases len : lenOf w = 0#32 <;> simp [needBothZero, len, needSelZero_error_iff]

/-- The opcodes by their operands: those of a LEN alone, those of none, SEEK, RDSTAT, and those of no command (R142,
R150). -/
theorem opcode_cases (b : Byte) :
    (b = 0x01 ∨ b = 0x02 ∨ b = 0x07 ∨ b = 0x08) ∨ (b = 0x03 ∨ b = 0x04 ∨ b = 0x06 ∨ b = 0x09) ∨ b = 0x05 ∨ b = 0x0A ∨
      b = 0x00 ∨ 0x0B ≤ b.toNat := by
  decide +revert

/-- The opcodes past RDSTAT's (R150). -/
theorem decodeOpcode_of_le (h : 0x0B ≤ (opcOf w).toNat) : decodeOpcode w = .error .opcode := by
  obtain ⟨n, opc⟩ := Nat.exists_eq_add_of_le' h
  rw [decodeOpcode, opc]
  rfl

/-- Of the words whose RSV is 0, the decoder refuses those whose opcode is none, and those with an operand that their
opcode does not allow (R150 to R152). -/
theorem decodeOpcode_error_iff :
    (∃ e, decodeOpcode w = .error e) ↔
      opcOf w = 0x00 ∨ 0x0B ≤ (opcOf w).toNat ∨ (selOf w ≠ 0 ∧ opcOf w ≠ 0x05 ∧ opcOf w ≠ 0x0A) ∨
        (lenOf w ≠ 0 ∧ opcOf w ∈ [0x03, 0x04, 0x06, 0x09, (0x0A : Byte)]) ∨
        (opcOf w = 0x05 ∧ 2 < (selOf w).toNat) ∨ (opcOf w = 0x0A ∧ 0x16 ≤ (selOf w).toNat) := by
  obtain data | plain | opc | opc | opc | opc := opcode_cases (opcOf w)
  · obtain opc | opc | opc | opc := data <;> simp [decodeOpcode, opc, needSelZero_error_iff]
  · obtain opc | opc | opc | opc := plain <;> simp [decodeOpcode, opc, needBothZero_error_iff]
  · obtain within | past := le_or_gt (selOf w).toNat 2
    · simp [decodeOpcode, opc, maxOrigin, within]
    · simp [decodeOpcode, opc, maxOrigin, past, Nat.not_le.2 past]
  · by_cases len : lenOf w = 0#32
    · obtain named | reserved := Nat.lt_or_ge (selOf w).toNat 22
      · simp [decodeOpcode, opc, len, firstReservedSelector, named]
      · simp [decodeOpcode, opc, len, firstReservedSelector, reserved, Nat.not_lt.2 reserved]
    · simp [decodeOpcode, opc, len]
  · simp [decodeOpcode, opc]
  · simp [decodeOpcode_of_le opc, opc]

end Sys2Proof

open Sys2Proof Sys2Proof.Machine in
/-- Settles O1: each row of the opcode table, decoded from its fields. -/
theorem decodeOfEncode : Obligations.DecodeOfEncode := fun _ wf => decode_encode wf

open Sys2Proof Sys2Proof.Machine in
/-- Settles O2: each row of the decoder answers the command whose fields it has found, and they are all of the word. -/
theorem encodeOfDecode : Obligations.EncodeOfDecode := fun _ _ h => decode_ok_iff.1 h

open Sys2Proof Sys2Proof.Machine in
/-- Settles O3: each listed word is the encoding of its command. -/
theorem listedWordsDecode : Obligations.ListedWordsDecode :=
  ⟨decode_of_encode_eq rfl (by decide), decode_of_encode_eq rfl (by decide), decode_of_encode_eq rfl (by decide),
    decode_of_encode_eq rfl (by decide), decode_of_encode_eq rfl (by decide), decode_of_encode_eq rfl (by decide),
    decode_of_encode_eq rfl (by decide), decode_of_encode_eq rfl (by decide), decode_of_encode_eq rfl (by decide),
    decode_of_encode_eq rfl (by decide)⟩

open Sys2Proof Sys2Proof.Machine in
/-- Settles O4: the illegal words are those whose opcode's row refuses a field, and each is answered before anything
else is looked at. -/
theorem illegalCommands : Obligations.IllegalCommands := by
  refine ⟨fun s c rest e idle next illegal => ?_, fun w => ?_, fun len s short => if_neg short⟩
  · simp [step, idle, next, illegal, State.answerIllegal, State.takeCommand, State.respond]
  · by_cases rsv : rsvOf w = 0#16
    · simpa [decode, rsv] using decodeOpcode_error_iff.symm
    · simp [decode, rsv]

open Sys2Proof Sys2Proof.Machine in
/-- Settles O5: with no command in flight a step takes the next one, and its word's command is run. -/
theorem stepRunsDecoded : Obligations.StepRunsDecoded := by
  intro s c rest i idle next legal
  simp [step, idle, next, legal, State.takeCommand, State.withData]
end

section
/-! A run with nothing scripted (logs 1 and 5), O7: every transaction takes a free value, so no action is refused
and none is left stuck, and the script stays empty. -/

namespace Sys2Proof.Machine

variable {α β σ : Type}

/-! ### Actions that answer -/

/-- Nothing is scripted and no command is in flight. -/
structure State.Unscripted (s : State) : Prop where
  ports : s.ports = {}
  idle : s.inFlight = none

/-- An early end that still answers: an error with nothing scripted after it, or a pause in a loop. -/
def Exit.Answered : Exit → State → Prop
  | .raise _, s => s.Unscripted
  | .pause f, _ => ∀ p, f ≠ .stuck p
  | .refuse _, _ => False

/-- With nothing scripted, `m` waits for nobody and is not refused, and nothing is scripted after it. -/
def Act.Answers (m : Act α) : Prop :=
  ∀ s : State, s.Unscripted → Act.wp m (fun _ s' => s'.Unscripted) Exit.Answered s

theorem answers_pure (a : α) : Act.Answers (pure a) := fun _ h => h

theorem answers_raise (e : Error) : Act.Answers (raise e : Act α) := fun _ h => h

theorem answers_getState : Act.Answers getState := fun _ h => h

theorem answers_update {f : State → State} (kept : ∀ s, (f s).ports = s.ports ∧ (f s).inFlight = s.inFlight) :
    Act.Answers (update f) := fun s h => ⟨(kept s).1.trans h.ports, (kept s).2.trans h.idle⟩

theorem answers_crcFeed (b : State → Bytes) : Act.Answers (update fun s => s.crcFeed (b s)) :=
  answers_update fun s => ⟨s.crcFeed_ports _, s.crcFeed_inFlight _⟩

theorem answers_bind {m : Act α} {f : α → Act β} (hm : m.Answers) (hf : ∀ a, (f a).Answers) : Act.Answers (m >>= f) :=
  fun s h => (Act.wp_bind m f).2 (Act.wp_mono (hm s h) (fun a s' h' => hf a s' h') fun _ _ h' => h')

theorem answers_ite {c : Prop} [Decidable c] {m n : Act α} (hm : m.Answers) (hn : n.Answers) :
    Act.Answers (if c then m else n) := by
  split <;> assumption

theorem answers_onlyIf {c : Prop} [Decidable c] {m : Act Unit} (hm : m.Answers) : Act.Answers (onlyIf c m) :=
  answers_ite hm (answers_pure ())

theorem answers_attempt {m : Act Unit} (hm : m.Answers) : Act.Answers (attempt m) := fun s h =>
  Act.wp_attempt m (Act.wp_mono (hm s h) (fun _ _ h' => h') fun x _ h' => by cases x <;> exact h')

/-- A loop that has not ended leaves its command inside it, which is not stuck. -/
theorem answers_iterate {body : σ → Act (σ ⊕ α)} {at_ : σ → InFlight} (hb : ∀ x, (body x).Answers)
    (inside : ∀ y p, at_ y ≠ .stuck p) (more : Nat) (x : σ) : Act.Answers (iterate body at_ more x) := fun _ h =>
  Act.wp_iterate (fun _ s => s.Unscripted)
    (fun x s hs => Act.wp_mono (hb x s hs) (fun r _ h' => by cases r <;> exact h') fun _ _ h' => h')
    (fun y _ _ => inside y) more x h

/-- A transaction with nothing scripted takes a free value. -/
theorem answers_transact {port : PortName} {queue : Ports → List (Reply α)} {drop : Ports → Ports} {free : Nat → α}
    {fits : α → Bool} {bad : Refusal} {log : α → Txn} (unscripted : queue {} = []) :
    Act.Answers (transact port queue drop free fits bad log) := fun s h => by
  unfold Act.wp
  rw [transact_free (h.ports ▸ unscripted)]
  exact ⟨h.ports, h.idle⟩

/-! ### The shared operations -/

theorem answers_chRead (n : Nat) : Act.Answers (chRead n) :=
  answers_bind (answers_transact rfl) fun a => by
    cases a with
    | ok b => exact answers_pure b
    | fail e => exact answers_raise _

theorem answers_chWrite (b : Bytes) : Act.Answers (chWrite b) :=
  answers_bind (answers_transact rfl) fun a => by
    cases a with
    | ok => exact answers_pure ()
    | fail e kept => exact answers_raise _

theorem answers_chFlush : Act.Answers chFlush :=
  answers_bind (answers_transact rfl) fun a => by
    cases a with
    | ok u => exact answers_pure u
    | fail e => exact answers_raise _

theorem answers_engStep (flush : FlushType) (cap : Nat) : Act.Answers (engStep flush cap) :=
  answers_bind answers_getState fun _ => answers_bind (answers_transact rfl) fun _ =>
    answers_bind (answers_update fun _ => ⟨rfl, rfl⟩) fun _ => answers_pure _

theorem answers_startEngine : Act.Answers startEngine :=
  answers_bind answers_getState fun _ => answers_bind (answers_transact rfl) fun a => by
    cases a with
    | ok u => exact answers_update fun _ => ⟨rfl, rfl⟩
    | fail msg => exact answers_raise _

theorem answers_materialise : Act.Answers materialise :=
  answers_bind answers_getState fun _ => answers_bind (answers_onlyIf answers_startEngine) fun _ =>
    answers_bind answers_getState fun _ => answers_onlyIf (answers_bind answers_getState fun _ =>
      answers_bind (answers_transact rfl) fun _ => answers_update fun _ => ⟨rfl, rfl⟩)

/-! ### The envelope -/

theorem answers_readFill (n rounds : Nat) (b : Bytes) : Act.Answers (readFill n rounds b) := by
  induction rounds generalizing b with
  | zero => exact answers_pure _
  | succ k ih =>
    exact answers_ite (answers_bind (answers_chRead _) fun _ => answers_ite (answers_pure _) (ih _)) (answers_pure _)

theorem answers_readField (place : HdrField) (n : Nat) : Act.Answers (readField place n) :=
  answers_bind (answers_readFill n n []) fun _ => answers_ite (answers_raise _) (answers_pure _)

theorem answers_hdrOpen : Act.Answers hdrOpen :=
  have checked (h : Bytes) : Act.Answers (checkFixed h) :=
    answers_ite (answers_raise _) (answers_ite (answers_raise _) (answers_pure _))
  have extra : Act.Answers skipExtra :=
    answers_bind (answers_readField _ _) fun _ => answers_bind (answers_readField _ _) fun _ => answers_pure _
  answers_bind (answers_readFill 10 10 []) fun _ =>
    answers_ite (answers_bind (answers_update fun _ => ⟨rfl, rfl⟩) fun _ => answers_pure _)
      (answers_ite (answers_raise _)
        (answers_bind (checked _) fun _ => answers_ite (answers_bind extra fun _ => answers_pure _) (answers_pure _)))

theorem answers_zstringRound (place : HdrField) (acc : Bytes) : Act.Answers (zstringRound place acc) :=
  answers_bind (answers_readField _ _) fun _ => answers_ite (answers_pure _) (answers_pure _)

theorem answers_nameField (len : Nat) (h : HdrFields) : Act.Answers (nameField len h) :=
  answers_ite (answers_bind answers_getState fun _ =>
    answers_bind (answers_iterate (answers_zstringRound _) (by nofun) _ _) fun _ => answers_pure _) (answers_pure _)

theorem answers_commentField (len : Nat) (h : HdrFields) : Act.Answers (commentField len h) :=
  answers_ite (answers_bind answers_getState fun _ =>
    answers_bind (answers_iterate (answers_zstringRound _) (by nofun) _ _) fun _ => answers_pure _) (answers_pure _)

theorem answers_hdrClose (h : HdrFields) : Act.Answers (hdrClose h) :=
  answers_ite (answers_bind (answers_readField _ _) fun _ => answers_update fun _ => ⟨rfl, rfl⟩)
    (answers_update fun _ => ⟨rfl, rfl⟩)

theorem answers_hdrFromName (len : Nat) (h : HdrFields) : Act.Answers (hdrFromName len h) :=
  answers_bind (answers_nameField len h) fun _ => answers_bind (answers_commentField len _) fun _ => answers_hdrClose _

theorem answers_hdrEmit : Act.Answers hdrEmit :=
  have timed : Act.Answers timestamp := answers_bind answers_getState fun s => by
    cases s.mtimeFixed with
    | some m => exact answers_pure m
    | none => exact answers_bind (answers_transact rfl) fun _ => answers_pure _
  answers_bind timed fun _ => answers_bind answers_getState fun _ => answers_bind (answers_chWrite _) fun _ =>
    answers_update fun _ => ⟨rfl, rfl⟩

/-! ### WRITE -/

theorem answers_pushStep (flush : FlushType) : Act.Answers (pushStep flush) :=
  answers_bind answers_getState fun _ => answers_bind (answers_engStep _ _) fun _ =>
    answers_bind (answers_update fun _ => ⟨rfl, rfl⟩) fun _ => answers_ite (answers_raise _)
      (answers_bind answers_getState fun _ => answers_bind (answers_onlyIf (answers_chWrite _)) fun _ =>
        answers_pure _)

theorem answers_writeLoop : Act.Answers writeLoop :=
  answers_bind answers_getState fun _ => answers_iterate
    (fun _ => answers_bind (answers_pushStep _) fun _ => answers_bind answers_getState fun _ =>
      answers_ite (answers_pure _) (answers_pure _)) (by nofun) _ _

theorem answers_writeBody (len : Nat) : Act.Answers (writeBody len) :=
  have first : Act.Answers enterWriter :=
    answers_bind (answers_update fun _ => ⟨rfl, rfl⟩) fun _ => answers_bind answers_getState fun _ =>
      answers_onlyIf answers_hdrEmit
  have data : Act.Answers (writeData len) := answers_ite (answers_pure _)
    (answers_bind (answers_crcFeed _) fun _ => answers_bind answers_materialise fun _ =>
      answers_bind (answers_update fun _ => ⟨rfl, rfl⟩) fun _ => answers_writeLoop)
  answers_bind answers_getState fun _ => answers_ite (answers_raise _)
    (answers_ite (answers_raise _) (answers_bind (answers_onlyIf first) fun _ => data))

/-! ### READ -/

theorem answers_readAnswer (n : Nat) : Act.Answers (readAnswer n) :=
  answers_bind answers_getState fun _ => answers_pure _

theorem answers_pullStep (flush : FlushType) (room : Nat) (w : Bytes) : Act.Answers (pullStep flush room w) :=
  answers_bind (answers_engStep _ _) fun _ => answers_bind (answers_update fun _ => ⟨rfl, rfl⟩) fun _ => answers_pure _

theorem answers_readEnd (len room : Nat) (w : Bytes) : Act.Answers (readEnd len room w) :=
  have final : Act.Answers (finalStep room w) := answers_bind answers_getState fun _ =>
    answers_ite (answers_bind (answers_pullStep _ _ _) fun _ => answers_ite (answers_raise _) (answers_pure _))
      (answers_pure _)
  answers_bind final fun _ => answers_bind (answers_crcFeed _) fun _ => answers_readAnswer _

theorem answers_readRound (len : Nat) (x : Nat × Bytes) : Act.Answers (readRound len x) :=
  have pull : Act.Answers pullChunk := answers_bind answers_getState fun _ => answers_bind (answers_chRead _) fun _ =>
    answers_update fun _ => ⟨rfl, rfl⟩
  answers_bind answers_getState fun _ => answers_bind (answers_onlyIf pull) fun _ =>
    answers_bind (answers_pullStep _ _ _) fun _ => answers_bind answers_getState fun _ =>
      answers_ite (answers_bind (answers_readAnswer _) fun _ => answers_pure _)
        (answers_ite (answers_raise _)
          (answers_ite (answers_pure _) (answers_bind (answers_readEnd _ _ _) fun _ => answers_pure _)))

theorem answers_readData (len : Nat) : Act.Answers (readData len) :=
  have loop : Act.Answers (readLoop len len []) :=
    answers_bind answers_getState fun _ => answers_iterate (answers_readRound len) (fun _ _ => by nofun) _ _
  answers_bind answers_getState fun _ => answers_ite (answers_readAnswer _)
    (answers_ite (answers_readAnswer _) (answers_bind answers_materialise fun _ => loop))

theorem answers_readParsing (len : Nat) : Act.Answers (readParsing len) :=
  answers_bind answers_hdrOpen fun h => by
    cases h with
    | none => exact answers_readAnswer _
    | some h => exact answers_bind (answers_hdrFromName _ _) fun _ => answers_readData _

theorem answers_readBody (len : Nat) : Act.Answers (readBody len) :=
  have first : Act.Answers (enterReader len) := answers_bind (answers_update fun _ => ⟨rfl, rfl⟩) fun _ =>
    answers_bind answers_getState fun _ => answers_ite (answers_readParsing _) (answers_readData _)
  answers_bind answers_getState fun _ => answers_ite (answers_raise _)
    (answers_ite (answers_raise _) (answers_ite first (answers_readData _)))

/-! ### The control commands -/

theorem answers_flushBody : Act.Answers flushBody :=
  answers_bind answers_getState fun _ => answers_ite (answers_raise _)
    (answers_bind (answers_transact rfl) fun _ => answers_pure _)

theorem answers_getlenBody : Act.Answers getlenBody :=
  answers_bind answers_getState fun _ => answers_ite (answers_raise _)
    (answers_bind (answers_transact rfl) fun _ => answers_pure _)

theorem answers_writerFinish : Act.Answers writerFinish :=
  have loop : Act.Answers finishLoop := answers_bind answers_getState fun _ => answers_iterate
    (fun _ => answers_bind (answers_pushStep _) fun _ => answers_bind answers_getState fun _ =>
      answers_ite (answers_pure _) (answers_pure _)) (by nofun) _ _
  answers_bind loop fun _ => answers_bind answers_chFlush fun _ => answers_bind answers_getState fun s =>
    answers_onlyIf (by
      cases s.cmode with
      | compress => exact answers_bind answers_getState fun _ => answers_chWrite _
      | decompress => exact answers_raise _)

theorem answers_readerFinish : Act.Answers readerFinish :=
  answers_bind answers_getState fun s => answers_onlyIf (by
    cases s.cmode with
    | compress => exact answers_raise _
    | decompress => exact answers_pure ())

theorem answers_finish : Act.Answers finish :=
  answers_bind answers_getState fun s => by
    cases s.streamMode with
    | undefined => exact answers_pure ()
    | reader => exact answers_readerFinish
    | writer => exact answers_writerFinish

theorem answers_teardown (err : Option Error) : Act.Answers (teardown err) :=
  have ended : Act.Answers endEngine := answers_bind answers_getState fun _ =>
    answers_bind (answers_transact rfl) fun _ => answers_update fun _ => ⟨rfl, rfl⟩
  have released : Act.Answers releaseBuffer :=
    answers_bind (answers_transact rfl) fun _ => answers_update fun _ => ⟨rfl, rfl⟩
  have closed : Act.Answers closeChannel := answers_bind answers_getState fun _ =>
    answers_ite (answers_pure _) (answers_bind (answers_transact rfl) fun _ => answers_pure _)
  answers_bind answers_getState fun _ => answers_bind (answers_onlyIf ended) fun _ =>
    answers_bind answers_getState fun _ => answers_bind (answers_onlyIf released) fun _ =>
      answers_bind closed fun _ => answers_bind (answers_update fun _ => ⟨rfl, rfl⟩) fun _ => answers_pure _

theorem answers_closeBody : Act.Answers closeBody :=
  answers_bind answers_getState fun _ => answers_ite (answers_pure _)
    (answers_bind (answers_attempt (answers_bind answers_getState fun _ => answers_onlyIf answers_finish)) fun _ =>
      answers_teardown _)

theorem answers_unsupported (m : Mnemonic) : Act.Answers (unsupported m) :=
  answers_bind answers_getState fun _ => answers_ite (answers_raise _) (answers_raise _)

theorem answers_rdstatBody (sel : Byte) : Act.Answers (rdstatBody sel) :=
  answers_bind answers_getState fun s => by
    cases statReg sel with
    | some r => exact answers_pure _
    | none => exact answers_raise _

/-! ### Whole commands -/

/-- A command whose pseudocode answers gives a next state and is stuck nowhere. -/
theorem Act.Answers.runs {body : Act Response} (h : body.Answers) (buffer : State → Option Bytes) {s : State}
    (hs : s.Unscripted) : ∃ t, runCommand buffer body s = .next t ∧ ∀ p, ¬t.StuckOn p := by
  have idle {s' : State} (hs : s'.Unscripted) (r : Response) (p : PortName) : ¬(s'.respond r).StuckOn p := fun stuck =>
    nomatch hs.idle.symm.trans stuck
  have ends := h s hs
  simp only [runCommand, hs.idle]
  unfold Act.wp at ends
  cases run : body s with
  | ok r s' =>
    rw [run] at ends
    exact ⟨_, rfl, idle ends r⟩
  | error x s' =>
    rw [run] at ends
    cases x with
    | raise e => exact ⟨_, rfl, idle ends _⟩
    | pause f => exact ⟨_, rfl, fun p stuck => ends p (Option.some.inj stuck)⟩
    | refuse r => exact ends.elim

end Sys2Proof.Machine

open Sys2Proof Sys2Proof.Machine in
/-- Settles O7: no transaction of any command's pseudocode is refused or left stuck, since each takes a free value. -/
theorem everyCommandAnswers : Obligations.EveryCommandAnswers := by
  intro i s idle ports fits
  have unscripted : s.Unscripted := ⟨ports, idle⟩
  cases i with
  | write len =>
    have run : exec (.write len) s = runCommand noBuffer (writeBody len.toNat) s := if_pos (fits len (.inl rfl))
    exact run ▸ (answers_writeBody _).runs _ unscripted
  | read len =>
    have run : exec (.read len) s = runCommand callerBuffer (readBody len.toNat) s := if_pos (fits len (.inr rfl))
    exact run ▸ (answers_readBody _).runs _ unscripted
  | flush => exact answers_flushBody.runs _ unscripted
  | close => exact answers_closeBody.runs _ unscripted
  | seek offset origin => exact (answers_ite (answers_unsupported _) (answers_raise _)).runs _ unscripted
  | getpos => exact (answers_unsupported _).runs _ unscripted
  | setpos value => exact (answers_unsupported _).runs _ unscripted
  | setlen value => exact (answers_unsupported _).runs _ unscripted
  | getlen => exact answers_getlenBody.runs _ unscripted
  | rdstat sel => exact (answers_rdstatBody sel).runs _ unscripted
end

section
/-! A header parse whose channel answers are known (40_envelope.md R160 to R169), O52: each part of the parse draws its
bytes, whatever the chunks a ChRead may answer, and answers what they spell. -/

namespace Sys2Proof.Machine

variable {α β : Type}

/-! ### Actions that only draw -/

/-- A run of channel reads that all succeeded and drew the bytes `b` between them. -/
structure DrawRun (ts : List Txn) (b : Bytes) : Prop where
  reads : ∀ t ∈ ts, ∃ n c, t = .chRead n (.ok c)
  bytes : drawn ts = b

theorem DrawRun.nil : DrawRun [] [] := ⟨by simp, rfl⟩

theorem DrawRun.one (n : Nat) (b : Bytes) : DrawRun [.chRead n (.ok b)] b :=
  ⟨by simp, by simp [Txn.drawn]⟩

theorem DrawRun.append {ts us : List Txn} {b c : Bytes} (h : DrawRun ts b) (k : DrawRun us c) :
    DrawRun (ts ++ us) (b ++ c) :=
  ⟨fun t ht => (List.mem_append.1 ht).elim (h.reads t) (k.reads t), by rw [drawn_append, h.bytes, k.bytes]⟩

/-- The channel's script begins with these chunks, and then goes on with `q`. -/
abbrev State.Offers (s : State) (chunks : List Bytes) (q : List (Reply (Answer Bytes))) : Prop :=
  s.ports.chRead = chunks.map (fun b => .answer (.ok b)) ++ q

/-- The state once the script has come down to `q`, with `ts` on record. -/
abbrev State.drawnTo (s : State) (q : List (Reply (Answer Bytes))) (ts : List Txn) : State :=
  s.exchangedAll { s.ports with chRead := q } s.draws ts

/-- `m` draws these chunks, then does `g` and answers `a`. -/
def Act.Draws (m : Act α) (chunks : List Bytes) (a : α) (g : State → State := id) : Prop :=
  ∀ s q, s.Offers chunks q → ∃ ts, DrawRun ts chunks.flatten ∧ m s = .ok a (g (s.drawnTo q ts))

/-- Nothing drawn is nothing done. -/
theorem drawnTo_nil {s : State} {q : List (Reply (Answer Bytes))} (offers : s.Offers [] q) : s.drawnTo q [] = s := by
  have script : s.ports.chRead = q := offers
  subst script
  exact s.exchangedAll_nil

theorem draws_update (g : State → State) : Act.Draws (update g) [] () g := fun s q offers =>
  ⟨[], .nil, by rw [drawnTo_nil offers, update_run]⟩

theorem draws_pure (a : α) : Act.Draws (pure a) [] a := fun s q offers =>
  ⟨[], .nil, by rw [drawnTo_nil offers, pure_run, id]⟩

/-- How `m` runs before an action `f a` that draws the rest. -/
theorem Act.Draws.run_bind {m : Act α} {chunks rest : List Bytes} {a : α} (hm : m.Draws chunks a) {s : State}
    {q : List (Reply (Answer Bytes))} (offers : s.Offers (chunks ++ rest) q) :
    ∃ ts q', DrawRun ts chunks.flatten ∧ (s.drawnTo q' ts).Offers rest q ∧
      ∀ {β : Type} (f : α → Act β), (m >>= f) s = f a (s.drawnTo q' ts) := by
  obtain ⟨ts, run, first⟩ := hm s (rest.map (fun b => .answer (.ok b)) ++ q) (by
    simpa [State.Offers] using offers)
  exact ⟨ts, _, run, rfl, fun f => by rw [bind_run, first]; rfl⟩

theorem draws_bind {m : Act α} {f : α → Act β} {chunks rest : List Bytes} {a : α} {b : β} {g : State → State}
    (hm : m.Draws chunks a) (hf : (f a).Draws rest b g) : Act.Draws (m >>= f) (chunks ++ rest) b g :=
  fun s q offers => by
    obtain ⟨ts, q', run, left, first⟩ := hm.run_bind offers
    obtain ⟨us, run', second⟩ := hf _ q left
    refine ⟨ts ++ us, by simpa using run.append run', ?_⟩
    rw [first, second, State.drawnTo, State.exchangedAll_exchangedAll]
    rfl

/-- What follows draws nothing. -/
theorem draws_then {m : Act α} {f : α → Act β} {chunks : List Bytes} {a : α} {b : β} {g : State → State}
    (hm : m.Draws chunks a) (hf : (f a).Draws [] b g) : Act.Draws (m >>= f) chunks b g :=
  chunks.append_nil ▸ draws_bind hm hf

theorem draws_chRead {n : Nat} {b : Bytes} (short : b.length ≤ n) : Act.Draws (chRead n) [b] b := fun s q offers =>
  ⟨[.chRead n (.ok b)], by simpa using DrawRun.one n b, chRead_run offers short⟩

/-! ### ReadExact and ReadZString (R161) -/

/-- The bytes one a chunk. -/
abbrev singles (b : Bytes) : List Bytes := b.map fun x => [x]

@[simp] theorem singles_flatten (b : Bytes) : (singles b).flatten = b := by
  induction b with
  | nil => rfl
  | cons x b ih => simpa using ih

/-- The loop of ReadExact from the bytes `b` got so far. -/
theorem readFill_draws {n rounds : Nat} {b : Bytes} {chunks : List Bytes} (some : ∀ k ∈ chunks, k ≠ [])
    (exact : (b ++ chunks.flatten).length = n) (enough : n ≤ b.length + rounds) :
    Act.Draws (readFill n rounds b) chunks (b ++ chunks.flatten, .ok) := by
  induction chunks generalizing b rounds with
  | nil =>
    have full : b.length = n := by simpa using exact
    have ends : readFill n rounds b = pure (b, .ok) := by cases rounds <;> simp [readFill, full]
    simpa [ends] using draws_pure (b, Fill.ok)
  | cons k ks ih =>
    obtain ⟨first, later⟩ := List.forall_mem_cons.1 some
    have pos := List.length_pos_iff.2 first
    simp only [List.flatten_cons, List.length_append] at exact
    cases rounds with
    | zero => omega
    | succ rounds =>
      have next := ih (b := b ++ k) (rounds := rounds) later (by simp only [List.length_append]; omega)
        (by simp only [List.length_append]; omega)
      rw [readFill, if_pos (by omega)]
      refine draws_bind (chunks := [k]) (draws_chRead (by omega)) ?_
      simpa [first] using next

theorem readExact_draws {n : Nat} {chunks : List Bytes} (some : ∀ k ∈ chunks, k ≠ [])
    (exact : chunks.flatten.length = n) : Act.Draws (readExact n) chunks (chunks.flatten, .ok) :=
  readFill_draws (b := []) some exact (by simp)

theorem readField_draws (place : HdrField) {n : Nat} {b : Bytes} (exact : b.length = n) :
    Act.Draws (readField place n) (singles b) b := by
  have read := readExact_draws (n := n) (chunks := singles b) (by simp) (by simpa using exact)
  rw [singles_flatten] at read
  exact draws_then read (draws_pure b)

theorem zstringRound_draws (place : HdrField) (acc : Bytes) (b : Byte) :
    Act.Draws (zstringRound place acc) [[b]] (if b = 0 then .inr acc else .inl (acc ++ [b])) := by
  refine draws_then (readField_draws place (b := [b]) rfl) ?_
  by_cases ends : b = 0#8
  · simpa [byteAt, ends] using draws_pure _
  · simpa [byteAt, ends] using draws_pure _

/-- A string that its terminator ends, with a round in the step for each of its bytes. -/
theorem zstring_draws (place : HdrField) (at_ : Bytes → InFlight) {str : Bytes} (text : ∀ b ∈ str, b ≠ 0) {more : Nat}
    (enough : str.length ≤ more) (acc : Bytes) :
    Act.Draws (iterate (zstringRound place) at_ more acc) (singles (str ++ [0])) (acc ++ str) := by
  induction str generalizing more acc with
  | nil =>
    have round := zstringRound_draws place acc 0
    cases more with
    | zero => exact draws_then round (by simpa using draws_pure acc)
    | succ more => exact draws_then round (by simpa using draws_pure acc)
  | cons b str ih =>
    obtain ⟨more, rfl⟩ := Nat.exists_eq_add_of_le' (Nat.le_of_add_left_le enough)
    have enough : str.length ≤ more := Nat.le_of_succ_le_succ enough
    obtain ⟨first, later⟩ := List.forall_mem_cons.1 text
    have round := zstringRound_draws place acc b
    rw [if_neg first] at round
    refine draws_bind (chunks := [[b]]) round ?_
    simpa using ih later enough (acc ++ [b])

/-- The rounds of a step are as many as its script has answers, so those drawn are among them (log 4). -/
theorem draws_rounds {f : Nat → Act α} {chunks : List Bytes} {a : α}
    (h : ∀ more, chunks.length ≤ more + 1 → (f more).Draws chunks a) :
    Act.Draws (do let s ← getState; f (roundsOf s.ports.chRead)) chunks a := fun s q offers => by
  have script : s.ports.chRead.length = chunks.length + q.length := by
    rw [show s.ports.chRead = _ from offers, List.length_append, List.length_map]
  exact h _ (by rw [roundsOf]; omega) s q offers

/-! ### Numbers of the wire (00_scope.md R12) -/

theorem le16_toNat {n : Nat} (small : n < 65536) :
    (le16 (BitVec.ofNat 8 (n % 256)) (BitVec.ofNat 8 (n / 256))).toNat = n := by
  have join : n % 256 ||| n / 256 * 256 = n := by
    rw [Nat.or_comm, Nat.mul_comm, ← Nat.two_pow_add_eq_or_of_lt (i := 8) (Nat.mod_lt n (by decide))]
    exact Nat.div_add_mod n 256
  have low : n % 256 % 65536 = n % 256 := by omega
  have high : n / 256 % 256 * 256 % 65536 = n / 256 * 256 := by omega
  simpa [le16, Nat.shiftLeft_eq, low, high] using join

theorem le32_toLE32 (v : U32) :
    le32 (v.extractLsb' 0 8) (v.extractLsb' 8 8) (v.extractLsb' 16 8) (v.extractLsb' 24 8) = v := by
  grind [le32]

/-! ### The flags of a header (30_encoding.md R124) -/

theorem maskIf_getElem (present : Bool) (mask : Byte) (i : Nat) (h : i < 8) :
    (maskIf present mask)[i] = (present && mask[i]) := by
  cases present <;> simp [maskIf]

theorem flgFhcrc_flg (h : WireHeader) : flgFhcrc h.flg = h.hcrc.isSome := by
  simp [flgFhcrc, WireHeader.flg, maskIf_getElem]

theorem flgFextra_flg (h : WireHeader) : flgFextra h.flg = h.extra.isSome := by
  simp [flgFextra, WireHeader.flg, maskIf_getElem]

theorem flgFname_flg (h : WireHeader) : flgFname h.flg = h.name.isSome := by
  simp [flgFname, WireHeader.flg, maskIf_getElem]

theorem flgFcomment_flg (h : WireHeader) : flgFcomment h.flg = h.comment.isSome := by
  simp [flgFcomment, WireHeader.flg, maskIf_getElem]

/-! ### The fields of a header on the wire (30_encoding.md R121, R126) -/

/-- FEXTRA: its length, then its bytes. -/
def extraWire : Option Bytes → Bytes
  | none => []
  | some x => [BitVec.ofNat 8 (x.length % 256), BitVec.ofNat 8 (x.length / 256)] ++ x

/-- FNAME or FCOMMENT: its bytes, then 0x00. -/
def textWire : Option Bytes → Bytes
  | none => []
  | some b => b ++ [0]

/-- FHCRC. -/
def hcrcWire : Option (Byte × Byte) → Bytes
  | none => []
  | some (a, b) => [a, b]

/-- The ten bytes before the optional fields. -/
def WireHeader.fixed (h : WireHeader) : Bytes := [0x1F, 0x8B, 0x08, h.flg] ++ toLE32 h.mtime ++ [h.xfl, h.os]

theorem WireHeader.optional_eq (h : WireHeader) :
    h.optional = extraWire h.extra ++ textWire h.name ++ textWire h.comment ++ hcrcWire h.hcrc := rfl

theorem WireHeader.wire_eq (h : WireHeader) :
    h.wire = h.fixed ++ (extraWire h.extra ++ (textWire h.name ++ (textWire h.comment ++ hcrcWire h.hcrc))) := by
  simp only [WireHeader.wire, WireHeader.optional_eq, WireHeader.fixed, List.append_assoc]

/-- A field's size, its framing counted first. -/
theorem fieldSize_comm (more : Nat) (b : Option Bytes) :
    fieldSize more b = match b with
      | none => 0
      | some b => more + b.length := by
  cases b with
  | none => rfl
  | some b => exact Nat.add_comm _ _

theorem extraWire_length (x : Option Bytes) : (extraWire x).length = fieldSize 2 x := by
  cases x <;> simp [extraWire, fieldSize]

theorem textWire_length (b : Option Bytes) : (textWire b).length = fieldSize 1 b := by
  cases b <;> simp [textWire, fieldSize]

theorem hcrcWire_length (c : Option (Byte × Byte)) : (hcrcWire c).length = if c.isSome then 2 else 0 := by
  cases c <;> rfl

/-- What the parse holds of a header once it has read the fixed part and FEXTRA. -/
def WireHeader.opened (h : WireHeader) : HdrFields where
  flg := h.flg
  mtime := h.mtime
  total := 10 + fieldSize 2 h.extra
  name := none
  comment := none

/-- What it holds of the whole header (R169). -/
def WireHeader.parsed (h : WireHeader) : HdrFields where
  flg := h.flg
  mtime := h.mtime
  total := h.wire.length
  name := h.name
  comment := h.comment

theorem WireHeader.wf_iff (h : WireHeader) :
    h.wf = true ↔ (∀ x ∈ h.extra, x.length < 65536) ∧ (∀ n ∈ h.name, ∀ b ∈ n, b ≠ 0) ∧
      ∀ c ∈ h.comment, ∀ b ∈ c, b ≠ 0 := by
  simp [WireHeader.wf, Option.all_eq_true, and_assoc]

/-! ### The parts of the parse -/

theorem skipExtra_draws {x : Bytes} (small : x.length < 65536) :
    Act.Draws skipExtra (singles (extraWire (some x))) (2 + x.length) := by
  rw [extraWire, singles, List.map_append]
  refine draws_bind (readField_draws .fextraLen rfl) ?_
  simp only [byteAt, List.getD_cons_zero, List.getD_cons_succ, le16_toNat small]
  exact draws_then (readField_draws .fextraData rfl) (draws_pure _)

/-- The checks of the fixed header hold, and it gives the parse its flags and timestamp (R163). -/
theorem fixedFields_fixed (h : WireHeader) :
    fixedFields h.fixed = { flg := h.flg, mtime := h.mtime, total := 10, name := none, comment := none } := by
  simp [fixedFields, WireHeader.fixed, byteAt, toLE32, le32_toLE32]

theorem checkFixed_fixed (h : WireHeader) : checkFixed h.fixed = pure () := by
  simp [checkFixed, WireHeader.fixed, byteAt]

theorem fixed_length (h : WireHeader) : h.fixed.length = 10 := by
  simp [WireHeader.fixed, toLE32]

theorem hdrFixed_draws {h : WireHeader} (wf : h.wf = true) :
    Act.Draws (hdrFixed h.fixed) (singles (extraWire h.extra)) (some h.opened) := by
  obtain ⟨small, -, -⟩ := h.wf_iff.1 wf
  have ten := fixed_length h
  have nonempty : h.fixed ≠ [] := List.ne_nil_of_length_pos (by omega)
  have flag := flgFextra_flg h
  rw [hdrFixed, if_neg nonempty, if_neg (by omega), checkFixed_fixed, fixedFields_fixed]
  refine draws_bind (chunks := []) (draws_pure ()) ?_
  cases extra : h.extra with
  | none =>
    have opened := draws_pure (some h.opened)
    simpa [flag, extra, extraWire, WireHeader.opened, fieldSize] using opened
  | some x =>
    simp only [flag, extra, Option.isSome_some, if_true]
    refine draws_then (skipExtra_draws (small x extra)) ?_
    simpa [WireHeader.opened, extra, fieldSize, Nat.add_comm] using draws_pure (some h.opened)

theorem hdrOpen_draws {h : WireHeader} (wf : h.wf = true) :
    Act.Draws hdrOpen (singles (h.fixed ++ extraWire h.extra)) (some h.opened) := by
  have read := readExact_draws (n := 10) (chunks := singles h.fixed) (by simp) (by simpa using fixed_length h)
  rw [singles_flatten] at read
  rw [singles, List.map_append]
  exact draws_bind read (hdrFixed_draws wf)

/-- A string of a header read whole, where the rest of its field's work draws nothing. -/
theorem string_draws (place : HdrField) (at_ : Bytes → InFlight) {str : Bytes} (text : ∀ b ∈ str, b ≠ 0)
    {f : Bytes → Act α} {a : α} (rest : f str = pure a) :
    Act.Draws (do
      let s ← getState
      let b ← iterate (zstringRound place) at_ (roundsOf s.ports.chRead) []
      f b) (singles (textWire (some str))) a :=
  draws_rounds (f := fun more => iterate (zstringRound place) at_ more [] >>= f) fun more enough =>
    draws_then (zstring_draws place at_ text (by simpa [textWire] using enough) []) (rest ▸ draws_pure a)

theorem nameField_draws (len : Nat) {f : HdrFields} {name : Option Bytes} (flag : flgFname f.flg = name.isSome)
    (fresh : f.name = none) (text : ∀ n ∈ name, ∀ b ∈ n, b ≠ 0) :
    Act.Draws (nameField len f) (singles (textWire name))
      { f with name := name, total := f.total + fieldSize 1 name } := by
  cases name with
  | none =>
    have unread : nameField len f = pure { f with name := none } := by simp [nameField, flag, ← fresh]
    exact unread ▸ draws_pure _
  | some n =>
    have read : nameField len f = readName len f [] := if_pos flag
    exact read ▸ string_draws .fname _ (text n rfl) rfl

theorem commentField_draws (len : Nat) {f : HdrFields} {comment : Option Bytes}
    (flag : flgFcomment f.flg = comment.isSome) (fresh : f.comment = none) (text : ∀ c ∈ comment, ∀ b ∈ c, b ≠ 0) :
    Act.Draws (commentField len f) (singles (textWire comment))
      { f with comment := comment, total := f.total + fieldSize 1 comment } := by
  cases comment with
  | none =>
    have unread : commentField len f = pure { f with comment := none } := by simp [commentField, flag, ← fresh]
    exact unread ▸ draws_pure _
  | some c =>
    have read : commentField len f = readComment len f [] := if_pos flag
    exact read ▸ string_draws .fcomment _ (text c rfl) rfl

/-- FHCRC is drawn and discarded, then the registers are written (R168, R169). -/
theorem hdrClose_draws {f : HdrFields} {c : Option (Byte × Byte)} (flag : flgFhcrc f.flg = c.isSome) :
    Act.Draws (hdrClose f) (singles (hcrcWire c)) ()
      (·.hdrParsed { f with total := f.total + if c.isSome then 2 else 0 }) := by
  cases c with
  | none =>
    have undue : hdrClose f = update (·.hdrParsed f) := by simp [hdrClose, flag]
    exact undue ▸ draws_update _
  | some c =>
    have due : hdrClose f = (do
        let _ ← readField .fhcrc 2
        update (·.hdrParsed { f with total := f.total + 2 })) := if_pos flag
    exact due ▸ draws_then (readField_draws .fhcrc rfl) (draws_update _)

/-- Each field of the header counts its bytes, and they are all of its bytes (R127). -/
theorem WireHeader.wire_length (h : WireHeader) :
    h.wire.length = h.opened.total + fieldSize 1 h.name + fieldSize 1 h.comment + if h.hcrc.isSome then 2 else 0 := by
  simp only [h.wire_eq, List.length_append, fixed_length, extraWire_length, textWire_length, hcrcWire_length,
    WireHeader.opened, Nat.add_assoc]

/-- The strings and FHCRC, and the registers of the whole header. -/
theorem hdrFromName_draws {h : WireHeader} (wf : h.wf = true) (len : Nat) :
    Act.Draws (hdrFromName len h.opened) (singles (textWire h.name ++ (textWire h.comment ++ hcrcWire h.hcrc))) ()
      (·.hdrParsed h.parsed) := by
  obtain ⟨-, name, comment⟩ := h.wf_iff.1 wf
  simp only [singles, List.map_append, WireHeader.parsed, WireHeader.wire_length]
  exact draws_bind (nameField_draws len (flgFname_flg h) rfl name)
    (draws_bind (commentField_draws len (flgFcomment_flg h) rfl comment) (hdrClose_draws (flgFhcrc_flg h)))

/-- The header parse of a READ draws the header, writes its registers, and the READ goes on (42_read.md R221). -/
theorem readParsing_run {h : WireHeader} (wf : h.wf = true) (len : Nat) {s : State} {q : List (Reply (Answer Bytes))}
    (offers : s.Offers (singles h.wire) q) :
    ∃ ts, DrawRun ts h.wire ∧ readParsing len s = readData len ((s.drawnTo q ts).hdrParsed h.parsed) := by
  rw [h.wire_eq, ← List.append_assoc, singles, List.map_append] at offers
  obtain ⟨ts, q', run, left, opened⟩ := (hdrOpen_draws wf).run_bind offers
  obtain ⟨us, run', parsed⟩ := hdrFromName_draws wf len _ q left
  refine ⟨ts ++ us, ?_, ?_⟩
  · rw [h.wire_eq, ← List.append_assoc]
    simpa using run.append run'
  · rw [readParsing, opened]
    simp only [bind_run, parsed]
    rw [State.drawnTo, State.exchangedAll_exchangedAll]
    rfl

/-- The first READ of a decompressing Gzip adapter enters Reader mode and parses the header (R221). -/
theorem readBody_parsing {s : State} (opened : s.disposed = false) (fresh : s.streamMode = .undefined)
    (gzip : s.flavor = .gzip) (decompress : s.cmode = .decompress) (n : Nat) :
    readBody n s = readParsing n (s.setMode .reader) := by
  simp [readBody, opened, fresh, enterReader, gzip, decompress]

/-- It goes on as a READ on the Reader that the parse leaves (R221, R224). -/
theorem execRead_parsed {s : State} {h : WireHeader} {q : List (Reply (Answer Bytes))} (idle : s.inFlight = none)
    (opened : s.disposed = false) (fresh : s.streamMode = .undefined) (gzip : s.flavor = .gzip)
    (decompress : s.cmode = .decompress) (wf : h.wf = true) (offers : s.Offers (singles h.wire) q) {len : U32}
    (fits : s.caller.length = len.toNat) :
    ∃ ts, DrawRun ts h.wire ∧
      exec (.read len) s = exec (.read len) (((s.setMode .reader).drawnTo q ts).hdrParsed h.parsed) := by
  obtain ⟨ts, run, parsed⟩ := readParsing_run wf len.toNat (s := s.setMode .reader) offers
  refine ⟨ts, run, ?_⟩
  rw [execRead_eq idle fits, execRead_eq (s := ((s.setMode .reader).drawnTo q ts).hdrParsed h.parsed) idle fits,
    readBody_parsing opened fresh gzip decompress, parsed, readBody_of_reader (by exact opened) rfl]

/-- A READ of no bytes on a Reader answers at once (R222, R223). -/
theorem execRead_zero {s : State} (idle : s.inFlight = none) (opened : s.disposed = false)
    (reader : s.streamMode = .reader) (none : s.caller = []) :
    exec (.read 0) s = .next (s.respond (.ok (.read 0 []))) := by
  rw [execRead_eq idle (by simp [none]), readBody_of_reader opened reader]
  simp [readData, readAnswer, none, settle]

end Sys2Proof.Machine

open Sys2Proof Sys2Proof.Machine in
/-- Settles O52: each field of the header draws its own bytes, FHCRC writes the registers, and the READ goes on. -/
theorem headerParse : Obligations.HeaderParse := by
  intro s h q idle opened fresh gzip decompress wf script
  have offers : s.Offers (singles h.wire) q := by simpa [State.Offers, Function.comp_def] using script
  refine ⟨fun none => ?_, fun len fits => ?_⟩
  · obtain ⟨ts, run, parsed⟩ := execRead_parsed (len := 0) idle opened fresh gzip decompress wf offers (by simp [none])
    refine ⟨_, parsed.trans (execRead_zero idle opened rfl none), idle, rfl, rfl, rfl, rfl, rfl, rfl, rfl, rfl,
      h.wire_length.trans ?_, rfl, ?_⟩
    · rw [WireHeader.opened, fieldSize_comm 2]
      rfl
    · simp [run.bytes]
  · obtain ⟨ts, run, parsed⟩ := execRead_parsed idle opened fresh gzip decompress wf offers fits
    exact ⟨ts, run.bytes, run.reads, parsed⟩
end

section
/-! The bytes a header parse draws (40_envelope.md R161, R169), O18: inside the parse they are the bytes it has taken,
after it HDR_BYTES counts them, and no other draw happens before the engine is live. -/

namespace Sys2Proof.Machine

variable {s : State}

/-! ### What is drawn, between two transactions -/

/-- `DrawnInv` of a CLOSE past the end of the engine: payload bytes may have been drawn too. -/
def State.Covered (s : State) : Prop :=
  (s.streamMode = .undefined → drawn s.trace = []) ∧ (s.hdrState = .parsed → s.hdrBytes ≤ (drawn s.trace).length) ∧
  (s.hdrState = .empty → drawn s.trace = [])

/-- `DrawnInv` inside any other command: before the engine is live HDR_BYTES is all that was drawn. -/
def State.Counted (s : State) : Prop :=
  s.Covered ∧ (s.hdrState = .parsed → s.engLive = false → s.disposed = false → s.hdrBytes = (drawn s.trace).length)

theorem State.Counted.drawnInv (h : s.Counted) (flight : s.inFlight.all (InFlight.counted s) = true) : s.DrawnInv := by
  obtain ⟨⟨fresh, parsed, empty⟩, exact⟩ := h
  exact ⟨fresh, flight, fun p => ⟨parsed p, fun off opened _ => exact p off opened⟩, empty⟩

theorem State.Counted.drawnInv_idle (h : s.Counted) (idle : s.inFlight = none) : s.DrawnInv :=
  h.drawnInv (by simp [idle])

/-- A command left in flight, its parse, if it is in one, having counted what it drew. -/
theorem State.Counted.paused (h : s.Counted) (f : InFlight) (counted : InFlight.counted s f = true) :
    (s.paused f).DrawnInv :=
  State.Counted.drawnInv (s := s.paused f) h (by cases f <;> exact counted)

theorem State.DrawnInv.counted (h : s.DrawnInv) (whole : ¬s.HalfTorn) : s.Counted := by
  obtain ⟨fresh, -, parsed, empty⟩ := h
  exact ⟨⟨fresh, fun p => (parsed p).1, empty⟩, fun p off opened => (parsed p).2 off opened whole⟩

/-- Going on with a command that is not stuck. -/
theorem State.DrawnInv.resumed (h : s.DrawnInv) {f : InFlight} (flight : s.inFlight = some f)
    (unstuck : ∀ p, f ≠ .stuck p) : s.resumed.Counted := by
  have whole : ¬s.HalfTorn := by simp [State.HalfTorn, flight, unstuck]
  exact h.counted whole

/-- What the invariant says of a command in flight. -/
theorem State.DrawnInv.flight (h : s.DrawnInv) {f : InFlight} (flight : s.inFlight = some f) :
    InFlight.counted s f = true := by
  obtain ⟨-, counted, -⟩ := h
  simpa [flight] using counted

theorem State.Covered.exchanged (h : s.Covered) (p : Ports) (d : Nat) {t : Txn} (none : t.drawn = []) :
    (s.exchanged p d t).Covered := by
  simpa [State.Covered, none] using h

/-- A transaction that draws nothing. -/
theorem State.Counted.exchanged (h : s.Counted) (p : Ports) (d : Nat) {t : Txn} (none : t.drawn = []) :
    (s.exchanged p d t).Counted :=
  ⟨h.1.exchanged p d none, by simpa [none] using h.2⟩

/-- The engine coming to life. -/
theorem State.Counted.setEngLive (h : s.Counted) : (s.setEngLive true).Counted := ⟨h.1, fun _ off => by cases off⟩

theorem State.Counted.setMode (h : s.Counted) {m : StreamMode} (direction : m ≠ .undefined) : (s.setMode m).Counted := by
  obtain ⟨⟨-, parsed, empty⟩, exact⟩ := h
  exact ⟨⟨fun e => absurd e direction, parsed, empty⟩, exact⟩

/-- A Writer has parsed no header. -/
theorem counted_of_writer (header : s.HeaderInv) (writer : s.streamMode = .writer) : s.Counted := by
  obtain ⟨-, parsed, -, empty⟩ := header
  have unparsed : s.hdrState ≠ .parsed := by simpa [writer] using parsed
  have stream : s.hdrState ≠ .empty := by simpa [writer] using empty
  simp [State.Counted, State.Covered, writer, unparsed, stream]

theorem State.Between.counted_of_writer (h : s.Between) (writer : s.streamMode = .writer) : s.Counted := by
  obtain ⟨⟨-, -, -, -, header⟩, -⟩ := h
  exact Machine.counted_of_writer header writer

theorem State.Inv.drawnInv_of_writer (h : s.Inv) (writer : s.streamMode = .writer)
    (flight : s.inFlight.all (InFlight.counted s) = true) : s.DrawnInv := by
  obtain ⟨-, -, -, -, header, -⟩ := h
  exact (Machine.counted_of_writer header writer).drawnInv flight

theorem State.Writing.counted (h : s.Writing) : s.Counted := h.between.counted_of_writer h.2.1

theorem State.Pushing.counted (h : s.Pushing) : s.Counted := h.1.counted

variable {len : Nat}

/-- Inside a parse the header registers say nothing yet. -/
theorem State.Parsing.counted (h : s.Parsing len) : s.Counted := by
  have reader := h.reader
  obtain ⟨-, -, -, unparsed, -⟩ := h
  simp [State.Counted, State.Covered, reader, unparsed]

/-- The header registers after a parse that took what it drew (R169). -/
theorem State.Parsing.counted_parsed {hd : HdrFields} (h : s.Parsing len) (took : (drawn s.trace).length = hd.total) :
    (s.hdrParsed hd).Counted := by
  simp [State.Counted, State.Covered, h.reader, took]

/-- A live engine has a stream. -/
theorem State.Pulling.stream {room : Nat} {w : Bytes} (h : s.Pulling len room w) : s.hdrState ≠ .empty := by
  have live := h.live
  obtain ⟨⟨-, -, -, -, -, -, -, empty⟩, -⟩ := h.between
  intro e
  simp [(empty e).2.2.2.2] at live

/-- With the engine live anything may be drawn. -/
theorem State.Pulling.counted_drew {room : Nat} {w : Bytes} (h : s.Pulling len room w) (counted : s.Counted) (p : Ports)
    (d : Nat) (t : Txn) : (s.exchanged p d t).Counted := by
  obtain ⟨⟨-, parsed, -⟩, -⟩ := counted
  have stream := h.stream
  refine ⟨⟨by simp [h.reader], fun e => (parsed e).trans (by simp), fun e => absurd e stream⟩, fun _ off => ?_⟩
  simp [h.live] at off

/-! ### Phase by phase -/

/-- What was drawn, along with the invariant; a WRITE draws nothing. -/
theorem drawn_phases : Phases (fun s => s.Inv ∧ s.DrawnInv) (fun s => s.Between ∧ s.Counted) State.Writing State.Pushing
    (fun s => s.Tearing ∧ s.Counted) (fun s => s.Closing ∧ s.Covered)
    (fun len n s => s.Parsing len ∧ (drawn s.trace).length = n) (fun len s => s.Reading len ∧ s.Counted)
    (fun len room w s => s.Pulling len room w ∧ s.Counted) :=
  have base := inv_phases
  {
    start s h none := ⟨base.start s h.1 none, h.2.counted (by simp [none])⟩
    rest s h := ⟨base.rest s h.1, h.2.drawnInv_idle h.1.idle⟩
    take _ _ h := h
    data _ _ h := h
    answer s r h quiet := ⟨base.answer s r h.1 quiet, State.Counted.drawnInv_idle (s := s.respond r) h.2 h.1.idle⟩
    flush s p d a h _ := ⟨h.1, h.2.exchanged p d rfl⟩
    length s p d a h _ := ⟨h.1, h.2.exchanged p d rfl⟩
    stuckFlush s h opened := ⟨base.stuckFlush s h.1 opened, h.2.paused _ rfl⟩
    stuckLength s h opened := ⟨base.stuckLength s h.1 opened, h.2.paused _ rfl⟩
    -- WRITE
    enterWriter s h := base.enterWriter s h.1
    emitted s m p d h := base.emitted s m p d h.1
    emitFailed s m p d e k h opened fresh gzip compress fixed short :=
      have failed := base.emitFailed s m p d e k h.1 opened fresh gzip compress fixed short
      ⟨failed, failed.counted_of_writer rfl⟩
    timed s t p d p' d' h := base.timed s t p d p' d' h.1
    timedFailed s t p d p' d' e k h opened fresh gzip compress free short :=
      have failed := base.timedFailed s t p d p' d' e k h.1 opened fresh gzip compress free short
      ⟨failed, failed.counted_of_writer rfl⟩
    stuckEmit s m h opened fresh gzip compress fixed :=
      have stuck := base.stuckEmit s m h.1 opened fresh gzip compress fixed
      ⟨stuck, stuck.drawnInv_of_writer rfl rfl⟩
    stuckClock s h opened fresh gzip compress free :=
      have stuck := base.stuckClock s h.1 opened fresh gzip compress free
      ⟨stuck, stuck.drawnInv_of_writer rfl rfl⟩
    stuckTimed s t p d h opened fresh gzip compress free :=
      have stuck := base.stuckTimed s t p d h.1 opened fresh gzip compress free
      ⟨stuck, stuck.drawnInv_of_writer rfl rfl⟩
    stayWriter s h := base.stayWriter s h.1
    written s h := ⟨base.written s h, h.counted⟩
    feed := base.feed
    togetherW := base.togetherW
    initFailedW s p d msg h off := ⟨base.initFailedW s p d msg h off, h.counted.exchanged p d rfl⟩
    startedW := base.startedW
    stuckInitW s h off := ⟨base.stuckInitW s h off, h.counted.paused _ rfl⟩
    stuckLeaseW s p d u h off :=
      ⟨base.stuckLeaseW s p d u h off, (h.counted.exchanged p d (t := .engInit _ _ _ (.ok u)) rfl).setEngLive.paused _ rfl⟩
    loaded := base.loaded
    pushFailed s flush p d a h fits bad :=
      have ⟨failed, tearing⟩ := base.pushFailed s flush p d a h fits bad
      have counted := failed.counted_of_writer h.writer
      ⟨⟨failed, counted⟩, tearing, counted⟩
    quiet := base.quiet
    pushed := base.pushed
    unwritten s flush p d p' d' a e k h fits good some short :=
      have ⟨failed, tearing⟩ := base.unwritten s flush p d p' d' a e k h fits good some short
      have counted := failed.counted_of_writer h.writer
      ⟨⟨failed, counted⟩, tearing, counted⟩
    pushDone s h := ⟨base.pushDone s h, h.counted⟩
    stuckPush s h := ⟨base.stuckPush s h, h.counted.paused _ rfl⟩
    stuckWrite s flush p d a h fits good some :=
      have stuck := base.stuckWrite s flush p d a h fits good some
      ⟨stuck, stuck.drawnInv_of_writer h.writer rfl⟩
    pauseWrite s h := ⟨base.pauseWrite s h, h.counted.paused _ rfl⟩
    resumeWrite s h := base.resumeWrite s h.1
    -- CLOSE
    finishing s h := base.finishing s h.1
    flushed s p d u h no := ⟨base.flushed s p d u h no, h.counted.exchanged p d rfl⟩
    flushFailed s p d e h := ⟨base.flushFailed s p d e h, h.counted.exchanged p d rfl⟩
    trailed s p d p' d' u h gzip compress := ⟨base.trailed s p d p' d' u h gzip compress,
      State.Counted.exchanged (h.counted.exchanged p d (t := .chFlush (.ok u)) rfl) p' d' rfl⟩
    trailFailed s p d p' d' u e k h gzip compress short :=
      ⟨base.trailFailed s p d p' d' u e k h gzip compress short,
        State.Counted.exchanged (h.counted.exchanged p d (t := .chFlush (.ok u)) rfl) p' d' rfl⟩
    stuckFinish s h := ⟨base.stuckFinish s h, h.counted.paused _ rfl⟩
    stuckTrailer s p d u h gzip compress := ⟨base.stuckTrailer s p d u h gzip compress,
      (h.counted.exchanged p d (t := .chFlush (.ok u)) rfl).paused _ rfl⟩
    pauseFinish s h := ⟨base.pauseFinish s h, h.counted.paused _ rfl⟩
    resumeFinish s h := base.resumeFinish s h.1
    unfinished s h opened no := ⟨base.unfinished s h.1 opened no, h.2⟩
    togetherT s h := base.togetherT s h.1
    stuckEnd s h live := ⟨base.stuckEnd s h.1 live, h.2.paused _ rfl⟩
    stuckRelease s p d h live := by
      obtain ⟨fresh, parsed, empty⟩ := h.2.1.exchanged p d (t := .engEnd s.cmode) rfl
      exact ⟨base.stuckRelease s p d h.1 live, fresh, rfl, fun e => ⟨parsed e, fun _ _ whole => absurd (.inl rfl) whole⟩,
        empty⟩
    stuckClose s h shut := by
      obtain ⟨fresh, parsed, empty⟩ := h.2
      exact ⟨base.stuckClose s h.1 shut, fresh, rfl, fun e => ⟨parsed e, fun _ _ whole => absurd (.inr rfl) whole⟩,
        empty⟩
    torn s p p' d d' h live := ⟨base.torn s p p' d d' h.1 live,
      State.Covered.exchanged (h.2.1.exchanged p d (t := .engEnd s.cmode) rfl) p' d' (t := .poolRelease) rfl⟩
    bare s h off := ⟨base.bare s h.1 off, h.2.1⟩
    left s h stays := ⟨base.left s h.1 stays, h.2, fun _ _ opened => by cases opened⟩
    closed s p d a h shut := ⟨base.closed s p d a h.1 shut, h.2.exchanged p d rfl, fun _ _ opened => by cases opened⟩
    -- READ
    enterReader s h opened fresh no := ⟨base.enterReader s h.1 opened fresh no, h.2.setMode (by simp)⟩
    enterParser s h opened fresh gzip decompress :=
      ⟨base.enterParser s h.1 opened fresh gzip decompress, by simp [h.2.1.1 fresh]⟩
    stayReader s h opened reader := ⟨base.stayReader s h.1 opened reader, h.2⟩
    drew len n s ts b p d h run := ⟨base.drew len n s ts b p d h.1 run, by simp [h.2, run.bytes]⟩
    unparsed len n s h := ⟨base.unparsed len n s h.1, h.1.counted⟩
    stuckParse len n s h := ⟨base.stuckParse len n s h.1, h.1.counted.paused _ rfl⟩
    empty len s h := ⟨base.empty len s h.1, by
      simp [State.Counted, State.Covered, h.1.reader, List.eq_nil_of_length_eq_zero h.2]⟩
    parsed len s hd h ten name comment := ⟨base.parsed len s hd h.1 ten name comment, h.1.counted_parsed h.2⟩
    pauseName len s hd acc h ten name none flag := ⟨base.pauseName len s hd acc h.1 ten name none flag,
      h.1.counted.paused _ (decide_eq_true h.2)⟩
    resumeName len s hd acc h flight :=
      have ⟨parsing, facts⟩ := base.resumeName len s hd acc h.1 flight
      ⟨⟨parsing, of_decide_eq_true (h.2.flight flight)⟩, facts⟩
    pauseComment len s hd acc h ten name none flag := ⟨base.pauseComment len s hd acc h.1 ten name none flag,
      h.1.counted.paused _ (decide_eq_true h.2)⟩
    resumeComment len s hd acc h flight :=
      have ⟨parsing, facts⟩ := base.resumeComment len s hd acc h.1 flight
      ⟨⟨parsing, of_decide_eq_true (h.2.flight flight)⟩, facts⟩
    reading len s h := ⟨base.reading len s h.1, h.2⟩
    togetherR len s h := base.togetherR len s h.1
    initFailedR len s p d msg h stream off :=
      ⟨base.initFailedR len s p d msg h.1 stream off, h.2.exchanged p d rfl⟩
    startedR len s p d p' d' u b h stream off long := ⟨base.startedR len s p d p' d' u b h.1 stream off long,
      State.Counted.exchanged (h.2.exchanged p d (t := .engInit _ _ _ (.ok u)) rfl).setEngLive p' d'
        (t := .poolLease s.workbufSize b) rfl⟩
    stuckInitR len s h stream off := ⟨base.stuckInitR len s h.1 stream off, h.2.paused _ rfl⟩
    stuckLeaseR len s p d u h stream off := ⟨base.stuckLeaseR len s p d u h.1 stream off,
      (h.2.exchanged p d (t := .engInit _ _ _ (.ok u)) rfl).setEngLive.paused _ rfl⟩
    looping len s h stream live := ⟨base.looping len s h.1 stream live, h.2⟩
    pulled len room w s p d k h none more short := ⟨base.pulled len room w s p d k h.1 none more short,
      h.1.counted_drew h.2 p d (.chRead s.wbLen (.ok k))⟩
    pullFailed len room w s p d e h none more := ⟨base.pullFailed len room w s p d e h.1 none more,
      h.1.counted_drew h.2 p d _⟩
    stuckChunk len room w s h none more := ⟨base.stuckChunk len room w s h.1 none more, h.2.paused _ rfl⟩
    stuckPull len room w s h pos := ⟨base.stuckPull len room w s h.1 pos, h.2.paused _ rfl⟩
    stepFailed len room w s flush p d a h pos fits bad :=
      ⟨base.stepFailed len room w s flush p d a h.1 pos fits bad,
        h.1.counted_drew h.2 p d (.engStep flush s.cmode s.window room a)⟩
    stepped len room w s flush p d a h pos fits good :=
      ⟨base.stepped len room w s flush p d a h.1 pos fits good,
        h.1.counted_drew h.2 p d (.engStep flush s.cmode s.window room a)⟩
    pauseRead len room w s h pos more := ⟨base.pauseRead len room w s h.1 pos more, h.2.paused _ rfl⟩
    resumeRead len room w s h flight :=
      have ⟨pulling, pos⟩ := base.resumeRead len room w s h.1 flight
      ⟨⟨pulling, h.2.resumed flight (by simp)⟩, pos⟩
    counted len room w s h := ⟨base.counted len room w s h.1,
      State.Counted.drawnInv_idle (by simpa [State.Counted, State.Covered] using h.2) (by simpa using h.1.between.idle)⟩
  }

end Sys2Proof.Machine

/-- Settles O18: each field of a parse counts what it draws, and only READ's loop, the engine live, draws more. -/
theorem stepKeepsDrawn : Obligations.StepKeepsDrawn :=
  fun _ _ inv h ht => (Sys2Proof.Machine.drawn_phases.step ⟨inv, h⟩ ht).2
end

section
/-! A header parse that fails (40_envelope.md R161 to R168), O54 and O55: the channel ends inside the header, or before
it, or its fixed part is wrong. And one that reads back an emitted header (R185), O53. -/

namespace Sys2Proof.Machine

variable {α β : Type}

/-! ### Actions that draw, then raise -/

/-- `m` draws these chunks, then raises `e` and has done nothing else. -/
def Act.Raises (m : Act α) (chunks : List Bytes) (e : Error) : Prop :=
  ∀ s q, s.Offers chunks q → ∃ ts, m s = .error (.raise e) (s.drawnTo q ts)

theorem raises_raise (e : Error) : Act.Raises (raise e : Act α) [] e := fun _ _ offers =>
  ⟨[], by rw [drawnTo_nil offers, raise_run]⟩

/-- What follows an error does not happen. -/
theorem Act.Raises.bind {m : Act α} {chunks : List Bytes} {e : Error} (h : m.Raises chunks e) (f : α → Act β) :
    Act.Raises (m >>= f) chunks e := fun s q offers => by
  obtain ⟨ts, raised⟩ := h s q offers
  exact ⟨ts, by rw [bind_run, raised]⟩

theorem raises_bind {m : Act α} {f : α → Act β} {chunks rest : List Bytes} {a : α} {e : Error}
    (hm : m.Draws chunks a) (hf : (f a).Raises rest e) : Act.Raises (m >>= f) (chunks ++ rest) e := fun s q offers => by
  obtain ⟨ts, q', -, left, first⟩ := hm.run_bind offers
  obtain ⟨us, second⟩ := hf _ q left
  refine ⟨ts ++ us, ?_⟩
  rw [first, second, State.drawnTo, State.exchangedAll_exchangedAll]
  rfl

/-- What follows draws nothing. -/
theorem raises_then {m : Act α} {f : α → Act β} {chunks : List Bytes} {a : α} {e : Error} (hm : m.Draws chunks a)
    (hf : (f a).Raises [] e) : Act.Raises (m >>= f) chunks e :=
  chunks.append_nil ▸ raises_bind hm hf

/-- The rounds of a step are as many as its script has answers (log 4). -/
theorem raises_rounds {f : Nat → Act α} {chunks : List Bytes} {e : Error}
    (h : ∀ more, chunks.length ≤ more + 1 → (f more).Raises chunks e) :
    Act.Raises (do let s ← getState; f (roundsOf s.ports.chRead)) chunks e := fun s q offers => by
  have script : s.ports.chRead.length = chunks.length + q.length := by
    rw [show s.ports.chRead = _ from offers, List.length_append, List.length_map]
  exact h _ (by rw [roundsOf]; omega) s q offers

/-! ### A channel that ends inside a field -/

/-- The bytes `b` one a chunk, then the end of the channel. -/
abbrev ending (b : Bytes) : List Bytes := singles b ++ [[]]

theorem singles_append (b c : Bytes) : singles (b ++ c) = singles b ++ singles c := List.map_append

theorem ending_append (b c : Bytes) : ending (b ++ c) = singles b ++ ending c := by
  rw [ending, singles_append, List.append_assoc]

/-- The loop of ReadExact from the bytes `b` got so far, the channel ending before it fills up. -/
theorem readFill_draws_eof {n rounds : Nat} {b : Bytes} (more : Bytes) (short : (b ++ more).length < n)
    (enough : n ≤ b.length + rounds) : Act.Draws (readFill n rounds b) (ending more) (b ++ more, .eof) := by
  induction more generalizing b rounds with
  | nil =>
    have lt : b.length < n := by simpa using short
    obtain ⟨rounds, rfl⟩ := Nat.exists_eq_add_of_le' (show 1 ≤ rounds by omega)
    rw [readFill, if_pos lt]
    exact draws_then (draws_chRead (b := []) (Nat.zero_le _)) (by simpa using draws_pure (b, Fill.eof))
  | cons x more ih =>
    simp only [List.length_append, List.length_cons] at short
    obtain ⟨rounds, rfl⟩ := Nat.exists_eq_add_of_le' (show 1 ≤ rounds by omega)
    have next := ih (b := b ++ [x]) (rounds := rounds) (by simp; omega) (by simp; omega)
    rw [readFill, if_pos (by omega)]
    refine draws_bind (chunks := [[x]]) (draws_chRead (by simp; omega)) ?_
    simpa using next

theorem readExact_draws_eof {n : Nat} {b : Bytes} (short : b.length < n) :
    Act.Draws (readExact n) (ending b) (b, .eof) :=
  readFill_draws_eof b short (by simp)

theorem readField_raises (place : HdrField) {n : Nat} {b : Bytes} (short : b.length < n) :
    Act.Raises (readField place n) (ending b) (.eofInHeader place) :=
  raises_then (readExact_draws_eof short) (raises_raise _)

/-- A string that the channel ends inside, with a round in the step for each of its bytes. -/
theorem zstring_raises (place : HdrField) (at_ : Bytes → InFlight) {str : Bytes} (text : ∀ b ∈ str, b ≠ 0) {more : Nat}
    (enough : str.length ≤ more) (acc : Bytes) :
    Act.Raises (iterate (zstringRound place) at_ more acc) (ending str) (.eofInHeader place) := by
  induction str generalizing more acc with
  | nil =>
    have round : Act.Raises (zstringRound place acc) (ending []) (.eofInHeader place) :=
      (readField_raises place Nat.zero_lt_one).bind _
    cases more <;> exact round.bind _
  | cons b str ih =>
    obtain ⟨more, rfl⟩ := Nat.exists_eq_add_of_le' (Nat.le_of_add_left_le enough)
    obtain ⟨first, later⟩ := List.forall_mem_cons.1 text
    have round := zstringRound_draws place acc b
    rw [if_neg first] at round
    exact raises_bind (chunks := [[b]]) round (ih later (Nat.le_of_succ_le_succ enough) (acc ++ [b]))

/-! ### A channel that ends anywhere inside a part of the header -/

/-- `m` raises `e k` where the channel ends after `k` bytes of `w`, before the last of them. -/
def Act.Cut (m : Act α) (w : Bytes) (e : Nat → Error) : Prop := ∀ k < w.length, m.Raises (ending (w.take k)) (e k)

/-- A part, then the rest: the channel ends inside the one or the other. -/
theorem cut_bind {m : Act α} {f : α → Act β} {w v : Bytes} {a : α} {e e' : Nat → Error} (hm : m.Draws (singles w) a)
    (inside : m.Cut w e) (after : (f a).Cut v e') :
    Act.Cut (m >>= f) (w ++ v) fun k => if k < w.length then e k else e' (k - w.length) := fun k lt => by
  simp only [List.length_append] at lt
  dsimp only
  by_cases first : k < w.length
  · rw [if_pos first, List.take_append_of_le_length first.le]
    exact (inside k first).bind f
  · rw [if_neg first, List.take_append, List.take_of_length_le (Nat.le_of_not_lt first), ending_append]
    exact raises_bind hm (after _ (by omega))

theorem readField_cut (place : HdrField) (w : Bytes) :
    Act.Cut (readField place w.length) w fun _ => .eofInHeader place := fun k lt =>
  readField_raises place (by rw [List.length_take]; omega)

/-- FEXTRA: its length, then its bytes (R165). -/
theorem skipExtra_cut {x : Bytes} (small : x.length < 65536) :
    Act.Cut skipExtra (extraWire (some x)) fun k => .eofInHeader (if k < 2 then .fextraLen else .fextraData) := by
  have rest : Act.Cut (readField .fextraData x.length >>= fun _ => pure (2 + x.length)) x fun _ =>
      .eofInHeader .fextraData := fun k lt => (readField_cut .fextraData x k lt).bind _
  simp only [apply_ite Error.eofInHeader]
  unfold skipExtra
  refine cut_bind (e' := fun _ => .eofInHeader .fextraData) (readField_draws .fextraLen rfl)
    (readField_cut .fextraLen [_, _]) ?_
  simpa only [byteAt, List.getD_cons_zero, List.getD_cons_succ, le16_toNat small] using rest

/-- A string of a header, whatever its field does after it. -/
theorem string_cut (place : HdrField) (at_ : Bytes → InFlight) {str : Bytes} (text : ∀ b ∈ str, b ≠ 0)
    (f : Bytes → Act α) :
    Act.Cut (do
      let s ← getState
      let b ← iterate (zstringRound place) at_ (roundsOf s.ports.chRead) []
      f b) (textWire (some str)) fun _ => .eofInHeader place := fun k lt => by
  have inside : k ≤ str.length := by simpa [textWire, Nat.lt_succ_iff] using lt
  rw [textWire, List.take_append_of_le_length inside]
  refine raises_rounds (f := fun more => iterate (zstringRound place) at_ more [] >>= f) fun more enough => ?_
  refine (zstring_raises place at_ (fun b mem => text b (List.mem_of_mem_take mem)) ?_ []).bind f
  simpa [ending] using enough

theorem nameField_cut (len : Nat) {f : HdrFields} {name : Option Bytes} (flag : flgFname f.flg = name.isSome)
    (text : ∀ n ∈ name, ∀ b ∈ n, b ≠ 0) :
    Act.Cut (nameField len f) (textWire name) fun _ => .eofInHeader .fname := by
  cases name with
  | none => exact fun k lt => absurd lt (Nat.not_lt_zero k)
  | some n =>
    have read : nameField len f = readName len f [] := if_pos flag
    exact read ▸ string_cut .fname _ (text n rfl) _

theorem commentField_cut (len : Nat) {f : HdrFields} {comment : Option Bytes}
    (flag : flgFcomment f.flg = comment.isSome) (text : ∀ c ∈ comment, ∀ b ∈ c, b ≠ 0) :
    Act.Cut (commentField len f) (textWire comment) fun _ => .eofInHeader .fcomment := by
  cases comment with
  | none => exact fun k lt => absurd lt (Nat.not_lt_zero k)
  | some c =>
    have read : commentField len f = readComment len f [] := if_pos flag
    exact read ▸ string_cut .fcomment _ (text c rfl) _

theorem hdrClose_cut {f : HdrFields} {c : Option (Byte × Byte)} (flag : flgFhcrc f.flg = c.isSome) :
    Act.Cut (hdrClose f) (hcrcWire c) fun _ => .eofInHeader .fhcrc := by
  cases c with
  | none => exact fun k lt => absurd lt (Nat.not_lt_zero k)
  | some c =>
    have due : hdrClose f = (do
        let _ ← readField .fhcrc 2
        update (·.hdrParsed { f with total := f.total + 2 })) := if_pos flag
    exact due ▸ fun k lt => (readField_cut .fhcrc (hcrcWire (some c)) k lt).bind _

/-- The string FCOMMENT and FHCRC (R167, R168). -/
theorem hdrFromComment_cut {f : HdrFields} {comment : Option Bytes} {c : Option (Byte × Byte)} (len : Nat)
    (flag : flgFcomment f.flg = comment.isSome) (fresh : f.comment = none) (text : ∀ c ∈ comment, ∀ b ∈ c, b ≠ 0)
    (check : flgFhcrc f.flg = c.isSome) :
    Act.Cut (hdrFromComment len f) (textWire comment ++ hcrcWire c) fun k =>
      if k < (textWire comment).length then .eofInHeader .fcomment else .eofInHeader .fhcrc :=
  cut_bind (commentField_draws len flag fresh text) (commentField_cut len flag text) (hdrClose_cut check)

/-- What the parse has taken before the strings. -/
theorem opened_total (h : WireHeader) : h.opened.total = 10 + (extraWire h.extra).length := by
  rw [extraWire_length]
  rfl

/-- The place of a channel's end behind FEXTRA, field by field. -/
theorem placeAt_opened (h : WireHeader) (k : Nat) :
    h.placeAt (h.opened.total + k) = if k < (textWire h.name).length then .fname
      else if k - (textWire h.name).length < (textWire h.comment).length then .fcomment else .fhcrc := by
  have past : ¬fieldSize 2 h.extra + k < fieldSize 2 h.extra := by omega
  simp only [WireHeader.placeAt, WireHeader.opened, textWire_length, Nat.add_assoc, Nat.add_lt_add_iff_left, if_neg past]
  by_cases name : k < fieldSize 1 h.name
  · simp only [if_pos name]
  · have next : k < fieldSize 1 h.name + fieldSize 1 h.comment ↔ k - fieldSize 1 h.name < fieldSize 1 h.comment := by
      omega
    simp only [if_neg name, next]

/-- The strings and FHCRC (R166 to R168). -/
theorem hdrFromName_cut {h : WireHeader} (wf : h.wf = true) (len : Nat) :
    Act.Cut (hdrFromName len h.opened) (textWire h.name ++ (textWire h.comment ++ hcrcWire h.hcrc)) fun k =>
      .eofInHeader (h.placeAt (h.opened.total + k)) := by
  obtain ⟨-, name, comment⟩ := h.wf_iff.1 wf
  simp only [placeAt_opened, apply_ite Error.eofInHeader]
  have flag : flgFname h.opened.flg = h.name.isSome := flgFname_flg h
  have rest := hdrFromComment_cut (f := { h.opened with
      name := h.name, total := h.opened.total + fieldSize 1 h.name }) len (flgFcomment_flg h) rfl comment (flgFhcrc_flg h)
  exact cut_bind (f := hdrFromComment len) (nameField_draws len flag rfl name) (nameField_cut len flag name) rest

/-! ### A channel that ends inside a header -/

/-- Inside FEXTRA (R165). -/
theorem hdrFixed_cut {h : WireHeader} (wf : h.wf = true) :
    Act.Cut (hdrFixed h.fixed) (extraWire h.extra) fun k => .eofInHeader (h.placeAt (10 + k)) := by
  obtain ⟨small, -, -⟩ := h.wf_iff.1 wf
  have ten := fixed_length h
  have flag := flgFextra_flg h
  have nonempty : h.fixed ≠ [] := List.ne_nil_of_length_pos (by omega)
  cases extra : h.extra with
  | none => exact fun k lt => absurd lt (Nat.not_lt_zero k)
  | some x =>
    intro k lt
    have inside : 10 + k < 10 + fieldSize 2 h.extra := by rw [← extraWire_length, extra]; omega
    have place : h.placeAt (10 + k) = if k < 2 then .fextraLen else .fextraData := by
      rw [WireHeader.placeAt, if_pos inside]
      simp only [show 10 + k < 12 ↔ k < 2 by omega]
    rw [hdrFixed, if_neg nonempty, if_neg (by omega), checkFixed_fixed, fixedFields_fixed]
    dsimp only
    rw [place]
    refine raises_bind (chunks := []) (draws_pure ()) ?_
    simp only [flag, extra, Option.isSome_some, if_true]
    exact (skipExtra_cut (small x extra) k lt).bind _

/-- The error of a channel that ends after `n` bytes of a header (R163, R165 to R168, R281). -/
def WireHeader.errorAt (h : WireHeader) (n : Nat) : Error :=
  if n < 10 then .shortHeader n else .eofInHeader (h.placeAt n)

/-- Inside the fixed header (R163). -/
theorem hdrOpen_short {b : Bytes} (some : b ≠ []) (short : b.length < 10) :
    Act.Raises hdrOpen (ending b) (.shortHeader b.length) := by
  refine raises_then (readExact_draws_eof short) ?_
  simp only [hdrFixed, if_neg some, if_pos short]
  exact raises_raise _

/-- The whole parse: the channel ends inside the fixed header, inside FEXTRA, or behind them. -/
theorem readParsing_raises {h : WireHeader} (wf : h.wf = true) (len : Nat) {n : Nat} (pos : 0 < n)
    (inside : n < h.wire.length) : Act.Raises (readParsing len) (ending (h.wire.take n)) (h.errorAt n) := by
  have ten := fixed_length h
  have fixed := readExact_draws (n := 10) (chunks := singles h.fixed) (by simp) (by simpa using ten)
  rw [singles_flatten] at fixed
  rw [h.wire_eq] at inside ⊢
  simp only [List.length_append, ten] at inside
  by_cases short : n < 10
  · have cut := hdrOpen_short (b := h.fixed.take n) (List.ne_nil_of_length_pos (by rw [List.length_take]; omega))
      (by rw [List.length_take]; omega)
    rw [List.length_take, min_eq_left (by omega)] at cut
    rw [WireHeader.errorAt, if_pos short, List.take_append_of_le_length (by omega)]
    exact cut.bind _
  · obtain ⟨k, rfl⟩ := Nat.exists_eq_add_of_le (Nat.le_of_not_lt short)
    rw [WireHeader.errorAt, if_neg short, List.take_append, List.take_of_length_le (by omega), ten,
      Nat.add_sub_cancel_left]
    by_cases extra : k < (extraWire h.extra).length
    · rw [List.take_append_of_le_length extra.le, ending_append]
      exact (raises_bind fixed (hdrFixed_cut wf k extra)).bind _
    · obtain ⟨j, rfl⟩ := Nat.exists_eq_add_of_le (Nat.le_of_not_lt extra)
      have rest := hdrFromName_cut wf len j (by simp only [List.length_append]; omega)
      dsimp only at rest
      rw [opened_total, Nat.add_assoc] at rest
      rw [List.take_append, List.take_of_length_le (by omega), Nat.add_sub_cancel_left, ← List.append_assoc,
        ending_append]
      exact raises_bind (hdrOpen_draws wf) (rest.bind _)

/-! ### The first READ of a decompressing Gzip adapter -/

/-- A READ of no bytes is its parse, then the answer (42_read.md R221 to R223). -/
theorem execRead_parsing {s : State} (idle : s.inFlight = none) (opened : s.disposed = false)
    (fresh : s.streamMode = .undefined) (gzip : s.flavor = .gzip) (decompress : s.cmode = .decompress)
    (none : s.caller = []) : exec (.read 0) s = settle callerBuffer (readParsing 0 (s.setMode .reader)) := by
  rw [execRead_eq idle (by simp [none]), readBody_parsing opened fresh gzip decompress]
  rfl

/-- ReadExact of bytes that one ChRead answers. -/
theorem readExact_whole {s : State} {n : Nat} {b : Bytes} {q : List (Reply (Answer Bytes))} (pos : 0 < n)
    (full : b.length = n) (next : s.ports.chRead = .answer (.ok b) :: q) :
    readExact n s = .ok (b, .ok) (s.drawnTo q [.chRead n (.ok b)]) := by
  obtain ⟨k, rfl⟩ : ∃ k, n = k + 1 := Nat.exists_eq_add_of_le' pos
  have some : b ≠ [] := List.ne_nil_of_length_pos (by omega)
  rw [readExact, readFill, if_pos (by simp), bind_run, chRead_run next (by simp [full])]
  cases k <;> simp [readFill, some, full, State.exchanged, State.exchangedAll]

/-- ReadExact on a channel with no byte. -/
theorem readExact_none {s : State} {n : Nat} {q : List (Reply (Answer Bytes))} (pos : 0 < n)
    (next : s.ports.chRead = .answer (.ok []) :: q) :
    readExact n s = .ok ([], .eof) (s.drawnTo q [.chRead n (.ok [])]) := by
  obtain ⟨k, rfl⟩ : ∃ k, n = k + 1 := Nat.exists_eq_add_of_le' pos
  rw [readExact, readFill, if_pos (by simp), bind_run, chRead_run next (by simp)]
  simp [State.exchanged, State.exchangedAll]

/-- The magic is checked before the method (R163). -/
theorem checkFixed_wrong {x y z : Byte} (r : Bytes) (wrong : x ≠ 0x1F ∨ y ≠ 0x8B ∨ z ≠ 0x08) :
    checkFixed (x :: y :: z :: r) = raise (if x ≠ 0x1F ∨ y ≠ 0x8B then .badMagic x y else .badMethod z) := by
  simp only [checkFixed, byteAt, List.getD_cons_zero, List.getD_cons_succ]
  by_cases magic : x ≠ 0x1F ∨ y ≠ 0x8B
  · simp only [if_pos magic]
  · have method : z ≠ 0x08 := by tauto
    simp only [if_neg magic, if_pos method]

/-- Ten wrong bytes give their error, and nothing else (R163). -/
theorem hdrFixed_wrong {x y z : Byte} {r : Bytes} (ten : (x :: y :: z :: r).length = 10)
    (wrong : x ≠ 0x1F ∨ y ≠ 0x8B ∨ z ≠ 0x08) :
    hdrFixed (x :: y :: z :: r) = raise (if x ≠ 0x1F ∨ y ≠ 0x8B then .badMagic x y else .badMethod z) := by
  rw [hdrFixed, if_neg (List.cons_ne_nil _ _), if_neg (by omega), checkFixed_wrong r wrong]
  rfl

/-- HDR_PARSE once the fixed header's bytes are there. -/
theorem hdrOpen_read {s t : State} {b : Bytes} {f : Fill} (read : readExact 10 s = .ok (b, f) t) :
    hdrOpen s = hdrFixed b t := by
  rw [hdrOpen, bind_run, read]

/-! ### A header read back, however the channel cuts it -/

/-- The header that HDR_EMIT writes (R170), as one on the wire: no optional field. -/
def emittedHeader (p : Platform) (m : U32) : WireHeader where
  rest := 0
  mtime := m
  xfl := p.hdrXfl
  os := p.hdrOs
  extra := none
  name := none
  comment := none
  hcrc := none

theorem emittedHeader_flg (p : Platform) (m : U32) : (emittedHeader p m).flg = 0x00 := by
  simp [WireHeader.flg, emittedHeader, maskIf]

theorem emittedHeader_fixed (p : Platform) (m : U32) : (emittedHeader p m).fixed = headerBytes p m := by
  rw [WireHeader.fixed, emittedHeader_flg]
  rfl

/-- The parse of a fixed header in any chunks, then of the optional fields. -/
theorem readParsing_chunks {h : WireHeader} (wf : h.wf = true) (len : Nat) {chunks : List Bytes}
    (some : ∀ k ∈ chunks, k ≠ []) (fixed : chunks.flatten = h.fixed) {s : State} {q : List (Reply (Answer Bytes))}
    (offers : s.Offers (chunks ++ singles h.optional) q) :
    ∃ ts, readParsing len s = readData len ((s.drawnTo q ts).hdrParsed h.parsed) := by
  have read := readExact_draws (n := 10) some (by rw [fixed, fixed_length])
  rw [fixed] at read
  simp only [h.optional_eq, List.append_assoc, singles_append] at offers
  rw [← List.append_assoc] at offers
  have opening : hdrOpen.Draws (chunks ++ singles (extraWire h.extra)) _ := draws_bind read (hdrFixed_draws wf)
  obtain ⟨ts, q', -, left, first⟩ := opening.run_bind offers
  obtain ⟨us, -, parsed⟩ := hdrFromName_draws wf len _ q (by simpa only [singles_append] using left)
  refine ⟨ts ++ us, ?_⟩
  rw [readParsing, first]
  simp only [bind_run, parsed]
  rw [State.drawnTo, State.exchangedAll_exchangedAll]
  rfl

end Sys2Proof.Machine

open Sys2Proof Sys2Proof.Machine in
/-- Settles O53: an emitted header is the fixed part of one with no optional field, and the parse takes it in any
chunks. -/
theorem headerRoundTrip : Obligations.HeaderRoundTrip := by
  intro s p m chunks q idle opened fresh gzip decompress none some whole script
  obtain ⟨ts, parsed⟩ := readParsing_chunks (h := emittedHeader p m) rfl 0 some
    (whole.trans (emittedHeader_fixed p m).symm) (s := s.setMode .reader) (q := q)
    (by simpa [State.Offers, WireHeader.optional, emittedHeader] using script)
  have answered : readData 0 (((s.setMode .reader).drawnTo q ts).hdrParsed (emittedHeader p m).parsed) =
      .ok (.ok (.read 0 [])) (((s.setMode .reader).drawnTo q ts).hdrParsed (emittedHeader p m).parsed) := by
    simp [readData, readAnswer, none]
  rw [execRead_parsing idle opened fresh gzip decompress none, parsed, answered]
  exact ⟨_, rfl, rfl, rfl, emittedHeader_flg p m, rfl, rfl, rfl, rfl⟩

open Sys2Proof Sys2Proof.Machine in
/-- Settles O54: each part of the parse, cut anywhere, raises its own place's error and has written no register. -/
theorem truncatedHeader : Obligations.TruncatedHeader := by
  intro s h n q idle opened fresh gzip decompress none wf pos inside script
  obtain ⟨ts, raised⟩ := readParsing_raises wf 0 pos inside (s.setMode .reader) q
    (by simpa [State.Offers, Function.comp_def] using script)
  rw [execRead_parsing idle opened fresh gzip decompress none, raised]
  refine ⟨_, rfl, ?_, rfl, rfl, rfl, rfl, rfl, rfl, rfl, rfl, idle⟩
  simp [callerBuffer, none, WireHeader.errorAt]

open Sys2Proof Sys2Proof.Machine in
/-- Settles O55: the ten bytes are checked magic first; with none the parse ends well, the stream empty. -/
theorem fixedHeaderChecks : Obligations.FixedHeaderChecks := by
  intro s b q idle opened fresh gzip decompress none next
  refine ⟨fun x y z r bytes ten wrong => ?_, fun empty => ?_⟩
  · have read := readExact_whole (s := s.setMode .reader) (by decide) ten next
    subst bytes
    rw [execRead_parsing idle opened fresh gzip decompress none, readParsing, bind_run, hdrOpen_read read,
      hdrFixed_wrong ten wrong]
    simp [settle, callerBuffer, none, State.respond, State.setMode, State.exchangedAll]
  · subst empty
    have read := readExact_none (s := s.setMode .reader) (n := 10) (by decide) next
    rw [execRead_parsing idle opened fresh gzip decompress none, readParsing, bind_run, hdrOpen_read read]
    simp [hdrFixed, readAnswer, settle, none, State.respond, State.setMode, State.exchangedAll, State.hdrEmpty]
end

section
/-! CLOSE of a Writer whose Finish is one engine step from its end (43_control.md R244 to R252), O58: the step that
begins it and the one that goes on with it run the same Finish, then the same teardown. -/

namespace Sys2Proof.Machine

variable {s : State}

theorem resumed_of_idle (idle : s.inFlight = none) : s.resumed = s := by rw [State.resumed, ← idle]

/-- The step that begins the CLOSE of a live Writer, and one that goes on with it from inside Finish, are the rest of
CLOSE from there (R245, R248; log 4). -/
theorem close_finishing {o : Host.Outcome State Fault Refusal}
    (steps : s.inFlight = none ∧ o = exec .close s ∨ s.inFlight = some .finishLoop ∧ o = step s)
    (opened : s.disposed = false) (writer : s.streamMode = .writer) (engine : s.engLive = true) :
    o = settle noBuffer (resumeFinish s.resumed) := by
  obtain ⟨idle, rfl⟩ | ⟨flight, rfl⟩ := steps
  · have touched : attempt finishIfTouched s = attempt writerFinish s := by
      simp [attempt, finishIfTouched, onlyIf, engine, finish, writer]
    rw [execClose_eq idle opened, resumed_of_idle idle, resumeFinish, bind_run, bind_run, touched]
  · rw [step_of_flight flight]
    rfl

/-- The state once Finish's last engine step is done and its bytes are on the channel (R246). -/
def State.finishStepped (s : State) (a : StepAnswer) (q : List (Reply StepAnswer)) (w : List (Reply WriteAnswer)) : State :=
  { s with
    inNext := s.inNext + a.consumed, inAvail := s.inAvail - a.consumed
    engTotalOut := s.engTotalOut + BitVec.ofNat 64 a.produced.length
    work := memWrite s.work 0 a.produced
    ports := { s.ports with engStep := q, chWrite := w }
    trace := s.trace ++ [.engStep .finish s.cmode s.window s.wbLen a] ++
      (if a.produced = [] then [] else [.chWrite a.produced .ok]) }

theorem finishDone_iff (s : State) (room : Nat) (rc : EngStatus) :
    s.finishDone room rc = true ↔
      s.inAvail = s.doneAvail ∧ room ≠ 0 ∧ (s.plat.finishRequiresStreamEnd = false ∨ rc = .streamEnd) := by
  simp [State.finishDone, State.writeDone, and_assoc]

/-- A push step of Finish ends its loop where the window is down to what is left over, the working buffer was not
filled, and the status is one the platform takes for the end (R246, decision D24). -/
theorem finishLoop_run {a : StepAnswer} {q : List (Reply StepAnswer)} {w : List (Reply WriteAnswer)}
    (next : s.ports.engStep = .answer a :: q) (within : a.consumed ≤ s.window.length) (room : a.produced.length < s.wbLen)
    (ended : a.status = .streamEnd ∨ a.status = .ok ∧ s.plat.finishRequiresStreamEnd = false)
    (left : s.inAvail - a.consumed = s.doneAvail)
    (wrote : s.ports.chWrite = (if a.produced = [] then [] else [.answer .ok]) ++ w) :
    finishLoop s = .ok () (s.finishStepped a q w) := by
  have good : a.status.isFailure = false := (isFailure_false_iff _).2 (ended.symm.imp_left And.left)
  have pushed : pushStep .finish s = .ok a (s.finishStepped a q w) :=
    pushStep_run next ((stepFits_iff _ _ _).2 ⟨within, room.le⟩) good wrote
  have unfilled : s.wbLen - a.produced.length ≠ 0 := by omega
  have done : (s.finishStepped a q w).finishDone (s.wbLen - a.produced.length) a.status = true :=
    (finishDone_iff _ _ _).2 ⟨left, unfilled, ended.symm.imp_left And.right⟩
  have round := finishRound_run pushed
  rw [if_pos (by exact done)] at round
  rw [finishLoop, bind_run, getState_run]
  exact iterate_done round

/-- A decompress-on-write Gzip adapter has no trailer to check (R246). -/
def State.finishError (s : State) : Option Error :=
  if s.flavor = .gzip ∧ s.cmode = .decompress then some (.unsupportedDirection .writeDecompress) else none

/-- The state after ChFlush and, for compressing Gzip, the trailer (R246, 40_envelope.md R173). -/
def State.finishFlushed (s : State) (w : List (Reply WriteAnswer)) (f : List (Reply (Answer Unit))) : State :=
  { s with
    ports := { s.ports with chWrite := w, chFlush := f }
    trace := s.trace ++ [.chFlush (.ok ())] ++
      (if s.flavor = .gzip ∧ s.cmode = .compress then [.chWrite s.trailerBytes .ok] else []) }

/-- The writer Finish from the end of its loop on (R246). -/
theorem writerFinish_run {t : State} {w : List (Reply WriteAnswer)} {f : List (Reply (Answer Unit))}
    (loop : finishLoop s = .ok () t) (flushed : t.ports.chFlush = .answer (.ok ()) :: f)
    (wrote : t.ports.chWrite = (if t.flavor = .gzip ∧ t.cmode = .compress then [.answer .ok] else []) ++ w) :
    attempt writerFinish s = .ok t.finishError (t.finishFlushed w f) := by
  simp only [attempt, writerFinish, bind_run, loop, chFlush_run flushed, getState_run, onlyIf]
  by_cases gzip : t.flavor = .gzip
  · rw [if_pos (by exact gzip)]
    cases dir : t.cmode with
    | compress =>
      have script : t.ports.chWrite = .answer .ok :: w := by simpa [gzip, dir] using wrote
      simp only [State.exchanged_cmode, dir, trailerEmit, bind_run, getState_run]
      rw [chWrite_run (q := w) (by exact script)]
      simp [State.finishError, State.finishFlushed, State.exchanged, dir, gzip, State.trailerBytes, State.crcResult]
    | decompress =>
      have script : w = t.ports.chWrite := by simpa [dir, eq_comm] using wrote
      simp [State.finishError, State.finishFlushed, State.exchanged, gzip, dir, script]
  · rw [if_neg (by exact gzip)]
    have script : w = t.ports.chWrite := by simpa [gzip, eq_comm] using wrote
    simp [State.finishError, State.finishFlushed, State.exchanged, gzip, script]

/-- CLOSE of a live Writer from what its Finish leaves: the teardown, and the first error (R249, R252). -/
theorem close_finished {o : Host.Outcome State Fault Refusal} {err : Option Error} {u : State} {c : Answer Unit}
    {q₁ q₂ : List (Reply Unit)} {q₃ : List (Reply (Answer Unit))}
    (steps : s.inFlight = none ∧ o = exec .close s ∨ s.inFlight = some .finishLoop ∧ o = step s)
    (opened : s.disposed = false) (writer : s.streamMode = .writer) (engine : s.engLive = true)
    (finished : attempt writerFinish s.resumed = .ok err u) (live : u.engLive = true) (buffer : u.wbLive = true)
    (ended : u.ports.engEnd = .answer () :: q₁) (released : u.ports.poolRelease = .answer () :: q₂)
    (closed : u.ports.chClose = (if u.leaveOpen then [] else [.answer c]) ++ q₃) :
    o = .next { u with
      disposed := true, engLive := false, wbLive := false, work := []
      ports := { u.ports with engEnd := q₁, poolRelease := q₂, chClose := q₃ }
      trace := u.trace ++ [.engEnd u.cmode, .poolRelease] ++ (if u.leaveOpen then [] else [.chClose c])
      responses := u.responses ++ [closeResponse (err.or (if u.leaveOpen then none else c.error?))] } := by
  rw [close_finishing steps opened writer engine, resumeFinish, bind_run, finished]
  exact congrArg (settle noBuffer) (teardown_run live buffer ended released closed)

/-- What CLOSE answers after Finish's last step (R246, R252). -/
theorem closeResponse_finish (s : State) (w : List (Reply WriteAnswer)) (f : List (Reply (Answer Unit)))
    (c : Answer Unit) :
    closeResponse (s.finishError.or (if (s.finishFlushed w f).leaveOpen then none else c.error?)) =
      if s.flavor = .gzip ∧ s.cmode = .decompress then .err (.unsupportedDirection .writeDecompress) none
      else if s.leaveOpen then .ok .unit
      else match c with
        | .ok _ => .ok .unit
        | .fail e => .err (.chFail e) none := by
  have kept : (s.finishFlushed w f).leaveOpen = s.leaveOpen := rfl
  rw [State.finishError, kept]
  by_cases cross : s.flavor = .gzip ∧ s.cmode = .decompress
  · simp only [if_pos cross]
    rfl
  · simp only [if_neg cross, Option.none_or]
    cases s.leaveOpen <;> cases c <;> rfl

end Sys2Proof.Machine

open Sys2Proof Sys2Proof.Machine in
/-- Settles O58: the loop's last round, ChFlush with what follows it, then the teardown, each from what it leaves. -/
theorem closeWriter : Obligations.CloseWriter := by
  intro s o a c q w f q₁ q₂ q₃ steps opened writer engine buffer next within room status left wrote flushed ended released
    closed
  rw [List.append_assoc] at wrote
  have loop := finishLoop_run (s := s.resumed) next within room status left wrote
  have finished := writerFinish_run (w := w) loop flushed rfl
  rw [close_finished steps opened writer engine finished engine buffer ended released closed, closeResponse_finish]
  rfl
end

section
/-! No rule reads the bytes of the window (40_envelope.md R180, R182), O60: two runs from states that differ in those
bytes and in the record of them do the same. The engine's step alone hands the window on, and only to the engine. -/

namespace Sys2Proof.Machine

variable {α β σ : Type}

/-! ### States that differ in the window's bytes -/

/-- The state with another window and another record. -/
def State.reskinned (s : State) (v : Bytes) (r : List Txn) : State := { s with inWin := v, trace := r }

/-- `s'` is `s` but for the window's bytes and, behind `base`, the engine's input on record. -/
def State.Twin (base : List Txn) (s s' : State) : Prop :=
  ∃ v r, s' = s.reskinned v (base ++ r) ∧ v.length = s.inWin.length ∧
    (base ++ r).map Txn.blind = s.trace.map Txn.blind

/-- Two runs ended alike, and left twins. -/
inductive Alike (base : List Txn) : EStateM.Result Exit State α → EStateM.Result Exit State α → Prop where
  | ok {t t' : State} (a : α) (twin : t.Twin base t') : Alike base (.ok a t) (.ok a t')
  | error {t t' : State} (x : Exit) (twin : t.Twin base t') : Alike base (.error x t) (.error x t')

/-- `m` does the same from twins. -/
def Act.Blind (base : List Txn) (m : Act α) : Prop := ∀ s s', s.Twin base s' → Alike base (m s) (m s')

variable {base : List Txn} {s s' : State}

theorem State.Twin.refl (s : State) {v : Bytes} (len : v.length = s.inWin.length) :
    s.Twin s.trace { s with inWin := v } :=
  ⟨v, [], by simp [State.reskinned], len, by simp⟩

/-- An update of other fields. Most updates are record updates, for which the two conditions hold by `rfl`, as their
default arguments say; so do those of the lemmas below. -/
theorem State.Twin.update (h : s.Twin base s') {g : State → State}
    (other : ∀ s v r, g (s.reskinned v r) = (g s).reskinned v r := by intros; rfl)
    (kept : ∀ s, (g s).inWin = s.inWin ∧ (g s).trace = s.trace := by exact fun _ => ⟨rfl, rfl⟩) :
    (g s).Twin base (g s') := by
  obtain ⟨v, r, rfl, len, same⟩ := h
  obtain ⟨window, trace⟩ := kept s
  exact ⟨v, r, other s v _, by rw [window, len], by rw [trace, same]⟩

/-- An update that replaces the window. -/
theorem State.Twin.load (h : s.Twin base s') {g : State → State}
    (other : ∀ s v r, g (s.reskinned v r) = (g s).reskinned (g s).inWin r := by intros; rfl)
    (kept : ∀ s, (g s).trace = s.trace := by intros; rfl) : (g s).Twin base (g s') := by
  obtain ⟨v, r, rfl, -, same⟩ := h
  exact ⟨(g s).inWin, r, other s v _, rfl, by rw [kept, same]⟩

/-- A transaction that differs in the engine's input at most. -/
theorem State.Twin.exchanged (h : s.Twin base s') (p : Ports) (d : Nat) {t t' : Txn} (alike : t'.blind = t.blind) :
    (s.exchanged p d t).Twin base (s'.exchanged p d t') := by
  obtain ⟨v, r, rfl, len, same⟩ := h
  refine ⟨v, r ++ [t'], by simp [State.reskinned, State.exchanged], len, ?_⟩
  rw [← List.append_assoc, List.map_append, same]
  simp [State.exchanged, alike]

theorem State.Twin.window_length (h : s.Twin base s') : s'.window.length = s.window.length := by
  obtain ⟨v, r, rfl, len, -⟩ := h
  simp [State.window, memRead, State.reskinned, len]

/-! ### How actions run from twins -/

theorem blind_pure (a : α) : Act.Blind base (pure a) := fun _ _ h => .ok a h

theorem blind_raise (e : Error) : Act.Blind base (raise e : Act α) := fun _ _ h => .error _ h

theorem blind_update {g : State → State} (twin : ∀ {s s'}, s.Twin base s' → (g s).Twin base (g s')) :
    Act.Blind base (update g) := fun _ _ h => .ok () (twin h)

/-- An update of other fields. -/
theorem blind_set {g : State → State}
    (other : ∀ s v r, g (s.reskinned v r) = (g s).reskinned v r := by intros; rfl)
    (kept : ∀ s, (g s).inWin = s.inWin ∧ (g s).trace = s.trace := by exact fun _ => ⟨rfl, rfl⟩) :
    Act.Blind base (update g) :=
  blind_update fun h => h.update other kept

theorem Alike.bind {m m' : Act α} {f f' : α → Act β} (hm : Alike base (m s) (m' s'))
    (hf : ∀ a t t', t.Twin base t' → Alike base (f a t) (f' a t')) : Alike base ((m >>= f) s) ((m' >>= f') s') := by
  rw [bind_run, bind_run]
  generalize m s = o at hm
  generalize m' s' = o' at hm
  cases hm with
  | ok a twin => exact hf a _ _ twin
  | error x twin => exact .error x twin

theorem blind_bind {m : Act α} {f : α → Act β} (hm : m.Blind base) (hf : ∀ a, (f a).Blind base) :
    Act.Blind base (m >>= f) := fun s s' h => (hm s s' h).bind hf

/-- Reading registers other than the window. -/
theorem blind_getState {f : State → Act α} (hf : ∀ s, (f s).Blind base)
    (unseen : ∀ s v r, f (s.reskinned v r) = f s := by intros; rfl) : Act.Blind base (getState >>= f) := fun s s' h => by
  have twin := h
  obtain ⟨v, r, rfl, -⟩ := h
  rw [bind_run, bind_run, getState_run, getState_run]
  simp only [unseen]
  exact hf s _ _ twin

theorem blind_ite {c : Prop} [Decidable c] {m n : Act α} (hm : m.Blind base) (hn : n.Blind base) :
    Act.Blind base (if c then m else n) := by
  split <;> assumption

theorem blind_onlyIf {c : Prop} [Decidable c] {m : Act Unit} (hm : m.Blind base) : Act.Blind base (onlyIf c m) :=
  blind_ite hm (blind_pure ())

theorem blind_attempt {m : Act Unit} (hm : m.Blind base) : Act.Blind base (attempt m) := fun s s' h => by
  have alike := hm s s' h
  unfold attempt
  generalize m s = o at alike
  generalize m s' = o' at alike
  cases alike with
  | ok a twin => exact .ok none twin
  | error x twin =>
    cases x with
    | raise e => exact .ok (some e) twin
    | pause f => exact .error _ twin
    | refuse r => exact .error _ twin

theorem blind_iterate {body : σ → Act (σ ⊕ α)} {at_ : σ → InFlight} (hb : ∀ x, (body x).Blind base) (more : Nat)
    (x : σ) : Act.Blind base (iterate body at_ more x) := by
  induction more generalizing x with
  | zero =>
    refine blind_bind (hb x) fun r => ?_
    cases r with
    | inl y => exact fun _ _ h => .error _ h
    | inr a => exact blind_pure a
  | succ more ih =>
    refine blind_bind (hb x) fun r => ?_
    cases r with
    | inl y => exact ih y
    | inr a => exact blind_pure a

/-! ### Transactions -/

/-- A transaction takes the same reply from twins. -/
theorem transact_alike {port : PortName} {queue : Ports → List (Reply α)} {drop : Ports → Ports} {free : Nat → α}
    {fits : α → Bool} {bad : Refusal} {log log' : α → Txn} (h : s.Twin base s')
    (alike : ∀ a, (log' a).blind = (log a).blind) :
    Alike base (transact port queue drop free fits bad log s) (transact port queue drop free fits bad log' s') := by
  have same : s'.ports = s.ports ∧ s'.draws = s.draws := by
    obtain ⟨v, r, rfl, -⟩ := h
    exact ⟨rfl, rfl⟩
  unfold transact
  rw [same.1, same.2]
  split
  · exact .ok _ (h.exchanged _ _ (alike _))
  · exact .error _ h
  · split
    · exact .ok _ (h.exchanged _ _ (alike _))
    · exact .error _ h

theorem blind_transact {port : PortName} {queue : Ports → List (Reply α)} {drop : Ports → Ports} {free : Nat → α}
    {fits : α → Bool} {bad : Refusal} {log : α → Txn} :
    Act.Blind base (transact port queue drop free fits bad log) := fun _ _ h => transact_alike h fun _ => rfl

/-- The engine's answer to a step is bounded by how much input there is, not by what it is (10_state.md R62). -/
theorem askStep_alike (h : s.Twin base s') (flush : FlushType) (dir : CMode) (cap : Nat) {input input' : Bytes}
    (len : input'.length = input.length) :
    Alike base (askStep flush dir input cap s) (askStep flush dir input' cap s') := by
  have free : freeStep input' cap = freeStep input cap := by
    funext k
    simp only [freeStep, len]
  have fits : stepFits input' cap = stepFits input cap := by
    funext a
    simp only [stepFits, len]
  unfold askStep
  rw [free, fits]
  exact transact_alike h fun a => by simp only [Txn.blind, len]

theorem blind_orFail (a : Answer α) : Act.Blind base (orFail a) := by
  cases a with
  | ok a => exact blind_pure a
  | fail e => exact blind_raise _

theorem blind_chRead (n : Nat) : Act.Blind base (chRead n) := blind_bind blind_transact blind_orFail

theorem blind_chWrite (b : Bytes) : Act.Blind base (chWrite b) :=
  blind_bind blind_transact fun a => by
    cases a with
    | ok => exact blind_pure ()
    | fail e k => exact blind_raise _

theorem blind_chFlush : Act.Blind base chFlush := blind_bind blind_transact blind_orFail

/-- The one place where the window is read: it goes to the engine and on record. -/
theorem blind_engStep (flush : FlushType) (cap : Nat) : Act.Blind base (engStep flush cap) := fun s s' h => by
  have dir : s'.cmode = s.cmode := by
    obtain ⟨v, r, rfl, -⟩ := h
    rfl
  simp only [engStep, bind_run (m := getState), getState_run, dir]
  refine (askStep_alike h flush s.cmode cap h.window_length).bind fun a => ?_
  exact blind_bind blind_set fun _ => blind_pure a

theorem blind_startEngine : Act.Blind base startEngine :=
  blind_getState (fun s => blind_bind blind_transact fun a => by
    cases a with
    | ok u => exact blind_set
    | fail msg => exact blind_raise _)

theorem blind_leaseBuffer : Act.Blind base leaseBuffer :=
  blind_getState (fun _ => blind_bind blind_transact fun _ => blind_set)

theorem blind_materialise : Act.Blind base materialise :=
  blind_getState (fun _ => blind_bind (blind_onlyIf blind_startEngine) fun _ =>
    blind_getState (fun _ => blind_onlyIf blind_leaseBuffer))

theorem blind_crcFeed (b : State → Bytes) (unseen : ∀ s v r, b (s.reskinned v r) = b s := by intros; rfl) :
    Act.Blind base (update fun s => s.crcFeed (b s)) := by
  refine blind_set (fun s v r => ?_) fun s => ⟨s.crcFeed_inWin _, s.crcFeed_trace _⟩
  rw [unseen, State.crcFeed_eq, State.crcFeed_eq]
  rfl

/-! ### The envelope -/

theorem blind_readFill (n rounds : Nat) (b : Bytes) : Act.Blind base (readFill n rounds b) := by
  induction rounds generalizing b with
  | zero => exact blind_pure _
  | succ k ih =>
    exact blind_ite (blind_bind (blind_chRead _) fun r => blind_ite (blind_pure _) (ih _)) (blind_pure _)

theorem blind_readField (place : HdrField) (n : Nat) : Act.Blind base (readField place n) :=
  blind_bind (blind_readFill n n []) fun _ => blind_ite (blind_raise _) (blind_pure _)

theorem blind_hdrOpen : Act.Blind base hdrOpen := by
  have extra : Act.Blind base skipExtra :=
    blind_bind (blind_readField _ _) fun _ => blind_bind (blind_readField _ _) fun _ => blind_pure _
  have fixed : ∀ h, Act.Blind base (checkFixed h) := fun h =>
    blind_ite (blind_raise _) (blind_ite (blind_raise _) (blind_pure _))
  exact blind_bind (blind_readFill 10 10 []) fun _ =>
    blind_ite (blind_bind blind_set fun _ => blind_pure _)
      (blind_ite (blind_raise _) (blind_bind (fixed _) fun _ =>
        blind_ite (blind_bind extra fun _ => blind_pure _) (blind_pure _)))

theorem blind_zstringRound (place : HdrField) (acc : Bytes) : Act.Blind base (zstringRound place acc) :=
  blind_bind (blind_readField _ _) fun _ => blind_ite (blind_pure _) (blind_pure _)

theorem blind_readName (len : Nat) (h : HdrFields) (acc : Bytes) : Act.Blind base (readName len h acc) :=
  blind_getState (fun _ => blind_bind (blind_iterate (blind_zstringRound _) _ _) fun _ => blind_pure _)

theorem blind_readComment (len : Nat) (h : HdrFields) (acc : Bytes) : Act.Blind base (readComment len h acc) :=
  blind_getState (fun _ => blind_bind (blind_iterate (blind_zstringRound _) _ _) fun _ => blind_pure _)

theorem blind_hdrClose (h : HdrFields) : Act.Blind base (hdrClose h) := by
  have parsed : ∀ h, Act.Blind base (update (·.hdrParsed h)) := fun _ => blind_set
  exact blind_ite (blind_bind (blind_readField _ _) fun _ => parsed _) (parsed h)

theorem blind_hdrFromComment (len : Nat) (h : HdrFields) : Act.Blind base (hdrFromComment len h) :=
  blind_bind (blind_ite (blind_readComment _ _ _) (blind_pure _)) fun _ => blind_hdrClose _

theorem blind_hdrFromName (len : Nat) (h : HdrFields) : Act.Blind base (hdrFromName len h) :=
  blind_bind (blind_ite (blind_readName _ _ _) (blind_pure _)) fun _ => blind_hdrFromComment _ _

theorem blind_hdrEmit : Act.Blind base hdrEmit := by
  have time : Act.Blind base timestamp := by
    refine blind_getState (fun s => ?_)
    cases s.mtimeFixed with
    | some m => exact blind_pure m
    | none => exact blind_bind blind_transact fun _ => blind_pure _
  exact blind_bind time fun _ => blind_getState (fun _ => blind_bind (blind_chWrite _) fun _ => blind_set)

/-! ### WRITE -/

theorem blind_pushStep (flush : FlushType) : Act.Blind base (pushStep flush) :=
  blind_getState (fun _ => blind_bind (blind_engStep _ _) fun _ =>
    blind_bind blind_set fun _ => blind_ite (blind_raise _)
      (blind_getState (fun _ => blind_bind (blind_onlyIf (blind_chWrite _)) fun _ => blind_pure _)))

theorem blind_writeLoop : Act.Blind base writeLoop := by
  have round : ∀ u, Act.Blind base (writeRound u) := fun _ => blind_bind (blind_pushStep _) fun _ =>
    blind_getState (fun _ => blind_ite (blind_pure _) (blind_pure _))
  exact blind_getState (fun _ => blind_iterate round _ _)

theorem blind_writeData (len : Nat) : Act.Blind base (writeData len) :=
  blind_ite (blind_pure _)
    (blind_bind (blind_crcFeed (·.caller)) fun _ => blind_bind blind_materialise fun _ =>
      blind_bind (blind_update fun h => h.load (g := fun s => s.loadWindow s.caller)) fun _ => blind_writeLoop)

theorem blind_writeBody (len : Nat) : Act.Blind base (writeBody len) := by
  have enter : Act.Blind base enterWriter := blind_bind blind_set fun _ =>
    blind_getState (fun _ => blind_onlyIf blind_hdrEmit)
  exact blind_getState (fun _ => blind_ite (blind_raise _) (blind_ite (blind_raise _)
    (blind_bind (blind_onlyIf enter) fun _ => blind_writeData len)))

/-! ### READ -/

theorem blind_readAnswer (n : Nat) : Act.Blind base (readAnswer n) := blind_getState (fun _ => blind_pure _)

theorem blind_pullChunk : Act.Blind base pullChunk :=
  blind_getState (fun _ => blind_bind (blind_chRead _) fun k => blind_update fun h => h.load (g := (·.pulled k)))

theorem blind_pullStep (flush : FlushType) (room : Nat) (w : Bytes) : Act.Blind base (pullStep flush room w) :=
  blind_bind (blind_engStep _ _) fun _ => blind_bind blind_set fun _ => blind_pure _

theorem blind_readEnd (len room : Nat) (w : Bytes) : Act.Blind base (readEnd len room w) := by
  have final : Act.Blind base (finalStep room w) := blind_getState (fun _ =>
    blind_ite (blind_bind (blind_pullStep _ _ _) fun _ => blind_ite (blind_raise _) (blind_pure _)) (blind_pure _))
  exact blind_bind final fun x => blind_bind (blind_crcFeed (fun _ => x.2)) fun _ => blind_readAnswer _

theorem blind_readRound (len : Nat) (x : Nat × Bytes) : Act.Blind base (readRound len x) :=
  blind_getState (fun _ => blind_bind (blind_onlyIf blind_pullChunk) fun _ => blind_bind (blind_pullStep _ _ _) fun _ =>
    blind_getState (fun _ => blind_ite (blind_bind (blind_readAnswer _) fun _ => blind_pure _)
      (blind_ite (blind_raise _) (blind_ite (blind_pure _) (blind_bind (blind_readEnd _ _ _) fun _ => blind_pure _)))))

theorem blind_readLoop (len room : Nat) (w : Bytes) : Act.Blind base (readLoop len room w) :=
  blind_getState (fun _ => blind_iterate (blind_readRound len) _ _)

theorem blind_readData (len : Nat) : Act.Blind base (readData len) :=
  blind_getState (fun _ => blind_ite (blind_readAnswer _) (blind_ite (blind_readAnswer _)
    (blind_bind blind_materialise fun _ => blind_readLoop _ _ _)))

theorem blind_readBody (len : Nat) : Act.Blind base (readBody len) := by
  have parse : Act.Blind base (readParsing len) := blind_bind blind_hdrOpen fun h => by
    cases h with
    | none => exact blind_readAnswer _
    | some h => exact blind_bind (blind_hdrFromName _ _) fun _ => blind_readData _
  have enter : Act.Blind base (enterReader len) := blind_bind blind_set fun _ =>
    blind_getState (fun _ => blind_ite parse (blind_readData _))
  exact blind_getState (fun _ => blind_ite (blind_raise _) (blind_ite (blind_raise _)
    (blind_ite enter (blind_readData _))))

/-! ### The control commands -/

theorem blind_flushBody : Act.Blind base flushBody :=
  blind_getState (fun _ => blind_ite (blind_raise _) (blind_bind blind_transact fun _ => blind_pure _))

theorem blind_getlenBody : Act.Blind base getlenBody :=
  blind_getState (fun _ => blind_ite (blind_raise _) (blind_bind blind_transact fun _ => blind_pure _))

theorem blind_unsupported (m : Mnemonic) : Act.Blind base (unsupported m) :=
  blind_getState (fun _ => blind_ite (blind_raise _) (blind_raise _))

/-- RDSTAT has no selector for the window (10_state.md R33). -/
theorem blind_rdstatBody (sel : Byte) : Act.Blind base (rdstatBody sel) := by
  refine blind_getState (fun s => ?_)
  cases statReg sel with
  | some r => exact blind_pure _
  | none => exact blind_raise _

theorem blind_writerFinish : Act.Blind base writerFinish := by
  have round : ∀ u, Act.Blind base (finishRound u) := fun _ => blind_bind (blind_pushStep _) fun _ =>
    blind_getState (fun _ => blind_ite (blind_pure _) (blind_pure _))
  have trailer : Act.Blind base trailerEmit := blind_getState (fun _ => blind_chWrite _)
  refine blind_bind (blind_getState (fun _ => blind_iterate round _ _)) fun _ =>
    blind_bind blind_chFlush fun _ => blind_getState (fun s => blind_onlyIf ?_)
  cases s.cmode with
  | compress => exact trailer
  | decompress => exact blind_raise _

theorem blind_finish : Act.Blind base finish := by
  have reader : Act.Blind base readerFinish := by
    refine blind_getState (fun s => blind_onlyIf ?_)
    cases s.cmode with
    | compress => exact blind_raise _
    | decompress => exact blind_pure ()
  refine blind_getState (fun s => ?_)
  cases s.streamMode with
  | undefined => exact blind_pure ()
  | reader => exact reader
  | writer => exact blind_writerFinish

theorem blind_teardown (err : Option Error) : Act.Blind base (teardown err) := by
  have ends : Act.Blind base endEngine := blind_getState (fun _ => blind_bind blind_transact fun _ => blind_set)
  have release : Act.Blind base releaseBuffer := blind_bind blind_transact fun _ => blind_set
  have close : Act.Blind base closeChannel := blind_getState (fun _ =>
    blind_ite (blind_pure _) (blind_bind blind_transact fun _ => blind_pure _))
  exact blind_getState (fun _ => blind_bind (blind_onlyIf ends) fun _ =>
    blind_getState (fun _ => blind_bind (blind_onlyIf release) fun _ => blind_bind close fun _ =>
      blind_bind blind_set fun _ => blind_pure _))

theorem blind_closeBody : Act.Blind base closeBody := by
  have touched : Act.Blind base finishIfTouched := blind_getState (fun _ => blind_onlyIf blind_finish)
  exact blind_getState (fun _ => blind_ite (blind_pure _) (blind_bind (blind_attempt touched) fun _ => blind_teardown _))

/-! ### Whole steps -/

/-- Where one step gives a next state, the other gives its twin. -/
def Follows (base : List Txn) (o o' : Host.Outcome State Fault Refusal) : Prop :=
  ∀ t, o = .next t → ∃ t', o' = .next t' ∧ t.Twin base t'

theorem State.Twin.follows {t t' : State} (h : t.Twin base t') : Follows base (.next t) (.next t') := fun _ same => by
  cases same
  exact ⟨t', rfl, h⟩

theorem State.Twin.respond (h : s.Twin base s') (r : Response) : (s.respond r).Twin base (s'.respond r) :=
  h.update (g := (·.respond r))

theorem State.Twin.paused (h : s.Twin base s') (f : InFlight) : (s.paused f).Twin base (s'.paused f) :=
  h.update (g := (·.paused f))

theorem settle_follows {buffer : State → Option Bytes} {body : Act Response} (hb : body.Blind base)
    (h : s.Twin base s') (unseen : ∀ s v r, buffer (s.reskinned v r) = buffer s := by intros; rfl) :
    Follows base (settle buffer (body s)) (settle buffer (body s')) := by
  have alike := hb s s' h
  generalize body s = o at alike
  generalize body s' = o' at alike
  cases alike with
  | ok r twin => exact (twin.respond r).follows
  | error x twin =>
    cases x with
    | raise e =>
      have same : ∀ {t t' : State}, t.Twin base t' → buffer t' = buffer t := by
        rintro t _ ⟨v, r, rfl, -⟩
        exact unseen t v _
      rw [settle, settle, same twin]
      exact (twin.respond _).follows
    | pause f => exact (twin.paused f).follows
    | refuse r => exact fun _ refused => by cases refused

theorem runCommand_follows {buffer : State → Option Bytes} {body : Act Response} (hb : body.Blind base)
    (h : s.Twin base s') (unseen : ∀ s v r, buffer (s.reskinned v r) = buffer s := by intros; rfl) :
    Follows base (runCommand buffer body s) (runCommand buffer body s') := by
  have idle : s'.inFlight = s.inFlight := by
    obtain ⟨v, r, rfl, -⟩ := h
    rfl
  unfold runCommand
  rw [idle]
  split
  · exact fun _ refused => by cases refused
  · exact settle_follows hb h unseen

theorem exec_follows (i : Instr) (h : s.Twin base s') : Follows base (exec i s) (exec i s') := by
  have caller : s'.caller = s.caller := by
    obtain ⟨v, r, rfl, -⟩ := h
    rfl
  have told {body : Act Response} (hb : body.Blind base) :
      Follows base (runCommand noBuffer body s) (runCommand noBuffer body s') :=
    runCommand_follows hb h
  cases i with
  | write len =>
    show Follows base (execWrite len s) (execWrite len s')
    unfold execWrite
    rw [caller]
    split
    · exact told (blind_writeBody _)
    · exact fun _ refused => by cases refused
  | read len =>
    show Follows base (execRead len s) (execRead len s')
    unfold execRead
    rw [caller]
    split
    · exact runCommand_follows (blind_readBody _) h
    · exact fun _ refused => by cases refused
  | flush => exact told blind_flushBody
  | close => exact told blind_closeBody
  | seek offset origin => exact told (blind_ite (blind_unsupported _) (blind_raise _))
  | getpos => exact told (blind_unsupported _)
  | setpos value => exact told (blind_unsupported _)
  | setlen value => exact told (blind_unsupported _)
  | getlen => exact told blind_getlenBody
  | rdstat sel => exact told (blind_rdstatBody sel)

theorem resume_follows (f : InFlight) (h : s.Twin base s') : Follows base (resume f s) (resume f s') := by
  cases f with
  | writeLoop => exact settle_follows blind_writeLoop h
  | nameLoop len hd acc =>
    exact settle_follows (body := resumeName len hd acc) (blind_bind (blind_readName _ _ _) fun _ =>
      blind_bind (blind_hdrFromComment _ _) fun _ => blind_readData _) h
  | commentLoop len hd acc =>
    exact settle_follows (body := resumeComment len hd acc) (blind_bind (blind_readComment _ _ _) fun _ =>
      blind_bind (blind_hdrClose _) fun _ => blind_readData _) h
  | readLoop len room w => exact settle_follows (blind_readLoop _ _ _) h
  | finishLoop =>
    exact settle_follows (body := resumeFinish) (blind_bind (blind_attempt blind_writerFinish) fun _ =>
      blind_teardown _) h
  | stuck p => exact (h.paused _).follows

/-- A step from a twin is the twin of the step. -/
theorem step_follows (h : s.Twin base s') : Follows base (step s) (step s') := by
  have same : s'.inFlight = s.inFlight ∧ s'.commands = s.commands := by
    obtain ⟨v, r, rfl, -⟩ := h
    exact ⟨rfl, rfl⟩
  unfold step
  rw [same.1, same.2]
  split
  · exact resume_follows _ (h.update (g := State.resumed))
  · split
    · exact h.follows
    · rename_i c rest _
      have taken := h.update (g := (·.takeCommand rest))
      split
      · exact (taken.respond _).follows
      · exact exec_follows _ (taken.update (g := (·.withData c.data)))

end Sys2Proof.Machine

open Sys2Proof Sys2Proof.Machine in
/-- Settles O60: no action of any command reads the window but the engine's step, which hands it to the engine. -/
theorem noRuleReadsTheWindow : Obligations.NoRuleReadsTheWindow := by
  intro s t v len ht
  obtain ⟨_, step', v', r, rfl, len', same⟩ := step_follows (.refl s len) t ht
  exact ⟨v', r, step', len', same⟩
end

section
/-! The push loops with known answers (41_write.md R205 to R209, 43_control.md R246): what one round leaves, and that a
loop which has not ended goes on from there, in the same step or in the next. With them O36, O43, O45 and O46. -/

namespace Sys2Proof.Machine

variable {s t : State} {flush : FlushType} {a : StepAnswer} {q : List (Reply StepAnswer)}
  {r : List (Reply WriteAnswer)}

/-! ### A round of a push loop -/

/-- The next push step is answered `a`, which is no failure, and the channel takes its bytes; `q` and `r` are the
answers still to come (R205). -/
structure State.Pushes (s : State) (a : StepAnswer) (q : List (Reply StepAnswer)) (r : List (Reply WriteAnswer)) :
    Prop where
  next : s.ports.engStep = .answer a :: q
  within : a.consumed ≤ s.window.length
  room : a.produced.length ≤ s.wbLen
  status : a.status = .ok ∨ a.status = .streamEnd
  wrote : s.ports.chWrite = (if a.produced = [] then [] else [.answer .ok]) ++ r

/-- The state that push step leaves. -/
def State.pushStepped (s : State) (flush : FlushType) (a : StepAnswer) (q : List (Reply StepAnswer))
    (r : List (Reply WriteAnswer)) : State :=
  { s with
    inNext := s.inNext + a.consumed, inAvail := s.inAvail - a.consumed
    engTotalOut := s.engTotalOut + BitVec.ofNat 64 a.produced.length
    work := a.produced ++ s.work.drop a.produced.length
    ports := { s.ports with engStep := q, chWrite := r }
    trace := s.trace ++ [.engStep flush s.cmode s.window s.wbLen a] ++
      (if a.produced = [] then [] else [.chWrite a.produced .ok]) }

theorem State.Pushes.step (h : s.Pushes a q r) (flush : FlushType) :
    pushStep flush s = .ok a (s.pushStepped flush a q r) := by
  rw [pushStep_run h.next ((stepFits_iff _ _ _).2 ⟨h.within, h.room⟩) ((isFailure_false_iff _).2 h.status) h.wrote,
    memWrite_zero]
  rfl

theorem State.Pushes.resumed (h : s.Pushes a q r) : s.resumed.Pushes a q r :=
  ⟨h.next, h.within, h.room, h.status, h.wrote⟩

/-- The push step answered `a` meets the done condition of WRITE (R206, R207). -/
def State.EndsWrite (s : State) (a : StepAnswer) : Prop :=
  s.inAvail - a.consumed = s.doneAvail ∧ a.produced.length < s.wbLen

/-- And that of Finish (R246, decision D24). -/
def State.EndsFinish (s : State) (a : StepAnswer) : Prop :=
  s.EndsWrite a ∧ (s.plat.finishRequiresStreamEnd = false ∨ a.status = .streamEnd)

theorem writeDone_iff (s : State) (room : Nat) :
    s.writeDone room = true ↔ s.inAvail = s.doneAvail ∧ room ≠ 0 := by
  simp [State.writeDone]

theorem room_left_iff {n room : Nat} : room - n ≠ 0 ↔ n < room := by omega

/-- Whether a round of WRITE's loop ends it (R206, R207). -/
theorem pushStepped_writeDone_iff :
    (s.pushStepped flush a q r).writeDone (s.wbLen - a.produced.length) = true ↔ s.EndsWrite a := by
  rw [writeDone_iff, room_left_iff]
  rfl

/-- Whether a round of Finish's loop ends it (R246, decision D24). -/
theorem pushStepped_finishDone_iff :
    (s.pushStepped flush a q r).finishDone (s.wbLen - a.produced.length) a.status = true ↔ s.EndsFinish a := by
  rw [finishDone_iff, room_left_iff, ← and_assoc]
  rfl

/-! ### The loops -/

/-- A push loop that has not ended goes on, in the same step while engine answers are scripted (log 4). -/
theorem iterate_goesOn {α : Type} {body : Unit → Act (Unit ⊕ α)} {at_ : Unit → InFlight}
    (next : s.ports.engStep = .answer a :: q) (round : body () s = .ok (.inl ()) t) (left : t.ports.engStep = q) :
    iterate body at_ (roundsOf s.ports.engStep) () s =
      if q = [] then .error (.pause (at_ ())) t else iterate body at_ (roundsOf t.ports.engStep) () t := by
  rw [next, left]
  cases q with
  | nil => exact iterate_pause round
  | cons b q => exact iterate_again round

/-- WRITE's loop, a round that ends it. -/
theorem writeLoop_done (h : s.Pushes a q r) (done : s.EndsWrite a) :
    writeLoop s = .ok (.ok .unit) (s.pushStepped .none a q r) := by
  have round := writeRound_run (h.step .none)
  rw [if_pos (by exact pushStepped_writeDone_iff.2 done)] at round
  exact iterate_done round

/-- WRITE's loop, a round that does not. -/
theorem writeLoop_goesOn (h : s.Pushes a q r) (undone : ¬s.EndsWrite a) :
    writeLoop s =
      if q = [] then .error (.pause .writeLoop) (s.pushStepped .none a q r)
      else writeLoop (s.pushStepped .none a q r) := by
  have round := writeRound_run (h.step .none)
  rw [if_neg (by exact mt pushStepped_writeDone_iff.1 undone)] at round
  exact iterate_goesOn h.next round rfl

/-- Finish's loop, a round that does not end it. -/
theorem finishLoop_goesOn (h : s.Pushes a q r) (undone : ¬s.EndsFinish a) :
    finishLoop s =
      if q = [] then .error (.pause .finishLoop) (s.pushStepped .finish a q r)
      else finishLoop (s.pushStepped .finish a q r) := by
  have round := finishRound_run (h.step .finish)
  rw [if_neg (by exact mt pushStepped_finishDone_iff.1 undone)] at round
  exact iterate_goesOn h.next round rfl

/-- And with it the rest of CLOSE. -/
theorem resumeFinish_goesOn (h : s.Pushes a q r) (undone : ¬s.EndsFinish a) :
    resumeFinish s =
      if q = [] then .error (.pause .finishLoop) (s.pushStepped .finish a q r)
      else resumeFinish (s.pushStepped .finish a q r) := by
  have loop := finishLoop_goesOn h undone
  by_cases none : q = [] <;> simp [resumeFinish, attempt, writerFinish, loop, none]

/-! ### Steps -/

/-- A step whose loop goes on from `t` leaves the command in flight there, or is the step that goes on from there. -/
theorem settle_goesOn {body : Act Response} {f : InFlight} (rest : resume f t = settle noBuffer (body t))
    (idle : t.inFlight = none) (loop : body s = if q = [] then .error (.pause f) t else body t) :
    settle noBuffer (body s) = if q = [] then .next (t.paused f) else step (t.paused f) := by
  have goes : step (t.paused f) = settle noBuffer (body t) := by
    rw [step_of_flight rfl, ← rest]
    exact congrArg (resume f) (resumed_of_idle idle)
  rw [loop, goes]
  split <;> rfl

/-- A WRITE with data on a live Writer in its loop, its bytes fed and loaded (R203). -/
def State.writing (s : State) : State :=
  { s with
    crcReg := if s.crcLive then crcFold s.plat.crc32fn s.crcReg s.caller else s.crcReg
    crcCount := if s.crcLive then s.crcCount + BitVec.ofNat 64 s.caller.length else s.crcCount
    inWin := s.caller, inNext := 0, inAvail := s.caller.length, inFlight := some .writeLoop }

theorem window_writing (s : State) : s.writing.window = s.caller := window_loadWindow s s.caller

/-- The step that begins such a WRITE is the one that goes on with it from there. -/
theorem execWrite_writing {len : U32} (idle : s.inFlight = none) (opened : s.disposed = false)
    (writer : s.streamMode = .writer) (engine : s.engLive = true) (buffer : s.wbLive = true) (some : len ≠ 0)
    (fits : s.caller.length = len.toNat) : exec (.write len) s = step s.writing := by
  have loaded : (s.crcFeed s.caller).loadWindow s.caller = s.writing.resumed := by
    rw [State.crcFeed_eq, ← resumed_of_idle idle]
    rfl
  rw [execWrite_eq idle fits, writeBody_of_writer opened writer, writeData_live engine buffer (toNat_ne_zero some),
    step_of_flight rfl, loaded]
  rfl

/-- A step of a WRITE in flight is its loop. -/
theorem step_writeLoop (flight : s.inFlight = some .writeLoop) : step s = settle noBuffer (writeLoop s.resumed) :=
  step_of_flight flight

/-- A WRITE in flight whose next round meets the done condition (R206, R207). -/
theorem step_writeDone (flight : s.inFlight = some .writeLoop) (h : s.Pushes a q r) (done : s.EndsWrite a) :
    step s = .next ((s.pushStepped .none a q r).resumed.respond (.ok .unit)) := by
  rw [step_writeLoop flight, writeLoop_done h.resumed done]
  rfl

/-- The field-wise form of a push step's state before its ChWrite. -/
theorem stepped_eq (s : State) (flush : FlushType) (a : StepAnswer) (q : List (Reply StepAnswer)) :
    s.stepped flush a q = { s with
      inNext := s.inNext + a.consumed, inAvail := s.inAvail - a.consumed
      engTotalOut := s.engTotalOut + BitVec.ofNat 64 a.produced.length
      work := a.produced ++ s.work.drop a.produced.length
      ports := { s.ports with engStep := q }
      trace := s.trace ++ [.engStep flush s.cmode s.window s.wbLen a] } := by
  rw [State.stepped, memWrite_zero]
  rfl

/-- A WRITE in flight whose engine step fails (R208). -/
theorem step_writeFailed (flight : s.inFlight = some .writeLoop) (next : s.ports.engStep = .answer a :: q)
    (within : a.consumed ≤ s.window.length) (room : a.produced.length ≤ s.wbLen) (bad : a.status ≠ .ok)
    (unended : a.status ≠ .streamEnd) :
    step s = .next ((s.stepped .none a q).resumed.respond (.err (.engineFail a.status) none)) := by
  have failure : a.status.isFailure = true := by
    rw [← Bool.not_eq_false, isFailure_false_iff]
    exact not_or.2 ⟨bad, unended⟩
  rw [step_writeLoop flight, writeLoop_left (pushStep_failed (s := s.resumed) next
    ((stepFits_iff _ _ _).2 ⟨within, room⟩) failure)]
  rfl

/-- A WRITE in flight whose payload ChWrite fails (R284, R290). -/
theorem step_writeUnwritten (flight : s.inFlight = some .writeLoop) (next : s.ports.engStep = .answer a :: q)
    (within : a.consumed ≤ s.window.length) (room : a.produced.length ≤ s.wbLen)
    (status : a.status = .ok ∨ a.status = .streamEnd) (some : a.produced ≠ []) {e : Bytes} {k : Nat}
    (prefix_ : k ≤ a.produced.length) (failed : s.ports.chWrite = .answer (.fail e k) :: r) :
    step s = .next (((s.stepped .none a q).resumed.exchanged { s.ports with engStep := q, chWrite := r } s.draws
      (.chWrite a.produced (.fail e k))).respond (.err (.chFail e) none)) := by
  rw [step_writeLoop flight, writeLoop_left (pushStep_unwritten (s := s.resumed) next
    ((stepFits_iff _ _ _).2 ⟨within, room⟩) ((isFailure_false_iff _).2 status) some failed prefix_)]
  rfl

/-! ### An engine that makes no progress -/

/-- `n` engine steps on record that consumed and produced nothing, with `q` the answers still to come. -/
def State.stalled (s : State) (n : Nat) (q : List (Reply StepAnswer)) : State :=
  { s with
    ports := { s.ports with engStep := q }
    trace := s.trace ++ List.replicate n (.engStep .none s.cmode s.window s.wbLen ⟨0, [], .ok⟩) }

theorem stalled_stalled (s : State) (m n : Nat) (q q' : List (Reply StepAnswer)) :
    (s.stalled m q).stalled n q' = s.stalled (m + n) q' := by
  simp only [State.stalled, State.mk.injEq, List.append_assoc, List.replicate_add]
  simp [State.window]

theorem pushStepped_stall (s : State) (q : List (Reply StepAnswer)) :
    s.pushStepped .none ⟨0, [], .ok⟩ q s.ports.chWrite = s.stalled 1 q := by
  simp [State.pushStepped, State.stalled]

/-- The block detects no lack of progress (R209). -/
theorem writeLoop_stalled {n : Nat} (unread : s.inAvail ≠ s.doneAvail)
    (next : s.ports.engStep = List.replicate (n + 1) (.answer ⟨0, [], .ok⟩)) :
    writeLoop s = .error (.pause .writeLoop) (s.stalled (n + 1) []) := by
  induction n generalizing s with
  | zero =>
    rw [writeLoop_goesOn (q := []) ⟨next, Nat.zero_le _, Nat.zero_le _, .inl rfl, rfl⟩ (fun done => unread done.1),
      pushStepped_stall, if_pos rfl]
  | succ n ih =>
    rw [writeLoop_goesOn ⟨next, Nat.zero_le _, Nat.zero_le _, .inl rfl, rfl⟩ (fun done => unread done.1),
      pushStepped_stall, if_neg (by simp), ih (by exact unread) rfl, stalled_stalled, Nat.add_comm 1]

end Sys2Proof.Machine

open Sys2Proof Sys2Proof.Machine in
/-- Settles O46: the loaded WRITE is one in flight; a round ends its loop or goes on, and Finish's round goes on too. -/
theorem writeRound : Obligations.WriteRound := by
  refine ⟨fun len s idle opened writer engine buffer some fits => ?_,
    fun s a r flight next wrote within room status => ?_,
    fun s t o f flush a q r steps next wrote within room status undone left => ?_⟩
  · exact execWrite_writing idle opened writer engine buffer some fits
  · have pushes : s.Pushes a [] r := ⟨next, within, room, status, wrote⟩
    by_cases done : s.EndsWrite a
    · rw [step_writeDone flight pushes done]
      exact ⟨_, rfl, rfl, rfl, (if_pos (by exact done)).mpr ⟨rfl, rfl⟩⟩
    · rw [step_writeLoop flight, writeLoop_goesOn pushes.resumed done]
      exact ⟨_, rfl, rfl, rfl, (if_neg (by exact done)).mpr ⟨rfl, rfl⟩⟩
  · have pushes := State.Pushes.resumed ⟨next, within, room, status, wrote⟩
    have same : t = (s.resumed.pushStepped flush a q r).paused f := left
    have undone : ¬s.EndsWrite a ∨ f = .finishLoop ∧ s.plat.finishRequiresStreamEnd = true ∧ a.status = .ok := by
      obtain unread | filled | wanted := undone
      · exact .inl fun ends => unread ends.1
      · exact .inl fun ends => ends.2.ne filled
      · exact .inr wanted
    rw [same]
    obtain ⟨rfl, rfl, flight, rfl⟩ | ⟨rfl, rfl, steps⟩ := steps
    · have unended : ¬s.EndsWrite a := undone.resolve_right fun wanted => by cases wanted.1
      rw [step_writeLoop flight]
      exact settle_goesOn rfl rfl (writeLoop_goesOn pushes unended)
    · have unended : ¬s.EndsFinish a := by
        rintro ⟨done, complete⟩
        obtain undone | ⟨-, required, ok⟩ := undone
        · exact undone done
        · simp [required, ok] at complete
      have close : o = settle noBuffer (resumeFinish s.resumed) := by
        obtain ⟨flight, rfl⟩ | ⟨idle, opened, writer, engine, rfl⟩ := steps
        · exact step_of_flight flight
        · exact close_finishing (.inl ⟨idle, rfl⟩) opened writer engine
      rw [close]
      exact settle_goesOn rfl rfl (resumeFinish_goesOn pushes unended)

open Sys2Proof Sys2Proof.Machine in
/-- Settles O43: the WRITE loaded and in its loop, whose one round ends it. -/
theorem writeResult : Obligations.WriteResult := by
  intro len s a q r idle opened writer engine buffer some fits next wrote within room status left
  have pushes : s.writing.Pushes a q r := ⟨next, (window_writing s).symm ▸ within, room.le, status, wrote⟩
  rw [execWrite_writing idle opened writer engine buffer some fits, step_writeDone rfl pushes ⟨left, room⟩,
    State.pushStepped, window_writing]
  simp [State.respond, State.writing, State.resumed, idle]

open Sys2Proof Sys2Proof.Machine in
/-- Settles O45: the failing round of a WRITE in flight; a WRITE that begins is one, once loaded. -/
theorem writeEngineFailure : Obligations.WriteEngineFailure := by
  refine ⟨fun len s a q idle opened writer engine buffer some fits next within room => ?_,
    fun s a q flight next within room => ⟨fun bad unended => ?_, fun e k w status produced prefix_ failed => ?_⟩⟩
  · have begun := execWrite_writing idle opened writer engine buffer some fits
    have within : a.consumed ≤ s.writing.window.length := (window_writing s).symm ▸ within
    refine ⟨fun bad unended => ?_, fun e k w status produced prefix_ failed => ?_⟩
    · rw [begun, step_writeFailed (s := s.writing) rfl next within room bad unended, stepped_eq, window_writing]
      simp [State.respond, State.writing, State.resumed, idle]
    · rw [begun, step_writeUnwritten (s := s.writing) rfl next within room status produced prefix_ failed, stepped_eq,
        window_writing]
      simp [State.respond, State.exchanged, State.writing, State.resumed, idle]
  · rw [step_writeFailed flight next within room bad unended, stepped_eq]
    rfl
  · rw [step_writeUnwritten flight next within room status produced prefix_ failed, stepped_eq]
    simp only [State.resumed, State.exchanged, List.append_assoc]
    rfl

open Sys2Proof Sys2Proof.Machine in
/-- Settles O36: no round meets the done condition, since the window stays as it is. -/
theorem stalledWriteHangs : Obligations.StalledWriteHangs := by
  intro n s flight unread no next
  have undone : s.inAvail ≠ s.doneAvail := by
    rw [State.doneAvail, if_neg no]
    exact unread.ne'
  have same : (s.resumed.stalled (n + 1) []).paused .writeLoop = s.stalled (n + 1) [] := by
    rw [State.paused, ← flight]
    rfl
  rw [step_writeLoop flight, writeLoop_stalled (s := s.resumed) undone next]
  exact congrArg Host.Outcome.next same
end

section
/-! Where a WRITE answers Ok (41_write.md R206, R207, R331), O34 and O35: only the round that meets the done condition
answers, so what holds behind it holds of every WRITE with data that answered. -/

namespace Sys2Proof.Machine

variable {α β : Type} {Q : β → State → Prop} {s t : State}

/-- The loop of a WRITE has ended: the done condition is met, and the last engine step left room and did not fail. -/
def State.WriteEnded (s : State) : Prop :=
  s.inAvail = s.doneAvail ∧
  ∃ a as, engineAnswers s.trace = as ++ [a] ∧ a.produced.length < s.wbLen ∧ a.status.isFailure = false

/-! ### The normal ends of a WRITE -/

/-- What holds of the normal ends of the last part holds of those of the whole. -/
theorem wp_last {m : Act α} {f : α → Act β} (h : ∀ a s, Act.wp (f a) Q (fun _ _ => True) s) :
    Act.wp (m >>= f) Q (fun _ _ => True) s := by
  rw [Act.wp_bind, Act.wp]
  cases m s with
  | ok a s' => exact h a s'
  | error x s' => trivial

/-- Two things shown of the same pseudocode hold together. -/
theorem Act.wp_and {m : Act β} {Q' : β → State → Prop} {X X' : Exit → State → Prop} (h : Act.wp m Q X s)
    (h' : Act.wp m Q' X' s) :
    Act.wp m (fun a s' => Q a s' ∧ Q' a s') (fun x s' => X x s' ∧ X' x s') s := by
  unfold Act.wp at *
  cases hm : m s with
  | ok a s' => rw [hm] at h h'; exact ⟨h, h'⟩
  | error x s' => rw [hm] at h h'; exact ⟨h, h'⟩

/-- A push step that ends well is the last engine step on record. -/
theorem pushStep_recorded (flush : FlushType) :
    Act.wp (pushStep flush)
      (fun a s' => (∃ as, engineAnswers s'.trace = as ++ [a]) ∧ a.status.isFailure = false) (fun _ _ => True) s :=
  pushStep_wp flush ⟨trivial, fun _ => trivial⟩ (fun _ _ _ _ _ _ => ⟨trivial, fun _ => trivial⟩)
    (fun _ _ _ _ _ => trivial)
    (fun _ _ _ _ good _ => ⟨⟨engineAnswers s.trace, by simp [engineAnswers]⟩, good⟩)
    (fun _ _ _ _ _ _ good _ => ⟨⟨engineAnswers s.trace, by simp [engineAnswers]⟩, good⟩)
    fun _ _ _ _ _ _ _ _ _ _ _ => trivial

theorem writeRound_ended (u : Unit) :
    Act.wp (writeRound u) (fun r s' => r.isRight = true → s'.WriteEnded) (fun _ _ => True) s := by
  unfold writeRound
  rw [Act.wp_bind]
  refine Act.wp_mono (pushStep_recorded .none) (fun a s' h => ?_) fun _ _ _ => trivial
  obtain ⟨⟨as, last⟩, good⟩ := h
  rw [Act.wp_bind, Act.wp_getState, Act.wp_ite]
  refine ⟨fun done _ => ?_, fun _ more => by cases more⟩
  obtain ⟨left, room⟩ := (writeDone_iff _ _).1 done
  exact ⟨left, a, as, last, by omega, good⟩

theorem writeLoop_ended : Act.wp writeLoop (fun _ s' => s'.WriteEnded) (fun _ _ => True) s := by
  unfold writeLoop
  rw [Act.wp_bind, Act.wp_getState]
  refine Act.wp_iterate (fun _ _ => True) (fun u s _ => ?_) (fun _ _ _ => trivial) _ _ trivial
  refine Act.wp_mono (writeRound_ended u) (fun r s' h => ?_) fun _ _ _ => trivial
  cases r with
  | inl u => trivial
  | inr r => exact h rfl

/-- A WRITE with data ends well only behind its loop. -/
theorem writeBody_ended {len : Nat} (some : len ≠ 0) :
    Act.wp (writeBody len) (fun _ s' => s'.WriteEnded) (fun _ _ => True) s := by
  have data : ∀ s, Act.wp (writeData len) (fun _ s' => s'.WriteEnded) (fun _ _ => True) s := fun s => by
    rw [writeData, if_neg some]
    exact wp_last fun _ _ => wp_last fun _ _ => wp_last fun _ _ => writeLoop_ended
  unfold writeBody
  rw [Act.wp_bind, Act.wp_getState, Act.wp_ite, Act.wp_ite]
  exact ⟨fun _ => trivial, fun _ => ⟨fun _ => trivial, fun _ => wp_last fun _ => data⟩⟩

/-- A command that answers Ok ended well. -/
theorem settle_ok {P : State → Prop} {buffer : State → Option Bytes} {body : Act Response} {rs : List Response}
    {v : Value} (respond : ∀ s r, P s → P (s.respond r))
    (h : Act.wp body (fun _ s' => P s') (fun _ _ => True) s) (ht : settle buffer (body s) = .next t)
    (ended : t.inFlight = none) (ok : t.responses = rs ++ [.ok v]) : P t := by
  refine settle_next (P := fun t => t.inFlight = none → t.responses = rs ++ [.ok v] → P t)
    (Act.wp_mono h (fun r s' h _ _ => respond s' r h) fun x s' _ => ?_) ht ended ok
  cases x with
  | raise e =>
    intro _ ok
    cases (List.append_inj' ok rfl).2
  | pause f => exact fun ended => by cases ended
  | refuse r => trivial

/-- What holds of every normal end of a WRITE's pseudocode holds once it has answered Ok. -/
theorem execWrite_ok {P : State → Prop} {len : U32} {rs : List Response} {v : Value}
    (respond : ∀ s r, P s → P (s.respond r))
    (h : s.caller.length = operandLen len →
      Act.wp (writeBody (operandLen len)) (fun _ s' => P s') (fun _ _ => True) s)
    (ht : exec (.write len) s = .next t) (ended : t.inFlight = none) (ok : t.responses = rs ++ [.ok v]) : P t := by
  have ht : execWrite len s = .next t := ht
  unfold execWrite runCommand at ht
  split at ht
  · split at ht
    · cases ht
    · exact settle_ok respond (h ‹_›) ht ended ok
  · cases ht

/-- A step that answered left no command in flight. -/
theorem ended_of_answer {r : Response}
    (once : (t.inFlight = none ∧ ∃ r, t.responses = s.responses ++ [r]) ∨
      (t.inFlight ≠ none ∧ t.responses = s.responses))
    (answered : t.responses = s.responses ++ [r]) : t.inFlight = none := by
  obtain ⟨ended, -⟩ | ⟨-, silent⟩ := once
  · exact ended
  · simp [answered] at silent

theorem execWrite_ended {len : U32} {v : Value} (some : len ≠ 0) (ht : exec (.write len) s = .next t)
    (ok : t.responses = s.responses ++ [.ok v]) : t.WriteEnded :=
  execWrite_ok (fun _ _ h => h) (fun _ => writeBody_ended (toNat_ne_zero some)) ht
    (ended_of_answer (oneResponse.1 _ _ _ ht) ok) ok

theorem stepWrite_ended {v : Value} (flight : s.inFlight = some .writeLoop) (ht : step s = .next t)
    (ok : t.responses = s.responses ++ [.ok v]) : t.WriteEnded := by
  rw [step_of_flight flight] at ht
  exact settle_ok (fun _ _ h => h) writeLoop_ended ht (ended_of_answer (oneResponse.2 _ s.resumed _ rfl ht) ok) ok

/-- What holds where a WRITE's pseudocode waits at `f` holds once it waits there. -/
theorem execWrite_waiting {P : State → Prop} {len : U32} {f : InFlight} (paused : ∀ s f, P s → P (s.paused f))
    (h : s.caller.length = operandLen len →
      Act.wp (writeBody (operandLen len)) (fun _ _ => True) (fun x s' => x = .pause f → P s') s)
    (ht : exec (.write len) s = .next t) (waits : t.inFlight = some f) : P t := by
  have ht : execWrite len s = .next t := ht
  unfold execWrite at ht
  split at ht
  · refine runCommand_next (P := fun t => t.inFlight = some f → P t) (fun idle => ?_) ht waits
    have quiet := keeps_writeBody (unanswered_body s.responses) (operandLen len) s ⟨idle, rfl⟩
    refine Act.wp_mono (Act.wp_and (h ‹_›) quiet) (fun r s' h waits => ?_) fun x s' h => ?_
    · obtain ⟨-, free, -⟩ := h
      simp [free] at waits
    · obtain ⟨there, free, -⟩ := h
      cases x with
      | raise e =>
        intro waits
        simp [free] at waits
      | pause g => exact fun waits => paused s' g (there (congrArg Exit.pause (Option.some.inj waits)))
      | refuse r => trivial
  · cases ht

/-! ### A window too short to end with -/

/-- IN_AVAIL is below `n`. -/
def State.WindowBelow (n : Nat) (s : State) : Prop := s.inAvail < n

theorem windowBelow_push (n : Nat) : PushEffects (State.WindowBelow n) where
  other _ _ _ _ _ h := h
  stepped _ _ _ _ _ _ _ h := lt_of_le_of_lt (Nat.sub_le _ _) h
  work _ _ h := h

/-- Materialise leaves the caller's bytes, and is no place where a WRITE waits in its loop. -/
theorem materialise_caller :
    Act.wp materialise (fun _ s' => s'.caller = s.caller) (fun x _ => x ≠ .pause .writeLoop) s := by
  have halts : ∀ {p s}, Act.Halts (fun x _ => x ≠ .pause .writeLoop) p s := ⟨by simp, by simp⟩
  have lease : ∀ s' : State, s'.caller = s.caller →
      Act.wp (do let s ← getState; onlyIf (s.wbLive = false) leaseBuffer) (fun _ s' => s'.caller = s.caller)
        (fun x _ => x ≠ .pause .writeLoop) s' := fun s' same => by
    rw [Act.wp_bind, Act.wp_getState, Act.wp_onlyIf]
    exact ⟨fun _ => leaseBuffer_wp halts fun _ _ _ _ => same, fun _ => same⟩
  unfold materialise
  rw [Act.wp_bind, Act.wp_getState, Act.wp_bind, Act.wp_onlyIf]
  exact ⟨fun _ => startEngine_wp halts (fun _ _ _ => lease _ rfl) fun _ _ _ => by simp, fun _ => lease s rfl⟩

/-- A WRITE of fewer than `n` bytes ends well, or waits in its loop, only with a window shorter than `n`. -/
theorem writeData_windowBelow {n len : Nat} (some : len ≠ 0) (short : s.caller.length < n) :
    Act.wp (writeData len) (fun _ s' => s'.WindowBelow n) (fun x s' => x = .pause .writeLoop → s'.WindowBelow n)
      s := by
  rw [writeData, if_neg some, Act.wp_bind, Act.wp_update, Act.wp_bind]
  refine Act.wp_mono materialise_caller (fun _ s' same => ?_) fun x s' other here => absurd here other
  have loaded : (s'.loadWindow s'.caller).WindowBelow n := by
    simpa [State.WindowBelow, same] using short
  exact Act.wp_mono (keeps_writeLoop (windowBelow_push n) _ loaded) (fun _ _ h => h) fun _ _ h _ => h

theorem writeBody_windowBelow {n len : Nat} (no : ¬(s.flavor = .gzip ∧ s.cmode = .compress)) (some : len ≠ 0)
    (short : s.caller.length < n) :
    Act.wp (writeBody len) (fun _ s' => s'.WindowBelow n) (fun x s' => x = .pause .writeLoop → s'.WindowBelow n)
      s := by
  unfold writeBody enterWriter
  simp only [Act.wp_bind, Act.wp_getState, Act.wp_ite, Act.wp_raise, Act.wp_onlyIf, Act.wp_update]
  exact ⟨fun _ => by simp, fun _ => ⟨fun _ => by simp, fun _ => ⟨fun _ => ⟨fun due => absurd due no,
    fun _ => writeData_windowBelow some short⟩, fun _ => writeData_windowBelow some short⟩⟩⟩

end Sys2Proof.Machine

open Sys2Proof Sys2Proof.Machine in
/-- Settles O34: a WRITE with data ends well only behind its loop, which ends only at its done condition. -/
theorem writeEndsWhenDone : Obligations.WriteEndsWhenDone := by
  intro len s t steps ok
  have done : t.WriteEnded := by
    obtain ⟨ht, some⟩ | ⟨flight, ht⟩ := steps
    · exact execWrite_ended some ht ok
    · exact stepWrite_ended flight ht ok
  have kept : s.SameReadOnly t := by
    obtain ⟨ht, -⟩ | ⟨-, ht⟩ := steps
    · exact exec_keeps (sameReadOnly_effects s) (.refl s) ht
    · exact step_sameReadOnly ht
  obtain ⟨left, last⟩ := done
  obtain ⟨-, flavor, cmode, -⟩ := kept
  rw [State.doneAvail, flavor, cmode] at left
  exact ⟨left, last⟩

open Sys2Proof Sys2Proof.Machine in
/-- Settles O35: the window is never longer than the bytes loaded, and the loop ends only with 8 of them left. -/
theorem shortGzipDecompressWrite : Obligations.ShortGzipDecompressWrite := by
  refine ⟨fun len s t gzip decompress some short ht => ?_, fun s t gzip decompress flight short ht => ?_⟩
  · have below (fits : s.caller.length = operandLen len) := writeBody_windowBelow (s := s) (n := 8)
      (by simp [decompress]) (toNat_ne_zero some) (lt_of_eq_of_lt fits short)
    refine ⟨fun ok => ?_, fun waits => ?_⟩
    · have left := (writeEndsWhenDone len s t (.inl ⟨ht, some⟩) ok).1
      rw [if_pos ⟨gzip, decompress⟩] at left
      have below : t.WindowBelow 8 := execWrite_ok (fun _ _ h => h)
        (fun fits => Act.wp_mono (below fits) (fun _ _ h => h) fun _ _ _ => trivial) ht
        (ended_of_answer (oneResponse.1 _ _ _ ht) ok) ok
      exact below.ne left
    · exact execWrite_waiting (P := State.WindowBelow 8) (fun _ _ h => h)
        (fun fits => Act.wp_mono (below fits) (fun _ _ _ => trivial) fun _ _ h => h) ht waits
  · have below : t.WindowBelow 8 := by
      rw [step_of_flight flight] at ht
      exact ends_of (fun _ _ h => h) (fun _ _ h => h) (resumeWrite_ends (windowBelow_push 8) (s := s.resumed) short ht)
    refine ⟨fun ok => ?_, below⟩
    have left := (writeEndsWhenDone 0 s t (.inr ⟨flight, ht⟩) ok).1
    rw [if_pos ⟨gzip, decompress⟩] at left
    exact below.ne left
end

section
/-! Commands that answer at once: on a closed adapter (41_write.md R210, 42_read.md R232, 43_control.md R250), O38, and
transfers of no bytes (41_write.md R202, 42_read.md R222, R223), O47. -/

namespace Sys2Proof.Machine

variable {s : State}

/-- A READ of no bytes, or of an empty stream, answers at once (R222, R223). -/
theorem readData_none {n : Nat} (none : s.hdrState = .empty ∨ n = 0) :
    readData n s = .ok (.ok (.read 0 s.caller)) s := by
  by_cases empty : s.hdrState = .empty
  · simp [readData, empty, readAnswer]
  · simp [readData, none.resolve_left empty, readAnswer]

/-- A command that asks DISPOSED first, on a closed adapter. -/
theorem runCommand_closed {buffer : State → Option Bytes} {m : Mnemonic} {rest : State → Act Response}
    (idle : s.inFlight = none) (closed : s.disposed = true) :
    runCommand buffer (getState >>= fun s => if s.disposed then raise (.disposed m) else rest s) s =
      .next (s.respond (.err (.disposed m) (buffer s))) := by
  simp [runCommand, idle, closed, settle]

end Sys2Proof.Machine

open Sys2Proof Sys2Proof.Machine in
/-- Settles O38: each command asks DISPOSED first. -/
theorem closedInstance : Obligations.ClosedInstance := by
  intro s idle closed
  refine ⟨fun len fits => ⟨?_, ?_⟩, runCommand_closed idle closed, runCommand_closed idle closed, ?_⟩
  · exact (if_pos fits).trans (runCommand_closed idle closed)
  · exact (if_pos fits).trans (runCommand_closed idle closed)
  · show runCommand noBuffer closeBody s = _
    simp [runCommand, closeBody, idle, closed, settle, State.respond]

open Sys2Proof Sys2Proof.Machine in
/-- Settles O47: past the setting of the mode, a transfer of no bytes only answers. -/
theorem zeroLengthTransfers : Obligations.ZeroLengthTransfers := by
  intro s idle opened
  refine ⟨fun none writer => execWrite_zero idle opened writer none, fun none fresh no => ?_,
    fun len fits reader none => ?_, fun none fresh no => ?_⟩
  · rw [execWrite_eq idle (by simp [none]), writeBody_enter opened fresh no]
    rfl
  · rw [execRead_eq idle fits, readBody_of_reader opened reader,
      readData_none (none.imp_right fun zero => by simp [zero])]
    rfl
  · have entered := readData_none (s := s.setMode .reader) (n := (0 : U32).toNat) (.inr rfl)
    rw [execRead_eq idle (by simp [none]), readBody_headerless opened (.inr ⟨fresh, no⟩), entered]
    exact congrArg (fun b => Host.Outcome.next ((s.setMode .reader).respond (.ok (.read 0 b)))) none
end

section
/-! What a Reader returned (42_read.md R226, R230, R233), O17: each engine step of a READ adds to the bytes in hand what
it adds to the bytes produced, and an answered READ returns the bytes in hand. With it, O19. -/

namespace Sys2Proof.Machine

variable {s : State} {w : Bytes} {len room : Nat}

/-! ### What is returned, and what a READ has in hand -/

/-- While no transaction has failed, what a Reader returned and the bytes `w` its READ has in hand are what its engine
produced. -/
def State.Returns (w : Bytes) (s : State) : Prop :=
  s.streamMode ≠ .writer → s.trace.all Txn.clean = true → returned s.responses ++ w = produced s.trace

theorem State.ReturnInv.returns (h : s.ReturnInv) (unstuck : ∀ p, ¬s.StuckOn p) : s.Returns s.pending :=
  fun unwritten clean => (h unwritten clean).2 (unstuck _) (unstuck _)

theorem State.ReturnInv.returns_idle (h : s.ReturnInv) (idle : s.inFlight = none) : s.Returns [] := by
  have none : s.pending = [] := by simp [State.pending, idle]
  exact none ▸ h.returns (by simp [idle])

/-- Going on with a command that is not stuck. -/
theorem State.ReturnInv.resumed (h : s.ReturnInv) {f : InFlight} (flight : s.inFlight = some f)
    (unstuck : ∀ p, f ≠ .stuck p) : s.resumed.Returns f.bytes := by
  have hand : s.pending = f.bytes := by simp [State.pending, flight]
  exact hand ▸ h.returns (by simpa [flight] using unstuck)

theorem State.Returns.returnInv (h : s.Returns []) (idle : s.inFlight = none) : s.ReturnInv := fun unwritten clean => by
  have same : returned s.responses ++ s.pending = produced s.trace := by
    simpa [State.pending, idle] using h unwritten clean
  exact ⟨same ▸ List.prefix_rfl, fun _ _ => same⟩

/-- A command left in flight, its READ's bytes, if it is one, where it will go on. -/
theorem State.Returns.paused (h : s.Returns w) {f : InFlight} (hand : f.bytes = w) : (s.paused f).ReturnInv :=
  fun unwritten clean =>
    have same : returned s.responses ++ f.bytes = produced s.trace := hand ▸ h unwritten clean
    ⟨same ▸ List.prefix_rfl, fun _ _ => same⟩

/-- A READ stuck on its channel or its engine, the bytes in hand never to be returned. -/
theorem State.Returns.stuck (h : s.Returns w) {p : PortName} (waits : p = .chRead ∨ p = .engStep) :
    (s.paused (.stuck p)).ReturnInv := fun unwritten clean => by
  have same : returned s.responses ++ w = produced s.trace := h unwritten clean
  refine ⟨⟨w, ?_⟩, fun read step => ?_⟩
  · simpa [State.pending, InFlight.bytes] using same
  · obtain rfl | rfl := waits
    · exact absurd rfl read
    · exact absurd rfl step

/-! ### Effects -/

theorem State.Returns.of_writer (writer : s.streamMode = .writer) : s.Returns w := fun unwritten =>
  absurd writer unwritten

theorem State.ReturnInv.of_writer (writer : s.streamMode = .writer) : s.ReturnInv := fun unwritten =>
  absurd writer unwritten

/-- A failure is on record. -/
theorem State.Returns.of_unclean (bad : s.trace.all Txn.clean = false) : s.Returns w := fun _ clean => by
  simp [bad] at clean

/-- A transaction that is no engine step. -/
theorem State.Returns.exchanged (h : s.Returns w) (p : Ports) (d : Nat) {t : Txn} (none : t.produced = []) :
    (s.exchanged p d t).Returns w := fun unwritten clean => by
  simpa [none] using h unwritten (clean_of_append clean)

theorem State.Returns.exchangedAll (h : s.Returns w) (p : Ports) (d : Nat) {ts : List Txn} {b : Bytes}
    (run : ReadRun ts b) : (s.exchangedAll p d ts).Returns w := fun unwritten clean => by
  rw [State.exchangedAll_trace, List.all_append, Bool.and_eq_true] at clean
  simpa [run.produced] using h unwritten clean.1

/-- The setting of Reader mode on a machine with no direction. -/
theorem State.Returns.setReader (h : s.Returns w) (fresh : s.streamMode = .undefined) :
    (s.setMode .reader).Returns w := fun _ clean => h (by simp [fresh]) clean

/-- An answer that returns nothing. -/
theorem State.Returns.respond (h : s.Returns []) {r : Response} (quiet : r.returned = []) :
    (s.respond r).Returns [] := fun unwritten clean => by
  simpa [quiet] using h unwritten clean

/-- An engine step of a READ: its bytes are in hand behind those before them (R226). -/
theorem State.Returns.stepped (h : s.Returns w) (flush : FlushType) (input : Bytes) (cap : Nat) (a : StepAnswer)
    (p : Ports) (d : Nat) (c : Bytes) :
    (((s.exchanged p d (.engStep flush s.cmode input cap a)).afterStep a).setCaller c).Returns (w ++ a.produced) :=
  fun unwritten clean => by
    have same : returned s.responses ++ w = produced s.trace := h unwritten (clean_of_append clean)
    simp [← same, Txn.produced]

/-- An answered READ: the bytes in hand are the first bytes of its buffer, and are returned (R230). -/
theorem State.Returns.counted (h : s.Returns w) (pulling : s.Pulling len room w) :
    ((s.crcFeed w).respond (.ok (.read (len - room) (s.crcFeed w).caller))).Returns [] := fun unwritten clean => by
  obtain ⟨-, -, count, written⟩ := pulling
  have whole : s.caller.take (len - room) = w := by
    rw [← count, Nat.add_sub_cancel_left, written]
  have same : returned s.responses ++ w = produced s.trace := h (by simpa using unwritten) (by simpa using clean)
  simpa [Response.returned, whole] using same

/-! ### Phase by phase -/

/-- What was returned, along with the invariant; a WRITE says nothing of it. -/
theorem return_phases : Phases (fun s => s.Inv ∧ s.ReturnInv) (fun s => s.Between ∧ s.Returns []) State.Writing
    State.Pushing (fun s => s.Tearing ∧ s.Returns []) (fun s => s.Closing ∧ s.Returns [])
    (fun len _ s => s.Parsing len ∧ s.Returns []) (fun len s => s.Reading len ∧ s.Returns [])
    (fun len room w s => s.Pulling len room w ∧ s.Returns w) :=
  have base := inv_phases
  {
    start s h none := ⟨base.start s h.1 none, h.2.returns_idle none⟩
    rest s h := ⟨base.rest s h.1, h.2.returnInv h.1.idle⟩
    take _ _ h := h
    data _ _ h := h
    answer s r h quiet := ⟨base.answer s r h.1 quiet, (h.2.respond quiet).returnInv h.1.idle⟩
    flush s p d a h _ := ⟨h.1, h.2.exchanged p d rfl⟩
    length s p d a h _ := ⟨h.1, h.2.exchanged p d rfl⟩
    stuckFlush s h opened := ⟨base.stuckFlush s h.1 opened, h.2.paused rfl⟩
    stuckLength s h opened := ⟨base.stuckLength s h.1 opened, h.2.paused rfl⟩
    -- WRITE
    enterWriter s h := base.enterWriter s h.1
    emitted s m p d h := base.emitted s m p d h.1
    emitFailed s m p d e k h opened fresh gzip compress fixed short :=
      ⟨base.emitFailed s m p d e k h.1 opened fresh gzip compress fixed short, .of_writer rfl⟩
    timed s t p d p' d' h := base.timed s t p d p' d' h.1
    timedFailed s t p d p' d' e k h opened fresh gzip compress free short :=
      ⟨base.timedFailed s t p d p' d' e k h.1 opened fresh gzip compress free short, .of_writer rfl⟩
    stuckEmit s m h opened fresh gzip compress fixed :=
      ⟨base.stuckEmit s m h.1 opened fresh gzip compress fixed, .of_writer rfl⟩
    stuckClock s h opened fresh gzip compress free :=
      ⟨base.stuckClock s h.1 opened fresh gzip compress free, .of_writer rfl⟩
    stuckTimed s t p d h opened fresh gzip compress free :=
      ⟨base.stuckTimed s t p d h.1 opened fresh gzip compress free, .of_writer rfl⟩
    stayWriter s h := base.stayWriter s h.1
    written s h := ⟨base.written s h, .of_writer h.2.1⟩
    feed := base.feed
    togetherW := base.togetherW
    initFailedW s p d msg h off := ⟨base.initFailedW s p d msg h off, .of_writer h.2.1⟩
    startedW := base.startedW
    stuckInitW s h off := ⟨base.stuckInitW s h off, .of_writer h.2.1⟩
    stuckLeaseW s p d u h off := ⟨base.stuckLeaseW s p d u h off, .of_writer h.2.1⟩
    loaded := base.loaded
    pushFailed s flush p d a h fits bad :=
      have ⟨failed, tearing⟩ := base.pushFailed s flush p d a h fits bad
      ⟨⟨failed, .of_writer h.writer⟩, tearing, .of_writer h.writer⟩
    quiet := base.quiet
    pushed := base.pushed
    unwritten s flush p d p' d' a e k h fits good some short :=
      have ⟨failed, tearing⟩ := base.unwritten s flush p d p' d' a e k h fits good some short
      ⟨⟨failed, .of_writer h.writer⟩, tearing, .of_writer h.writer⟩
    pushDone s h := ⟨base.pushDone s h, .of_writer h.writer⟩
    stuckPush s h := ⟨base.stuckPush s h, .of_writer h.writer⟩
    stuckWrite s flush p d a h fits good some :=
      ⟨base.stuckWrite s flush p d a h fits good some, .of_writer h.writer⟩
    pauseWrite s h := ⟨base.pauseWrite s h, .of_writer h.writer⟩
    resumeWrite s h := base.resumeWrite s h.1
    -- CLOSE
    finishing s h := base.finishing s h.1
    flushed s p d u h no := ⟨base.flushed s p d u h no, .of_writer h.writer⟩
    flushFailed s p d e h := ⟨base.flushFailed s p d e h, .of_writer h.writer⟩
    trailed s p d p' d' u h gzip compress := ⟨base.trailed s p d p' d' u h gzip compress, .of_writer h.writer⟩
    trailFailed s p d p' d' u e k h gzip compress short :=
      ⟨base.trailFailed s p d p' d' u e k h gzip compress short, .of_writer h.writer⟩
    stuckFinish s h := ⟨base.stuckFinish s h, .of_writer h.writer⟩
    stuckTrailer s p d u h gzip compress := ⟨base.stuckTrailer s p d u h gzip compress, .of_writer h.writer⟩
    pauseFinish s h := ⟨base.pauseFinish s h, .of_writer h.writer⟩
    resumeFinish s h := base.resumeFinish s h.1
    unfinished s h opened no := ⟨base.unfinished s h.1 opened no, h.2⟩
    togetherT s h := base.togetherT s h.1
    stuckEnd s h live := ⟨base.stuckEnd s h.1 live, h.2.paused rfl⟩
    stuckRelease s p d h live := ⟨base.stuckRelease s p d h.1 live,
      State.Returns.paused (s := (s.exchanged p d (.engEnd s.cmode)).setEngLive false) (h.2.exchanged p d rfl) rfl⟩
    stuckClose s h shut := ⟨base.stuckClose s h.1 shut, h.2.paused rfl⟩
    torn s p p' d d' h live := ⟨base.torn s p p' d d' h.1 live,
      State.Returns.exchanged (h.2.exchanged p d (t := .engEnd s.cmode) rfl) p' d' (t := .poolRelease) rfl⟩
    bare s h off := ⟨base.bare s h.1 off, h.2⟩
    left s h stays := ⟨base.left s h.1 stays, h.2⟩
    closed s p d a h shut := ⟨base.closed s p d a h.1 shut, h.2.exchanged p d (t := .chClose a) rfl⟩
    -- READ
    enterReader s h opened fresh no := ⟨base.enterReader s h.1 opened fresh no, h.2.setReader fresh⟩
    enterParser s h opened fresh gzip decompress :=
      ⟨base.enterParser s h.1 opened fresh gzip decompress, h.2.setReader fresh⟩
    stayReader s h opened reader := ⟨base.stayReader s h.1 opened reader, h.2⟩
    drew len n s ts b p d h run := ⟨base.drew len n s ts b p d h.1 run, h.2.exchangedAll p d run⟩
    unparsed len n s h := ⟨base.unparsed len n s h.1, h.2⟩
    stuckParse len n s h := ⟨base.stuckParse len n s h.1, h.2.stuck (.inl rfl)⟩
    empty len s h := ⟨base.empty len s h.1, h.2⟩
    parsed len s hd h ten name comment := ⟨base.parsed len s hd h.1 ten name comment, h.2⟩
    pauseName len s hd acc h ten name none flag :=
      ⟨base.pauseName len s hd acc h.1 ten name none flag, h.2.paused rfl⟩
    resumeName len s hd acc h flight :=
      have ⟨parsing, facts⟩ := base.resumeName len s hd acc h.1 flight
      ⟨⟨parsing, h.2.resumed flight (by simp)⟩, facts⟩
    pauseComment len s hd acc h ten name none flag :=
      ⟨base.pauseComment len s hd acc h.1 ten name none flag, h.2.paused rfl⟩
    resumeComment len s hd acc h flight :=
      have ⟨parsing, facts⟩ := base.resumeComment len s hd acc h.1 flight
      ⟨⟨parsing, h.2.resumed flight (by simp)⟩, facts⟩
    reading len s h := ⟨base.reading len s h.1, h.2⟩
    togetherR len s h := base.togetherR len s h.1
    initFailedR len s p d msg h stream off := ⟨base.initFailedR len s p d msg h.1 stream off, h.2.exchanged p d rfl⟩
    startedR len s p d p' d' u b h stream off long := ⟨base.startedR len s p d p' d' u b h.1 stream off long,
      State.Returns.exchanged (h.2.exchanged p d (t := .engInit _ _ _ (.ok u)) rfl) p' d'
        (t := .poolLease s.workbufSize b) rfl⟩
    stuckInitR len s h stream off := ⟨base.stuckInitR len s h.1 stream off, h.2.paused rfl⟩
    stuckLeaseR len s p d u h stream off := ⟨base.stuckLeaseR len s p d u h.1 stream off,
      State.Returns.paused (s := (s.exchanged p d (.engInit _ _ _ (.ok u))).setEngLive true)
        (h.2.exchanged p d rfl) rfl⟩
    looping len s h stream live := ⟨base.looping len s h.1 stream live, h.2⟩
    pulled len room w s p d k h none more short := ⟨base.pulled len room w s p d k h.1 none more short,
      h.2.exchanged p d (t := .chRead s.wbLen (.ok k)) rfl⟩
    pullFailed len room w s p d e h none more :=
      ⟨base.pullFailed len room w s p d e h.1 none more, .of_unclean (unclean_append rfl)⟩
    stuckChunk len room w s h none more := ⟨base.stuckChunk len room w s h.1 none more, h.2.stuck (.inl rfl)⟩
    stuckPull len room w s h pos := ⟨base.stuckPull len room w s h.1 pos, h.2.stuck (.inr rfl)⟩
    stepFailed len room w s flush p d a h pos fits bad :=
      ⟨base.stepFailed len room w s flush p d a h.1 pos fits bad,
        .of_unclean (unclean_append (t := .engStep flush s.cmode s.window room a) (by simpa [Txn.clean] using bad))⟩
    stepped len room w s flush p d a h pos fits good :=
      ⟨base.stepped len room w s flush p d a h.1 pos fits good, h.2.stepped flush _ room a p d _⟩
    pauseRead len room w s h pos more := ⟨base.pauseRead len room w s h.1 pos more, h.2.paused rfl⟩
    resumeRead len room w s h flight :=
      have ⟨pulling, pos⟩ := base.resumeRead len room w s h.1 flight
      ⟨⟨pulling, h.2.resumed flight (by simp)⟩, pos⟩
    counted len room w s h :=
      ⟨base.counted len room w s h.1, (h.2.counted h.1).returnInv (by simpa using h.1.between.idle)⟩
  }

/-! ### Along a run -/

/-- What construction leaves, whatever is to come, meets the invariant. -/
theorem inv_loaded (p : Platform) (a : ConstructArgs) (cs : List Command) (ports : Ports) (k : Nat)
    (size : 1 ≤ a.wbSize.getD p.workbufSizeDefault) : (State.loaded p a cs ports k).Inv :=
  ⟨rfl, rfl, ⟨size, fun _ _ => rfl, by simp [State.loaded, State.fresh], fun _ => rfl⟩,
    by simp [State.LifeInv, State.loaded, State.fresh], by simp [State.HeaderInv, State.loaded, State.fresh], rfl⟩

/-- It has returned nothing, and its engine has produced nothing. -/
theorem returnInv_loaded (p : Platform) (a : ConstructArgs) (cs : List Command) (ports : Ports) (k : Nat) :
    (State.loaded p a cs ports k).ReturnInv :=
  State.Returns.returnInv (fun _ _ => rfl) rfl

theorem Reaches.returnInv {t : State} (run : Reaches s t) (inv : s.Inv) (h : s.ReturnInv) : t.Inv ∧ t.ReturnInv := by
  induction run with
  | start => exact ⟨inv, h⟩
  | next _ last ih => exact return_phases.step ih last

/-- What a Reader that met no failure has returned, between two commands of a run from construction. -/
theorem returned_eq_produced {p : Platform} {a : ConstructArgs} {cs : List Command} {ports : Ports} {k : Nat}
    (size : 1 ≤ a.wbSize.getD p.workbufSizeDefault) (run : Reaches (State.loaded p a cs ports k) s)
    (reader : s.streamMode = .reader) (idle : s.inFlight = none) (clean : s.trace.all Txn.clean = true) :
    returned s.responses = produced s.trace := by
  obtain ⟨-, returns⟩ := run.returnInv (inv_loaded p a cs ports k size) (returnInv_loaded p a cs ports k)
  simpa using returns.returns_idle idle (by simp [reader]) clean

end Sys2Proof.Machine

/-- Settles O17: each engine step of a READ puts in hand what it produced, and its answer returns what is in hand. -/
theorem stepKeepsReturned : Obligations.StepKeepsReturned :=
  fun _ _ inv h ht => (Sys2Proof.Machine.return_phases.step ⟨inv, h⟩ ht).2

open Sys2Proof Sys2Proof.Machine in
/-- Settles O19: each reader returned what its engine produced, and the two engines produced the same. -/
theorem partialReadFidelity : Obligations.PartialReadFidelity := by
  intro gives invariant p q a b cs ds ports qorts j k s t sizeS sizeT runS runT readerS readerT idleS idleT cleanS
    cleanT givesS givesT endS endT sameInput sameFlush
  calc returned s.responses
    _ = produced s.trace := returned_eq_produced sizeS runS readerS idleS cleanS
    _ = produced t.trace := invariant _ _ givesS givesT endS endT sameInput sameFlush
    _ = returned t.responses := (returned_eq_produced sizeT runT readerT idleT cleanT).symm
end

section
/-! A READ on a Reader parses no header (42_read.md R221, R337), O27: past the first-call work nothing writes a header
register, and every error is the channel's or the engine's. -/

namespace Sys2Proof.Machine

variable {α β σ : Type} {ok : Error → Prop} {good : α → Prop} {s t : State}

/-! ### The errors an action raises -/

/-- Every error that `m` raises is `ok`, and everything it answers `good`. -/
def Act.Erring (ok : Error → Prop) (good : α → Prop) (m : Act α) : Prop :=
  ∀ s, Act.wp m (fun a _ => good a) (fun x _ => ∀ e, x = .raise e → ok e) s

/-- A response whose error, if it is one, is `ok`. -/
def Response.Erring (ok : Error → Prop) (r : Response) : Prop := ∀ e b, r = .err e b → ok e

theorem erring_ok (v : Value) : Response.Erring ok (.ok v) := fun _ _ same => by cases same

theorem erring_pure {a : α} (h : good a) : Act.Erring ok good (pure a) := fun _ => h

theorem erring_raise {e : Error} (h : ok e) : Act.Erring ok good (raise e : Act α) := fun _ => by
  rintro _ ⟨⟩
  exact h

theorem erring_update (f : State → State) : Act.Erring ok (fun _ => True) (update f) := fun _ => trivial

theorem erring_bind {m : Act β} {f : β → Act α} (hm : Act.Erring ok (fun _ => True) m)
    (hf : ∀ b, (f b).Erring ok good) : Act.Erring ok good (m >>= f) := fun s =>
  (Act.wp_bind m f).2 (Act.wp_mono (hm s) (fun b s' _ => hf b s') fun _ _ h => h)

theorem erring_getState {f : State → Act α} (hf : ∀ s, (f s).Erring ok good) : Act.Erring ok good (getState >>= f) :=
  erring_bind (fun _ => trivial) hf

theorem erring_ite {c : Prop} [Decidable c] {m n : Act α} (hm : m.Erring ok good) (hn : n.Erring ok good) :
    Act.Erring ok good (if c then m else n) := by
  split <;> assumption

theorem erring_onlyIf {c : Prop} [Decidable c] {m : Act Unit} (hm : m.Erring ok fun _ => True) :
    Act.Erring ok (fun _ => True) (onlyIf c m) :=
  erring_ite hm (erring_pure trivial)

theorem erring_iterate {body : σ → Act (σ ⊕ α)} {at_ : σ → InFlight}
    (round : ∀ x, (body x).Erring ok fun r => ∀ a, r = .inr a → good a) (more : Nat) (x : σ) :
    Act.Erring ok good (iterate body at_ more x) := fun s =>
  Act.wp_iterate (fun _ _ => True) (fun x s _ => Act.wp_mono (round x s)
    (fun r s' h => by
      cases r with
      | inl y => trivial
      | inr a => exact h a rfl) fun _ _ h => h) (fun _ _ _ => by simp) more x trivial

/-- A transaction raises nothing. -/
theorem erring_transact {port : PortName} {queue : Ports → List (Reply α)} {drop : Ports → Ports} {free : Nat → α}
    {fits : α → Bool} {bad : Refusal} {log : α → Txn} :
    Act.Erring ok (fun _ => True) (transact port queue drop free fits bad log) := fun s => by
  unfold Act.wp transact
  cases queue s.ports with
  | nil => trivial
  | cons r q =>
    cases r with
    | silent => simp
    | answer a => cases fit : fits a <;> simp [fit]

theorem erring_chRead (channel : ∀ e, ok (.chFail e)) (n : Nat) : Act.Erring ok (fun _ => True) (chRead n) :=
  erring_bind erring_transact fun a => by
    cases a with
    | ok b => exact erring_pure trivial
    | fail e => exact erring_raise (channel e)

theorem erring_engStep (flush : FlushType) (cap : Nat) : Act.Erring ok (fun _ => True) (engStep flush cap) :=
  erring_getState fun _ => erring_bind erring_transact fun _ => erring_bind (erring_update _) fun _ => erring_pure trivial

theorem erring_materialise (init : ∀ msg, ok (.initFail msg)) : Act.Erring ok (fun _ => True) materialise :=
  erring_getState fun _ => erring_bind
    (erring_onlyIf (erring_getState fun _ => erring_bind erring_transact fun a => by
      cases a with
      | ok _ => exact erring_update _
      | fail msg => exact erring_raise (init msg)))
    fun _ => erring_getState fun _ => erring_onlyIf
      (erring_getState fun _ => erring_bind erring_transact fun _ => erring_update _)

/-! ### READ -/

theorem erring_readAnswer (n : Nat) : Act.Erring ok (Response.Erring ok) (readAnswer n) :=
  erring_getState fun _ => erring_pure (erring_ok _)

theorem erring_pullStep (flush : FlushType) (room : Nat) (w : Bytes) :
    Act.Erring ok (fun _ => True) (pullStep flush room w) :=
  erring_bind (erring_engStep flush room) fun _ => erring_bind (erring_update _) fun _ => erring_pure trivial

theorem erring_readEnd (engine : ∀ rc, ok (.engineFail rc)) (len room : Nat) (w : Bytes) :
    Act.Erring ok (Response.Erring ok) (readEnd len room w) :=
  erring_bind
    (erring_getState fun _ => erring_ite
      (erring_bind (erring_pullStep _ _ _) fun _ => erring_ite (erring_raise (engine _)) (erring_pure trivial))
      (erring_pure trivial))
    fun _ => erring_bind (erring_update _) fun _ => erring_readAnswer _

/-- The last part of a round: what it answers, READ's loop answers. -/
theorem erring_inr {m : Act Response} (h : m.Erring ok (Response.Erring ok)) :
    Act.Erring ok (fun r => ∀ a, r = .inr a → Response.Erring ok a)
      (m >>= fun r => pure (Sum.inr r) : Act ((Nat × Bytes) ⊕ Response)) := fun s => by
  rw [Act.wp_bind]
  refine Act.wp_mono (h s) (fun r s' h => ?_) fun _ _ h => h
  rintro _ ⟨⟩
  exact h

theorem erring_readRound (channel : ∀ e, ok (.chFail e)) (engine : ∀ rc, ok (.engineFail rc)) (len : Nat)
    (x : Nat × Bytes) : Act.Erring ok (fun r => ∀ a, r = .inr a → Response.Erring ok a) (readRound len x) :=
  erring_getState fun _ => erring_bind
    (erring_onlyIf (erring_getState fun _ => erring_bind (erring_chRead channel _) fun _ => erring_update _))
    fun _ => erring_bind (erring_pullStep _ _ _) fun _ => erring_getState fun _ =>
      erring_ite (erring_inr (erring_readAnswer 0))
        (erring_ite (erring_raise (engine _))
          (erring_ite (erring_pure (by simp)) (erring_inr (erring_readEnd engine _ _ _))))

/-- READ past its first-call work raises the channel's and the engine's errors only (60_exceptions.md R285). -/
theorem erring_readData (channel : ∀ e, ok (.chFail e)) (engine : ∀ rc, ok (.engineFail rc))
    (init : ∀ msg, ok (.initFail msg)) (len : Nat) : Act.Erring ok (Response.Erring ok) (readData len) :=
  erring_getState fun _ => erring_ite (erring_readAnswer 0) (erring_ite (erring_readAnswer 0)
    (erring_bind (erring_materialise init) fun _ => erring_getState fun _ =>
      erring_iterate (erring_readRound channel engine len) _ _))

/-! ### The error of a step -/

/-- The error a command's step answers with is one its pseudocode raises. -/
theorem settle_erring {buffer : State → Option Bytes} {body : Act Response} {rs : List Response}
    (erring : Act.wp body (fun r _ => r.Erring ok) (fun x _ => ∀ e, x = .raise e → ok e) s)
    (quiet : Act.wp body (fun _ s' => s'.Unanswered rs) (fun _ s' => s'.Unanswered rs) s)
    (ht : settle buffer (body s) = .next t) {e : Error} {b : Option Bytes}
    (answered : t.responses = rs ++ [.err e b]) : ok e := by
  refine settle_next (P := fun t => t.responses = rs ++ [.err e b] → ok e)
    (Act.wp_mono (Act.wp_and erring quiet) (fun r s' h answered => ?_) fun x s' h => ?_) ht answered
  · obtain ⟨fine, -, same⟩ := h
    rw [State.respond_responses, same] at answered
    exact fine e b (by simpa using answered)
  · obtain ⟨fine, -, same⟩ := h
    cases x with
    | raise e' =>
      intro answered
      have only : e' = e := by simp [same] at answered; exact answered.1
      exact fine e (only ▸ rfl)
    | pause f =>
      intro answered
      simp [same] at answered
    | refuse r => trivial

theorem runCommand_erring {buffer : State → Option Bytes} {body : Act Response}
    (erring : body.Erring ok (Response.Erring ok)) (quiet : Act.Keeps (State.Unanswered s.responses) body)
    (ht : runCommand buffer body s = .next t) {e : Error} {b : Option Bytes}
    (answered : t.responses = s.responses ++ [.err e b]) : ok e := by
  unfold runCommand at ht
  split at ht
  · cases ht
  · exact settle_erring (erring s) (quiet s ⟨‹_›, rfl⟩) ht answered

/-- READ on a Reader, in one piece of pseudocode: no header parse is part of it (42_read.md R221, R232). -/
def readerRead (len : Nat) : Act Response := do
  let s ← getState
  if s.disposed then raise (.disposed .read) else readData len

theorem readBody_eq_readerRead (reader : s.streamMode = .reader) (n : Nat) : readBody n s = readerRead n s := by
  simp [readBody, readerRead, reader]

theorem keeps_readerRead {P : State → Prop} (E : ReadEffects P) (len : Nat) : Act.Keeps P (readerRead len) :=
  keeps_bind keeps_getState fun _ => keeps_ite (keeps_raise _) (keeps_readData E len)

theorem runCommand_readerRead {len : U32} (reader : s.streamMode = .reader) (ht : exec (.read len) s = .next t) :
    runCommand callerBuffer (readerRead (operandLen len)) s = .next t := by
  have ht := runCommand_of_execRead ht
  rwa [runCommand, readBody_eq_readerRead reader] at ht

end Sys2Proof.Machine

open Sys2Proof Sys2Proof.Machine in
/-- Settles O27: a Reader's READ has no part that parses. -/
theorem noSecondParse : Obligations.NoSecondParse := by
  intro len s t reader ht
  have ht := runCommand_readerRead reader ht
  have header : s.HeaderKept false t :=
    ends_headerKept (runCommand_ends (keeps_readerRead (headerKept_read s false) _)
      (fun _ => .inl ⟨rfl, rfl, rfl, rfl, rfl, rfl⟩) ht)
  have erring : (readerRead (operandLen len)).Erring (·.kind ≠ .format) (Response.Erring (·.kind ≠ .format)) :=
    erring_getState fun _ => erring_ite (erring_raise (by simp [Error.kind]))
      (erring_readData (by simp [Error.kind]) (by simp [Error.kind]) (by simp [Error.kind]) _)
  obtain ⟨state, bytes, mtime, flg, fname, comment⟩ | ⟨parse, -⟩ := header
  · exact ⟨state, bytes, mtime, flg, fname, comment, fun _ _ answered =>
      runCommand_erring erring (keeps_readerRead (unanswered_body _).toReadEffects _) ht answered⟩
  · cases parse
end

section
/-! READ's loop with known answers (42_read.md R225 to R230): what a round's engine step leads to, from the state its
chunk pull leaves, and compress-on-read's final step. With them O48, O50 and O51. -/

namespace Sys2Proof.Machine

variable {s s' : State} {n room : Nat} {w k : Bytes} {a b : StepAnswer} {q : List (Reply StepAnswer)}
  {ks : List (Reply (Answer Bytes))} {len : U32}

/-! ### The window and the buffer -/

/-- What an engine step leaves of the window (10_state.md R62). -/
theorem window_afterStep (s : State) (a : StepAnswer) : (s.afterStep a).window = s.window.drop a.consumed := by
  simp [State.window, memRead, List.drop_take, List.drop_drop]

theorem window_crcFeed (s : State) (b : Bytes) : (s.crcFeed b).window = s.window := by simp [State.window]

theorem window_empty (none : s.inAvail = 0) : s.window = [] := by simp [State.window, memRead, none]

/-- A write past the end of a space joins it there. -/
theorem memWrite_past {space : Bytes} {off : Nat} (past : space.length ≤ off) (v : Bytes) :
    memWrite space off v = space ++ v := by
  simp [memWrite, List.take_of_length_le past, List.drop_eq_nil_iff]
  omega

/-- Two writes, the second where the first ends, are one write, wherever it begins. -/
theorem memWrite_append (space v u : Bytes) (off : Nat) :
    memWrite (memWrite space off v) (off + v.length) u = memWrite space off (v ++ u) := by
  obtain past | inside := le_total space.length off
  · rw [memWrite_past past, memWrite_past past, memWrite_past (by simp; omega), List.append_assoc]
  · have front : (memWrite space off v).take (off + v.length) = space.take off ++ v := by
      rw [memWrite, List.take_append_of_le_length (by simp [inside])]
      simp [inside]
    have back : (memWrite space off v).drop (off + v.length + u.length) = space.drop (off + (v ++ u).length) := by
      rw [← List.drop_drop, memWrite_drop _ _ _ inside, List.drop_drop, List.length_append, Nat.add_assoc]
    rw [memWrite, front, back, memWrite, List.append_assoc (space.take off)]

/-! ### A round of READ's loop -/

/-- The state a chunk pull leaves that drew `k`, with `ks` the channel's answers still to come (R225). -/
def State.chunked (s : State) (k : Bytes) (ks : List (Reply (Answer Bytes))) : State :=
  (s.exchanged { s.ports with chRead := ks } s.draws (.chRead s.wbLen (.ok k))).pulled k

@[simp] theorem window_chunked (s : State) (k : Bytes) (ks : List (Reply (Answer Bytes))) :
    (s.chunked k ks).window = k := by
  simp [State.chunked, State.window, memRead]

theorem chunked_noMoreInput (more : s.noMoreInput = false) : (s.chunked k ks).noMoreInput = decide (k = []) := by
  cases k <;> simp [State.chunked, more]

/-- The field-wise form of that state. -/
theorem chunked_eq (more : s.noMoreInput = false) (k : Bytes) (ks : List (Reply (Answer Bytes))) :
    s.chunked k ks = { s with
      work := k ++ s.work.drop k.length, inWin := k, inNext := 0, inAvail := k.length, noMoreInput := decide (k = [])
      ports := { s.ports with chRead := ks }, trace := s.trace ++ [.chRead s.wbLen (.ok k)] } := by
  rw [← chunked_noMoreInput more (ks := ks), ← memWrite_zero]
  rfl

/-- And of the one a pull step leaves. -/
theorem pullStepped_eq (s : State) (flush : FlushType) (room : Nat) (w : Bytes) (a : StepAnswer)
    (q : List (Reply StepAnswer)) :
    s.pullStepped flush room w a q = { s with
      inNext := s.inNext + a.consumed, inAvail := s.inAvail - a.consumed
      engTotalOut := s.engTotalOut + BitVec.ofNat 64 a.produced.length
      caller := memWrite s.caller w.length a.produced
      ports := { s.ports with engStep := q }
      trace := s.trace ++ [.engStep flush s.cmode s.window room a] } := rfl

section
variable (s : State) (flush : FlushType) (room : Nat) (w : Bytes) (a : StepAnswer) (q : List (Reply StepAnswer))

@[simp] theorem State.pullStepped_plat : (s.pullStepped flush room w a q).plat = s.plat := rfl
@[simp] theorem State.pullStepped_cmode : (s.pullStepped flush room w a q).cmode = s.cmode := rfl
@[simp] theorem State.pullStepped_wbLen : (s.pullStepped flush room w a q).wbLen = s.wbLen := rfl
@[simp] theorem State.pullStepped_noMoreInput : (s.pullStepped flush room w a q).noMoreInput = s.noMoreInput := rfl
@[simp] theorem State.pullStepped_crcLive : (s.pullStepped flush room w a q).crcLive = s.crcLive := rfl
@[simp] theorem State.pullStepped_crcReg : (s.pullStepped flush room w a q).crcReg = s.crcReg := rfl
@[simp] theorem State.pullStepped_crcCount : (s.pullStepped flush room w a q).crcCount = s.crcCount := rfl
@[simp] theorem State.pullStepped_responses : (s.pullStepped flush room w a q).responses = s.responses := rfl
@[simp] theorem State.pullStepped_inFlight : (s.pullStepped flush room w a q).inFlight = s.inFlight := rfl
@[simp] theorem State.pullStepped_window : (s.pullStepped flush room w a q).window = s.window.drop a.consumed :=
  window_afterStep s a

end

/-- A round from `s` with `room` left: its chunk pull, where one is due, leaves `s'`, and its engine step is answered
`a`, with `q` the answers still to come. -/
structure State.Pulls (s s' : State) (room : Nat) (a : StepAnswer) (q : List (Reply StepAnswer)) : Prop where
  chunk : onlyIf (s.needsChunk = true) pullChunk s = .ok () s'
  scripted : s.ports.engStep = .answer a :: q
  next : s'.ports.engStep = .answer a :: q
  within : a.consumed ≤ s'.window.length
  fits : a.produced.length ≤ room

/-- With input staged, or none to come, nothing is pulled. -/
theorem pulls_staged (ready : 0 < s.inAvail ∨ s.noMoreInput = true) (next : s.ports.engStep = .answer a :: q)
    (within : a.consumed ≤ s.window.length) (fits : a.produced.length ≤ room) : s.Pulls s room a q := by
  have undue : s.needsChunk = false := by
    obtain staged | exhausted := ready
    · simp [State.needsChunk, staged.ne']
    · simp [State.needsChunk, exhausted]
  exact ⟨by simp [onlyIf, undue], next, next, within, fits⟩

/-- With an empty window and a channel not known exhausted the chunk is pulled first. -/
theorem pulls_chunk (none : s.inAvail = 0) (more : s.noMoreInput = false)
    (chunk : s.ports.chRead = .answer (.ok k) :: ks) (short : k.length ≤ s.wbLen)
    (next : s.ports.engStep = .answer a :: q) (within : a.consumed ≤ k.length) (fits : a.produced.length ≤ room) :
    s.Pulls (s.chunked k ks) room a q :=
  ⟨(pull_due none more).trans (pullChunk_run chunk short), next, next, by simpa using within, fits⟩

/-- What the status of a round's engine step, and the room and the input left after it, lead to (R226 to R229). -/
theorem readRound_run (h : s.Pulls s' room a q) {t : State} (left : t = s'.pullStepped .none room w a q) :
    readRound n (room, w) s =
      if t.benignEnd a.status then .ok (.inr (.ok (.read 0 t.caller))) t
      else if a.status.isFailure then .error (.raise (.engineFail a.status)) t
      else if t.readAgain (room - a.produced.length) a.status then
        .ok (.inl (room - a.produced.length, w ++ a.produced)) t
      else (readEnd n (room - a.produced.length) (w ++ a.produced) >>= fun r => pure (.inr r)) t := by
  have stepped : pullStep .none room w s' = .ok a t :=
    left ▸ pullStep_run h.next ((stepFits_iff _ _ _).2 ⟨h.within, h.fits⟩)
  simp only [readRound, bind_run (m := getState), getState_run, bind_run (m := onlyIf _ _), h.chunk,
    bind_run (m := pullStep _ _ _), stepped]
  split_ifs <;> rfl

/-! ### The loop -/

/-- A round whose engine step fails: the benign end with the input exhausted and BUF_ERROR, else ENGINE_FAIL (R227). -/
theorem readLoop_failed (h : s.Pulls s' room a q) (bad : a.status.isFailure = true) {t : State}
    (left : t = s'.pullStepped .none room w a q) :
    settle callerBuffer (readLoop n room w s) = .next (t.respond
      (if s'.noMoreInput = true ∧ a.status = .bufError then .ok (.read 0 t.caller)
        else .err (.engineFail a.status) (some t.caller))) := by
  have round := readRound_run (n := n) h left
  have benign : t.benignEnd a.status = true ↔ s'.noMoreInput = true ∧ a.status = .bufError := by
    simp [left, State.benignEnd, State.pullStepped]
  rw [readLoop, bind_run, getState_run]
  simp only [benign, bad, if_true] at round ⊢
  split_ifs at round ⊢ with harmless
  · rw [iterate_done round]
    rfl
  · rw [iterate_left round]
    rfl

/-- A round that goes round again: in this step while engine answers are scripted, else in the next (R229, log 4). -/
theorem readLoop_goesOn (h : s.Pulls s' room a q) (good : a.status = .ok) (more : a.produced.length < room)
    (open_ : s'.noMoreInput = false) {t : State} (left : t = s'.pullStepped .none room w a q) :
    readLoop n room w s =
      if q = [] then .error (.pause (.readLoop n (room - a.produced.length) (w ++ a.produced))) t
      else readLoop n (room - a.produced.length) (w ++ a.produced) t := by
  have again : t.readAgain (room - a.produced.length) .ok = true := by
    simp [left, State.readAgain, State.pullStepped, open_]
    omega
  have round : readRound n (room, w) s = .ok (.inl (room - a.produced.length, w ++ a.produced)) t := by
    simpa [good, State.benignEnd, again, EngStatus.isFailure] using readRound_run (n := n) h left
  have rest : t.ports.engStep = q := left ▸ rfl
  simp only [readLoop, bind_run, getState_run, h.scripted, rest]
  cases q with
  | nil => exact iterate_pause round
  | cons b q => exact iterate_again round

/-- A round that ends the loop: the room is used up, the stream has ended, or the input is exhausted (R229). -/
theorem readLoop_ends (h : s.Pulls s' room a q) (good : a.status.isFailure = false)
    (ends : s'.readAgain (room - a.produced.length) a.status = false) {t : State}
    (left : t = s'.pullStepped .none room w a q) :
    readLoop n room w s = readEnd n (room - a.produced.length) (w ++ a.produced) t := by
  have round := readRound_run (n := n) h left
  have harm : t.benignEnd a.status = false := by
    obtain ok | ended := (isFailure_false_iff _).1 good <;> simp [State.benignEnd, *]
  have last : t.readAgain (room - a.produced.length) a.status = false := left ▸ ends
  simp only [harm, good, last, Bool.false_eq_true, if_false, bind_run] at round
  rw [readLoop, bind_run, getState_run]
  simp only
  cases rest : readEnd n (room - a.produced.length) (w ++ a.produced) t with
  | ok r u => exact iterate_done (by rw [round, rest]; rfl)
  | error x u => exact iterate_left (by rw [round, rest])

/-- And no final step is due: the bytes are fed and counted (R230). -/
theorem readLoop_done (h : s.Pulls s' room a q) (good : a.status.isFailure = false)
    (ends : s'.readAgain (room - a.produced.length) a.status = false)
    (undue : s'.needsFinalStep (room - a.produced.length) = false) {t : State}
    (left : t = s'.pullStepped .none room w a q) :
    settle callerBuffer (readLoop n room w s) =
      .next ((t.crcFeed (w ++ a.produced)).respond (.ok (.read (n - (room - a.produced.length)) t.caller))) := by
  rw [readLoop_ends h good ends left, readEnd_run (by rw [left]; exact undue)]
  rfl

/-! ### The final step of compress-on-read (R228) -/

/-- The state the final step leaves: all the READ has produced is fed, unless the step failed. -/
def State.finalStepped (s : State) (room : Nat) (w : Bytes) (b : StepAnswer) (q : List (Reply StepAnswer)) : State :=
  { s.pullStepped .finish room w b q with
    crcReg := if s.crcLive ∧ (b.status = .ok ∨ b.status = .streamEnd)
      then crcFold s.plat.crc32fn s.crcReg (w ++ b.produced) else s.crcReg
    crcCount := if s.crcLive ∧ (b.status = .ok ∨ b.status = .streamEnd)
      then s.crcCount + BitVec.ofNat 64 (w ++ b.produced).length else s.crcCount }

/-- And its answer: the count, or ENGINE_FAIL, with the buffer. -/
def finalResponse (rc : EngStatus) (count : Nat) (buffer : Bytes) : Response :=
  if rc = .ok ∨ rc = .streamEnd then .ok (.read count buffer) else .err (.engineFail rc) (some buffer)

theorem readEnd_final (due : s.needsFinalStep room = true) (next : s.ports.engStep = .answer b :: q)
    (within : b.consumed ≤ s.window.length) (fits : b.produced.length ≤ room) :
    settle callerBuffer (readEnd n room w s) = .next ((s.finalStepped room w b q).respond
      (finalResponse b.status (n - (room - b.produced.length)) (memWrite s.caller w.length b.produced))) := by
  have stepped : pullStep .finish room w s = .ok b (s.pullStepped .finish room w b q) :=
    pullStep_run next ((stepFits_iff _ _ _).2 ⟨within, fits⟩)
  cases bad : b.status.isFailure with
  | true =>
    have unfed : ¬(b.status = .ok ∨ b.status = .streamEnd) := by simp [← isFailure_false_iff, bad]
    simp [readEnd, finalStep, due, stepped, bad, settle, State.finalStepped, finalResponse, unfed]
    rfl
  | false =>
    have fed : b.status = .ok ∨ b.status = .streamEnd := (isFailure_false_iff _).1 bad
    simp [readEnd, finalStep, due, stepped, bad, settle, State.finalStepped, finalResponse, fed, readAnswer,
      State.crcFeed_eq]
    rfl

/-- A round that exhausts the input, or finds it exhausted, with nothing in the window and room left: exactly one more
step follows. -/
theorem readLoop_final (h : s.Pulls s' room a (.answer b :: q)) (good : a.status = .ok ∨ a.status = .streamEnd)
    (exhausted : s'.noMoreInput = true) (compress : s'.cmode = .compress) (none : s'.inAvail = 0)
    (unused : a.consumed = 0) (unused' : b.consumed = 0) (more : a.produced.length < room)
    (fits : a.produced.length + b.produced.length ≤ room) :
    settle callerBuffer (readLoop n room w s) = .next { s' with
      engTotalOut := s'.engTotalOut + BitVec.ofNat 64 a.produced.length + BitVec.ofNat 64 b.produced.length
      crcReg := if s'.crcLive ∧ (b.status = .ok ∨ b.status = .streamEnd)
        then crcFold s'.plat.crc32fn s'.crcReg (w ++ a.produced ++ b.produced) else s'.crcReg
      crcCount := if s'.crcLive ∧ (b.status = .ok ∨ b.status = .streamEnd)
        then s'.crcCount + BitVec.ofNat 64 (w ++ a.produced ++ b.produced).length else s'.crcCount
      caller := memWrite s'.caller w.length (a.produced ++ b.produced)
      ports := { s'.ports with engStep := q }
      trace := s'.trace ++ [.engStep .none .compress [] room a,
        .engStep .finish .compress [] (room - a.produced.length) b]
      responses := s'.responses ++ [finalResponse b.status (n - (room - a.produced.length - b.produced.length))
        (memWrite s'.caller w.length (a.produced ++ b.produced))] } := by
  have window : (s'.pullStepped .none room w a (.answer b :: q)).window = [] := by simp [window_empty none]
  have due : (s'.pullStepped .none room w a (.answer b :: q)).needsFinalStep (room - a.produced.length) = true := by
    simp [State.needsFinalStep, exhausted, compress]
    omega
  rw [readLoop_ends h ((isFailure_false_iff _).2 good) (by simp [State.readAgain, exhausted]) rfl,
    readEnd_final due rfl (by omega) (by omega), State.finalStepped, pullStepped_eq (flush := .finish), window]
  simp [pullStepped_eq, State.respond, memWrite_append, compress, unused, unused', window_empty none]

/-! ### A round with one scripted answer -/

/-- No final step is due where compress-on-read has used up its room. -/
theorem undue_of_full (full : s.noMoreInput = true → s.cmode = .compress → a.produced.length = room) :
    s.needsFinalStep (room - a.produced.length) = false := by
  by_cases last : s.noMoreInput = true ∧ s.cmode = .compress
  · simp [State.needsFinalStep, full last.1 last.2]
  · have other : s.noMoreInput = true → s.cmode ≠ .compress := fun exhausted compress => last ⟨exhausted, compress⟩
    simpa [State.needsFinalStep] using fun _ => other

/-- What a round's chunk pull, where one is due, leaves: `input` in the window, the channel exhausted or not, and `reads`
on record. -/
structure State.Staged (s s' : State) (input : Bytes) (exhausted : Bool) (reads : List Txn) : Prop where
  window : s'.window = input
  exhausted : s'.noMoreInput = exhausted
  trace : s'.trace = s.trace ++ reads
  inFlight : s'.inFlight = s.inFlight
  responses : s'.responses = s.responses
  cmode : s'.cmode = s.cmode
  caller : s'.caller = s.caller
  plat : s'.plat = s.plat
  crcLive : s'.crcLive = s.crcLive
  crcReg : s'.crcReg = s.crcReg
  crcCount : s'.crcCount = s.crcCount

theorem staged_here (s : State) : s.Staged s s.window s.noMoreInput [] where
  window := rfl
  exhausted := rfl
  trace := by simp
  inFlight := rfl
  responses := rfl
  cmode := rfl
  caller := rfl
  plat := rfl
  crcLive := rfl
  crcReg := rfl
  crcCount := rfl

theorem staged_chunk (more : s.noMoreInput = false) (k : Bytes) (ks : List (Reply (Answer Bytes))) :
    s.Staged (s.chunked k ks) k (decide (k = [])) [.chRead s.wbLen (.ok k)] where
  window := window_chunked s k ks
  exhausted := chunked_noMoreInput more
  trace := rfl
  inFlight := rfl
  responses := rfl
  cmode := rfl
  caller := rfl
  plat := rfl
  crcLive := rfl
  crcReg := rfl
  crcCount := rfl

/-- What the engine step behind it leaves on record, of the input and in the buffer (R226). -/
theorem State.Staged.stepped {input : Bytes} {exhausted : Bool} {reads : List Txn}
    (h : s.Staged s' input exhausted reads) {t : State} (left : t = s'.pullStepped .none room w a q) :
    t.trace = s.trace ++ reads ++ [.engStep .none s.cmode input room a] ∧ t.window = input.drop a.consumed ∧
    t.noMoreInput = exhausted ∧
    t.caller = s.caller.take w.length ++ a.produced ++ s.caller.drop (w.length + a.produced.length) := by
  have window := window_afterStep s' a
  subst left
  rw [← h.window, ← h.exhausted, ← h.cmode, ← h.caller, ← h.trace]
  exact ⟨rfl, window, rfl, rfl⟩

/-! ### Steps -/

theorem ne_zero_of_lt_toNat {m : Nat} (h : m < len.toNat) : len ≠ 0 := by
  rintro rfl
  simp at h

/-- A step of a READ in flight is its loop. -/
theorem step_readLoop (flight : s.inFlight = some (.readLoop n room w)) :
    step s = settle callerBuffer (readLoop n room w s.resumed) := step_of_flight flight

/-- And so is the step that begins a READ on a live Reader. -/
theorem read_looping {o : Host.Outcome State Fault Refusal}
    (steps : s.inFlight = some (.readLoop len.toNat room w) ∧ o = step s ∨
      s.inFlight = none ∧ s.disposed = false ∧ s.streamMode = .reader ∧ s.hdrState ≠ .empty ∧ s.engLive = true ∧
        s.wbLive = true ∧ len ≠ 0 ∧ s.caller.length = len.toNat ∧ room = len.toNat ∧ w = [] ∧
        o = exec (.read len) s) :
    o = settle callerBuffer (readLoop len.toNat room w s.resumed) := by
  obtain ⟨flight, rfl⟩ | ⟨idle, opened, reader, stream, engine, buffer, pos, fits, rfl, rfl, rfl⟩ := steps
  · exact step_readLoop flight
  · rw [execRead_live idle opened reader stream engine buffer pos fits, resumed_of_idle idle]

theorem isFailure_true_iff (rc : EngStatus) : rc.isFailure = true ↔ rc ≠ .ok ∧ rc ≠ .streamEnd := by
  rw [← Bool.not_eq_false, isFailure_false_iff, not_or]

end Sys2Proof.Machine

open Sys2Proof Sys2Proof.Machine in
/-- Settles O50: the round whose engine step fails, with nothing to pull and behind its chunk pull. -/
theorem readBenignEnd : Obligations.ReadBenignEnd := by
  intro len s a q idle opened reader stream engine buffer pos fits next room bad unended
  have failure := (isFailure_true_iff a.status).2 ⟨bad, unended⟩
  rw [execRead_live idle opened reader stream engine buffer pos fits]
  refine ⟨fun ready within => ?_, fun k ks more none chunk short within => ?_⟩
  · rw [readLoop_failed (pulls_staged ready.symm next within room) failure rfl, pullStepped_eq]
    simp [State.respond, memWrite_zero]
  · rw [readLoop_failed (pulls_chunk none more chunk short next within room) failure rfl, pullStepped_eq,
      window_chunked, chunked_eq more]
    simp [State.respond, memWrite_zero]

open Sys2Proof Sys2Proof.Machine in
/-- Settles O48: a round's outcome by its status, the room and the input left. -/
theorem readResult : Obligations.ReadResult := by
  refine ⟨fun len s a q idle opened reader stream engine buffer pos fits ready next within room status final => ?_,
    fun len room w s o input exhausted reads a steps pull next within fits final => ?_⟩
  · have good : a.status.isFailure = false := (isFailure_false_iff _).2 (status.imp (·.1) id)
    have ends : s.readAgain (len.toNat - a.produced.length) a.status = false := by
      obtain ⟨ok, full | last⟩ | ended := status <;> simp [State.readAgain, *]
    rw [execRead_live idle opened reader stream engine buffer pos fits,
      readLoop_done (pulls_staged ready next within room) good ends (undue_of_full final) rfl, pullStepped_eq,
      Nat.sub_sub_self room]
    simp [State.respond, State.crcFeed_eq, memWrite_zero]
  · obtain ⟨s', pulls, staged⟩ : ∃ s', s.resumed.Pulls s' room a [] ∧ s.resumed.Staged s' input exhausted reads := by
      obtain ⟨ready, rfl, rfl, rfl⟩ | ⟨none, more, ⟨ks, chunk⟩, short, rfl, rfl⟩ := pull
      · exact ⟨_, pulls_staged (s := s.resumed) ready next within fits, staged_here _⟩
      · exact ⟨_, pulls_chunk (s := s.resumed) none more chunk short next within fits,
          staged_chunk (s := s.resumed) more input ks⟩
    rw [read_looping steps]
    obtain ⟨trace, window, last, caller⟩ := staged.stepped (w := w) (a := a) (q := []) (room := room) rfl
    have same : s'.noMoreInput = exhausted := staged.exhausted
    by_cases failed : a.status ≠ .ok ∧ a.status ≠ .streamEnd
    · refine ⟨_, readLoop_failed pulls ((isFailure_true_iff _).2 failed) rfl, trace, window, last, caller, ?_⟩
      rw [if_pos failed, same]
      split_ifs <;> simp [staged.inFlight, staged.responses, staged.crcReg, staged.crcCount]
    have good : a.status = .ok ∨ a.status = .streamEnd := by rwa [← not_or, not_not] at failed
    have harm : ¬(exhausted = true ∧ a.status = .bufError) := by
      rintro ⟨-, buf⟩
      simp [buf] at good
    by_cases again : a.produced.length < room ∧ exhausted = false ∧ a.status = .ok
    · obtain ⟨more, unended, ok⟩ := again
      have round := readLoop_goesOn (n := len.toNat) (w := w) pulls ok more (same.trans unended) rfl
      rw [if_pos rfl] at round
      refine ⟨_, congrArg (settle callerBuffer) round, trace, window, last, caller, ?_⟩
      rw [if_neg harm, if_neg failed, if_pos ⟨more, unended, ok⟩]
      simp [staged.responses, staged.crcReg, staged.crcCount]
    · have ends : s'.readAgain (room - a.produced.length) a.status = false := by
        simpa [State.readAgain, same] using again
      have full (e : s'.noMoreInput = true) (c : s'.cmode = .compress) := final good (same ▸ e) (staged.cmode ▸ c)
      refine ⟨_, readLoop_done pulls ((isFailure_false_iff _).2 good) ends (undue_of_full full) rfl, ?_⟩
      rw [if_neg harm, if_neg failed, if_neg again]
      refine ⟨by simpa using trace, (window_crcFeed _ _).trans window, by simpa using last, by simpa using caller, ?_⟩
      simp [staged.inFlight, staged.responses, staged.crcLive, staged.crcReg, staged.crcCount, staged.plat]

open Sys2Proof Sys2Proof.Machine in
/-- Settles O51: the round that exhausts the input, or finds it exhausted, and the final step behind it. -/
theorem readFinalStep : Obligations.ReadFinalStep := by
  have unread {b : StepAnswer} (v : Bytes) (unused : b.consumed = 0) : b.consumed ≤ v.length := unused ▸ Nat.zero_le _
  have count {x y n : Nat} (fits : x + y ≤ n) : n - (n - x - y) = x + y := by omega
  refine ⟨fun len s a b q idle opened reader stream engine buffer fits exhausted compress none next unused unused' more
      room good => ?_,
    fun len s ks a b q idle opened reader stream engine buffer fits open_ compress none chunk next unused unused' more
      room good => ?_,
    fun len s k ks a b c q p idle opened reader stream engine buffer fits open_ compress none chunk some short next all
      unused unused' ok good more whole room => ?_,
    fun len room w s reads a b q flight compress none pull next unused unused' more fits good => ?_⟩
  · rw [execRead_live idle opened reader stream engine buffer (ne_zero_of_lt_toNat more) fits,
      readLoop_final (pulls_staged (.inr exhausted) next (unread _ unused) more.le) good exhausted compress none unused
        unused' more room]
    simp [finalResponse, memWrite_zero, count room]
  · rw [execRead_live idle opened reader stream engine buffer (ne_zero_of_lt_toNat more) fits,
      readLoop_final (pulls_chunk none open_ chunk (Nat.zero_le _) next (unread _ unused) more.le) good
        (chunked_noMoreInput open_) compress rfl unused unused' more room, chunked_eq open_]
    simp [finalResponse, memWrite_zero, count room, none]
  · have first : a.produced.length < len.toNat := by omega
    have within : a.produced.length + b.produced.length + c.produced.length ≤ len.toNat := by
      simpa [whole, Nat.add_assoc] using room
    have staged : (s.chunked k (.answer (.ok []) :: ks)).noMoreInput = false := by
      simp [chunked_noMoreInput open_, some]
    obtain ⟨t, left⟩ : ∃ t, t = (s.chunked k (.answer (.ok []) :: ks)).pullStepped .none len.toNat [] a
      (.answer b :: .answer c :: q) := ⟨_, rfl⟩
    have spent : t.inAvail = 0 := by simp [left, pullStepped_eq, State.chunked, all]
    have open' : t.noMoreInput = false := by simp [left, staged]
    have chunk' : t.ports.chRead = .answer (.ok []) :: ks := by simp [left, pullStepped_eq, State.chunked]
    have next' : t.ports.engStep = .answer b :: .answer c :: q := by simp [left, pullStepped_eq]
    have compress' : (t.chunked [] ks).cmode = .compress := by simp [left, State.chunked, compress]
    have bytes := memWrite_memWrite s.caller a.produced (b.produced ++ c.produced)
    have total : len.toNat - (len.toNat - a.produced.length - b.produced.length - c.produced.length) =
      a.produced.length + (b.produced.length + c.produced.length) := by omega
    simp only [memWrite_zero] at bytes
    rw [execRead_live idle opened reader stream engine buffer (ne_zero_of_lt_toNat first) fits,
      readLoop_goesOn (pulls_chunk none open_ chunk short next all.le first.le) ok first staged left, if_neg (by simp),
      readLoop_final (pulls_chunk spent open' chunk' (Nat.zero_le _) next' (unread _ unused) (by omega)) good
        (chunked_noMoreInput open') compress' rfl unused unused' (by omega) (by omega), chunked_eq open', left,
      pullStepped_eq, window_chunked, chunked_eq open_]
    simp [finalResponse, memWrite_zero, bytes, total, whole, none, compress, BitVec.ofNat_add, BitVec.add_assoc]
  · rw [step_readLoop flight]
    obtain ⟨s', pulls, staged, none'⟩ : ∃ s', s.resumed.Pulls s' room a (.answer b :: q) ∧
        s.resumed.Staged s' [] true reads ∧ s'.inAvail = 0 := by
      obtain ⟨exhausted, rfl⟩ | ⟨open_, ⟨ks, chunk⟩, rfl⟩ := pull
      · have here := staged_here s.resumed
        rw [window_empty (by exact none), show s.resumed.noMoreInput = true from exhausted] at here
        exact ⟨_, pulls_staged (s := s.resumed) (.inr exhausted) next (unread _ unused) more.le, here, none⟩
      · exact ⟨_, pulls_chunk (s := s.resumed) none open_ chunk (Nat.zero_le _) next (unread _ unused) more.le,
          staged_chunk (s := s.resumed) open_ [] ks, rfl⟩
    refine ⟨_, readLoop_final pulls good staged.exhausted (staged.cmode.trans compress) none' unused unused' more fits,
      staged.inFlight, staged.exhausted, none', rfl, ?_, ?_, ?_, ?_, ?_⟩
    all_goals
      simp [staged.caller, staged.trace, staged.crcLive, staged.crcReg, staged.crcCount, staged.plat, staged.responses,
        finalResponse, memWrite, Nat.add_assoc]
end

section
/-! What a CLOSE leaves (43_control.md R244, R249, R251, R252), O33: none of its effects writes another register, and its
pseudocode ends only past the teardown's last step, in a state that the invariant says the rest of. -/

namespace Sys2Proof.Machine

variable {α β : Type} {Q : β → State → Prop} {s t : State}

/-- The state with everything blanked that a CLOSE, its answer or its pause can write. -/
def State.unclosed (s : State) : State := { s.unpushed with disposed := false, engLive := false, wbLive := false }

theorem unclosed_close (s₀ : State) : CloseEffects (fun s => s.unclosed = s₀.unclosed) where
  other _ _ _ _ _ h := h
  stepped _ _ _ _ _ _ _ h := h
  work _ _ h := h
  stopped _ h := h
  released _ h := h
  disposed _ h := h

/-- States that agree when blanked differ only there. -/
theorem eq_of_unclosed (same : t.unclosed = s.unclosed) :
    t = { s with
      disposed := t.disposed, engLive := t.engLive, wbLive := t.wbLive, work := t.work, inNext := t.inNext
      inAvail := t.inAvail, engTotalOut := t.engTotalOut
      responses := t.responses, trace := t.trace, ports := t.ports, draws := t.draws, inFlight := t.inFlight } :=
  congrArg (fun u : State => { u with
    disposed := t.disposed, engLive := t.engLive, wbLive := t.wbLive, work := t.work, inNext := t.inNext
    inAvail := t.inAvail, engTotalOut := t.engTotalOut
    responses := t.responses, trace := t.trace, ports := t.ports, draws := t.draws, inFlight := t.inFlight }) same

/-! ### Where a CLOSE answers -/

/-- An early end that answers nothing: no error was raised. -/
def Exit.Unraised : Exit → State → Prop
  | .raise _, _ => False
  | .pause _, _ | .refuse _, _ => True

theorem unraised_halts (p : PortName) (s : State) : Act.Halts Exit.Unraised p s := ⟨trivial, fun _ => trivial⟩

/-- What the last part of some pseudocode ends in, the whole ends in, where no part raises. -/
theorem unraised_last {m : Act α} {f : α → Act β} (hm : Act.wp m (fun _ _ => True) Exit.Unraised s)
    (hf : ∀ a s, Act.wp (f a) Q Exit.Unraised s) : Act.wp (m >>= f) Q Exit.Unraised s := by
  rw [Act.wp_bind]
  exact Act.wp_mono hm (fun a s' _ => hf a s') fun _ _ h => h

theorem unraised_onlyIf {c : Prop} [Decidable c] {m : Act Unit} (hm : Act.wp m (fun _ _ => True) Exit.Unraised s) :
    Act.wp (onlyIf c m) (fun _ _ => True) Exit.Unraised s := by
  rw [Act.wp_onlyIf]
  exact ⟨fun _ => hm, fun _ => trivial⟩

/-- `try m catch e` raises nothing. -/
theorem unraised_attempt (m : Act Unit) : Act.wp (attempt m) (fun _ _ => True) Exit.Unraised s := by
  refine Act.wp_attempt m ?_
  unfold Act.wp
  cases m s with
  | ok u s' => trivial
  | error x s' => cases x <;> trivial

/-- The teardown raises nothing, and ends past the setting of DISPOSED (R244, R249). -/
theorem teardown_disposes (err : Option Error) (s : State) :
    Act.wp (teardown err) (fun _ s' => s'.disposed = true) Exit.Unraised s := by
  have ends : ∀ s, Act.wp endEngine (fun _ _ => True) Exit.Unraised s := fun s =>
    endEngine_wp (unraised_halts _ _) fun _ _ => trivial
  have releases : ∀ s, Act.wp releaseBuffer (fun _ _ => True) Exit.Unraised s := fun s =>
    releaseBuffer_wp (unraised_halts _ _) fun _ _ => trivial
  have closes : ∀ s, Act.wp closeChannel (fun _ _ => True) Exit.Unraised s := fun s =>
    closeChannel_wp (fun _ => unraised_halts _ _) (fun _ => trivial) fun _ _ _ _ => trivial
  exact unraised_last trivial fun _ s => unraised_last (unraised_onlyIf (ends s)) fun _ _ =>
    unraised_last trivial fun _ s => unraised_last (unraised_onlyIf (releases s)) fun _ s =>
      unraised_last (closes s) fun _ _ => rfl

theorem resumeFinish_disposes (s : State) :
    Act.wp resumeFinish (fun _ s' => s'.disposed = true) Exit.Unraised s :=
  unraised_last (unraised_attempt _) teardown_disposes

theorem closeBody_disposes (s : State) : Act.wp closeBody (fun _ s' => s'.disposed = true) Exit.Unraised s := by
  unfold closeBody
  rw [Act.wp_bind, Act.wp_getState, Act.wp_ite]
  exact ⟨fun closed => closed, fun _ => unraised_last (unraised_attempt _) teardown_disposes⟩

/-- Pseudocode that raises nothing and sets DISPOSED on every normal end has set it once its command has answered. -/
theorem settled_disposed {buffer : State → Option Bytes} {body : Act Response}
    (disposes : Act.wp body (fun _ s' => s'.disposed = true) Exit.Unraised s) :
    Act.wp body (fun r s' => (s'.respond r).inFlight = none → (s'.respond r).disposed = true)
      (Exit.Leaves buffer fun t => t.inFlight = none → t.disposed = true) s :=
  Act.wp_mono disposes (fun _ _ set _ => set) fun x _ h => by
    cases x with
    | raise e => exact h.elim
    | pause f => exact fun ended => by cases ended
    | refuse r => trivial

theorem close_disposed (ht : exec .close s = .next t ∨ s.inFlight = some .finishLoop ∧ step s = .next t)
    (ended : t.inFlight = none) : t.disposed = true := by
  obtain ht | ⟨flight, ht⟩ := ht
  · exact runCommand_next (P := fun t => t.inFlight = none → t.disposed = true)
      (fun _ => settled_disposed (closeBody_disposes s)) ht ended
  · rw [step_of_flight flight] at ht
    exact settle_next (P := fun t => t.inFlight = none → t.disposed = true)
      (settled_disposed (resumeFinish_disposes s.resumed)) ht ended

theorem close_inv (inv : s.Inv) (ht : exec .close s = .next t ∨ s.inFlight = some .finishLoop ∧ step s = .next t) :
    t.Inv :=
  ht.elim (inv_phases.exec (inv_phases.start s inv)) fun ht => inv_phases.step inv ht.2

/-- A closed adapter that stands between commands holds no engine and no buffer (10_state.md R45, R48). -/
theorem State.Inv.torn (inv : s.Inv) (closed : s.disposed = true) (ended : s.inFlight = none) :
    s.engLive = false ∧ s.wbLive = false ∧ s.work = [] := by
  have together := (inv.between ended).together
  obtain ⟨-, -, ⟨-, -, -, unleased⟩, ⟨live, -⟩, -⟩ := inv
  have engine : s.engLive = false := Bool.eq_false_iff.2 fun on => by simpa [closed] using (live on).2
  have buffer : s.wbLive = false := together ▸ engine
  exact ⟨engine, buffer, unleased buffer⟩

end Sys2Proof.Machine

open Sys2Proof Sys2Proof.Machine in
/-- Settles O33: what no effect of a CLOSE writes stays, and one that answered set DISPOSED and kept the invariant. -/
theorem closeFrame : Obligations.CloseFrame := by
  refine ⟨fun s t ht => eq_of_unclosed ?_, fun s t inv ht ended => ?_⟩
  · refine ends_of (P := fun s' => s'.unclosed = s.unclosed) (fun _ _ h => h) (fun _ _ h => h) ?_
    obtain ht | ⟨flight, ht⟩ := ht
    · exact runCommand_ends (keeps_closeBody (unclosed_close s)) (fun _ => rfl) ht
    · exact resumeFinish_ends (unclosed_close s) (s := s.resumed) rfl (step_of_flight flight ▸ ht)
  · have disposed := close_disposed ht ended
    exact ⟨disposed, (close_inv inv ht).torn disposed ended⟩
end

section
/-! CLOSE with nothing to finish: an engine never touched (43_control.md R248), O56, and a Reader (R247), O57. -/

namespace Sys2Proof.Machine

variable {s : State} {err : Option Error}

/-- Finish on an engine never touched (R248). -/
theorem attempt_finish_untouched (engine : s.engLive = false) : attempt finishIfTouched s = .ok none s := by
  simp [attempt, finishIfTouched, onlyIf, engine]

/-- With nothing live the teardown is its third step alone (R248, R249). -/
theorem teardown_idle (engine : s.engLive = false) (buffer : s.wbLive = false) {e : Option Error} {s' : State}
    (closed : closeChannel s = .ok e s') : teardown err s = .ok (closeResponse (err.or e)) s'.setDisposed := by
  simp [teardown, onlyIf, engine, buffer, closed]

/-- CLOSE of an open adapter that was never touched, from what closing its channel does. -/
theorem execClose_untouched (idle : s.inFlight = none) (opened : s.disposed = false) (engine : s.engLive = false)
    (buffer : s.wbLive = false) {e : Option Error} {s' : State} (closed : closeChannel s = .ok e s') :
    exec .close s = .next (s'.setDisposed.respond (closeResponse e)) := by
  rw [execClose_eq idle opened, bind_run, attempt_finish_untouched engine]
  exact congrArg (settle noBuffer) (teardown_idle (err := none) engine buffer closed)

/-- The error of a Reader's Finish: a compress-on-read Gzip adapter has no trailer to write (R247). -/
def State.readerError (s : State) : Option Error :=
  if s.flavor = .gzip ∧ s.cmode = .compress then some (.unsupportedDirection .readCompress) else none

/-- Finish on a live Reader makes no transaction (R247). -/
theorem attempt_finish_reader (engine : s.engLive = true) (reader : s.streamMode = .reader) :
    attempt finishIfTouched s = .ok s.readerError s := by
  by_cases gzip : s.flavor = .gzip
  · cases dir : s.cmode <;>
      simp [attempt, finishIfTouched, onlyIf, engine, finish, reader, readerFinish, State.readerError, gzip, dir]
  · simp [attempt, finishIfTouched, onlyIf, engine, finish, reader, readerFinish, State.readerError, gzip]

/-- What CLOSE of a live Reader answers (R247, R252). -/
theorem closeResponse_reader (s : State) (c : Answer Unit) :
    closeResponse (s.readerError.or (if s.leaveOpen then none else c.error?)) =
      if s.flavor = .gzip ∧ s.cmode = .compress then .err (.unsupportedDirection .readCompress) none
      else if s.leaveOpen then .ok .unit
      else channelResponse (fun _ => .unit) c := by
  rw [State.readerError]
  split
  · rfl
  · cases s.leaveOpen
    · cases c <;> rfl
    · rfl

end Sys2Proof.Machine

open Sys2Proof Sys2Proof.Machine in
/-- Settles O56: no Finish, and of the teardown only the closing of the channel. -/
theorem closeUntouched : Obligations.CloseUntouched := by
  refine fun s idle opened engine buffer => ⟨fun left => ?_, fun c q shut next => ?_⟩
  · exact execClose_untouched idle opened engine buffer (closeChannel_left left)
  · rw [execClose_untouched idle opened engine buffer (closeChannel_run shut next)]
    cases c <;> rfl

open Sys2Proof Sys2Proof.Machine in
/-- Settles O57: a Reader's Finish only decides the answer, and the teardown runs whatever it is. -/
theorem closeReader : Obligations.CloseReader := by
  intro s c q₁ q₂ q₃ idle opened reader engine buffer ended released closed
  rw [execClose_eq idle opened, bind_run, attempt_finish_reader engine reader]
  simp only [teardown_run engine buffer ended released closed, closeResponse_reader]
  cases c <;> rfl
end

section
/-! CLOSE of a Writer whose Finish fails (43_control.md R246, R249, R252; 60_exceptions.md R290, R292), O59: the state
and the error Finish leaves in each of its four places of failure; the teardown goes on from there. -/

namespace Sys2Proof.Machine

variable {s t : State}

/-- Finish whose first push step leaves early (R246). -/
theorem writerFinish_left {e : Error} (pushed : pushStep .finish s = .error (.raise e) t) :
    attempt writerFinish s = .ok (some e) t := by
  have loop : finishLoop s = .error (.raise e) t := by
    rw [finishLoop, bind_run, getState_run]
    exact iterate_left (finishRound_left pushed)
  simp only [attempt, writerFinish, bind_run, loop]

/-- Finish whose ChFlush fails (R246). -/
theorem writerFinish_unflushed {e : Bytes} {f : List (Reply (Answer Unit))} (loop : finishLoop s = .ok () t)
    (flush : t.ports.chFlush = .answer (.fail e) :: f) :
    attempt writerFinish s = .ok (some (.chFail e))
      (t.exchanged { t.ports with chFlush := f } t.draws (.chFlush (.fail e))) := by
  simp only [attempt, writerFinish, bind_run, loop, chFlush_failed flush]

/-- Finish of a compressing Gzip adapter whose trailer the channel does not take, but for a prefix (R246, 40_envelope.md
R173). -/
theorem writerFinish_untrailed {e : Bytes} {k : Nat} {f : List (Reply (Answer Unit))} {w : List (Reply WriteAnswer)}
    (loop : finishLoop s = .ok () t) (gzip : t.flavor = .gzip) (compress : t.cmode = .compress)
    (flush : t.ports.chFlush = .answer (.ok ()) :: f) (trailer : t.ports.chWrite = .answer (.fail e k) :: w)
    (prefix_ : k ≤ 8) :
    attempt writerFinish s = .ok (some (.chFail e)) { t with
      ports := { t.ports with chWrite := w, chFlush := f }
      trace := t.trace ++ [.chFlush (.ok ()), .chWrite t.trailerBytes (.fail e k)] } := by
  simp only [attempt, writerFinish, bind_run, loop, chFlush_run flush, getState_run, onlyIf]
  rw [if_pos (by exact gzip)]
  simp only [State.exchanged_cmode, compress, trailerEmit, bind_run, getState_run]
  rw [chWrite_failed (q := w) (by exact trailer) (by exact prefix_)]
  simp [State.exchanged, State.trailerBytes, State.crcResult, compress]

/-- CLOSE of a live Writer from what a failed Finish leaves: the teardown with its record behind Finish's, and Finish's
error, whatever ChClose answers (R249, R252, 60_exceptions.md R292). -/
theorem close_failed {o : Host.Outcome State Fault Refusal} {e : Error} {base ts : List Txn} {c : Answer Unit}
    {q₁ q₂ : List (Reply Unit)} {q₃ : List (Reply (Answer Unit))}
    (steps : s.inFlight = none ∧ o = exec .close s ∨ s.inFlight = some .finishLoop ∧ o = step s)
    (opened : s.disposed = false) (writer : s.streamMode = .writer) (engine : s.engLive = true)
    (failed : attempt writerFinish s.resumed = .ok (some e) t) (live : t.engLive = true) (buffer : t.wbLive = true)
    (ended : t.ports.engEnd = .answer () :: q₁) (released : t.ports.poolRelease = .answer () :: q₂)
    (closed : t.ports.chClose = (if t.leaveOpen then [] else [.answer c]) ++ q₃) (record : t.trace = base ++ ts) :
    o = .next { t with
      disposed := true, engLive := false, wbLive := false, work := []
      ports := { t.ports with engEnd := q₁, poolRelease := q₂, chClose := q₃ }
      trace := base ++ (ts ++ [.engEnd t.cmode, .poolRelease]) ++ (if t.leaveOpen then [] else [.chClose c])
      responses := t.responses ++ [.err e none] } := by
  rw [close_finished steps opened writer engine failed live buffer ended released closed, record, List.append_assoc base]
  rfl

end Sys2Proof.Machine

open Sys2Proof Sys2Proof.Machine in
/-- Settles O59: each place where Finish fails leaves its error, and the teardown answers that one. -/
theorem closeErrorPrecedence : Obligations.CloseErrorPrecedence := by
  intro s o a c q q₁ q₂ q₃ steps opened writer engine buffer next within room ended released closed
  have fits : stepFits s.resumed.window s.resumed.wbLen a = true := (stepFits_iff _ _ _).2 ⟨within, room⟩
  refine ⟨fun notOk notEnd => ?_, fun e k w status some short wrote => ?_,
    fun e w f unfilled status left wrote flushed => ?_,
    fun e k w f gzip compress unfilled status left wrote short flushed => ?_⟩
  · have bad : a.status.isFailure = true := Bool.of_not_eq_false fun good =>
      ((isFailure_false_iff _).1 good).elim notOk notEnd
    have failed := writerFinish_left (pushStep_failed (s := s.resumed) next fits bad)
    rw [stepped_eq] at failed
    exact close_failed (base := s.trace) (ts := [_]) steps opened writer engine failed engine buffer ended released
      closed rfl
  · have good := (isFailure_false_iff _).2 status
    have failed := writerFinish_left (pushStep_unwritten (s := s.resumed) next fits good some wrote short)
    rw [stepped_eq] at failed
    exact close_failed (ts := [_, _]) steps opened writer engine failed engine buffer ended released closed
      (List.append_assoc s.trace [_] [_])
  · have loop := finishLoop_run (s := s.resumed) next within unfilled status left wrote
    have failed := writerFinish_unflushed loop flushed
    exact close_failed (ts := [_]) steps opened writer engine failed engine buffer ended released closed rfl
  · have down : s.inAvail - a.consumed = s.doneAvail := by simpa [State.doneAvail, compress] using left
    have loop := finishLoop_run (s := s.resumed) next within unfilled status down wrote
    have failed := writerFinish_untrailed loop gzip compress flushed rfl short
    exact close_failed (ts := [_, _]) steps opened writer engine failed engine buffer ended released closed rfl
end

section
/-! The commands that only answer, O39, or only ask the channel, O40 (43_control.md R240, R260 to R264), and the words
that spell them. -/

namespace Sys2Proof

/-- A word with RSV 0 whose fields are those of a well-formed command's row decodes to it (R142). -/
theorem Spells.decode_eq {w : U64} {i : Instr} (h : Spells w i) (rsv : rsvOf w = 0) : decode w = .ok i :=
  decode_of_encode_eq h.wf (h.encode_eq rsv)

end Sys2Proof

namespace Sys2Proof.Machine

variable {α : Type} {s s' : State} {m : Mnemonic}

/-- A command that never succeeds (R260 to R263). -/
theorem runCommand_unsupported (idle : s.inFlight = none) (m : Mnemonic) :
    runCommand noBuffer (unsupported m) s =
      .next (s.respond (.err (if s.disposed then .disposed m else .unsupportedOp m) none)) := by
  cases closed : s.disposed <;> simp [runCommand, idle, unsupported, closed, settle, noBuffer]

theorem execSeek_eq (idle : s.inFlight = none) (offset : U32) {origin : Byte} (spelled : origin.toNat ≤ 2) :
    exec (.seek offset origin) s =
      .next (s.respond (.err (if s.disposed then .disposed .seek else .unsupportedOp .seek) none)) := by
  have wf : (Instr.seek offset origin).wf = true := decide_eq_true spelled
  show execSeek offset origin s = _
  rw [execSeek, if_pos wf, runCommand_unsupported idle]

/-- A command that only asks the channel, on an open adapter whose channel answers. -/
theorem runCommand_asks {ask : Act α} {answer : α → Response} {a : α} (idle : s.inFlight = none)
    (opened : s.disposed = false) (asked : ask s = .ok a s') :
    runCommand noBuffer (do
      let s ← getState
      if s.disposed then raise (.disposed m)
      else do
        let a ← ask
        pure (answer a)) s = .next (s'.respond (answer a)) := by
  simp [runCommand, idle, opened, asked, settle]

/-- FLUSH on an open adapter whose channel answers (R240). -/
theorem execFlush_asked {a : Answer Unit} (idle : s.inFlight = none) (opened : s.disposed = false)
    (asked : askFlush s = .ok a s') : exec .flush s = .next (s'.respond (channelResponse (fun _ => .unit) a)) :=
  runCommand_asks idle opened asked

/-- GETLEN on an open adapter whose channel answers (R264). -/
theorem execGetlen_asked {a : Answer ChLength} (idle : s.inFlight = none) (opened : s.disposed = false)
    (asked : askLength s = .ok a s') : exec .getlen s = .next (s'.respond (channelResponse .length a)) :=
  runCommand_asks idle opened asked

theorem askFlush_free (h : s.ports.chFlush = []) :
    askFlush s = .ok (freeAnswer () s.draws)
      (s.exchanged s.ports (s.draws + 1) (.chFlush (freeAnswer () s.draws))) :=
  transact_free h

theorem askLength_free (h : s.ports.chLength = []) :
    askLength s = .ok (freeLength s.draws) (s.exchanged s.ports (s.draws + 1) (.chLength (freeLength s.draws))) :=
  transact_free h

end Sys2Proof.Machine

open Sys2Proof Sys2Proof.Machine in
/-- Settles O39: each word's fields are its command's row, and the one meaning the four share only answers. -/
theorem positioningUnsupported : Obligations.PositioningUnsupported := by
  refine ⟨fun w rsv => ⟨fun opc within => ?_, fun opc sel len => ?_, fun opc sel => ?_, fun opc sel => ?_⟩,
    fun s idle => ⟨fun offset origin within => execSeek_eq idle offset within, runCommand_unsupported idle .getpos,
      fun _ => runCommand_unsupported idle .setpos, fun _ => runCommand_unsupported idle .setlen⟩⟩
  · exact Spells.decode_eq ⟨decide_eq_true within, opc, rfl, rfl⟩ rsv
  · exact Spells.decode_eq ⟨rfl, opc, sel, len⟩ rsv
  · exact Spells.decode_eq ⟨rfl, opc, sel, rfl⟩ rsv
  · exact Spells.decode_eq ⟨rfl, opc, sel, rfl⟩ rsv

open Sys2Proof Sys2Proof.Machine in
/-- Settles O40: the one transaction of each, its answer scripted or free, and the response that answer stands for. -/
theorem flushAndGetlenResult : Obligations.FlushAndGetlenResult := by
  refine ⟨fun w rsv sel len => ⟨fun opc => Spells.decode_eq ⟨rfl, opc, sel, len⟩ rsv,
      fun opc => Spells.decode_eq ⟨rfl, opc, sel, len⟩ rsv⟩,
    fun s idle => ⟨fun closed => ?_, fun opened a q next => ?_, fun opened unscripted => ⟨freeAnswer () s.draws, ?_⟩,
      fun opened a q next => ?_, fun opened unscripted => ⟨freeLength s.draws, ?_⟩⟩⟩
  · exact ⟨runCommand_closed idle closed, runCommand_closed idle closed⟩
  · rw [execFlush_asked idle opened (askFlush_run next)]
    cases a <;> rfl
  · rw [execFlush_asked idle opened (askFlush_free unscripted)]
    cases freeAnswer () s.draws <;> rfl
  · rw [execGetlen_asked idle opened (askLength_run next)]
    cases a <;> rfl
  · rw [execGetlen_asked idle opened (askLength_free unscripted)]
    cases freeLength s.draws <;> rfl
end

section
/-! The raise-site table (60_exceptions.md R281 to R285), O25: which errors each part of the pseudocode raises or
answers, and from them those of each command, in the step that begins it and in a later one. -/

namespace Sys2Proof.Machine

variable {α β σ : Type} {ok : Error → Prop} {good : α → Prop} {s t : State}

/-! ### What an action answers, and the errors it raises -/

/-- `erring_bind` where what follows `m` needs to know what `m` answers. -/
theorem erring_bind_good {m : Act β} {f : β → Act α} {answers : β → Prop} (hm : m.Erring ok answers)
    (hf : ∀ b, answers b → (f b).Erring ok good) : Act.Erring ok good (m >>= f) := fun s =>
  (Act.wp_bind m f).2 (Act.wp_mono (hm s) (fun b s' h => hf b h s') fun _ _ h => h)

/-- A loop of which only what its rounds raise matters, not what it answers. -/
theorem erring_loop {body : σ → Act (σ ⊕ α)} {at_ : σ → InFlight} (round : ∀ x, (body x).Erring ok fun _ => True)
    (more : Nat) (x : σ) : Act.Erring ok (fun _ => True) (iterate body at_ more x) :=
  erring_iterate (fun x s => Act.wp_mono (round x s) (fun _ _ _ _ _ => trivial) fun _ _ h => h) more x

/-- The error that `attempt` answers is one that its action raises. -/
theorem erring_attempt {m : Act Unit} (hm : m.Erring ok fun _ => True) :
    Act.Erring ok (fun err => ∀ e ∈ err, ok e) (attempt m) := fun s =>
  Act.wp_attempt m (Act.wp_mono (hm s) (fun _ _ _ => by simp) fun x _ h => by
    cases x with
    | raise e => simpa using h e rfl
    | pause f => exact h
    | refuse r => exact h)

theorem erring_chWrite (channel : ∀ e, ok (.chFail e)) (b : Bytes) : Act.Erring ok (fun _ => True) (chWrite b) :=
  erring_bind erring_transact fun a => by
    cases a with
    | ok => exact erring_pure trivial
    | fail e _ => exact erring_raise (channel e)

theorem erring_chFlush (channel : ∀ e, ok (.chFail e)) : Act.Erring ok (fun _ => True) chFlush :=
  erring_bind erring_transact fun a => by
    cases a with
    | ok _ => exact erring_pure trivial
    | fail e => exact erring_raise (channel e)

/-! ### The header parse (R281) -/

theorem erring_readFill (channel : ∀ e, ok (.chFail e)) (n rounds : Nat) (b : Bytes) :
    Act.Erring ok (fun _ => True) (readFill n rounds b) := by
  induction rounds generalizing b with
  | zero => exact erring_pure trivial
  | succ k ih =>
    exact erring_ite (erring_bind (erring_chRead channel _) fun _ => erring_ite (erring_pure trivial) (ih _))
      (erring_pure trivial)

section
variable (channel : ∀ e, ok (.chFail e)) (format : ∀ e, e.kind = .format → ok e)
include channel format

theorem erring_readField (place : HdrField) (n : Nat) : Act.Erring ok (fun _ => True) (readField place n) :=
  erring_bind (erring_readFill channel n n []) fun _ =>
    erring_ite (erring_raise (format _ rfl)) (erring_pure trivial)

theorem erring_hdrFixed (h : Bytes) : Act.Erring ok (fun _ => True) (hdrFixed h) :=
  have checks : Act.Erring ok (fun _ => True) (checkFixed h) :=
    erring_ite (erring_raise (format _ rfl)) (erring_ite (erring_raise (format _ rfl)) (erring_pure trivial))
  have extra : Act.Erring ok (fun _ => True) skipExtra :=
    erring_bind (erring_readField channel format _ _) fun _ =>
      erring_bind (erring_readField channel format _ _) fun _ => erring_pure trivial
  erring_ite (erring_bind (erring_update _) fun _ => erring_pure trivial)
    (erring_ite (erring_raise (format _ rfl))
      (erring_bind checks fun _ =>
        erring_ite (erring_bind extra fun _ => erring_pure trivial) (erring_pure trivial)))

theorem erring_hdrOpen : Act.Erring ok (fun _ => True) hdrOpen :=
  erring_bind (erring_readFill channel 10 10 []) fun _ => erring_hdrFixed channel format _

theorem erring_zstringRound (place : HdrField) (acc : Bytes) : Act.Erring ok (fun _ => True) (zstringRound place acc) :=
  erring_bind (erring_readField channel format _ _) fun _ => erring_ite (erring_pure trivial) (erring_pure trivial)

theorem erring_readName (len : Nat) (h : HdrFields) (acc : Bytes) :
    Act.Erring ok (fun _ => True) (readName len h acc) :=
  erring_getState fun _ =>
    erring_bind (erring_loop (erring_zstringRound channel format _) _ _) fun _ => erring_pure trivial

theorem erring_readComment (len : Nat) (h : HdrFields) (acc : Bytes) :
    Act.Erring ok (fun _ => True) (readComment len h acc) :=
  erring_getState fun _ =>
    erring_bind (erring_loop (erring_zstringRound channel format _) _ _) fun _ => erring_pure trivial

theorem erring_hdrClose (h : HdrFields) : Act.Erring ok (fun _ => True) (hdrClose h) :=
  erring_ite (erring_bind (erring_readField channel format _ _) fun _ => erring_update _) (erring_update _)

theorem erring_hdrFromComment (len : Nat) (h : HdrFields) : Act.Erring ok (fun _ => True) (hdrFromComment len h) :=
  erring_bind (erring_ite (erring_readComment channel format _ _ _) (erring_pure trivial)) fun _ =>
    erring_hdrClose channel format _

theorem erring_hdrFromName (len : Nat) (h : HdrFields) : Act.Erring ok (fun _ => True) (hdrFromName len h) :=
  erring_bind (erring_ite (erring_readName channel format _ _ _) (erring_pure trivial)) fun _ =>
    erring_hdrFromComment channel format _ _

end

/-! ### READ and WRITE -/

/-- A READ raises its two usage errors, a parse's errors, the channel's and the engine's. -/
theorem erring_readBody (disposed : ok (.disposed .read)) (after : ok .readAfterWrite)
    (format : ∀ e, e.kind = .format → ok e) (channel : ∀ e, ok (.chFail e)) (engine : ∀ rc, ok (.engineFail rc))
    (init : ∀ msg, ok (.initFail msg)) {len : Nat} : Act.Erring ok (Response.Erring ok) (readBody len) :=
  have data : Act.Erring ok (Response.Erring ok) (readData len) := erring_readData channel engine init len
  have parsing : Act.Erring ok (Response.Erring ok) (readParsing len) :=
    erring_bind (erring_hdrOpen channel format) fun h => by
      cases h with
      | none => exact erring_readAnswer 0
      | some h => exact erring_bind (erring_hdrFromName channel format _ _) fun _ => data
  erring_getState fun _ => erring_ite (erring_raise disposed) (erring_ite (erring_raise after)
    (erring_ite (erring_bind (erring_update _) fun _ => erring_getState fun _ => erring_ite parsing data) data))

theorem erring_readLoop (channel : ∀ e, ok (.chFail e)) (engine : ∀ rc, ok (.engineFail rc)) (len room : Nat)
    (w : Bytes) : Act.Erring ok (Response.Erring ok) (readLoop len room w) :=
  erring_getState fun _ => erring_iterate (erring_readRound channel engine len) _ _

/-- What is left of a READ in flight in FNAME. -/
theorem erring_resumeName (channel : ∀ e, ok (.chFail e)) (format : ∀ e, e.kind = .format → ok e)
    (engine : ∀ rc, ok (.engineFail rc)) (init : ∀ msg, ok (.initFail msg)) (len : Nat) (h : HdrFields) (acc : Bytes) :
    Act.Erring ok (Response.Erring ok) (resumeName len h acc) :=
  erring_bind (erring_readName channel format _ _ _) fun _ =>
    erring_bind (erring_hdrFromComment channel format _ _) fun _ => erring_readData channel engine init _

/-- What is left of a READ in flight in FCOMMENT. -/
theorem erring_resumeComment (channel : ∀ e, ok (.chFail e)) (format : ∀ e, e.kind = .format → ok e)
    (engine : ∀ rc, ok (.engineFail rc)) (init : ∀ msg, ok (.initFail msg)) (len : Nat) (h : HdrFields) (acc : Bytes) :
    Act.Erring ok (Response.Erring ok) (resumeComment len h acc) :=
  erring_bind (erring_readComment channel format _ _ _) fun _ =>
    erring_bind (erring_hdrClose channel format _) fun _ => erring_readData channel engine init _

theorem erring_pushStep (channel : ∀ e, ok (.chFail e)) (engine : ∀ rc, ok (.engineFail rc)) (flush : FlushType) :
    Act.Erring ok (fun _ => True) (pushStep flush) :=
  erring_getState fun _ => erring_bind (erring_engStep _ _) fun _ => erring_bind (erring_update _) fun _ =>
    erring_ite (erring_raise (engine _)) (erring_getState fun _ =>
      erring_bind (erring_onlyIf (erring_chWrite channel _)) fun _ => erring_pure trivial)

theorem erring_writeLoop (channel : ∀ e, ok (.chFail e)) (engine : ∀ rc, ok (.engineFail rc)) :
    Act.Erring ok (Response.Erring ok) writeLoop :=
  have done : ∀ r : Response, (Sum.inr (.ok .unit) : Unit ⊕ Response) = .inr r → r.Erring ok := by
    rintro _ ⟨⟩
    exact erring_ok _
  erring_getState fun _ => erring_iterate (fun _ => erring_bind (erring_pushStep channel engine _) fun _ =>
    erring_getState fun _ => erring_ite (erring_pure done) (erring_pure (by simp))) _ _

theorem erring_hdrEmit (channel : ∀ e, ok (.chFail e)) : Act.Erring ok (fun _ => True) hdrEmit :=
  have time : Act.Erring ok (fun _ => True) timestamp := erring_getState fun s => by
    cases s.mtimeFixed with
    | some m => exact erring_pure trivial
    | none => exact erring_bind erring_transact fun _ => erring_pure trivial
  erring_bind time fun _ => erring_getState fun _ => erring_bind (erring_chWrite channel _) fun _ => erring_update _

/-- A WRITE raises its two usage errors, the channel's and the engine's. -/
theorem erring_writeBody (disposed : ok (.disposed .write)) (after : ok .writeAfterRead)
    (channel : ∀ e, ok (.chFail e)) (engine : ∀ rc, ok (.engineFail rc)) (init : ∀ msg, ok (.initFail msg))
    {len : Nat} : Act.Erring ok (Response.Erring ok) (writeBody len) :=
  have data : Act.Erring ok (Response.Erring ok) (writeData len) :=
    erring_ite (erring_pure (erring_ok _)) (erring_bind (erring_update _) fun _ =>
      erring_bind (erring_materialise init) fun _ => erring_bind (erring_update _) fun _ =>
        erring_writeLoop channel engine)
  have enter : Act.Erring ok (fun _ => True) enterWriter :=
    erring_bind (erring_update _) fun _ => erring_getState fun _ => erring_onlyIf (erring_hdrEmit channel)
  erring_getState fun _ => erring_ite (erring_raise disposed) (erring_ite (erring_raise after)
    (erring_bind (erring_onlyIf enter) fun _ => data))

/-! ### CLOSE -/

theorem erring_closeResponse {err : Option Error} (h : ∀ e ∈ err, ok e) : (closeResponse err).Erring ok := by
  cases err with
  | none => exact erring_ok _
  | some e =>
    rintro _ _ ⟨⟩
    exact h e rfl

section
variable (channel : ∀ e, ok (.chFail e))
include channel

/-- A closing channel's failure is answered, not raised (43_control.md R249). -/
theorem erring_closeChannel : Act.Erring ok (fun err => ∀ e ∈ err, ok e) closeChannel :=
  erring_getState fun _ => erring_ite (erring_pure (by simp)) (erring_bind erring_transact fun a => by
    cases a with
    | ok _ => exact erring_pure (by simp [Answer.error?])
    | fail e => exact erring_pure (by simpa [Answer.error?] using channel e))

/-- The teardown answers Finish's error, or the closing channel's (43_control.md R252). -/
theorem erring_teardown {err : Option Error} (finish : ∀ e ∈ err, ok e) :
    Act.Erring ok (Response.Erring ok) (teardown err) :=
  have engine : Act.Erring ok (fun _ => True) endEngine :=
    erring_getState fun _ => erring_bind erring_transact fun _ => erring_update _
  have buffer : Act.Erring ok (fun _ => True) releaseBuffer := erring_bind erring_transact fun _ => erring_update _
  erring_getState fun _ => erring_bind (erring_onlyIf engine) fun _ =>
    erring_getState fun _ => erring_bind (erring_onlyIf buffer) fun _ =>
      erring_bind_good (erring_closeChannel channel) fun closing fine =>
        erring_bind (erring_update _) fun _ => erring_pure (erring_closeResponse fun e which => by
          cases err with
          | none => exact fine e which
          | some e' => exact finish e which)

variable (engine : ∀ rc, ok (.engineFail rc)) (direction : ∀ d, ok (.unsupportedDirection d))
include engine direction

theorem erring_writerFinish : Act.Erring ok (fun _ => True) writerFinish :=
  have loop : Act.Erring ok (fun _ => True) finishLoop := erring_getState fun _ =>
    erring_loop (fun _ => erring_bind (erring_pushStep channel engine _) fun _ =>
      erring_getState fun _ => erring_ite (erring_pure trivial) (erring_pure trivial)) _ _
  erring_bind loop fun _ => erring_bind (erring_chFlush channel) fun _ => erring_getState fun s => erring_onlyIf (by
    cases s.cmode with
    | compress => exact erring_getState fun _ => erring_chWrite channel _
    | decompress => exact erring_raise (direction _))

/-- Finish raises the engine's step failure, the channel's and the direction error (43_control.md R245 to R247). -/
theorem erring_finish : Act.Erring ok (fun _ => True) finish := erring_getState fun s => by
  cases s.streamMode with
  | undefined => exact erring_pure trivial
  | reader =>
    refine erring_getState fun s => erring_onlyIf ?_
    cases s.cmode with
    | compress => exact erring_raise (direction _)
    | decompress => exact erring_pure trivial
  | writer => exact erring_writerFinish channel engine direction

theorem erring_closeBody : Act.Erring ok (Response.Erring ok) closeBody :=
  have touched : Act.Erring ok (fun _ => True) finishIfTouched :=
    erring_getState fun _ => erring_onlyIf (erring_finish channel engine direction)
  erring_getState fun _ => erring_ite (erring_pure (erring_ok _))
    (erring_bind_good (erring_attempt touched) fun _ fine => erring_teardown channel fine)

theorem erring_resumeFinish : Act.Erring ok (Response.Erring ok) resumeFinish :=
  erring_bind_good (erring_attempt (erring_writerFinish channel engine direction)) fun _ fine =>
    erring_teardown channel fine

end

/-! ### The commands that only answer, or only ask the channel -/

theorem erring_channelResponse (channel : ∀ e, ok (.chFail e)) (value : α → Value) (a : Answer α) :
    (channelResponse value a).Erring ok := by
  cases a with
  | ok a => exact erring_ok _
  | fail e =>
    rintro _ _ ⟨⟩
    exact channel e

theorem erring_flushBody (disposed : ok (.disposed .flush)) (channel : ∀ e, ok (.chFail e)) :
    Act.Erring ok (Response.Erring ok) flushBody :=
  erring_getState fun _ => erring_ite (erring_raise disposed)
    (erring_bind erring_transact fun _ => erring_pure (erring_channelResponse channel _ _))

theorem erring_getlenBody (disposed : ok (.disposed .getlen)) (channel : ∀ e, ok (.chFail e)) :
    Act.Erring ok (Response.Erring ok) getlenBody :=
  erring_getState fun _ => erring_ite (erring_raise disposed)
    (erring_bind erring_transact fun _ => erring_pure (erring_channelResponse channel _ _))

theorem erring_unsupported {m : Mnemonic} (disposed : ok (.disposed m)) (unsupportedOp : ok (.unsupportedOp m)) :
    Act.Erring ok (Response.Erring ok) (unsupported m) :=
  erring_getState fun _ => erring_ite (erring_raise disposed) (erring_raise unsupportedOp)

/-- Every selector that is not reserved names a register (10_state.md R33). -/
theorem statReg_of_lt {sel : Byte} (named : sel.toNat < firstReservedSelector) : ∃ r, statReg sel = some r := by
  unfold firstReservedSelector at named
  unfold statReg
  interval_cases sel.toNat <;> exact ⟨_, rfl⟩

/-- An RDSTAT of a register answers it (43_control.md R270). -/
theorem erring_rdstatBody {sel : Byte} (named : sel.toNat < firstReservedSelector) :
    Act.Erring ok (Response.Erring ok) (rdstatBody sel) := by
  obtain ⟨r, reg⟩ := statReg_of_lt named
  refine erring_getState fun _ => ?_
  rw [reg]
  exact erring_pure (erring_ok _)

/-! ### Whole steps -/

/-- A WRITE that gives a next state had LEN bytes of payload. -/
theorem runCommand_of_execWrite {len : U32} (ht : exec (.write len) s = .next t) :
    runCommand noBuffer (writeBody (operandLen len)) s = .next t := by
  have ht : execWrite len s = .next t := ht
  unfold execWrite at ht
  split at ht
  · exact ht
  · cases ht

section
variable {P : State → Prop}

theorem keeps_resumeName (E : BodyEffects P) (len : Nat) (h : HdrFields) (acc : Bytes) :
    Act.Keeps P (resumeName len h acc) :=
  keeps_bind (keeps_readName E.toPortEffects _ _ _) fun _ =>
    keeps_bind (keeps_hdrFromComment E.toParseEffects _ _) fun _ => keeps_readData E.toReadEffects _

theorem keeps_resumeComment (E : BodyEffects P) (len : Nat) (h : HdrFields) (acc : Bytes) :
    Act.Keeps P (resumeComment len h acc) :=
  keeps_bind (keeps_readComment E.toPortEffects _ _ _) fun _ =>
    keeps_bind (keeps_hdrClose E.toParseEffects _) fun _ => keeps_readData E.toReadEffects _

theorem keeps_resumeFinish (E : CloseEffects P) : Act.Keeps P resumeFinish :=
  keeps_bind (keeps_attempt (keeps_writerFinish E.toPushEffects)) fun _ => keeps_teardown E.toTeardownEffects _

end

/-- Every error that `body` raises or answers is in `row`. -/
abbrev Act.InRow (row : Error → Bool) (body : Act Response) : Prop :=
  body.Erring (row · = true) (Response.Erring (row · = true))

section
variable {row : Error → Bool} {buffer : State → Option Bytes} {body : Act Response} {e : Error} {b : Option Bytes}

theorem runCommand_inRow (inRow : body.InRow row) (quiet : Act.Keeps (State.Unanswered s.responses) body)
    (ht : runCommand buffer body s = .next t) (answered : t.responses = s.responses ++ [.err e b]) : row e = true :=
  runCommand_erring inRow quiet ht answered

theorem settle_inRow (idle : s.inFlight = none) (inRow : body.InRow row)
    (quiet : Act.Keeps (State.Unanswered s.responses) body) (ht : settle buffer (body s) = .next t)
    (answered : t.responses = s.responses ++ [.err e b]) : row e = true :=
  settle_erring (inRow s) (quiet s ⟨idle, rfl⟩) ht answered

end

/-- The error answered in the step that begins a command is in its row of the table (R285). -/
theorem exec_mayRaise {i : Instr} {e : Error} {b : Option Bytes} (wf : i.wf = true) (ht : exec i s = .next t)
    (answered : t.responses = s.responses ++ [.err e b]) : mayRaise i e = true := by
  have quiet := unanswered_body s.responses
  cases i with
  | write len =>
    exact runCommand_inRow
      (erring_writeBody (ok := (mayRaise (.write len) · = true)) rfl rfl (fun _ => rfl) (fun _ => rfl) fun _ => rfl)
      (keeps_writeBody quiet _) (runCommand_of_execWrite ht) answered
  | read len =>
    have format : ∀ e, e.kind = .format → mayRaise (.read len) e = true := fun e kind => by simp [mayRaise, kind]
    exact runCommand_inRow
      (erring_readBody (ok := (mayRaise (.read len) · = true)) rfl rfl format (fun _ => rfl) (fun _ => rfl) fun _ => rfl)
      (keeps_readBody quiet _) (runCommand_of_execRead ht) answered
  | flush =>
    exact runCommand_inRow (erring_flushBody rfl fun _ => rfl) (keeps_flushBody quiet.toPortEffects) ht answered
  | close =>
    exact runCommand_inRow (erring_closeBody (fun _ => rfl) (fun _ => rfl) fun _ => rfl)
      (keeps_closeBody quiet.toCloseEffects) ht answered
  | seek offset origin =>
    have ht : execSeek offset origin s = .next t := ht
    rw [execSeek, if_pos wf] at ht
    exact runCommand_inRow (erring_unsupported rfl rfl) (keeps_unsupported _) ht answered
  | getpos => exact runCommand_inRow (erring_unsupported rfl rfl) (keeps_unsupported _) ht answered
  | setpos value => exact runCommand_inRow (erring_unsupported rfl rfl) (keeps_unsupported _) ht answered
  | setlen value => exact runCommand_inRow (erring_unsupported rfl rfl) (keeps_unsupported _) ht answered
  | getlen =>
    exact runCommand_inRow (erring_getlenBody rfl fun _ => rfl) (keeps_getlenBody quiet.toPortEffects) ht answered
  | rdstat sel =>
    exact runCommand_inRow (erring_rdstatBody (of_decide_eq_true wf)) (keeps_rdstatBody _) ht answered

/-- The error answered in a later step of a command is one it can still raise from where it stands. -/
theorem resume_mayRaiseLater {f : InFlight} {e : Error} {b : Option Bytes} (idle : s.inFlight = none)
    (ht : resume f s = .next t) (answered : t.responses = s.responses ++ [.err e b]) : mayRaiseLater f e = true := by
  have quiet := unanswered_body s.responses
  cases f with
  | writeLoop =>
    exact settle_inRow idle (erring_writeLoop (fun _ => rfl) fun _ => rfl) (keeps_writeLoop quiet.toPushEffects) ht
      answered
  | finishLoop =>
    exact settle_inRow idle (erring_resumeFinish (fun _ => rfl) (fun _ => rfl) fun _ => rfl)
      (keeps_resumeFinish quiet.toCloseEffects) ht answered
  | readLoop len room w =>
    exact settle_inRow idle (erring_readLoop (fun _ => rfl) (fun _ => rfl) _ _ _)
      (keeps_readLoop quiet.toReadEffects len room w) ht answered
  | nameLoop len h acc =>
    have format : ∀ e, e.kind = .format → mayRaiseLater (.nameLoop len h acc) e = true := fun e kind => by
      simp [mayRaiseLater, kind]
    exact settle_inRow idle (erring_resumeName (fun _ => rfl) format (fun _ => rfl) (fun _ => rfl) _ _ _)
      (keeps_resumeName quiet len h acc) ht answered
  | commentLoop len h acc =>
    have format : ∀ e, e.kind = .format → mayRaiseLater (.commentLoop len h acc) e = true := fun e kind => by
      simp [mayRaiseLater, kind]
    exact settle_inRow idle (erring_resumeComment (fun _ => rfl) format (fun _ => rfl) (fun _ => rfl) _ _ _)
      (keeps_resumeComment quiet len h acc) ht answered
  | stuck p =>
    cases ht
    simp at answered

end Sys2Proof.Machine

open Sys2Proof Sys2Proof.Machine in
/-- Settles O25: what each part of a command's pseudocode raises or answers is in the command's row, and what is left of
a command in flight raises no more than its later row. -/
theorem errorsByCommand : Obligations.ErrorsByCommand :=
  ⟨fun _ _ _ _ _ => exec_mayRaise, fun _ _ _ _ _ => resume_mayRaiseLater⟩
end

section
/-! Construction, O9 and O10: it refuses one argument and otherwise leaves `State.fresh`; a constructed instance has an
empty record, no response and no direction, which is all the invariants over a run ask of its beginning. -/

namespace Sys2Proof.Machine

/-! ### What CONSTRUCT answers (70_reset_and_hazards.md R320, R322) -/

section
variable {p : Platform} {a : ConstructArgs} {s : State}

theorem construct_eq_none_iff : State.construct p a = none ↔ a.wbSize = some 0 := by
  unfold State.construct
  split <;> simpa

theorem eq_fresh_of_construct (h : State.construct p a = some s) : s = State.fresh p a := by
  unfold State.construct at h
  split at h
  · cases h
  · exact (Option.some.inj h).symm

end

/-! ### What a constructed instance holds, whatever is to come -/

section
variable (p : Platform) (a : ConstructArgs) (cs : List Command) (ports : Ports) (k : Nat)

@[simp] theorem State.loaded_trace : (State.loaded p a cs ports k).trace = [] := rfl
@[simp] theorem State.loaded_inFlight : (State.loaded p a cs ports k).inFlight = none := rfl
@[simp] theorem State.loaded_streamMode : (State.loaded p a cs ports k).streamMode = .undefined := rfl
@[simp] theorem State.loaded_hdrState : (State.loaded p a cs ports k).hdrState = .none := rfl
@[simp] theorem State.loaded_engLive : (State.loaded p a cs ports k).engLive = false := rfl
@[simp] theorem State.loaded_wbLive : (State.loaded p a cs ports k).wbLive = false := rfl

/-- Nothing is taken and nothing is live (R321). -/
theorem releaseInv_loaded : (State.loaded p a cs ports k).ReleaseInv := by
  simp [State.ReleaseInv, boolNumber]

/-- No engine step is on record, so ENG_TOTAL_OUT counts no byte. -/
theorem totalInv_loaded : (State.loaded p a cs ports k).TotalInv := rfl

/-- No transaction is on record to be unsound. -/
theorem soundInv_loaded : (State.loaded p a cs ports k).SoundInv := by
  simp [State.SoundInv]

/-- The clock has not been read (R321). -/
theorem clockInv_loaded : (State.loaded p a cs ports k).ClockInv := by
  simp [State.ClockInv]

/-- With no direction yet, the sink is empty. -/
theorem sinkInv_loaded : (State.loaded p a cs ports k).SinkInv := by
  simp [State.SinkInv, sunk, produced]

/-- The accumulator is at its reset value, the fold over no byte. -/
theorem readerChecksumInv_loaded : (State.loaded p a cs ports k).ReaderChecksumInv :=
  fun _ _ => ⟨rfl, rfl⟩

/-- With no header state yet, nothing has been drawn from the source. -/
theorem drawnInv_loaded : (State.loaded p a cs ports k).DrawnInv := by
  simp [State.DrawnInv, drawn]

end

end Sys2Proof.Machine

open Sys2Proof Sys2Proof.Machine in
/-- Settles O9: construction either refuses or leaves `State.fresh`, which has each register at its reset value. -/
theorem construction : Obligations.Construction := by
  refine ⟨fun _ _ => construct_eq_none_iff, fun p a s h => ?_⟩
  obtain rfl := eq_fresh_of_construct h
  and_intros <;> rfl

open Sys2Proof Sys2Proof.Machine in
/-- Settles O10: invariant by invariant; `State.reset` is the instance loaded with no command and no answer. -/
theorem constructionMeetsInvariants : Obligations.ConstructionMeetsInvariants := by
  refine ⟨rfl, inv_loaded {} .first [] {} 0 (by decide), fun p a cs ports k size => ?_⟩
  exact ⟨inv_loaded p a cs ports k size, releaseInv_loaded p a cs ports k, totalInv_loaded p a cs ports k,
    soundInv_loaded p a cs ports k, clockInv_loaded p a cs ports k, sinkInv_loaded p a cs ports k,
    readerChecksumInv_loaded p a cs ports k, returnInv_loaded p a cs ports k, drawnInv_loaded p a cs ports k⟩
end
